-- ==== Sys2Proof/Word.lean ====
section
/-! DEFINITION. The words, numbers and small names every other file uses: bytes, 32-bit register words, slot, channel
and descriptor numbers, sets of rights, handles, the kinds of error a word of shared DRAM can hold. -/

namespace Sys2Proof

/-- A byte on the link or in shared memory (10.1). -/
abbrev Byte := BitVec 8

/-- A word of the manager's register window (R168). -/
abbrev Word := BitVec 32

/-- A requester's slot number 0..15 (00_scope, Conventions). -/
abbrev Slot := Fin 16

/-- A copy channel's number 0..3 (00_scope, Conventions). -/
abbrev Chan := Fin 4

/-- A descriptor index 0..255; 0 is the null selector (R1). -/
abbrev DIdx := Fin 256

/-- A set of rights in the encoding of 10.1: bit 0 READ, bit 1 WRITE, bit 2 FETCH, bit 3 LOCK. -/
abbrev Rights := BitVec 4

/-- {READ} -/
abbrev Rights.R : Rights := 1
/-- {WRITE} -/
abbrev Rights.W : Rights := 2
/-- {FETCH} -/
abbrev Rights.F : Rights := 4
/-- {LOCK} -/
abbrev Rights.K : Rights := 8

/-- A handle: a descriptor index and a generation (R12). -/
structure Handle where
  gen   : BitVec 8
  index : DIdx
  deriving DecidableEq, Repr

/-- The null handle that a notice carries (R52). R12 lets a null handle have any generation bits; that they are 0 here is the
model's choice (log entry 18). -/
abbrev Handle.null : Handle := ⟨0, 0⟩

/-- What is wrong with one aligned 8-byte word of shared DRAM whose check bits do not agree with it (R72, R73): one of its
64 data bits is in error (bit b%8 of its byte b/8), a check bit is, or the check can detect the error and not correct it. -/
inductive WordErr
  | dataBit (b : Fin 64)
  | checkBit
  | multi
  deriving DecidableEq, Repr

/-- A bit error that has come about in shared DRAM: the number of the aligned 8-byte word it hit and what it did there. -/
structure Upset where
  word : Nat
  err  : WordErr
  deriving DecidableEq, Repr

end Sys2Proof
end

