-- ==== Sys2Proof/Syntax.lean ====
section
/-! DEFINITION. The commands: ONE inductive, one constructor per row of spec/opcode_table.json, in the table's order.
A request row (OPEN .. UNKNOWN_KIND) is the Request Server at work on a request of that kind: it takes the request at the
head of the Request Queue, where the request's fields stand, or goes on with the one it has in service. Its operand says how
many claims of the service the row carries out: none, the default, for all that are left, which is the table's whole step, and
some n for n of them, so that other commands' claims can come before the next (R2, 4.4, log entry 10).
A manager command row has no operand: it is the write of its command code to ENGINE_COMMAND, and its parameters stand in
PARAM0 to PARAM3 (R169). -/

namespace Sys2Proof

inductive Instr
  /-- CONFIRMATION (R157): a message of these bytes is received whole on the slot's position of the link. -/
  | confirmation (slot : Slot) (message : List Byte)
  /-- OPEN (R78): the Request Server serves an OPEN. -/
  | openWindow (claims : Option Nat := none)
  /-- CLOSE (R87) -/
  | closeWindow (claims : Option Nat := none)
  /-- READ (R91) -/
  | read (claims : Option Nat := none)
  /-- WRITE (R91) -/
  | write (claims : Option Nat := none)
  /-- READ_LOCK (R99) -/
  | readLock (claims : Option Nat := none)
  /-- WRITE_UNLOCK (R102) -/
  | writeUnlock (claims : Option Nat := none)
  /-- QUERY (R55) -/
  | query (claims : Option Nat := none)
  /-- START (R111) -/
  | start (claims : Option Nat := none)
  /-- CANCEL (R114) -/
  | cancel (claims : Option Nat := none)
  /-- CHANNEL_STATUS (R136) -/
  | channelStatus (claims : Option Nat := none)
  /-- UNKNOWN_KIND (R161) -/
  | unknownKind (claims : Option Nat := none)
  /-- BURST_COMPLETE (R70): the granted burst completes; the upsets are the bit errors that have come about in shared DRAM
  since the burst before it (R72, R73 say what they do; what causes them is outside the part). -/
  | burstComplete (upsets : List Upset)
  /-- FORCE_ABORT_CLAIM (R133): the channel takes the abort claim of a RETIRE FORCE that noted it. -/
  | forceAbortClaim (channel : Chan)
  /-- INTERLOCK_EXPIRY (R101): the interlock timer reaches the expiry of this descriptor's interlock. -/
  | interlockExpiry (index : DIdx)
  /-- PRESENT_RISE (R142) -/
  | presentRise (slot : Slot)
  /-- PRESENT_FALL (R142) -/
  | presentFall (slot : Slot)
  /-- INIT (R167): the INIT line becomes asserted. -/
  | init
  /-- INIT_RELEASE (R166) -/
  | initRelease
  /-- RESET (R183): the RESET pin becomes asserted. -/
  | reset
  /-- RESET_RELEASE (R183) -/
  | resetRelease
  /-- CREATE (R20) -/
  | create
  /-- MODIFY (R22) -/
  | modify
  /-- SET_ABSENT (R26) -/
  | setAbsent
  /-- SET_VALID (R27) -/
  | setValid
  /-- RETIRE (R28) -/
  | retire
  /-- READ_DESCRIPTOR (R32) -/
  | readDescriptor
  /-- READ_OPENER (R33) -/
  | readOpener
  /-- PROBE (R89) -/
  | probe
  /-- MAP_WRITE (R64) -/
  | mapWrite
  /-- MAP_FILL (R65) -/
  | mapFill
  /-- MAP_CLEAR (R66) -/
  | mapClear
  /-- MAP_READ (R67) -/
  | mapRead
  /-- REQUESTER_SET (R141) -/
  | requesterSet
  /-- FILTER_SET (R173) -/
  | filterSet
  /-- REQUESTER_READ (R154) -/
  | requesterRead
  /-- READMIT (R153) -/
  | readmit
  /-- CHANNEL_READ (R137) -/
  | channelRead
  /-- CHANNEL_ABORT (R132) -/
  | channelAbort
  /-- CHANNEL_RESUME (R129) -/
  | channelResume
  /-- FAULT_ACK (R182) -/
  | faultAck
  /-- SET_LOCK_TIMEOUT (R174) -/
  | setLockTimeout
  /-- LINK_RESET (R175) -/
  | linkReset
  /-- DEVICE_RESET (R176) -/
  | deviceReset
  /-- UNKNOWN_COMMAND (R169): the write of a command code that the table of 10.8 does not name. -/
  | unknownCommand (code : Byte)
  /-- ENGINE_STATUS (R170): a read of ENGINE_STATUS. -/
  | engineStatus
  /-- ATTN_PENDING (R179): a write of ATTN_PENDING. -/
  | attnPending (value : Word)
  /-- ATTN_ENABLE (R178): a write of ATTN_ENABLE. -/
  | attnEnable (value : Word)
  /-- REGISTER_WRITE (R168): a write at any other offset of the register window. -/
  | registerWrite (offset : Nat) (value : Word)
  deriving DecidableEq, Repr

end Sys2Proof
end

