-- ==== Sys2Proof/Decode.lean ====
section
/-! DEFINITION. The command that a word spells by the opcode table's bits. No row of spec/opcode_table.json gives bits
(every row's "fields" is empty and none has "fixed"), so no word spells a command. -/

namespace Sys2Proof

/-- The command the w of nbits bits spells by the table's bits: none, for the table gives no row bits. -/
def decodeTableWord (_nbits _w : Nat) : Option Instr := none

end Sys2Proof
end

