-- ==== Sys2Proof/Config.lean ====
section
/-! DEFINITION. What the manual leaves to the implementation or to chance: the free values of a write burst that a device
reset cuts (R74), and the constants the manual does fix. The size of the installed DRAM bank (R57) is a field of State. -/

namespace Sys2Proof

/-- FREE VALUE (R74, log entry 3): whether byte address a of a write burst cut by the k-th device reset holds its new value
("either its old value or its new value, byte by byte, with no rule for which"). -/
opaque Config.cutTakesNew : (k a : Nat) → Bool

/-- FREE VALUE (R74, log entry 3): how the check bits of word w, begun by a write burst that the k-th device reset cut, then
disagree with its bytes (none: they agree). -/
opaque Config.cutWordError : (k w : Nat) → Option WordErr

/-- Bytes in a frame and in a full page (R57, R58). -/
abbrev Config.frameBytes : Nat := 4096

/-- Frames of the largest bank, 512 MiB (R57). -/
abbrev Config.maxFrames : Nat := 131072

/-- Aligned 8-byte words of the largest bank (R71: a frame holds 512). -/
abbrev Config.maxWords : Nat := 67108864

/-- Longest window (R3). -/
abbrev Config.maxLength : Nat := 8388608

/-- Highest offset (R38). -/
abbrev Config.maxOffset : Nat := 8388607

/-- Largest MOVE count (R117). -/
abbrev Config.maxCount : Nat := 1048576

/-- Map entries (R57). -/
abbrev Config.mapEntries : Nat := 2048

/-- Entries of the Request Queue (R159). -/
abbrev Config.queuePlaces : Nat := 32

/-- Requests one slot may have outstanding (R159). -/
abbrev Config.credit : Nat := 4

/-- The interlock timeout after a device reset, in µs (R174). -/
abbrev Config.resetTimeout : Nat := 1000

end Sys2Proof
end

