-- ==== Sys2Proof/Machine/State.lean ====
section
/-! DEFINITION. The state of the CV-2416, block by block, as plain data; the machine right after a device reset; the reasons
a step can stop; and one setter for each part that the operations change. -/

namespace Sys2Proof.Machine

/-! ### Window Table (chapter 1) -/

/-- The four descriptor states (R8). -/
inductive DState | free | valid | absent | retiring
  deriving DecidableEq, Repr

/-- The three descriptor types (R4). -/
inductive DType | data | list | gate
  deriving DecidableEq, Repr

/-- One descriptor record, every field of the table of R3. -/
structure Descriptor where
  state         : DState
  gen           : BitVec 8
  dtype         : DType
  tag           : BitVec 16
  level         : Fin 4
  rights        : Rights
  mapStart      : Nat
  firstOffset   : Nat
  length        : Nat
  targetIndex   : DIdx
  targetGen     : BitVec 8
  gateOffset    : Nat
  gateLength    : Nat
  /-- the opener set: a slot's granted rights, or none where it is no opener (R13) -/
  openers       : Vector (Option Rights) 16
  pins          : Nat
  holder        : Option Slot
  /-- the time in µs at which the interlock expires; present while a holder is present (R15) -/
  expiry        : Option Nat
  expiredHolder : Option Slot
  deriving DecidableEq, Repr

/-- A descriptor's values after a device reset (R34). -/
def Descriptor.reset : Descriptor where
  state := .free
  gen := 0
  dtype := .data
  tag := 0
  level := 0
  rights := 0
  mapStart := 0
  firstOffset := 0
  length := 0
  targetIndex := 0
  targetGen := 0
  gateOffset := 0
  gateLength := 0
  openers := Vector.replicate 16 none
  pins := 0
  holder := none
  expiry := none
  expiredHolder := none

/-! ### Page Map and Memory Port (chapter 3) -/

/-- One map entry (R57). -/
structure MapEntry where
  valid : Bool
  frame : Nat
  deriving DecidableEq, Repr

/-- One burst: a read of n bytes, or a write of these bytes, at consecutive physical addresses from addr (R60). -/
inductive Burst
  | read (addr n : Nat)
  | write (addr : Nat) (bytes : List Byte)
  deriving DecidableEq, Repr

/-- The status a burst completes with (R71). -/
inductive BurstStatus | good | corrected | uncorrectable
  deriving DecidableEq, Repr

/-- The five claimants of the Memory Port in ring order: 0 is the Request Server, n + 1 is CHn (R69). -/
abbrev Claimant := Fin 5

/-- The Request Server as a claimant. -/
abbrev Claimant.rs : Claimant := 0

/-- Channel c as a claimant. -/
abbrev Claimant.ch (c : Chan) : Claimant := c.succ

/-- The Memory Port (R69, R70, R72) -/
structure Port where
  /-- each claimant's burst that waits for its grant (R70: at most one) -/
  waiting         : Vector (Option Burst) 5
  /-- the burst that has the DRAM, with its claimant -/
  granted         : Option (Claimant × Burst)
  /-- the round-robin pointer: the last claimant granted (R69) -/
  pointer         : Claimant
  /-- the correctable-error latch, read at CORRECTED_LATCH (R72) -/
  correctedLatch  : Nat
  /-- the frames of the installed DRAM bank, which the port knows (R57) -/
  installedFrames : Nat
  deriving DecidableEq, Repr

/-! ### Result codes (10.10) -/

/-- The result codes of 10.10. -/
inductive Code
  | ok | nullHandle | staleHandle | notOpen | notFound | level | rights | range | absent | retiring | mapHole | gateTarget
  | lockBusy | notHolder | lockLost | limited | badRequest | channelBusy | wrongType | listFormat | listLoop | aborted
  | ownerGone | ownerBarred | memoryError | barred | disabled | lockExpired
  | notFree | noSpace | badField | badState | pinned | badIndex
  deriving DecidableEq, Repr

/-! ### Standing Unit (chapter 7) -/

/-- The four standings (R144). -/
inductive Standing | good | warned | limited | barred
  deriving DecidableEq, Repr

/-- A visibility filter (R76). -/
structure Filter where
  enabled : Bool
  value   : BitVec 16
  mask    : BitVec 16
  deriving DecidableEq, Repr

/-- A requester record, every field of the table of R140. -/
structure Requester where
  enabled     : Bool
  present     : Bool
  level       : Fin 4
  filters     : Vector Filter 4
  score       : Nat
  standing    : Standing
  outstanding : Nat
  deriving DecidableEq, Repr

/-- A requester's values after a device reset, but for present, which follows the line (R140). -/
def Requester.reset (present : Bool) : Requester where
  enabled := false
  present := present
  level := 3
  filters := Vector.replicate 4 ⟨false, 0, 0⟩
  score := 0
  standing := .good
  outstanding := 0

/-! ### Requester Link (chapter 8) -/

/-- The fields of an accepted request, as received (R155, R184): bytes whose range is judged at service stay bytes. -/
inductive ReqBody
  | openWindow (tag : BitVec 16) (wanted : Byte)
  | closeWindow (handle : Handle)
  | read (handle : Handle) (offset : Nat) (length : Byte)
  | write (handle : Handle) (offset : Nat) (data : List Byte)
  | readLock (handle : Handle) (offset : Nat) (length : Byte)
  | writeUnlock (handle : Handle) (offset : Nat) (data : List Byte)
  | query (handle : Handle)
  | start (channel : Byte) (handle : Handle) (offset : Nat)
  | cancel (channel : Byte)
  | channelStatus (channel : Byte)
  | unknown (code : Byte)
  deriving DecidableEq, Repr

/-- An entry of the Request Queue (R159). -/
structure Request where
  slot : Slot
  tag  : BitVec 3
  body : ReqBody
  deriving DecidableEq, Repr

/-- The three confirmations (R157). -/
inductive Confirmation | accept | busy | refuse
  deriving DecidableEq, Repr

/-- A reply message (R162). -/
structure Reply where
  slot    : Slot
  tag     : BitVec 3
  code    : Code
  payload : List Byte
  deriving DecidableEq, Repr

/-- What the part sends on the link. -/
inductive LinkMsg
  | confirmation (slot : Slot) (c : Confirmation)
  | reply (r : Reply)
  deriving DecidableEq, Repr

/-! ### Request Server (chapter 5) -/

/-- What a passing resolution returns (R45). -/
structure Resolved where
  index      : DIdx
  target     : Option DIdx
  rights     : Rights
  base       : DIdx
  baseOffset : Nat
  length     : Nat
  deriving DecidableEq, Repr

/-- What becomes of the in-service request's reply (R90). -/
inductive Disposition | send | discard | disabled | barred
  deriving DecidableEq, Repr

/-- The three causes of a teardown (7.4). -/
inductive TeardownCause | departure | disable | barring
  deriving DecidableEq, Repr

/-- The running verdict of an OPEN search (R78). -/
inductive RunningVerdict | notFound | level | rights
  deriving DecidableEq, Repr

/-- The state of an OPEN search, held while the OPEN is in service (R78). -/
structure Search where
  tag     : BitVec 16
  wanted  : Rights
  /-- the slot's level and filters, read once at the search's start -/
  level   : Fin 4
  filters : Vector Filter 4
  /-- the next index to examine -/
  next    : DIdx
  verdict : RunningVerdict
  deriving DecidableEq, Repr

/-- Where the service of a request stands between two of its claims (R78, R91, R111). -/
inductive Stage
  /-- taken from the queue; the first check of its kind is next -/
  | begun
  /-- the standing check is passed: next an OPEN's fields and its read of level and filters (R78, R161), or the resolution of
  a direct access or a START (R93, R111) -/
  | checked
  /-- the next examination of an OPEN search (R79) -/
  | search (k : Search)
  /-- a direct access has passed stage 3; its translation is next (R94) -/
  | translation
  /-- a START has passed its resolution; its slot claim is next (R112) -/
  | slotClaim
  /-- a burst of a direct access waits or is granted (R95) -/
  | bursts
  /-- the service has reached this result; the claim that ends it is next (R90) -/
  | ending (code : Code) (payload : List Byte)
  deriving DecidableEq, Repr

/-- The in-service record (R90), and where the service stands. -/
structure InService where
  request     : Request
  stage       : Stage
  resolved    : Option Resolved
  /-- the pins its resolution placed: the descriptor named and then a gate's target -/
  pins        : List DIdx
  disposition : Disposition
  /-- the teardown answers held behind the request, in acceptance order (R90, R150) -/
  held        : List (BitVec 3 × Code)
  /-- a link reset has detached the request from the link (R160) -/
  detached    : Bool
  /-- the disposition SEND was kept for the request's own violation, which barred its slot (R147, R152) -/
  sendKept    : Bool
  /-- the request is a READ_LOCK that took or renewed the interlock (R103) -/
  lockTaken   : Bool
  /-- the bursts still to request after the one that waits or is granted (R95) -/
  rest        : List Burst
  /-- the bytes its completed read bursts returned -/
  data        : List Byte
  deriving DecidableEq, Repr

/-! ### Copy Channels (chapter 6) -/

/-- The five channel states (R110). -/
inductive ChanState | idle | fetch | move | halting | stopped
  deriving DecidableEq, Repr

/-- The kinds of channel event (R127). -/
inductive EventKind | ended | fault | stop | aborted
  deriving DecidableEq, Repr

/-- What a pin of a primary slot was placed for (R109). -/
inductive Purpose | list | source | sourceTarget | destination | destinationTarget | completion | completionTarget
  deriving DecidableEq, Repr

/-- A pin of a primary slot (R109). -/
structure ChanPin where
  index   : DIdx
  purpose : Purpose
  deriving DecidableEq, Repr

/-- A decoded step (R109). -/
inductive Step
  | move (src : Handle) (srcOffset : Nat) (dst : Handle) (dstOffset count : Nat) (fill : Byte) (last down : Bool)
  | jump (target : Nat)
  | halt (completion : Handle) (offset : Nat)
  deriving DecidableEq, Repr

/-- The codes of an ending mark (R109). -/
inductive MarkCode | aborted | ownerGone | ownerBarred
  deriving DecidableEq, Repr

/-- An ending mark with the owner it was set for (R109). -/
structure Mark where
  code  : MarkCode
  owner : Slot
  deriving DecidableEq, Repr

/-- Where a channel stands in its work between two of its bursts. The first five are work that the channel takes up at once;
in the next three it has a burst waiting or granted; STOPPED waits for the manager. -/
inductive Work
  /-- the promotion checks of R115 -/
  | promote
  /-- the re-check and fetch of R116 -/
  | fetch
  /-- the list re-check of CHANNEL_RESUME (R129) -/
  | resume
  /-- the resolution of the current step's handles (R119, R125, R129) -/
  | resolve
  /-- the next transfer unit of a MOVE (R120) -/
  | unit
  /-- the translation and first burst of a completion record (R125) -/
  | record
  /-- a step fetch's burst is out; the reads still to request, and the bytes read -/
  | fetchBurst (rest : List Burst) (got : List Byte)
  /-- a unit's read burst of n bytes is out; the physical address its write burst goes to -/
  | unitRead (n dst : Nat)
  /-- a unit's write burst of n bytes is out -/
  | unitWrite (n : Nat)
  /-- a completion record's write burst is out; the writes still to request -/
  | recordBurst (rest : List Burst)
  /-- STOPPED (R128) -/
  | stopped
  deriving DecidableEq, Repr

/-- An occupied primary slot (R109). The list index is the index of the list handle. -/
structure Primary where
  /-- none after a teardown of the owner has been taken (R134) -/
  owner      : Option Slot
  handle     : Handle
  offset     : Nat
  step       : Option Step
  bytesDone  : Nat
  total      : BitVec 32
  jumps      : Nat
  pins       : List ChanPin
  mark       : Option Mark
  /-- the resolved windows of the current step, kept as R45 states -/
  source     : Option Resolved
  dest       : Option Resolved
  completion : Option Resolved
  /-- a RETIRE FORCE has noted this run, and its abort claim has not been taken (R133) -/
  noted      : Bool
  work       : Work
  deriving DecidableEq, Repr

/-- An occupied backup slot (R108). -/
structure Backup where
  owner  : Slot
  handle : Handle
  offset : Nat
  deriving DecidableEq, Repr

/-- The last outcome (R108). -/
structure ListOutcome where
  valid     : Bool
  owner     : Slot
  listIndex : DIdx
  code      : Code
  total     : BitVec 32
  offset    : Nat
  deriving DecidableEq, Repr

/-- A channel record (R108). -/
structure Channel where
  state   : ChanState
  primary : Option Primary
  backup  : Option Backup
  outcome : ListOutcome
  event   : Option EventKind
  deriving DecidableEq, Repr

/-- A channel after a device reset (R138). -/
def Channel.reset : Channel where
  state := .idle
  primary := none
  backup := none
  outcome := ⟨false, 0, 0, .ok, 0, 0⟩
  event := none

/-! ### Manager Port (chapter 9) -/

/-- What keeps a BUSY engine from completing (R172). -/
inductive Wait
  /-- nothing: the command completes in its own claim -/
  | claim
  /-- RETIRE FORCE: this descriptor's entry into FREE -/
  | retire (index : DIdx)
  /-- CHANNEL_ABORT: the end of this channel's marked list -/
  | abort (channel : Chan)
  /-- LINK_RESET: the ends of these channels' lists, and of the detached request's service if the mark says so -/
  | link (lists : Vector Bool 4) (detached : Bool)
  deriving DecidableEq, Repr

/-- IDLE or BUSY (R169). -/
inductive EngineState
  | idle
  | busy (w : Wait)
  deriving DecidableEq, Repr

/-- The Command Engine (R169 to R174). -/
structure Engine where
  state     : EngineState
  /-- PARAM0 to PARAM3 -/
  params    : Vector Word 4
  /-- RESULT0 to RESULT3 -/
  results   : Vector Word 4
  lastCode  : Code
  overrun   : Bool
  /-- the command record: the code and the copies of PARAM0 to PARAM3 of the command taken last (R169) -/
  command   : Byte
  copies    : Vector Word 4
  /-- the interlock timeout setting in µs (R174) -/
  timeout   : Nat
  deriving DecidableEq, Repr

/-- The Command Engine after a device reset (R169, R174); its command record is 0 (log entry 2). -/
def Engine.reset : Engine where
  state := .idle
  params := Vector.replicate 4 0
  results := Vector.replicate 4 0
  lastCode := .ok
  overrun := false
  command := 0
  copies := Vector.replicate 4 0
  timeout := Config.resetTimeout

/-- The fault record (R181); source none is LINK. -/
structure FaultRecord where
  valid  : Bool
  lost   : Bool
  reason : Code
  slot   : Slot
  source : Option Chan
  handle : Handle
  offset : Nat
  deriving DecidableEq, Repr

/-- The empty fault record (R181). -/
def FaultRecord.empty : FaultRecord := ⟨false, false, .ok, 0, none, Handle.null, 0⟩

/-- The Attention Unit (R177), bit n - 1 for cause n; CORRECTED_LATCH is the Memory Port's. -/
structure Attention where
  pending       : BitVec 12
  enable        : BitVec 12
  standingLatch : Slot
  absentLatch   : DIdx
  holeLatch     : Nat
  lockLatch     : DIdx
  retireLatch   : DIdx
  goneLatch     : Slot
  fault         : FaultRecord
  deriving DecidableEq, Repr

/-- The Attention Unit after a device reset (R177, R181). -/
def Attention.reset : Attention := ⟨0, 0, 0, 0, 0, 0, 0, 0, FaultRecord.empty⟩

/-- The lines that come into the part: the sixteen PRESENT lines, INIT and RESET, true where high or asserted
(00_scope, Connections). The attention line goes out and is computed (R178). -/
structure Lines where
  present : Vector Bool 16
  init    : Bool
  reset   : Bool
  deriving DecidableEq, Repr

/-! ### The whole part -/

@[ext]
structure State where
  /-- the Window Table's records, index 0 the null selector (R1) -/
  wt        : Vector Descriptor 256
  /-- the Page Map (R57) -/
  pm        : Vector MapEntry 2048
  /-- the Memory Port (R69) -/
  port      : Port
  /-- shared DRAM as stored, by byte address, in the canonical form of Memory.wf; an unlisted byte reads 0 (log entry 4) -/
  mem       : List Host.Cell
  /-- the words of shared DRAM whose check bits do not agree with their bytes, by word number (R72) -/
  ecc       : List (Nat × WordErr)
  /-- the requester records (R140) -/
  su        : Vector Requester 16
  /-- the Request Queue, oldest first (R159) -/
  rq        : List Request
  /-- the Request Server: none is IDLE (R90) -/
  server    : Option InService
  /-- the copy channels (R108) -/
  chans     : Vector Channel 4
  /-- the Command Engine -/
  engine    : Engine
  /-- the Attention Unit -/
  attn      : Attention
  /-- MODEL'S OWN: what the part has sent on the link, oldest first (log entry 5) -/
  linkOut   : List LinkMsg
  /-- MODEL'S OWN: the value the last register read of the manager returned (log entry 5) -/
  busRead   : Word
  /-- the lines into the part -/
  lines     : Lines
  /-- the time in µs that interlock expiries are measured in (R98, log entry 6) -/
  now       : Nat
  /-- MODEL'S OWN: device resets taken, which index the free values of cut write bursts (log entry 3) -/
  cuts      : Nat
  /-- MODEL'S OWN: the turns in which channels take up ready work, set from outside like `pending`: a channel's number gives it
  the next piece, none leaves the rest to a later step; past the list's end every piece is the lowest ready channel's
  (log entry 20) -/
  turns     : List (Option Chan)
  /-- the commands that wait to be taken, first in first out -/
  pending   : List Instr
  deriving DecidableEq, Repr

/-- A step of this model never faults: the manual gives every command an effect in every state (log entry 1). -/
inductive Fault
  deriving DecidableEq, Repr

/-- Why a command has no meaning here. -/
inductive Refusal
  /-- raised by exec's arm of a command that has no meaning yet; safe, for nothing can be proved of a run through it -/
  | notModelled (mnemonic : String)
  deriving DecidableEq, Repr

/-- The part right after a device reset, its RESET pin released: chapter 9.5's table. The installed bank is the largest
(log entry 2), no board is present (log entry 2) and shared DRAM lists nothing (log entry 4). -/
def State.reset : State where
  wt := Vector.replicate 256 Descriptor.reset
  pm := Vector.replicate 2048 ⟨false, 0⟩
  port := ⟨Vector.replicate 5 none, none, Claimant.rs, 0, Config.maxFrames⟩
  mem := []
  ecc := []
  su := Vector.replicate 16 (Requester.reset false)
  rq := []
  server := none
  chans := Vector.replicate 4 Channel.reset
  engine := Engine.reset
  attn := Attention.reset
  linkOut := []
  busRead := 0
  lines := ⟨Vector.replicate 16 false, false, false⟩
  now := 0
  cuts := 0
  turns := []
  pending := []

namespace State

/-- Change the record of descriptor i. -/
def updDesc (s : State) (i : DIdx) (f : Descriptor → Descriptor) : State := { s with wt := s.wt.set i (f s.wt[i]) }
/-- Replace the whole Window Table. -/
def setWt (s : State) (wt : Vector Descriptor 256) : State := { s with wt := wt }
/-- Replace the whole Page Map. -/
def setPm (s : State) (pm : Vector MapEntry 2048) : State := { s with pm := pm }
/-- Replace the Memory Port. -/
def setPort (s : State) (p : Port) : State := { s with port := p }
/-- Replace what shared DRAM stores. -/
def setMem (s : State) (m : List Host.Cell) : State := { s with mem := m }
/-- Replace the list of words in error. -/
def setEcc (s : State) (e : List (Nat × WordErr)) : State := { s with ecc := e }
/-- Change the record of a slot. -/
def updSlot (s : State) (i : Slot) (f : Requester → Requester) : State := { s with su := s.su.set i (f s.su[i]) }
/-- Replace all requester records. -/
def setSu (s : State) (su : Vector Requester 16) : State := { s with su := su }
/-- Replace the Request Queue. -/
def setRq (s : State) (q : List Request) : State := { s with rq := q }
/-- Replace the in-service record. -/
def setServer (s : State) (r : Option InService) : State := { s with server := r }
/-- Change the record of a channel. -/
def updChan (s : State) (c : Chan) (f : Channel → Channel) : State := { s with chans := s.chans.set c (f s.chans[c]) }
/-- Replace the Command Engine. -/
def setEngine (s : State) (e : Engine) : State := { s with engine := e }
/-- Replace the Attention Unit. -/
def setAttn (s : State) (a : Attention) : State := { s with attn := a }
/-- Send a message on the link. -/
def send (s : State) (m : LinkMsg) : State := { s with linkOut := s.linkOut ++ [m] }
/-- Return a value to the manager's register read. -/
def setBusRead (s : State) (w : Word) : State := { s with busRead := w }
/-- Replace the levels of the incoming lines. -/
def setLines (s : State) (l : Lines) : State := { s with lines := l }
/-- Let the time be t. -/
def setNow (s : State) (t : Nat) : State := { s with now := t }
/-- Replace the turns of the channels' work. -/
def setTurns (s : State) (l : List (Option Chan)) : State := { s with turns := l }
/-- Replace the queue of waiting commands. -/
def setPending (s : State) (q : List Instr) : State := { s with pending := q }

end State

end Sys2Proof.Machine
end

