-- ==== Sys2Proof/Machine/Operands.lean ====
section
/-! DEFINITION. The operand forms: how request messages, list steps and command parameters are read from their bytes and
words, and how replies, records and result words are laid out (chapter 10). -/

namespace Sys2Proof.Machine

/-! ### Common encodings (10.1) -/

/-- The number that bytes spell, most significant byte first (10.1). -/
def beNat (bytes : List Byte) : Nat := bytes.foldl (fun n b => n * 256 + b.toNat) 0

/-- The k low bytes of a number, most significant first (10.1). -/
def beBytes : (k n : Nat) → List Byte
  | 0, _ => []
  | k + 1, n => BitVec.ofNat 8 (n / 256 ^ k) :: beBytes k n

/-- A descriptor index from the low eight bits of a number. -/
def idxOf (n : Nat) : DIdx := Fin.ofNat 256 n

/-- A handle from its two bytes: the generation is the first (10.1). -/
def handleOf (g i : Byte) : Handle := ⟨g, idxOf i.toNat⟩

/-- A handle as a 16-bit number: bits 15..8 generation, bits 7..0 index (10.1). -/
def handleNat (h : Handle) : Nat := h.gen.toNat * 256 + h.index.val

/-- A rights byte whose bits 7..4 are clear names a set of rights (10.1). -/
def rightsOf (b : Nat) : Option Rights := if b < 16 then some (BitVec.ofNat 4 b) else none

/-- The codes of 10.10. -/
def Code.toNat : Code → Nat
  | .ok => 0x00 | .nullHandle => 0x01 | .staleHandle => 0x02 | .notOpen => 0x03 | .notFound => 0x04 | .level => 0x05
  | .rights => 0x06 | .range => 0x07 | .absent => 0x08 | .retiring => 0x09 | .mapHole => 0x0A | .gateTarget => 0x0B
  | .lockBusy => 0x0C | .notHolder => 0x0D | .lockLost => 0x0E | .limited => 0x0F | .badRequest => 0x10
  | .channelBusy => 0x11 | .wrongType => 0x12 | .listFormat => 0x13 | .listLoop => 0x14 | .aborted => 0x15
  | .ownerGone => 0x16 | .ownerBarred => 0x17 | .memoryError => 0x18 | .barred => 0x19 | .disabled => 0x1A
  | .lockExpired => 0x1B | .notFree => 0x20 | .noSpace => 0x21 | .badField => 0x22 | .badState => 0x23
  | .pinned => 0x24 | .badIndex => 0x25

/-- 0 FREE, 1 VALID, 2 ABSENT, 3 RETIRING (10.1) -/
def DState.toNat : DState → Nat
  | .free => 0 | .valid => 1 | .absent => 2 | .retiring => 3

/-- 0 DATA, 1 LIST, 2 GATE (10.1) -/
def DType.toNat : DType → Nat
  | .data => 0 | .list => 1 | .gate => 2

/-- 0 GOOD, 1 WARNED, 2 LIMITED, 3 BARRED (10.1) -/
def Standing.toNat : Standing → Nat
  | .good => 0 | .warned => 1 | .limited => 2 | .barred => 3

/-- 0 IDLE, 1 FETCH, 2 MOVE, 3 HALTING, 4 STOPPED (10.1) -/
def ChanState.toNat : ChanState → Nat
  | .idle => 0 | .fetch => 1 | .move => 2 | .halting => 3 | .stopped => 4

/-- 0 none, 1 END, 2 FAULT, 3 STOP, 4 ABORTED (10.1) -/
def EventKind.toNat : Option EventKind → Nat
  | none => 0 | some .ended => 1 | some .fault => 2 | some .stop => 3 | some .aborted => 4

/-- 0 none, 1 ABORTED, 2 OWNER_GONE, 3 OWNER_BARRED (10.9) -/
def MarkCode.toNat : Option MarkCode → Nat
  | none => 0 | some .aborted => 1 | some .ownerGone => 2 | some .ownerBarred => 3

/-- A slot in a byte, 0xFF for none (10.1). -/
def slotByte (o : Option Slot) : Nat := o.elim 0xFF (·.val)

/-- A slot in a 5-bit register field, 0x1F for none (10.1). -/
def slotField (o : Option Slot) : Nat := o.elim 0x1F (·.val)

/-! ### Request messages (10.2, R184) -/

/-- The exclusive-or of all bytes of a message (R184). -/
def parity (bytes : List Byte) : Byte := bytes.foldl (· ^^^ ·) 0

/-- The fields of a WRITE or WRITE_UNLOCK after its tag byte: n data bytes and the parity byte must fill the rest exactly
(R184). -/
def parseData (mk : Handle → Nat → List Byte → ReqBody) : List Byte → Option ReqBody
  | g :: i :: o2 :: o1 :: o0 :: n :: rest =>
    if rest.length = n.toNat + 1 then some (mk (handleOf g i) (beNat [o2, o1, o0]) (rest.take n.toNat)) else none
  | _ => none

/-- The fields of a message after its kind and tag bytes, its parity byte last: none where the bytes fall short of the kind's
layout or overrun it (R156, R184). -/
def parseBody (kind : Byte) (bytes : List Byte) : Option ReqBody :=
  match kind.toNat, bytes with
  | 0x01, [t1, t0, w, _] => some (.openWindow (BitVec.ofNat 16 (beNat [t1, t0])) w)
  | 0x01, _ => none
  | 0x02, [g, i, _] => some (.closeWindow (handleOf g i))
  | 0x02, _ => none
  | 0x03, [g, i, o2, o1, o0, n, _] => some (.read (handleOf g i) (beNat [o2, o1, o0]) n)
  | 0x03, _ => none
  | 0x04, bs => parseData .write bs
  | 0x05, [g, i, o2, o1, o0, n, _] => some (.readLock (handleOf g i) (beNat [o2, o1, o0]) n)
  | 0x05, _ => none
  | 0x06, bs => parseData .writeUnlock bs
  | 0x07, [g, i, _] => some (.query (handleOf g i))
  | 0x07, _ => none
  | 0x08, [c, g, i, o2, o1, o0, _] => some (.start c (handleOf g i) (beNat [o2, o1, o0]))
  | 0x08, _ => none
  | 0x09, [c, _] => some (.cancel c)
  | 0x09, _ => none
  | 0x0A, [c, _] => some (.channelStatus c)
  | 0x0A, _ => none
  | _, [_] => some (.unknown kind)
  | _, _ => none

/-- A readable message, its tag byte's bits 2..0 and its fields; none where it is badly framed or fails parity (R156). -/
def parseMessage (bytes : List Byte) : Option (BitVec 3 × ReqBody) :=
  match bytes with
  | kind :: tag :: rest =>
    if parity bytes = 0 then (parseBody kind rest).map fun b => (BitVec.ofNat 3 tag.toNat, b) else none
  | _ => none

/-! ### Reply messages and records (10.3, 10.4, 10.6) -/

/-- The bytes of a reply on the link (10.3). -/
def Reply.bytes (r : Reply) : List Byte :=
  let body := BitVec.ofNat 8 r.slot.val :: BitVec.ofNat 8 r.tag.toNat :: BitVec.ofNat 8 r.code.toNat ::
    BitVec.ofNat 8 r.payload.length :: r.payload
  body ++ [parity body]

/-- The payload of an OPEN answered OK: the handle (10.3). -/
def handleBytes (h : Handle) : List Byte := beBytes 2 (handleNat h)

/-- A descriptor's window length: the length field, or the gate length of a gate (R7). -/
def Descriptor.windowLength (d : Descriptor) : Nat := if d.dtype = .gate then d.gateLength else d.length

/-- The query record of an asker that holds these effective rights (10.4, R163). -/
def queryRecord (d : Descriptor) (asker : Slot) (effective : Rights) : List Byte :=
  [BitVec.ofNat 8 d.state.toNat, BitVec.ofNat 8 d.dtype.toNat, d.gen, BitVec.ofNat 8 effective.toNat] ++
    beBytes 3 d.windowLength ++
    [BitVec.ofNat 8 (d.level.val + if d.holder = some asker then 128 else 0)]

/-- The channel status record (10.4, R164). -/
def channelStatusRecord (c : Channel) : List Byte :=
  [BitVec.ofNat 8 c.state.toNat, BitVec.ofNat 8 (slotByte (c.primary.bind (·.owner))),
    BitVec.ofNat 8 (c.primary.elim 0 (·.handle.index.val))] ++
  beBytes 3 (c.primary.elim 0 (·.offset)) ++
  beBytes 3 (c.primary.elim 0 fun p => if p.step.isSome then p.bytesDone else 0) ++
  beBytes 4 (c.primary.elim 0 (·.total.toNat)) ++
  [BitVec.ofNat 8 (slotByte (c.backup.map (·.owner))), if c.outcome.valid then 1 else 0,
    BitVec.ofNat 8 c.outcome.owner.val, BitVec.ofNat 8 c.outcome.listIndex.val, BitVec.ofNat 8 c.outcome.code.toNat] ++
  beBytes 4 c.outcome.total.toNat ++ beBytes 3 c.outcome.offset

/-- The completion record a HALT writes (10.6, R125). -/
def completionRecord (total : BitVec 32) (offset : Nat) (c : Chan) (owner : Slot) : List Byte :=
  beBytes 4 total.toNat ++ beBytes 3 offset ++ [BitVec.ofNat 8 (c.val * 16 + owner.val)]

/-! ### The transfer list step (10.5, R117) -/

/-- A MOVE whose fields lie in their ranges (R117). -/
def decodeMove (flags : Byte) (src : Handle) (srcOff : Nat) (fill : Byte) (dst : Handle) (dstOff count : Nat) :
    Option Step :=
  if flags.toNat < 4 ∧ srcOff ≤ Config.maxOffset ∧ dstOff ≤ Config.maxOffset ∧ 1 ≤ count ∧ count ≤ Config.maxCount then
    some (.move src srcOff dst dstOff count fill (flags.getLsbD 0) (flags.getLsbD 1))
  else none

/-- The step that sixteen bytes spell; none where R117 ends the list LIST_FORMAT. -/
def decodeStep : List Byte → Option Step
  | [kind, flags, b2, b3, b4, b5, b6, b7, b8, b9, b10, b11, b12, b13, b14, b15] =>
    if kind = 0x01 then
      decodeMove flags (handleOf b2 b3) (beNat [b4, b5, b6]) b7 (handleOf b8 b9) (beNat [b10, b11, b12])
        (beNat [b13, b14, b15])
    else if kind = 0x02 then
      let target := beNat [b2, b3, b4]
      if flags = 0 ∧ (∀ b ∈ [b5, b6, b7, b8, b9, b10, b11, b12, b13, b14, b15], b = 0) ∧ target ≤ Config.maxOffset ∧
          target % 16 = 0 then some (.jump target) else none
    else if kind = 0x03 then
      let offset := beNat [b4, b5, b6]
      if flags = 0 ∧ (∀ b ∈ [b7, b8, b9, b10, b11, b12, b13, b14, b15], b = 0) ∧ offset ≤ Config.maxOffset then
        some (.halt (handleOf b2 b3) offset) else none
    else none
  | _ => none

/-! ### Register words (10.7 to 10.9) -/

/-- Bits hi..lo of a parameter word, as the number they hold (R185). -/
def field (w : Word) (hi lo : Nat) : Nat := w.toNat / 2 ^ lo % 2 ^ (hi + 1 - lo)

/-- A mark byte: 0 no, 1 yes, any other value names neither (10.8). -/
def markOf (n : Nat) : Option Bool := if n = 0 then some false else if n = 1 then some true else none

/-- A descriptor type from its field (10.1). -/
def dtypeOf (n : Nat) : Option DType :=
  match n with
  | 0 => some .data
  | 1 => some .list
  | 2 => some .gate
  | _ => none

/-- The number n in bits hi..lo of a word whose other bits are 0 (10.7 to 10.9). -/
def put (hi lo n : Nat) : Nat := n % 2 ^ (hi + 1 - lo) * 2 ^ lo

/-- A register word from the sum of its fields. -/
def word (n : Nat) : Word := BitVec.ofNat 32 n

/-- A Boolean mark in bit b of a word. -/
def putBit (b : Nat) (v : Bool) : Nat := put b b (if v then 1 else 0)

/-- Four result words (R171). -/
abbrev Results := Vector Word 4

/-- Four zeros. -/
def Results.zero : Results := Vector.replicate 4 0

/-- One result word and three zeros. -/
def Results.one (n : Nat) : Results := #v[word n, 0, 0, 0]

/-- The opener set as one bit a slot (10.9). -/
def openerBits (d : Descriptor) : Nat :=
  (List.finRange 16).foldl (fun n i => n + putBit i.val d.openers[i].isSome) 0

/-- The interlock condition of 10.9 with the slot it names: 0 FREE, 1 FREE and marked, 2 HELD (R97). -/
def interlockField (d : Descriptor) : Nat × Nat :=
  match d.holder, d.expiredHolder with
  | some h, _ => (2, h.val)
  | none, some x => (1, x.val)
  | none, none => (0, 0)

/-- The result words of READ_DESCRIPTOR (10.9, R32). -/
def readDescriptorWords (d : Descriptor) : Results :=
  let (cond, who) := interlockField d
  #v[word (put 15 0 d.tag.toNat + put 23 16 d.gen.toNat + put 25 24 d.state.toNat + put 27 26 d.dtype.toNat +
      put 31 28 d.rights.toNat),
    word (put 15 0 (openerBits d) + put 20 16 d.pins + put 22 21 d.level.val + put 24 23 cond + put 28 25 who),
    if d.dtype = .gate then word (put 22 0 d.gateOffset + put 30 23 d.targetGen.toNat)
    else word (put 10 0 d.mapStart + put 22 11 d.firstOffset),
    if d.dtype = .gate then word (put 23 0 d.gateLength + put 31 24 d.targetIndex.val) else word (put 23 0 d.length)]

/-- The result word of READ_OPENER: granted rights and bit 8, or 0 for a slot that is no opener (10.8, R33). -/
def readOpenerWord (granted : Option Rights) : Nat :=
  granted.elim 0 fun r => put 3 0 r.toNat + putBit 8 true

/-- The result word of MAP_READ (10.8, R67). -/
def mapReadWord (e : MapEntry) : Nat := put 16 0 e.frame + putBit 24 e.valid

/-- A filter's word: 15..0 value, 31..16 mask (10.9). -/
def filterWord (f : Filter) : Word := word (put 15 0 f.value.toNat + put 31 16 f.mask.toNat)

/-- The first result word of REQUESTER_READ (10.9). -/
def requesterWord (r : Requester) : Word :=
  word (putBit 0 r.enabled + putBit 1 r.present + put 3 2 r.level.val + put 5 4 r.standing.toNat +
    put 10 8 r.outstanding + put 24 16 r.score + putBit 25 r.filters[0].enabled + putBit 26 r.filters[1].enabled +
    putBit 27 r.filters[2].enabled + putBit 28 r.filters[3].enabled)

/-- The result words of REQUESTER_READ, part 0 or 1 (10.9, R154). -/
def requesterReadWords (r : Requester) (part : Nat) : Results :=
  if part = 0 then #v[requesterWord r, filterWord r.filters[0], filterWord r.filters[1], 0]
  else #v[requesterWord r, filterWord r.filters[2], filterWord r.filters[3], 0]

/-- The result words of CHANNEL_READ, part 0, 1 or 2 (10.9, R137). That bits 27..24 of R2 in part 0, the owner an ending mark
was set for, read 0 where an occupied primary carries no mark is the model's choice (log entry 19). -/
def channelReadWords (c : Channel) (part : Nat) : Results :=
  if part = 0 then
    #v[word (put 15 0 (c.primary.elim 0 (handleNat ·.handle)) + put 18 16 c.state.toNat +
        put 22 20 (EventKind.toNat c.event) + put 28 24 (slotField (c.primary.bind (·.owner)))),
      word (c.primary.elim 0 fun p =>
        put 22 0 p.offset + put 27 24 p.jumps + put 29 28 (MarkCode.toNat (p.mark.map (·.code)))),
      word (c.primary.elim 0 fun p => put 20 0 p.bytesDone + put 27 24 (p.mark.elim 0 (·.owner.val))),
      word (c.primary.elim 0 (·.total.toNat))]
  else if part = 1 then
    #v[word (put 15 0 (c.backup.elim 0 (handleNat ·.handle)) + put 20 16 (slotField (c.backup.map (·.owner)))),
      word (put 22 0 (c.backup.elim 0 (·.offset))), 0, 0]
  else
    #v[word (putBit 0 c.outcome.valid + put 7 4 c.outcome.owner.val + put 15 8 c.outcome.listIndex.val +
        put 23 16 c.outcome.code.toNat),
      word c.outcome.total.toNat, word (put 22 0 c.outcome.offset), 0]

end Sys2Proof.Machine
end

