-- ==== Sys2Proof/Machine/Flags.lean ====
section
/-! DEFINITION. The flags: attention causes with their pending bits, latches, line and code (9.3), the fault record (9.4),
the classes of result codes (R51), and a slot's standing as its score decides it (7.2). -/

namespace Sys2Proof.Machine

/-! ### Attention (R177 to R180) -/

/-- The bit a cause has in ATTN_PENDING and ATTN_ENABLE: bit n - 1 for cause n (10.7). -/
def causeBit (n : Nat) : BitVec 12 := BitVec.ofNat 12 (2 ^ (n - 1))

/-- Raise cause n: its pending bit is set, or stays set (R177). -/
def Attention.raise (a : Attention) (n : Nat) : Attention := { a with pending := a.pending ||| causeBit n }

/-- Cause 1, FAULT. -/
abbrev cFault : Nat := 1
/-- Cause 2, STANDING. -/
abbrev cStanding : Nat := 2
/-- Causes 3 to 6, CHAN0 to CHAN3. -/
abbrev cChan (c : Chan) : Nat := 3 + c.val
/-- Cause 7, ABSENT_TOUCH. -/
abbrev cAbsentTouch : Nat := 7
/-- Cause 8, MAP_HOLE. -/
abbrev cMapHole : Nat := 8
/-- Cause 9, LOCK_EXPIRED. -/
abbrev cLockExpired : Nat := 9
/-- Cause 10, RETIRE_DONE. -/
abbrev cRetireDone : Nat := 10
/-- Cause 11, REQUESTER_GONE. -/
abbrev cRequesterGone : Nat := 11
/-- Cause 12, MEM_CORRECTED. -/
abbrev cMemCorrected : Nat := 12

/-- STANDING with its latch (R144). -/
def raiseStanding (slot : Slot) (s : State) : State :=
  s.setAttn { s.attn.raise cStanding with standingLatch := slot }

/-- CHn, which has no latch (R127). -/
def raiseChan (c : Chan) (s : State) : State := s.setAttn (s.attn.raise (cChan c))

/-- ABSENT_TOUCH with its latch (R41). -/
def raiseAbsentTouch (i : DIdx) (s : State) : State :=
  s.setAttn { s.attn.raise cAbsentTouch with absentLatch := i }

/-- MAP_HOLE with its latch (R59). -/
def raiseMapHole (entry : Nat) (s : State) : State := s.setAttn { s.attn.raise cMapHole with holeLatch := entry }

/-- LOCK_EXPIRED with its latch (R101). -/
def raiseLockExpired (i : DIdx) (s : State) : State := s.setAttn { s.attn.raise cLockExpired with lockLatch := i }

/-- RETIRE_DONE with its latch (R10). -/
def raiseRetireDone (i : DIdx) (s : State) : State := s.setAttn { s.attn.raise cRetireDone with retireLatch := i }

/-- REQUESTER_GONE with its latch (R142). -/
def raiseRequesterGone (slot : Slot) (s : State) : State :=
  s.setAttn { s.attn.raise cRequesterGone with goneLatch := slot }

/-- MEM_CORRECTED with its latch, which the Memory Port holds (R72). -/
def raiseMemCorrected (frame : Nat) (s : State) : State :=
  (s.setAttn (s.attn.raise cMemCorrected)).setPort { s.port with correctedLatch := frame }

/-- The attention line: some cause is both pending and enabled (R178). -/
def attentionLine (a : Attention) : Bool := a.pending &&& a.enable != 0

/-- ATTN_CODE: the number of the highest-priority cause that is pending and enabled, or 0 (R178). -/
def attentionCode (a : Attention) : Nat :=
  ((List.range' 1 12).find? fun n => (a.pending &&& a.enable).getLsbD (n - 1)).getD 0

/-! ### Classes of results (R51) -/

/-- The violations of R51. -/
def Code.isViolation : Code → Bool
  | .nullHandle | .staleHandle | .notOpen | .level | .rights | .range | .notHolder | .badRequest | .wrongType
  | .listFormat | .listLoop | .lockExpired => true
  | .ok | .notFound | .absent | .retiring | .mapHole | .gateTarget | .lockBusy | .lockLost | .limited | .channelBusy
  | .aborted | .ownerGone | .ownerBarred | .memoryError | .barred | .disabled | .notFree | .noSpace | .badField
  | .badState | .pinned | .badIndex => false

/-! ### Fault record (R181) -/

/-- Offer a violation notice's five fields (R52; source none is LINK) to the fault record: an empty record takes them and
raises FAULT, a valid one sets LOST (R181). -/
def offerFault (reason : Code) (slot : Slot) (source : Option Chan) (h : Handle) (offset : Nat) (s : State) : State :=
  if s.attn.fault.valid then s.setAttn { s.attn with fault := { s.attn.fault with lost := true } }
  else s.setAttn { s.attn.raise cFault with fault := ⟨true, false, reason, slot, source, h, offset⟩ }

/-! ### Score and standing (R143, R144) -/

/-- The band a score lies in (R144). -/
def standingOf (score : Nat) : Standing :=
  if score ≤ 95 then .good else if score ≤ 127 then .warned else if score ≤ 255 then .limited else .barred

/-- A slot's record with a new score, its standing following (R144). -/
def Requester.withScore (r : Requester) (score : Nat) : Requester :=
  { r with score := score, standing := standingOf score }

/-- The score after a violation notice (R143). -/
def scoreUp (score : Nat) : Nat := min (score + 8) 256

/-- The score after a clean completion notice (R143). -/
def scoreDown (score : Nat) : Nat := if score ≤ 255 then score - 1 else score

/-- Charge a violation: the score rises, and an upward entry raises STANDING (R143, R144). -/
def chargeScore (slot : Slot) (s : State) : State :=
  let r := s.su[slot]
  let r' := r.withScore (scoreUp r.score)
  let s' := s.updSlot slot fun _ => r'
  if r.standing.toNat < r'.standing.toNat then raiseStanding slot s' else s'

/-- A clean completion notice (R54, R143). -/
def cleanCompletion (slot : Slot) (s : State) : State :=
  s.updSlot slot fun r => r.withScore (scoreDown r.score)

end Sys2Proof.Machine
end

