-- ==== Sys2Proof/Machine/Ops.lean ====
section
/-! DEFINITION. The named operations over the part's memories and tables: shared DRAM with its check bits, bursts and their
grants, the Page Map's translation, the Window Table's claims, the Resolver, the Command Engine's completion, and the link's
outgoing messages. -/

namespace Sys2Proof.Machine

/-! ### Small helpers -/

/-- Apply f to every entry of a table. -/
def mapTable {α β : Type} {n : Nat} (f : α → β) (v : Vector α n) : Vector β n := ⟨⟨v.toList.map f⟩, by simp⟩

/-- Apply f, which is told each entry's index, to a list whose first entry has index k. -/
def mapFrom {α : Type} (f : Nat → α → α) : (k : Nat) → List α → List α
  | _, [] => []
  | k, x :: xs => f k x :: mapFrom f (k + 1) xs

/-- mapFrom keeps the length. -/
@[simp] theorem mapFrom_length {α : Type} (f : Nat → α → α) (k : Nat) (l : List α) :
    (mapFrom f k l).length = l.length := by
  induction l generalizing k with
  | nil => rfl
  | cons x xs ih => simp [mapFrom, ih]

/-- Apply f, which is told each entry's index, to every entry of a table. -/
def mapTableIdx {α : Type} {n : Nat} (f : Nat → α → α) (v : Vector α n) : Vector α n :=
  ⟨⟨mapFrom f 0 v.toList⟩, by simp⟩

/-! ### Sparse data in one canonical form -/

/-- What a sparse list holds at a key. -/
def Sparse.find {α : Type} : List (Nat × α) → Nat → Option α
  | [], _ => none
  | (b, x) :: l, k => if k = b then some x else Sparse.find l k

/-- Let a sparse list hold x at a key, or nothing there; keys stay strictly rising. -/
def Sparse.put {α : Type} : List (Nat × α) → Nat → Option α → List (Nat × α)
  | [], _, none => []
  | [], k, some v => [(k, v)]
  | (b, x) :: l, k, o =>
    if k < b then (match o with | none => (b, x) :: l | some v => (k, v) :: (b, x) :: l)
    else if k = b then (match o with | none => l | some v => (k, v) :: l)
    else (b, x) :: Sparse.put l k o

/-- Keys strictly rising, none below lo, and no entry that `skip` says is listed by being absent. -/
def Sparse.wfFrom {α : Type} (skip : α → Bool) : (lo : Nat) → List (Nat × α) → Bool
  | _, [] => true
  | lo, (k, x) :: l => decide (lo ≤ k) && !skip x && Sparse.wfFrom skip (k + 1) l

/-! ### Shared DRAM (3.7, 3.8) -/

/-- What an unlisted byte of shared DRAM reads as (log entry 4). -/
def Memory.unlisted : Byte := 0

/-- The byte stored at a physical address. -/
def Memory.read (m : List Host.Cell) (a : Nat) : Byte := (Sparse.find m a).getD Memory.unlisted

/-- Store a byte at a physical address, keeping the canonical form. -/
def Memory.write (m : List Host.Cell) (a : Nat) (v : Byte) : List Host.Cell :=
  Sparse.put m a (if v = Memory.unlisted then none else some v)

/-- The canonical form: addresses strictly rising, no entry equal to what an unlisted address reads as. -/
def Memory.wf (m : List Host.Cell) : Bool := Sparse.wfFrom (fun v => decide (v = Memory.unlisted)) 0 m

/-- The canonical form of the list of words in error: word numbers strictly rising. -/
def Ecc.wf (e : List (Nat × WordErr)) : Bool := Sparse.wfFrom (fun _ => false) 0 e

/-- Bytes stored at consecutive addresses. -/
def Memory.writeAll (m : List Host.Cell) (a : Nat) : List Byte → List Host.Cell
  | [] => m
  | v :: vs => Memory.writeAll (Memory.write m a v) (a + 1) vs

/-- A byte with its bit b, 0..7, turned over. -/
def flipBit (v : Byte) (b : Nat) : Byte := v ^^^ BitVec.ofNat 8 (2 ^ b)

/-- The byte a read delivers: the stored one, as the check corrects it (R71, R72). -/
def delivered (s : State) (a : Nat) : Byte :=
  let v := Memory.read s.mem a
  match Sparse.find s.ecc (a / 8) with
  | some (.dataBit b) => if b.val / 8 = a % 8 then flipBit v (b.val % 8) else v
  | _ => v

/-- The aligned 8-byte words that n bytes from address a lie in, n at least 1. -/
def wordsOf (a n : Nat) : List Nat := List.range' (a / 8) ((a + n - 1) / 8 + 1 - a / 8)

/-- Of those words, the ones the bytes cover only in part (R71). -/
def partialWords (a n : Nat) : List Nat :=
  (wordsOf a n).filter fun w => !(decide (a ≤ 8 * w) && decide (8 * w + 8 ≤ a + n))

/-- The status that reading these words gives (R71, R73). -/
def checkWords (s : State) (ws : List Nat) : BurstStatus :=
  if ws.any fun w => Sparse.find s.ecc w == some .multi then .uncorrectable
  else if ws.any fun w => (Sparse.find s.ecc w).isSome then .corrected
  else .good

/-- Each of these words that the check corrects sets the correctable-error latch and raises MEM_CORRECTED (R72). -/
def noteCorrected (s : State) (ws : List Nat) : State :=
  ws.foldl (fun t w =>
    match Sparse.find t.ecc w with
    | some (.dataBit _) | some .checkBit => raiseMemCorrected (w / 512) t
    | some .multi | none => t) s

/-- Write a word back as its read corrected it, with check bits that agree (R71). -/
def healWord (s : State) (w : Nat) : State :=
  let s' := s.setEcc (Sparse.put s.ecc w none)
  match Sparse.find s.ecc w with
  | some (.dataBit b) =>
    let a := 8 * w + b.val / 8
    s'.setMem (Memory.write s.mem a (flipBit (Memory.read s.mem a) (b.val % 8)))
  | _ => s'

/-- The word is in the installed bank's reach: a burst beyond it is uncorrectable (R57). -/
def installed (s : State) (a : Nat) : Bool := decide (a / Config.frameBytes < s.port.installedFrames)

/-- A bit error comes about: a data bit turns over where it is stored. How errors in one word add up is the model's choice, R72
and R73 saying only what a read makes of them: a second one puts the word beyond correction, unless it turns the same bit
back, and a further one leaves a word that is beyond correction so, even where it turns one of the wrong bits back (log entry
7). -/
def applyUpset (s : State) (u : Upset) : State :=
  if u.word < Config.maxWords then
    let flip (b : Fin 64) : State :=
      let a := 8 * u.word + b.val / 8
      s.setMem (Memory.write s.mem a (flipBit (Memory.read s.mem a) (b.val % 8)))
    match Sparse.find s.ecc u.word, u.err with
    | none, .dataBit b => (flip b).setEcc (Sparse.put s.ecc u.word (some (.dataBit b)))
    | none, e => s.setEcc (Sparse.put s.ecc u.word (some e))
    | some (.dataBit b'), .dataBit b =>
      (flip b).setEcc (Sparse.put s.ecc u.word (if b = b' then none else some .multi))
    | some _, .dataBit b => (flip b).setEcc (Sparse.put s.ecc u.word (some .multi))
    | some _, _ => s.setEcc (Sparse.put s.ecc u.word (some .multi))
  else s

/-- A granted burst is carried out: its status, the bytes a read delivers, and the state it leaves (R71 to R73). R73 does not
say whether a burst that meets an uncorrectable word still reads its other words. That it checks them all, a read burst its
words and a write burst both its merge reads, and raises MEM_CORRECTED with its latch for a correctable one among them, is the
model's choice (log entry 11). -/
def performBurst (b : Burst) (s : State) : BurstStatus × List Byte × State :=
  match b with
  | .read a n =>
    if installed s a then
      let ws := wordsOf a n
      match checkWords s ws with
      | .uncorrectable => (.uncorrectable, [], noteCorrected s ws)
      | st => (st, (List.range' a n).map (delivered s), noteCorrected s ws)
    else (.uncorrectable, [], s)
  | .write a bytes =>
    if installed s a then
      let ws := partialWords a bytes.length
      let s' := noteCorrected s ws
      match checkWords s ws with
      | .uncorrectable => (.uncorrectable, [], s')
      | st =>
        let t := (wordsOf a bytes.length).foldl healWord s'
        (st, [], t.setMem (Memory.writeAll t.mem a bytes))
    else (.uncorrectable, [], s)

/-- A write burst cut by a device reset: each byte it carried is old or new, by the free value, and the check bits of its
words disagree with their bytes as the free value says (R74). A burst that would have written nothing (beyond the bank, or
stopped by its merge read) writes nothing. A byte that the burst did not carry keeps its stored value, a bit that a merge read
corrected included, although the free value may then say that its word's check bits agree: the model's choice (log entry
3). -/
def cutBurst (b : Burst) (s : State) : State :=
  match b with
  | .read _ _ => s
  | .write a bytes =>
    if installed s a && checkWords s (partialWords a bytes.length) != .uncorrectable then
      let torn := (bytes.zipIdx a).foldl (fun m (v, x) =>
        if Config.cutTakesNew s.cuts x then Memory.write m x v else m) s.mem
      let ecc := (wordsOf a bytes.length).foldl (fun e w => Sparse.put e w (Config.cutWordError s.cuts w)) s.ecc
      (s.setMem torn).setEcc ecc
    else s

/-! ### The arbiter (3.7) -/

/-- A claimant requests a burst (R70). -/
def requestBurst (cl : Claimant) (b : Burst) (s : State) : State :=
  s.setPort { s.port with waiting := s.port.waiting.set cl (some b) }

/-- A claimant withdraws its waiting request, if it has one (R70). -/
def withdrawBurst (cl : Claimant) (s : State) : State :=
  s.setPort { s.port with waiting := s.port.waiting.set cl none }

/-- The first waiting claimant that follows the pointer in ring order (R69). -/
def nextClaimant (p : Port) : Option Claimant :=
  ([1, 2, 3, 4, 5].map fun k => Fin.ofNat 5 (p.pointer.val + k)).find? fun cl => p.waiting[cl].isSome

/-- When the DRAM is free and a burst waits, the port grants it (R69). -/
def grantBurst (s : State) : State :=
  match s.port.granted, nextClaimant s.port with
  | none, some cl =>
    s.setPort { s.port with
      waiting := s.port.waiting.set cl none
      granted := s.port.waiting[cl].map fun b => (cl, b)
      pointer := cl }
  | _, _ => s

/-- The channel has a burst that the DRAM has been granted to. -/
def hasGrant (cl : Claimant) (s : State) : Bool :=
  match s.port.granted with
  | some (g, _) => g == cl
  | none => false

/-! ### Translation (3.2) -/

/-- The map entry with this index; beyond 2047 there is none, and it is read as a hole (R58: no passing resolution gets
there). -/
def mapEntry (s : State) (e : Nat) : MapEntry := if h : e < 2048 then s.pm[e] else ⟨false, 0⟩

/-- The outcome of a translation: a hole, with the entry reported, or the pieces (physical address, bytes) (R59). -/
abbrev Translation := Except Nat (List (Nat × Nat))

/-- The map entry and the byte in its frame where a window offset lies (R58). -/
def placeOf (d : Descriptor) (offset : Nat) : Nat × Nat :=
  (d.mapStart + (d.firstOffset + offset) / Config.frameBytes, (d.firstOffset + offset) % Config.frameBytes)

/-- Translate n bytes, 1..64, at a base offset of a base descriptor, in one claim: one piece, or two where the range crosses
a page boundary; the hole reported is the lowest invalid entry (R58, R59, R60). The piece with the lower bytes stands first:
so R91 and R95 say for a direct access, and the model chooses for a step fetch and a completion record (log entry 23). -/
def translate (s : State) (base : DIdx) (offset n : Nat) : Translation :=
  let (e, byte) := placeOf s.wt[base] offset
  let first := mapEntry s e
  let room := Config.frameBytes - byte
  if !first.valid then .error e
  else if n ≤ room then .ok [(first.frame * Config.frameBytes + byte, n)]
  else
    let second := mapEntry s (e + 1)
    if !second.valid then .error (e + 1)
    else .ok [(first.frame * Config.frameBytes + byte, room), (second.frame * Config.frameBytes, n - room)]

/-- The read bursts of translated pieces. -/
def readBursts (pieces : List (Nat × Nat)) : List Burst := pieces.map fun (a, n) => .read a n

/-- The write bursts of translated pieces, carrying these bytes in order. -/
def writeBursts : List (Nat × Nat) → List Byte → List Burst
  | [], _ => []
  | (a, n) :: ps, bytes => .write a (bytes.take n) :: writeBursts ps (bytes.drop n)

/-! ### The Command Engine's completion (R169, R171) -/

/-- The command in progress completes: result words, last result code, IDLE. -/
def complete (code : Code) (results : Results) (s : State) : State :=
  s.setEngine { s.engine with
    results := if code = .ok then results else Results.zero
    lastCode := code
    state := .idle }

/-- Complete with OK and four zeros. -/
def completeOk (s : State) : State := complete .ok Results.zero s

/-- Complete with a code other than OK. -/
def completeWith (code : Code) (s : State) : State := complete code Results.zero s

/-- A waiting RETIRE FORCE completes when its descriptor becomes FREE (R30, R172). -/
def engineOnFree (i : DIdx) (s : State) : State :=
  match s.engine.state with
  | .busy (.retire j) => if i = j then completeOk s else s
  | _ => s

/-- A waiting LINK_RESET completes when nothing it waits for is left (R175). -/
def engineLinkCheck (s : State) : State :=
  match s.engine.state with
  | .busy (.link lists detached) => if !detached && lists.toList.all (!·) then completeOk s else s
  | _ => s

/-- A list's end claim lets a waiting CHANNEL_ABORT of that channel complete, and a waiting LINK_RESET wait for one list
less (R132, R172). -/
def engineOnListEnd (c : Chan) (s : State) : State :=
  match s.engine.state with
  | .busy (.abort d) => if c = d then completeOk s else s
  | .busy (.link lists detached) =>
    engineLinkCheck (s.setEngine { s.engine with state := .busy (.link (lists.set c false) detached) })
  | _ => s

/-- The end of a detached request's service lets a waiting LINK_RESET go on (R172). -/
def engineOnDetachedEnd (s : State) : State :=
  match s.engine.state with
  | .busy (.link lists _) =>
    engineLinkCheck (s.setEngine { s.engine with state := .busy (.link lists false) })
  | _ => s

/-! ### Claims on the Window Table (chapter 1) -/

/-- The interlock is released: holder and expiry become absent (R14). -/
def Descriptor.releaseLock (d : Descriptor) : Descriptor := { d with holder := none, expiry := none }

/-- Release the interlock if this slot holds it. -/
def Descriptor.releaseIfHolder (slot : Slot) (d : Descriptor) : Descriptor :=
  if d.holder = some slot then d.releaseLock else d

/-- Remove a slot's opener entry, with the interlock it holds and the mark that names it (R14, R149). -/
def Descriptor.removeOpener (slot : Slot) (d : Descriptor) : Descriptor :=
  let d' := d.releaseIfHolder slot
  { d' with
    openers := d'.openers.set slot none
    expiredHolder := if d'.expiredHolder = some slot then none else d'.expiredHolder }

/-- Add a slot's opener entry or replace its rights; an interlock it holds is released if the new rights lack LOCK
(R13, R81, R82). -/
def Descriptor.addOpener (slot : Slot) (granted : Rights) (d : Descriptor) : Descriptor :=
  let d' := { d with openers := d.openers.set slot (some granted) }
  if granted &&& Rights.K = Rights.K then d' else d'.releaseIfHolder slot

/-- Every opener entry, interlock and mark is gone (R10, R35). -/
def Descriptor.clearOpeners (d : Descriptor) : Descriptor :=
  { d with openers := Vector.replicate 16 none, holder := none, expiry := none, expiredHolder := none }

/-- Entry into FREE from a retire (R10). -/
def enterFree (i : DIdx) (s : State) : State :=
  engineOnFree i (raiseRetireDone i (s.updDesc i fun d =>
    { d.clearOpeners with state := .free, gen := d.gen + 1 }))

/-- Place one pin on each of these descriptors (R17). -/
def placePins (is : List DIdx) (s : State) : State :=
  is.foldl (fun t i => t.updDesc i fun d => { d with pins := d.pins + 1 }) s

/-- Remove one pin; the last one on a RETIRING descriptor frees it (R18). -/
def removePin (i : DIdx) (s : State) : State :=
  let s' := s.updDesc i fun d => { d with pins := d.pins - 1 }
  if s'.wt[i].state = .retiring ∧ s'.wt[i].pins = 0 then enterFree i s' else s'

/-- Remove one pin for each entry of the list, in its order (R18: a gate before its target). -/
def removePins (is : List DIdx) (s : State) : State := is.foldl (fun t i => removePin i t) s

/-- A slot takes or renews the interlock: the expiry is the time of the take plus the timeout in force, and the mark is
cleared (R98, R99). -/
def takeLock (i : DIdx) (slot : Slot) (s : State) : State :=
  s.updDesc i fun d =>
    { d with holder := some slot, expiry := some (s.now + s.engine.timeout), expiredHolder := none }

/-! ### The Resolver (chapter 2) -/

/-- The type a use needs (R36). -/
abbrev NeedsList := Bool

/-- A verdict: a pass with the resolved window, or the code of the first failing check with the descriptor found ABSENT
where the code is ABSENT (R39, R41). -/
abbrev Verdict := Except (Code × Option DIdx) Resolved

/-- Checks 1 to 3: the granted rights of the slot's entry, or the failing code (R39, R40). -/
def checkHandle (s : State) (slot : Slot) (h : Handle) : Except Code Rights :=
  let d := s.wt[h.index]
  if h.index = 0 then .error .nullHandle
  else if d.state = .free ∨ d.gen ≠ h.gen then .error .staleHandle
  else match d.openers[slot] with
    | none => .error .notOpen
    | some granted => .ok granted

/-- The identity part of check 6: the target is the DATA descriptor the gate was made for (R46). -/
def targetIdentity (s : State) (d : Descriptor) : Bool :=
  let t := s.wt[d.targetIndex]
  t.state != .free && t.gen == d.targetGen && t.dtype == .data

/-- Checks 4 to 6: the states of the descriptor and of a gate's target (R39, R41, R46). -/
def checkStates (s : State) (i : DIdx) : Option (Code × Option DIdx) :=
  let d := s.wt[i]
  if d.state = .retiring then some (.retiring, none)
  else if d.state = .absent then some (.absent, some i)
  else if d.dtype = .gate then
    if !targetIdentity s d then some (.gateTarget, none)
    else if s.wt[d.targetIndex].state = .retiring then some (.retiring, none)
    else if s.wt[d.targetIndex].state = .absent then some (.absent, some d.targetIndex)
    else none
  else none

/-- The effective rights of a slot with these granted rights (R43). -/
def effectiveRights (s : State) (d : Descriptor) (granted : Rights) : Rights :=
  if d.dtype = .gate then granted &&& d.rights &&& s.wt[d.targetIndex].rights else granted &&& d.rights

/-- Every right of the first set is in the second. -/
def Rights.within (needed has : Rights) : Bool := needed &&& has == needed

/-- The checks of R39 in their order. `aligned` is the check that START and promotion add to check 9. -/
def resolve (s : State) (slot : Slot) (h : Handle) (offset length : Nat) (needed : Rights) (needsList : NeedsList)
    (aligned : Bool) : Verdict :=
  match checkHandle s slot h with
  | .error c => .error (c, none)
  | .ok granted =>
    match checkStates s h.index with
    | some f => .error f
    | none =>
      let d := s.wt[h.index]
      let effective := effectiveRights s d granted
      if needsList && d.dtype != .list then .error (.wrongType, none)
      else if !Rights.within needed effective then .error (.rights, none)
      else if offset + length > d.windowLength || (aligned && offset % 16 != 0) then .error (.range, none)
      else if d.dtype = .gate then
        if d.gateOffset + offset + length > s.wt[d.targetIndex].length then .error (.gateTarget, none)
        else .ok ⟨h.index, some d.targetIndex, effective, d.targetIndex, d.gateOffset + offset, length⟩
      else .ok ⟨h.index, none, effective, h.index, offset, length⟩

/-- The pins a passing resolution places: the descriptor named, then a gate's target (R17, R45). -/
def Resolved.pinned (r : Resolved) : List DIdx := r.index :: r.target.toList

/-- A verdict of ABSENT raises ABSENT_TOUCH (R41). -/
def touchAbsent (o : Option DIdx) (s : State) : State := o.elim s fun i => raiseAbsentTouch i s

/-- A tag passes a filter (R76). -/
def Filter.passes (f : Filter) (tag : BitVec 16) : Bool := f.enabled && (tag ^^^ f.value) &&& f.mask == 0

/-- A tag is visible through at least one of four filters (R76). -/
def visible (fs : Vector Filter 4) (tag : BitVec 16) : Bool := fs.toList.any (·.passes tag)

/-! ### Outgoing messages -/

/-- Send a reply (R162). -/
def sendReply (slot : Slot) (tag : BitVec 3) (code : Code) (payload : List Byte) (s : State) : State :=
  s.send (.reply ⟨slot, tag, code, payload⟩)

/-- Send teardown answers, in their order (R150). -/
def sendAnswers (slot : Slot) (answers : List (BitVec 3 × Code)) (s : State) : State :=
  answers.foldl (fun t (tag, code) => sendReply slot tag code [] t) s

end Sys2Proof.Machine
end

