-- ==== Sys2Proof/Machine/Work.lean ====
section
/-! DEFINITION. The shared operations that reach across blocks: the end of a request's service, the end of a list and its
boundary, teardown, violation notices, the work a channel takes up by itself, and the two resets. -/

namespace Sys2Proof.Machine

/-! ### The end of a request's service (R90) -/

/-- A READ_LOCK that took or renewed the interlock and ends without an OK reply gives the interlock up, if its slot still
holds it (R103). -/
def giveUpLock (r : InService) (result : Code) (s : State) : State :=
  if r.lockTaken ∧ (result ≠ .ok ∨ r.disposition ≠ .send) then
    r.resolved.elim s fun w => s.updDesc w.index (·.releaseIfHolder r.request.slot)
  else s

/-- The request is a QUERY, whose OK is no clean completion (R54). -/
def ReqBody.isQuery : ReqBody → Bool
  | .query _ => true
  | .openWindow _ _ | .closeWindow _ | .read _ _ _ | .write _ _ _ | .readLock _ _ _ | .writeUnlock _ _ _ | .start _ _ _
  | .cancel _ | .channelStatus _ | .unknown _ => false

/-- The reply goes out as the disposition says; an OK reply that is sent is a clean completion, but for QUERY (R54, R90). -/
def disposeReply (r : InService) (result : Code) (payload : List Byte) (s : State) : State :=
  match r.disposition with
  | .send =>
    let s := sendReply r.request.slot r.request.tag result payload s
    if result = .ok ∧ r.request.body.isQuery = false then cleanCompletion r.request.slot s else s
  | .discard => s
  | .disabled => sendReply r.request.slot r.request.tag .disabled [] s
  | .barred => sendReply r.request.slot r.request.tag .barred [] s

/-- The slot's count falls, unless a link reset has detached the request, whose end a LINK_RESET may wait for
(R160, R172). -/
def leaveService (r : InService) (s : State) : State :=
  if r.detached then engineOnDetachedEnd s
  else s.updSlot r.request.slot fun q => { q with outstanding := q.outstanding - 1 }

/-- The claim that ends the in-service request's service with a result (R90): the interlock is given up where R103 says so,
pins fall, the reply and the held answers go out, the slot's count falls, the server is IDLE. -/
def endService (result : Code) (payload : List Byte) (s : State) : State :=
  match s.server with
  | none => s
  | some r =>
    leaveService r (sendAnswers r.request.slot r.held (disposeReply r result payload
      (removePins r.pins ((giveUpLock r result s).setServer none))))

/-- The service goes on to this stage. -/
def toStage (g : Stage) (s : State) : State := s.setServer (s.server.map fun r => { r with stage := g })

/-- The service has reached this result; the claim that ends it is its next (R90). -/
def reach (code : Code) (payload : List Byte) (s : State) : State := toStage (.ending code payload) s

/-! ### The end of a list (R126, R127, R131) -/

/-- The result code of an ending mark. -/
def MarkCode.toCode : MarkCode → Code
  | .aborted => .aborted
  | .ownerGone => .ownerGone
  | .ownerBarred => .ownerBarred

/-- The event kind of a list's end (R127). -/
def endEvent : Code → EventKind
  | .ok => .ended
  | .aborted | .ownerGone | .ownerBarred => .aborted
  | _ => .fault

/-- A channel sets its last event kind and raises its cause (R127). -/
def channelEvent (c : Chan) (k : EventKind) (s : State) : State :=
  raiseChan c (s.updChan c fun ch => { ch with event := some k })

/-- A primary slot filled by a START or a promotion (R112, R115). -/
def Primary.fresh (owner : Slot) (h : Handle) (offset : Nat) (pins : List ChanPin) (w : Work) : Primary where
  owner := some owner
  handle := h
  offset := offset
  step := none
  bytesDone := 0
  total := 0
  jumps := 0
  pins := pins
  mark := none
  source := none
  dest := none
  completion := none
  noted := false
  work := w

/-- Empty the primary, moving the backup into it if there is one (R126 steps 5 and 6). -/
def Channel.promote (ch : Channel) : Channel :=
  match ch.backup with
  | some b =>
    { ch with state := .fetch, primary := some (Primary.fresh b.owner b.handle b.offset [] .promote), backup := none }
  | none => { ch with state := .idle, primary := none }

/-- The owner a list's outcome records: the primary's, or the one the ending mark was set for (R126). -/
def Primary.outcomeOwner (p : Primary) : Slot := p.owner.getD (p.mark.elim 0 (·.owner))

/-- The outcome a list's end records (R126 step 1). -/
def Primary.outcome (p : Primary) (code : Code) : ListOutcome :=
  ⟨true, p.outcomeOwner, p.handle.index, code, p.total, p.offset⟩

/-- The end claim of the list a channel runs (R126). A request of it that still waits for its grant is withdrawn (R70). -/
def endList (c : Chan) (code : Code) (s : State) : State :=
  match s.chans[c].primary with
  | none => s
  | some p =>
    let s := s.updChan c fun ch => { ch with outcome := p.outcome code }
    let s := channelEvent c (endEvent code) s
    let s := if code = .ok then p.owner.elim s fun o => cleanCompletion o s else s
    let s := removePins (p.pins.map (·.index)) s
    let s := withdrawBurst (Claimant.ch c) (s.updChan c Channel.promote)
    engineOnListEnd c s

/-- A marked list ends with its mark's code once it is at a burst boundary, which it is unless a burst of it is granted
(R131). -/
def endAtBoundary (c : Chan) (s : State) : State :=
  match s.chans[c].primary.bind (·.mark) with
  | some m => if hasGrant (Claimant.ch c) s then s else endList c m.code.toCode s
  | none => s

/-- Give a primary an ending mark, unless it carries one (R131). -/
def Primary.setMark (code : MarkCode) (p : Primary) : Primary :=
  { p with mark := p.mark <|> some ⟨code, p.owner.getD 0⟩ }

/-- Change the primary of a channel, if it is occupied. -/
def updPrimary (c : Chan) (f : Primary → Primary) (s : State) : State :=
  s.updChan c fun ch => { ch with primary := ch.primary.map f }

/-- An abort claim on a channel's primary (R131). -/
def abortPrimary (c : Chan) (code : MarkCode) (s : State) : State :=
  endAtBoundary c (updPrimary c (Primary.setMark code) s)

/-- Empty a channel's backup (R114, R132, R135). -/
def emptyBackup (c : Chan) (s : State) : State := s.updChan c fun ch => { ch with backup := none }

/-- A channel enters STOPPED, its primary slot kept (R128). -/
def stopChannel (c : Chan) (s : State) : State :=
  channelEvent c .stop (updPrimary c (fun p => { p with work := .stopped })
    (s.updChan c fun ch => { ch with state := .stopped }))

/-! ### Teardown (7.4) -/

/-- The in-service request's disposition after a teardown: DISCARD for departure, DISABLED for disable, BARRED for barring,
with the exceptions of R147 and R152. `own`: the barring is for this request's own violation. R152 states its exceptions for
a second cause before the manager readmits or re-enables the slot; that they hold also where it has done so while the request
is still in service is the model's choice (log entry 22). -/
def nextDisposition (r : InService) (cause : TeardownCause) (own : Bool) : Disposition :=
  match cause, r.disposition with
  | _, .discard => .discard
  | .departure, _ => .discard
  | .barring, d => if own then d else .barred
  | .disable, .barred => .barred
  | .disable, .send => if r.sendKept then .send else .disabled
  | .disable, .disabled => .disabled

/-- The answers of the queue entries a teardown removes: none for a departure (R150). -/
def teardownAnswers (cause : TeardownCause) (removed : List Request) : List (BitVec 3 × Code) :=
  match cause with
  | .disable => removed.map fun q => (q.tag, .disabled)
  | .barring => removed.map fun q => (q.tag, .barred)
  | .departure => []

/-- The ending mark of a teardown (R134). -/
def teardownMark : TeardownCause → MarkCode
  | .barring => .ownerBarred
  | .departure | .disable => .ownerGone

/-- The Window Table's part (R149). -/
def teardownTable (slot : Slot) (s : State) : State := s.setWt (mapTable (Descriptor.removeOpener slot) s.wt)

/-- One channel's part (R134). The list whose own violation is the cause of a barring is marked and not ended here: its own
end claim follows and records the violation's code (R126). -/
def teardownChannel (cause : TeardownCause) (slot : Slot) (ownList : Option Chan) (c : Chan) (s : State) : State :=
  let s := s.updChan c fun ch => { ch with backup := ch.backup.filter fun b => b.owner != slot }
  match s.chans[c].primary with
  | some p =>
    if p.owner = some slot then
      let s := updPrimary c (fun p => { p.setMark (teardownMark cause) with owner := none }) s
      if ownList = some c then s else endAtBoundary c s
    else s
  | none => s

/-- A teardown or link reset reaches the in-service request (R86, R88, R105, R106, R113). Before its stage-3 claim, its
choosing claim or the claim of its kind it ends at once; a START before its slot claim fills no slot; a service past its claim
goes on to its end. The disposition is set by then, so that the result given here reaches nobody. A request that has reached
its result at stage 1 or 2 (BAD_REQUEST, LIMITED), or an OPEN whose search has ended without a choice (NOT_FOUND, LEVEL,
RIGHTS), the claim that ends its service still to come, is left in service until that claim, detached by a link reset: the
model's choice, where R105, R106 and R150 end a request at once before its stage-3 claim and yet count a notice of stage 1
among those that stay charged after it, and R86 names the choosing claim alone (log entry 21). For a QUERY, CANCEL,
CHANNEL_STATUS or unknown kind, of which no rule names the claim that divides, it is the kind's one claim: before it the
service ends at once and nothing is charged, after it the claim's effects stand and the service goes on to its end, the
model's choice (log entry 24). -/
def cutService (s : State) : State :=
  match s.server with
  | some r =>
    match r.stage with
    | .begun | .checked | .search _ => endService .ok [] s
    | .slotClaim => reach .ok [] s
    | .translation | .bursts | .ending _ _ => s
  | none => s

/-- The Request Server's part, with the answers of the removed entries: held behind an in-service request of the slot, sent
at once otherwise (R150, R152). -/
def teardownServer (cause : TeardownCause) (slot : Slot) (own : Bool) (answers : List (BitVec 3 × Code)) (s : State) :
    State :=
  match s.server with
  | some r =>
    if r.request.slot = slot ∧ !r.detached then
      let s := s.setServer (some { r with
        disposition := nextDisposition r cause own
        held := if cause = .departure then [] else r.held ++ answers
        sendKept := r.sendKept || own })
      if own then s else cutService s
    else sendAnswers slot answers s
  | none => sendAnswers slot answers s

/-- The Request Queue's part, and with it the server's (R150). -/
def teardownQueue (cause : TeardownCause) (slot : Slot) (own : Bool) (s : State) : State :=
  let removed := s.rq.filter fun q => q.slot == slot
  let s := s.setRq (s.rq.filter fun q => q.slot != slot)
  let s := s.updSlot slot fun r => { r with outstanding := r.outstanding - removed.length }
  teardownServer cause slot own (teardownAnswers cause removed) s

/-- The teardown of a slot (R148), one claim. -/
def teardown (cause : TeardownCause) (slot : Slot) (own : Bool) (ownList : Option Chan) (s : State) : State :=
  let s := teardownTable slot s
  let s := [0, 1, 2, 3].foldl (fun t c => teardownChannel cause slot ownList c t) s
  teardownQueue cause slot own s

/-! ### Violations (2.6, 7.2) -/

/-- A violation notice (R52, R53): the fault record is offered it, the score rises, and an entry into BARRED takes the
teardown for barring in the same claim (R147). `own`: found by the Request Server in its in-service request; `source`: the
channel for a list, none for LINK. -/
def violation (reason : Code) (slot : Slot) (source : Option Chan) (h : Handle) (offset : Nat) (own : Bool) (s : State) :
    State :=
  let before := s.su[slot].standing
  let s := chargeScore slot (offerFault reason slot source h offset s)
  if s.su[slot].standing = .barred ∧ before ≠ .barred then teardown .barring slot own source s else s

/-- The service of the request reaches this code, a violation being noticed in the same claim (R53, R91). -/
def failRequest (code : Code) (h : Handle) (offset : Nat) (s : State) : State :=
  match s.server with
  | none => s
  | some r =>
    reach code [] (if code.isViolation then violation code r.request.slot none h offset true s else s)

/-! ### The work a channel takes up by itself (chapter 6) -/

/-- The list of a channel ends with this code, a violation being noticed first (R53, R126). -/
def failList (c : Chan) (code : Code) (owner : Slot) (h : Handle) (offset : Nat) (s : State) : State :=
  endList c code (if code.isViolation then violation code owner (some c) h offset false s else s)

/-- A failing verdict at a re-check or resolution of a running list: ABSENT stops the channel, any other code ends the list
(R116, R119, R128). -/
def verdictFails (c : Chan) (f : Code × Option DIdx) (owner : Slot) (h : Handle) (offset : Nat) (s : State) : State :=
  if f.1 = .absent then stopChannel c (touchAbsent f.2 s) else failList c f.1 owner h offset s

/-- A channel requests a burst and notes what it waits for. -/
def channelBurst (c : Chan) (b : Burst) (w : Work) (s : State) : State :=
  requestBurst (Claimant.ch c) b (updPrimary c (fun p => { p with work := w }) s)

/-- Request the first of these bursts, the rest noted in the work. Of the two bursts of a step fetch or a completion record
that crosses a page boundary, to which R60 gives no order, the one with the lower bytes goes first: the model's choice (log
entry 23). -/
def channelBursts (c : Chan) (bs : List Burst) (w : List Burst → Work) (s : State) : State :=
  match bs with
  | [] => s
  | b :: rest => channelBurst c b (w rest) s

/-- A hole stops the channel (R116, R120, R125). -/
def holeStops (c : Chan) (entry : Nat) (s : State) : State := stopChannel c (raiseMapHole entry s)

/-- The promotion checks (R115): standing, then resolution; a failing promotion ends the list, ABSENT included. -/
def advancePromote (c : Chan) (p : Primary) (owner : Slot) (s : State) : State :=
  if s.su[owner].standing = .limited then endList c .limited s
  else match resolve s owner p.handle p.offset 1 Rights.F true true with
    | .error (code, touched) => failList c code owner p.handle p.offset (touchAbsent touched s)
    | .ok r =>
      updPrimary c (fun p => { p with pins := [⟨r.index, .list⟩], work := .fetch }) (placePins [r.index] s)

/-- The re-check of the list handle at the current list offset, as for a fetch (R116, R129). -/
def recheckList (s : State) (p : Primary) (owner : Slot) : Verdict :=
  resolve s owner p.handle p.offset 16 Rights.F true false

/-- The re-check, translation and first read burst of a step fetch (R116). -/
def advanceFetch (c : Chan) (p : Primary) (owner : Slot) (s : State) : State :=
  match recheckList s p owner with
  | .error f => verdictFails c f owner p.handle p.offset s
  | .ok r =>
    match translate s r.base r.baseOffset 16 with
    | .error entry => holeStops c entry s
    | .ok pieces => channelBursts c (readBursts pieces) (fun rest => .fetchBurst rest []) s

/-- CHANNEL_RESUME's re-check of the list handle (R129): with a current step its handles are resolved next, without one the
step is fetched. -/
def advanceResume (c : Chan) (p : Primary) (owner : Slot) (s : State) : State :=
  match recheckList s p owner with
  | .error f => verdictFails c f owner p.handle p.offset s
  | .ok _ => updPrimary c (fun q => { q with work := if q.step.isSome then .resolve else .fetch }) s

/-- The pins a passing resolution of a step handle places, with their purposes (R109). -/
def stepPins (r : Resolved) (named target : Purpose) : List ChanPin :=
  ⟨r.index, named⟩ :: r.target.toList.map (⟨·, target⟩)

/-- Note a passing resolution of a step handle. A handle that still holds its pins is re-checked and keeps them; another
places its pins (R49, R129). -/
def notePass (c : Chan) (p : Primary) (r : Resolved) (named target : Purpose) (f : Primary → Primary) (s : State) :
    State :=
  if p.pins.any (·.purpose == named) then updPrimary c f s
  else updPrimary c (fun q => f { q with pins := q.pins ++ stepPins r named target }) (placePins r.pinned s)

/-- The destination of a MOVE, after its source (R119). -/
def resolveDest (c : Chan) (p : Primary) (owner : Slot) (dst : Handle) (dstOff count : Nat) (s : State) : State :=
  match resolve s owner dst dstOff count Rights.W false false with
  | .error f => verdictFails c f owner dst dstOff s
  | .ok r =>
    let s := notePass c p r .destination .destinationTarget
      (fun q => { q with dest := some r, work := .unit }) s
    s.updChan c fun ch => { ch with state := .move }

/-- The handles of the current step (R119, R125, R129). -/
def advanceResolve (c : Chan) (p : Primary) (owner : Slot) (s : State) : State :=
  match p.step with
  | some (.move src srcOff dst dstOff count _ _ _) =>
    if src.index = 0 then resolveDest c p owner dst dstOff count s
    else match resolve s owner src srcOff count Rights.R false false with
      | .error f => verdictFails c f owner src srcOff s
      | .ok r =>
        resolveDest c p owner dst dstOff count
          (notePass c p r .source .sourceTarget (fun q => { q with source := some r }) s)
  | some (.halt comp offset) =>
    if comp.index = 0 then endList c .ok s
    else match resolve s owner comp offset 8 Rights.W false false with
      | .error f => verdictFails c f owner comp offset s
      | .ok r =>
        let s := notePass c p r .completion .completionTarget
          (fun q => { q with completion := some r, work := .record }) s
        s.updChan c fun ch => { ch with state := .halting }
  | some (.jump _) | none => updPrimary c (fun q => { q with step := none, work := .fetch }) s

/-- The bytes a unit may carry on one side of which it moves the lowest remaining bytes: to the end of the page (R61). -/
def roomUp (d : Descriptor) (offset : Nat) : Nat := Config.frameBytes - (placeOf d offset).2

/-- The bytes a unit may carry on one side of which it moves the highest remaining bytes, the last at this offset: from the
start of the page (R61). -/
def roomDown (d : Descriptor) (last : Nat) : Nat := (placeOf d last).2 + 1

/-- The size of the next transfer unit (R61): the least of 64, the bytes remaining and the room on each side. -/
def unitSize (s : State) (source : Option Resolved) (dest : Resolved) (count done : Nat) (down : Bool) : Nat :=
  let left := count - done
  let room (r : Resolved) : Nat :=
    if down then roomDown s.wt[r.base] (r.baseOffset + left - 1) else roomUp s.wt[r.base] (r.baseOffset + done)
  min (min 64 left) (min (room dest) (source.elim 64 room))

/-- Where on a side the next unit of n bytes lies: the lowest remaining bytes, or with DOWN the highest (R61, R121). -/
def unitOffset (r : Resolved) (count done n : Nat) (down : Bool) : Nat :=
  if down then r.baseOffset + (count - done - n) else r.baseOffset + done

/-- The physical address of a unit's side, which lies in one page, or the hole it meets (R63). -/
def unitAddr (s : State) (r : Resolved) (offset n : Nat) : Except Nat Nat :=
  match translate s r.base offset n with
  | .error entry => .error entry
  | .ok pieces => .ok ((pieces.head?.map (·.1)).getD 0)

/-- Begin the next transfer unit (R120): cut, translation with the source entry examined first, first burst. -/
def advanceUnit (c : Chan) (p : Primary) (s : State) : State :=
  match p.step, p.dest with
  | some (.move _ _ _ _ count fill _ down), some dest =>
    let n := unitSize s p.source dest count p.bytesDone down
    let dstOff := unitOffset dest count p.bytesDone n down
    match p.source with
    | some src =>
      match unitAddr s src (unitOffset src count p.bytesDone n down) n, unitAddr s dest dstOff n with
      | .error entry, _ => holeStops c entry s
      | .ok _, .error entry => holeStops c entry s
      | .ok from', .ok to' => channelBurst c (.read from' n) (.unitRead n to') s
    | none =>
      match unitAddr s dest dstOff n with
      | .error entry => holeStops c entry s
      | .ok to' => channelBurst c (.write to' (List.replicate n fill)) (.unitWrite n) s
  | _, _ => updPrimary c (fun q => { q with work := .fetch }) s

/-- Form the completion record, translate its 8 bytes and request its first burst (R125). -/
def advanceRecord (c : Chan) (p : Primary) (owner : Slot) (s : State) : State :=
  match p.completion with
  | some r =>
    match translate s r.base r.baseOffset 8 with
    | .error entry => holeStops c entry s
    | .ok pieces =>
      channelBursts c (writeBursts pieces (completionRecord p.total p.offset c owner)) (fun rest => .recordBurst rest) s
  | none => updPrimary c (fun q => { q with work := .fetch }) s

/-- The work of a channel that it takes up at once, waiting for nothing. -/
def Work.ready : Work → Bool
  | .promote | .fetch | .resume | .resolve | .unit | .record => true
  | .fetchBurst _ _ | .unitRead _ _ | .unitWrite _ | .recordBurst _ | .stopped => false

/-- One piece of a channel's ready work. A marked list is at its boundary and ends (R131). In states no run reaches, a list
without owner or mark ends OWNER_GONE, and a step that lacks what its work needs is fetched again (log entry 8). -/
def advance (c : Chan) (s : State) : State :=
  match s.chans[c].primary with
  | none => s
  | some p =>
    match p.mark, p.owner with
    | some m, _ => endList c m.code.toCode s
    | none, none => endList c .ownerGone s
    | none, some owner =>
      match p.work with
      | .promote => advancePromote c p owner s
      | .fetch => advanceFetch c p owner s
      | .resume => advanceResume c p owner s
      | .resolve => advanceResolve c p owner s
      | .unit => advanceUnit c p s
      | .record => advanceRecord c p owner s
      | .fetchBurst _ _ | .unitRead _ _ | .unitWrite _ | .recordBurst _ | .stopped => s

/-- The channel has ready work. -/
def isReady (s : State) (c : Chan) : Bool := s.chans[c].primary.elim false (·.work.ready)

/-- The lowest channel with ready work. -/
def readyChannel (s : State) : Option Chan := ([0, 1, 2, 3] : List Chan).find? (isReady s)

/-- Let the channels take up their ready work, at most n pieces of it, by turns: a channel whose turn it is goes first if it is
ready, else the lowest ready one. A turn of none leaves what is left to a later step, so that other claims fall before it: a
START's slot claim between a list's end and the promotion checks among them (R113, R115). R108 orders neither channels nor
their claims and others' (log entry 20). -/
def runReady : (n : Nat) → State → State
  | 0, s => s
  | n + 1, s =>
    match readyChannel s, s.turns with
    | none, _ => s
    | some c, [] => runReady n (advance c s)
    | some _, none :: later => s.setTurns later
    | some c, some d :: later => runReady n (advance (if isReady s d then d else c) (s.setTurns later))

/-- More pieces of ready work than any state holds: at most eight a channel (log entry 8). -/
abbrev readyBound : Nat := 40

/-- The end of every step: the channels take up the work the step gave them and what earlier steps have left, and a free DRAM
is granted (R69). -/
def settle (s : State) : State := grantBurst (runReady readyBound s)

/-! ### Link reset (R35, R135, R140, R167) -/

/-- A channel's part of a link reset (R135). -/
def linkResetChannel (c : Chan) (s : State) : State := abortPrimary c .aborted (emptyBackup c s)

/-- The in-service request is detached, its reply and held answers dropped (R106, R167). -/
def detachServer (s : State) : State :=
  match s.server with
  | some r => cutService (s.setServer (some { r with disposition := .discard, held := [], detached := true }))
  | none => s

/-- The lists that are running, one mark a channel. -/
def runningLists (s : State) : Vector Bool 4 := #v[s.chans[0].primary.isSome, s.chans[1].primary.isSome,
  s.chans[2].primary.isSome, s.chans[3].primary.isSome]

/-- A LINK_RESET that waits is to wait for what is now ending (R175). -/
def engineLinkBegin (s : State) : State :=
  match s.engine.state with
  | .busy (.link _ _) =>
    s.setEngine { s.engine with state := .busy (.link (runningLists s) s.server.isSome) }
  | _ => s

/-- A link reset (R35, R75, R135, R140, R167, R175). That the four channels take their claims in the order 0 to 3, which
RETIRE_LATCH can show, is the model's choice: R108 gives claims on different channels no order (log entry 11). -/
def linkReset (s : State) : State :=
  let s := engineLinkBegin s
  let s := s.setWt (mapTable Descriptor.clearOpeners s.wt)
  let s := (s.setRq []).setSu (mapTable (fun r => { r with outstanding := 0 }) s.su)
  let s := detachServer s
  let s := [0, 1, 2, 3].foldl (fun t c => linkResetChannel c t) s
  engineLinkCheck s

/-! ### Device reset (R183) -/

/-- Shared DRAM as the burst leaves it that a device reset ends: a granted write burst is cut (R74). -/
def cutGranted (s : State) : State :=
  match s.port.granted with
  | some (_, b) => cutBurst b s
  | none => s

/-- A device reset across the part (9.5): every block at its reset values, present as the lines are; shared DRAM keeps its
contents but for a granted write burst it cuts (R74). The lines, the time, the size of the bank, the messages already sent,
the turns to come and the commands that wait are no state of a block. -/
def deviceReset (s : State) : State :=
  { State.reset with
    port := { State.reset.port with installedFrames := s.port.installedFrames }
    mem := (cutGranted s).mem
    ecc := (cutGranted s).ecc
    su := mapTable Requester.reset s.lines.present
    linkOut := s.linkOut
    busRead := s.busRead
    lines := s.lines
    now := s.now
    cuts := s.cuts + 1
    turns := s.turns
    pending := s.pending }

end Sys2Proof.Machine
end

