-- ==== Sys2Proof/Machine/Link.lean ====
section
/-! DEFINITION. The link and the lines: CONFIRMATION, PRESENT_RISE, PRESENT_FALL, INIT, INIT_RELEASE, RESET, RESET_RELEASE
(chapter 8, R142, R183). -/

namespace Sys2Proof.Machine

/-- What a step answers. -/
abbrev Answer := Host.Outcome State Fault Refusal

/-- The confirmation of a readable message of this slot (R157). -/
def confirmationOf (s : State) (slot : Slot) : Confirmation :=
  let r := s.su[slot]
  if !r.enabled || !r.present || r.standing == .barred then .refuse
  else if s.rq.length ≥ Config.queuePlaces || r.outstanding ≥ Config.credit then .busy
  else .accept

/-- A message received whole: REFUSE where it is unreadable (R156), else by R157. -/
def confirm (slot : Slot) (message : List Byte) (s : State) : State :=
  match parseMessage message with
  | none => s.send (.confirmation slot .refuse)
  | some (tag, body) =>
    match confirmationOf s slot with
    | .accept =>
      ((s.setRq (s.rq ++ [⟨slot, tag, body⟩])).updSlot slot fun r => { r with outstanding := r.outstanding + 1 }).send
        (.confirmation slot .accept)
    | c => s.send (.confirmation slot c)

/-- CONFIRMATION (R156, R157). While INIT or RESET is asserted the message is discarded without a confirmation
(R166, R183). -/
def execConfirmation (slot : Slot) (message : List Byte) (s : State) : Answer :=
  .next (if s.lines.init || s.lines.reset then s else confirm slot message s)

/-- The level of a slot's PRESENT line. -/
def setPresentLine (slot : Slot) (v : Bool) (s : State) : State :=
  s.setLines { s.lines with present := s.lines.present.set slot v }

/-- PRESENT_RISE (R142): the present field becomes yes. -/
def execPresentRise (slot : Slot) (s : State) : Answer :=
  .next ((setPresentLine slot true s).updSlot slot fun r => { r with present := true })

/-- A departure of a slot that a teardown has already been taken of: its in-service request's reply is discarded, and the
answers held behind it are dropped (R142, R152). -/
def departAgain (slot : Slot) (s : State) : State := teardownServer .departure slot false [] s

/-- The departure that a fall of the line takes (R142). -/
def depart (slot : Slot) (s : State) : State :=
  let r := s.su[slot]
  let s := raiseRequesterGone slot (s.updSlot slot fun r => { r with present := false })
  if r.enabled && r.standing != .barred then teardown .departure slot false none s else departAgain slot s

/-- PRESENT_FALL (R142). A line that is low already does not fall (log entry 9). While RESET is asserted the present field
follows the line and no departure is taken (R183). -/
def execPresentFall (slot : Slot) (s : State) : Answer :=
  .next <|
    if !s.lines.present[slot] then s
    else
      let s := setPresentLine slot false s
      if s.lines.reset then s.updSlot slot fun r => { r with present := false } else settle (depart slot s)

/-- INIT (R166, R167): the line becoming asserted takes a link reset. A line asserted already does not become so, and while
RESET is asserted there is nothing to reset (log entry 9). -/
def execInit (s : State) : Answer :=
  .next <|
    if s.lines.init then s
    else
      let s := s.setLines { s.lines with init := true }
      if s.lines.reset then s else settle (linkReset s)

/-- INIT_RELEASE (R166): the release takes nothing further. -/
def execInitRelease (s : State) : Answer := .next (s.setLines { s.lines with init := false })

/-- RESET (R183): assertion of the pin takes a device reset. -/
def execReset (s : State) : Answer :=
  .next (if s.lines.reset then s else deviceReset (s.setLines { s.lines with reset := true }))

/-- RESET_RELEASE (R183): the part works from its reset values. -/
def execResetRelease (s : State) : Answer := .next (s.setLines { s.lines with reset := false })

end Sys2Proof.Machine
end

