-- ==== Sys2Proof/Machine/Server.lean ====
section
/-! DEFINITION. The Request Server's rows, one per kind of request: the server takes the request at the head of the queue and
serves it claim by claim (chapters 4, 5, 6.2, 6.9, 8.4). A row carries out all claims that are left, to the service's end or
to its first burst, or the number its operand names; the service then stands at its stage until the kind's next row, and
other commands are taken in between (log entry 10). A row whose kind is not that of the request in service, or at the head
where none is, does not occur, nor does one while a burst of the service is out; the state stays as it is (log entry 9). -/

namespace Sys2Proof.Machine

/-- The record of a request just taken into service (R90). -/
def InService.begin (q : Request) : InService where
  request := q
  stage := .begun
  resolved := none
  pins := []
  disposition := .send
  held := []
  detached := false
  sendKept := false
  lockTaken := false
  rest := []
  data := []

/-- Carry out n claims of the service in progress, fewer where it ends or waits for a burst: the claim that ends it once its
result is reached (R90), before that the claims of its kind. -/
def carryOn (claim : Stage → State → State) : (n : Nat) → State → State
  | 0, s => s
  | n + 1, s =>
    match s.server with
    | none => s
    | some r =>
      match r.stage with
      | .bursts => s
      | .ending code payload => endService code payload s
      | stage => carryOn claim n (claim stage s)

/-- More claims than any service takes: an OPEN's standing check, its read, 255 examinations and its end (R78, R79). -/
abbrev serviceBound : Nat := 260

/-- The request that a row serves, with the state to serve it in: the one in service, unless its burst is out, else the
oldest in the queue, which is taken into service (R90). -/
def inHand (s : State) : Option (Request × State) :=
  match s.server, s.rq with
  | some r, _ => if r.stage = .bursts then none else some (r.request, s)
  | none, q :: rest => some (q, (s.setRq rest).setServer (some (InService.begin q)))
  | none, [] => none

/-- A request row: the claims of a kind are carried out on a request in hand, which `kind` tells to be of it; then the
channels go on and the DRAM is granted. -/
def serveRow (kind : Request → Option (Stage → State → State)) (claims : Option Nat) (s : State) : State :=
  match inHand s with
  | none => s
  | some (q, t) =>
    match kind q with
    | some claim => settle (carryOn claim (claims.getD serviceBound) t)
    | none => s

/-! ### OPEN (chapter 4) -/

/-- The result code of a running verdict (R80). -/
def RunningVerdict.toCode : RunningVerdict → Code
  | .notFound => .notFound
  | .level => .level
  | .rights => .rights

/-- The running verdict after a candidate that fails the level test (R79). -/
def RunningVerdict.failsLevel : RunningVerdict → RunningVerdict
  | .notFound => .level
  | .level => .level
  | .rights => .rights

/-- The examination is done without a choice: the next index is examined next, or after index 255 the search ends with the
running verdict, LEVEL and RIGHTS being noticed in this claim (R79, R80, R83). -/
def searchOn (k : Search) (s : State) : State :=
  if k.next = 255 then failRequest k.verdict.toCode Handle.null k.tag.toNat s
  else toStage (.search { k with next := k.next + 1 }) s

/-- One examination of one descriptor, which is one claim; a choice makes the opener entry (R79, R81). -/
def examine (slot : Slot) (k : Search) (s : State) : State :=
  let d := s.wt[k.next]
  if d.state = .free ∨ d.state = .retiring ∨ d.tag ≠ k.tag then searchOn k s
  else if d.level < k.level then searchOn { k with verdict := k.verdict.failsLevel } s
  else if !Rights.within k.wanted d.rights then searchOn { k with verdict := .rights } s
  else reach .ok (handleBytes ⟨d.gen, k.next⟩) (s.updDesc k.next (Descriptor.addOpener slot k.wanted))

/-- The search as it begins, with the level and the filters read in one read (R78). -/
def Search.begin (r : Requester) (tag : BitVec 16) (wanted : Rights) : Search where
  tag := tag
  wanted := wanted
  level := r.level
  filters := r.filters
  next := 1
  verdict := .notFound

/-- The read at the search's start (R78): a tag that is not visible is not found, else the first examination is next. -/
def beginSearch (slot : Slot) (tag : BitVec 16) (wanted : Rights) (s : State) : State :=
  let k := Search.begin s.su[slot] tag wanted
  if visible k.filters tag then toStage (.search k) s else failRequest .notFound Handle.null tag.toNat s

/-- The claims of an OPEN: the standing check, the fields with the read of level and filters, the examinations (R78, R161). -/
def openClaim (slot : Slot) (tag : BitVec 16) (wanted : Byte) (stage : Stage) (s : State) : State :=
  match stage with
  | .begun =>
    if s.su[slot].standing = .limited then failRequest .limited Handle.null 0 s else toStage .checked s
  | .checked =>
    match rightsOf wanted.toNat with
    | none => failRequest .badRequest Handle.null 0 s
    | some w => beginSearch slot tag w s
  | .search k => examine slot k s
  | .translation | .slotClaim | .bursts | .ending _ _ => s

/-- OPEN (R78) -/
def execOpen (s : State) (claims : Option Nat := none) : Answer :=
  .next (serveRow (fun q => match q.body with
    | .openWindow tag wanted => some (openClaim q.slot tag wanted)
    | _ => none) claims s)

/-! ### CLOSE, QUERY -/

/-- The one claim of a service that has no stage but its first: what `claim` does there. -/
def onlyClaim (claim : State → State) (stage : Stage) (s : State) : State :=
  match stage with
  | .begun => claim s
  | .checked | .search _ | .translation | .slotClaim | .bursts | .ending _ _ => s

/-- The claim of a CLOSE (R87). -/
def closeClaim (slot : Slot) (h : Handle) (s : State) : State :=
  match checkHandle s slot h with
  | .error c => failRequest c h 0 s
  | .ok _ => reach .ok [] (s.updDesc h.index (Descriptor.removeOpener slot))

/-- CLOSE (R87) -/
def execClose (s : State) (claims : Option Nat := none) : Answer :=
  .next (serveRow (fun q => match q.body with
    | .closeWindow h => some (onlyClaim (closeClaim q.slot h))
    | _ => none) claims s)

/-- The effective rights a QUERY reports: none through a gate whose target fails the identity part of check 6 (R55). -/
def queryRights (s : State) (d : Descriptor) (granted : Rights) : Rights :=
  if d.dtype = .gate ∧ !targetIdentity s d then 0 else effectiveRights s d granted

/-- The read of a QUERY (R55): no notice of any kind. -/
def queryClaim (slot : Slot) (h : Handle) (s : State) : State :=
  match checkHandle s slot h with
  | .error c => reach c [] s
  | .ok granted =>
    let d := s.wt[h.index]
    reach .ok (queryRecord d slot (queryRights s d granted)) s

/-- QUERY (R55, R163) -/
def execQuery (s : State) (claims : Option Nat := none) : Answer :=
  .next (serveRow (fun q => match q.body with
    | .query h => some (onlyClaim (queryClaim q.slot h))
    | _ => none) claims s)

/-! ### Direct access (chapter 5) -/

/-- Request the first of a direct access's bursts, the rest noted in the in-service record (R95). -/
def serverBursts (bs : List Burst) (s : State) : State :=
  match bs, s.server with
  | b :: rest, some r => requestBurst Claimant.rs b (s.setServer (some { r with stage := .bursts, rest := rest }))
  | _, _ => s

/-- Stage 4 and the first request of stage 5: translate every byte of the resolved window, then request the first burst
(R94, R95). -/
def translateAndBurst (bursts : List (Nat × Nat) → List Burst) (s : State) : State :=
  match s.server.bind (·.resolved) with
  | none => s
  | some w =>
    match translate s w.base w.baseOffset w.length with
    | .error entry => reach .mapHole [] (raiseMapHole entry s)
    | .ok pieces => serverBursts (bursts pieces) s

/-- The in-service record takes the resolved window and its pins (R93). -/
def noteResolved (w : Resolved) (s : State) : State :=
  (placePins w.pinned s).setServer (s.server.map fun r => { r with resolved := some w, pins := r.pins ++ w.pinned })

/-- Stage 3 (R93): resolution, and after a pass what `go` does in the same claim, the pins placed. -/
def resolveThen (slot : Slot) (h : Handle) (offset length : Nat) (needed : Rights) (go : State → State) (s : State) : State :=
  match resolve s slot h offset length needed false false with
  | .error (code, touched) => failRequest code h offset (touchAbsent touched s)
  | .ok w => go (noteResolved w s)

/-- Stage 1 of a direct access (R161): the offset and the number of bytes in their ranges. -/
def accessFieldsOk (offset n : Nat) : Bool := decide (offset ≤ Config.maxOffset) && decide (1 ≤ n) && decide (n ≤ 64)

/-- Stages 1 and 2 of a direct access: the fields, then the standing, where `limited` is what a LIMITED slot's request comes
to (R91, R92). That both are one claim is the model's choice (log entry 10). -/
def accessChecks (slot : Slot) (h : Handle) (offset n : Nat) (limited : State → State) (s : State) : State :=
  if !accessFieldsOk offset n then failRequest .badRequest h offset s
  else if s.su[slot].standing = .limited then limited s
  else toStage .checked s

/-- The claims of a direct access, stage by stage (R91): the checks, the resolution, the translation. -/
def accessClaims (checks resolution translation : State → State) (stage : Stage) (s : State) : State :=
  match stage with
  | .begun => checks s
  | .checked => resolution s
  | .translation => translation s
  | .search _ | .slotClaim | .bursts | .ending _ _ => s

/-- READ (R91), which a LIMITED slot may make (R92) -/
def execRead (s : State) (claims : Option Nat := none) : Answer :=
  .next (serveRow (fun q => match q.body with
    | .read h offset n => some (accessClaims (accessChecks q.slot h offset n.toNat (toStage .checked))
        (resolveThen q.slot h offset n.toNat Rights.R (toStage .translation)) (translateAndBurst readBursts))
    | _ => none) claims s)

/-- WRITE (R91) -/
def execWrite (s : State) (claims : Option Nat := none) : Answer :=
  .next (serveRow (fun q => match q.body with
    | .write h offset bytes => some (accessClaims
        (accessChecks q.slot h offset bytes.length (failRequest .limited h offset))
        (resolveThen q.slot h offset bytes.length Rights.W (toStage .translation))
        (translateAndBurst (writeBursts · bytes)))
    | _ => none) claims s)

/-- The interlock step of a READ_LOCK (R99). -/
def lockStep (slot : Slot) (h : Handle) (offset : Nat) (s : State) : State :=
  let holder := s.wt[h.index].holder
  if holder = none ∨ holder = some slot then
    (takeLock h.index slot s).setServer (s.server.map fun r => { r with lockTaken := true, stage := .translation })
  else failRequest .lockBusy h offset s

/-- READ_LOCK (R91, R92, R99) -/
def execReadLock (s : State) (claims : Option Nat := none) : Answer :=
  .next (serveRow (fun q => match q.body with
    | .readLock h offset n => some (accessClaims
        (accessChecks q.slot h offset n.toNat (failRequest .limited h offset))
        (resolveThen q.slot h offset n.toNat (Rights.R ||| Rights.K) (lockStep q.slot h offset))
        (translateAndBurst readBursts))
    | _ => none) claims s)

/-- The interlock step of a WRITE_UNLOCK (R102). -/
def unlockStep (slot : Slot) (h : Handle) (offset : Nat) (s : State) : State :=
  let d := s.wt[h.index]
  if d.holder = some slot then toStage .translation (s.updDesc h.index Descriptor.releaseLock)
  else if d.holder = none ∧ d.expiredHolder = some slot then
    failRequest .lockLost h offset (s.updDesc h.index fun d => { d with expiredHolder := none })
  else failRequest .notHolder h offset s

/-- The claim of a WRITE_UNLOCK answered LIMITED: the interlock its slot holds on the descriptor the handle names is released
(R92). R92 calls this release one further claim and does not say whether others may fall between it and the standing read: the
model takes fields, standing and release in one claim, its choice (log entry 10). -/
def limitedRelease (slot : Slot) (h : Handle) (s : State) : State :=
  let d := s.wt[h.index]
  if h.index ≠ 0 ∧ d.state ≠ .free ∧ d.gen = h.gen then s.updDesc h.index (Descriptor.releaseIfHolder slot) else s

/-- WRITE_UNLOCK (R91, R92, R102). A LIMITED slot's release falls in the claim of the standing read, the model's choice (log
entry 10). -/
def execWriteUnlock (s : State) (claims : Option Nat := none) : Answer :=
  .next (serveRow (fun q => match q.body with
    | .writeUnlock h offset bytes => some (accessClaims
        (accessChecks q.slot h offset bytes.length fun s => failRequest .limited h offset (limitedRelease q.slot h s))
        (resolveThen q.slot h offset bytes.length (Rights.W ||| Rights.K) (unlockStep q.slot h offset))
        (translateAndBurst (writeBursts · bytes)))
    | _ => none) claims s)

/-! ### START, CANCEL, CHANNEL_STATUS -/

/-- A channel byte 0..3 (R161). -/
def chanOf (b : Nat) : Option Chan := if h : b < 4 then some ⟨b, h⟩ else none

/-- The slot claim of a START (R112). The list window's pin passes from the in-service record to a primary. -/
def slotClaim (c : Chan) (slot : Slot) (h : Handle) (offset : Nat) (s : State) : State :=
  match s.chans[c].primary, s.chans[c].backup with
  | none, _ =>
    let pins := (s.server.elim [] (·.pins)).map (⟨·, .list⟩)
    let s := s.updChan c fun ch =>
      { ch with state := .fetch, primary := some (Primary.fresh slot h offset pins .fetch) }
    reach .ok [] (s.setServer (s.server.map fun r => { r with pins := [] }))
  | some _, none => reach .ok [] (s.updChan c fun ch => { ch with backup := some ⟨slot, h, offset⟩ })
  | some _, some _ => reach .channelBusy [] s

/-- Stages 1 and 2 of a START: the fields, then the standing (R111). -/
def startChecks (slot : Slot) (channel : Byte) (h : Handle) (offset : Nat) (s : State) : State :=
  if (chanOf channel.toNat).isNone || decide (Config.maxOffset < offset) then failRequest .badRequest h offset s
  else if s.su[slot].standing = .limited then failRequest .limited h offset s
  else toStage .checked s

/-- Stage 3 of a START: the resolution of its list handle (R111). -/
def startResolution (slot : Slot) (h : Handle) (offset : Nat) (s : State) : State :=
  match resolve s slot h offset 1 Rights.F true true with
  | .error (code, touched) => failRequest code h offset (touchAbsent touched s)
  | .ok w => toStage .slotClaim (noteResolved w s)

/-- The claims of a START, stage by stage (R111). -/
def startClaims (slot : Slot) (channel : Byte) (h : Handle) (offset : Nat) (stage : Stage) (s : State) : State :=
  match stage with
  | .begun => startChecks slot channel h offset s
  | .checked => startResolution slot h offset s
  | .slotClaim => (chanOf channel.toNat).elim s fun c => slotClaim c slot h offset s
  | .search _ | .translation | .bursts | .ending _ _ => s

/-- START (R111) -/
def execStart (s : State) (claims : Option Nat := none) : Answer :=
  .next (serveRow (fun q => match q.body with
    | .start channel h offset => some (startClaims q.slot channel h offset)
    | _ => none) claims s)

/-- The claim of a CANCEL on its channel (R114): whether a slot of the sender was found, and the state after. -/
def cancelClaim (c : Chan) (slot : Slot) (s : State) : Bool × State :=
  let ch := s.chans[c]
  let mineB := ch.backup.any (·.owner == slot)
  let mineP := ch.primary.any (·.owner == some slot)
  let s := if mineB then emptyBackup c s else s
  let s := if mineP then abortPrimary c .aborted s else s
  (mineB || mineP, s)

/-- The one claim of a CANCEL (R114). -/
def serveCancel (slot : Slot) (channel : Byte) (s : State) : State :=
  match chanOf channel.toNat with
  | none => failRequest .badRequest Handle.null 0 s
  | some c =>
    let (found, s) := cancelClaim c slot s
    reach (if found then .ok else .notFound) [] s

/-- CANCEL (R114) -/
def execCancel (s : State) (claims : Option Nat := none) : Answer :=
  .next (serveRow (fun q => match q.body with
    | .cancel channel => some (onlyClaim (serveCancel q.slot channel))
    | _ => none) claims s)

/-- The read of a CHANNEL_STATUS (R136). -/
def serveChannelStatus (channel : Byte) (s : State) : State :=
  match chanOf channel.toNat with
  | none => failRequest .badRequest Handle.null 0 s
  | some c => reach .ok (channelStatusRecord s.chans[c]) s

/-- CHANNEL_STATUS (R136, R164) -/
def execChannelStatus (s : State) (claims : Option Nat := none) : Answer :=
  .next (serveRow (fun q => match q.body with
    | .channelStatus channel => some (onlyClaim (serveChannelStatus channel))
    | _ => none) claims s)

/-- UNKNOWN_KIND (R161): BAD_REQUEST, a violation, with the null handle and offset 0. -/
def execUnknownKind (s : State) (claims : Option Nat := none) : Answer :=
  .next (serveRow (fun q => match q.body with
    | .unknown _ => some (onlyClaim (failRequest .badRequest Handle.null 0))
    | _ => none) claims s)

end Sys2Proof.Machine
end

