-- ==== Sys2Proof/Machine/Bursts.lean ====
section
/-! DEFINITION. What comes to the blocks while they work: a burst's completion (BURST_COMPLETE, with everything the Request
Server or a channel does next), a noted channel's abort claim (FORCE_ABORT_CLAIM), an interlock's expiry (INTERLOCK_EXPIRY). -/

namespace Sys2Proof.Machine

/-! ### BURST_COMPLETE at the Request Server (R95, R96) -/

/-- The payload of an OK reply to the in-service direct access: the bytes read (R162). -/
def directPayload (body : ReqBody) (data : List Byte) : List Byte :=
  match body with
  | .read _ _ _ | .readLock _ _ _ => data
  | _ => []

/-- The Request Server's burst completes (R95, R96). -/
def serverBurstDone (st : BurstStatus) (data : List Byte) (s : State) : State :=
  match s.server with
  | none => s
  | some r =>
    if st = .uncorrectable then endService .memoryError [] s
    else
      let data := r.data ++ data
      match r.rest with
      | [] => endService .ok (directPayload r.request.body data) s
      | bs => serverBursts bs (s.setServer (some { r with data := data }))

/-! ### BURST_COMPLETE at a channel (R116 to R125) -/

/-- A step fetch has read its sixteen bytes: the step is decoded and checked for form (R117, R118). -/
def stepRead (c : Chan) (p : Primary) (owner : Slot) (bytes : List Byte) (s : State) : State :=
  match decodeStep bytes with
  | none => failList c .listFormat owner p.handle p.offset s
  | some (.jump target) =>
    if p.jumps + 1 > 8 then failList c .listLoop owner p.handle p.offset s
    else updPrimary c (fun q => { q with
      offset := target, step := none, bytesDone := 0, jumps := q.jumps + 1, work := .fetch }) s
  | some (.move src srcOff dst dstOff count fill last down) =>
    updPrimary c (fun q => { q with
      step := some (.move src srcOff dst dstOff count fill last down), bytesDone := 0, jumps := 0
      source := none, dest := none, completion := none, work := .resolve }) s
  | some (.halt comp offset) =>
    updPrimary c (fun q => { q with
      step := some (.halt comp offset), bytesDone := 0
      source := none, dest := none, completion := none, work := .resolve }) s

/-- The pins of a step, as against the list's (R109). -/
def isStepPin (p : ChanPin) : Bool := p.purpose != .list

/-- A MOVE step's last unit is written: its pins fall, and the list ends OK on LAST or goes on to the next step (R123). -/
def stepComplete (c : Chan) (p : Primary) (last : Bool) (s : State) : State :=
  let s := removePins ((p.pins.filter isStepPin).map (·.index)) s
  let s := updPrimary c (fun q => { q with
    pins := q.pins.filter fun x => !isStepPin x
    step := none, bytesDone := 0, source := none, dest := none, completion := none }) s
  if last then endList c .ok s
  else
    (updPrimary c (fun q => { q with offset := q.offset + 16, work := .fetch }) s).updChan c
      fun ch => { ch with state := .fetch }

/-- A unit of n bytes is written: they count as done, and the step is complete when all are (R120, R123). -/
def unitWritten (c : Chan) (p : Primary) (n : Nat) (s : State) : State :=
  let done := p.bytesDone + n
  let s := updPrimary c (fun q => { q with
    bytesDone := done, total := q.total + BitVec.ofNat 32 n, work := .unit }) s
  if p.mark.isSome then endAtBoundary c s
  else match p.step with
    | some (.move _ _ _ _ count _ last _) => if done ≥ count then stepComplete c p last s else s
    | _ => s

/-- A channel's burst completes. A list that carries an ending mark is then at its boundary (R131): read data are discarded,
and a unit's written bytes are counted; an uncorrectable burst ends an unmarked list MEMORY_ERROR (R116, R124, R125). -/
def channelBurstDone (c : Chan) (st : BurstStatus) (data : List Byte) (s : State) : State :=
  match s.chans[c].primary with
  | none => s
  | some p =>
    match p.work with
    | .unitWrite n =>
      if st = .uncorrectable then
        (if p.mark.isSome then endAtBoundary c s else endList c .memoryError s)
      else unitWritten c p n s
    | w =>
      if p.mark.isSome then endAtBoundary c s
      else if st = .uncorrectable then endList c .memoryError s
      else match w, p.owner with
        | .fetchBurst [] got, some owner => stepRead c p owner (got ++ data) s
        | .fetchBurst (b :: rest) got, _ => channelBurst c b (.fetchBurst rest (got ++ data)) s
        | .unitRead n dst, _ => channelBurst c (.write dst data) (.unitWrite n) s
        | .recordBurst [], _ => endList c .ok s
        | .recordBurst (b :: rest), _ => channelBurst c b (.recordBurst rest) s
        | _, _ => s

/-- The granted burst completes: it is carried out, the DRAM is free, and its claimant goes on (R70). -/
def burstComplete (upsets : List Upset) (s : State) : State :=
  match s.port.granted with
  | none => s
  | some (cl, b) =>
    let (st, data, s) := performBurst b (upsets.foldl applyUpset s)
    let s := s.setPort { s.port with granted := none }
    settle (if h : cl = 0 then serverBurstDone st data s else channelBurstDone (cl.pred h) st data s)

/-- BURST_COMPLETE (R70). With no burst granted there is none to complete (log entry 9). -/
def execBurstComplete (upsets : List Upset) (s : State) : Answer := .next (burstComplete upsets s)

/-! ### FORCE_ABORT_CLAIM (R133) -/

/-- The abort claim of a noted run; a channel whose noted run has ended, or that was never noted, is left as it is (R133). -/
def forceAbortClaim (c : Chan) (s : State) : State :=
  match s.chans[c].primary with
  | some p =>
    if p.noted then settle (abortPrimary c .aborted (updPrimary c (fun q => { q with noted := false }) s)) else s
  | none => s

/-- FORCE_ABORT_CLAIM (R133) -/
def execForceAbortClaim (c : Chan) (s : State) : Answer := .next (forceAbortClaim c s)

/-! ### INTERLOCK_EXPIRY (R101) -/

/-- The expiry claim: mark the holder, charge it, raise LOCK_EXPIRED, and take the teardown where the charge bars the holder
(R101). The time is the expiry's, or later (log entry 6). -/
def expireLock (i : DIdx) (holder : Slot) (s : State) : State :=
  let d := s.wt[i]
  let s := s.setNow (max s.now (d.expiry.getD 0))
  let s := s.updDesc i fun d => { d.releaseLock with expiredHolder := some holder }
  let s := raiseLockExpired i s
  violation .lockExpired holder none ⟨d.gen, i⟩ 0 false s

/-- INTERLOCK_EXPIRY (R101). An interlock that is not held has no expiry to reach (R98). -/
def execInterlockExpiry (i : DIdx) (s : State) : Answer :=
  .next <| match s.wt[i].holder with
    | some h => settle (expireLock i h s)
    | none => s

/-! ### Time (R98) -/

/-- One µs passes while no command waits (log entry 6), and the channels take up work that a step before has left
(log entry 20). -/
def tick (s : State) : State := settle (s.setNow (s.now + 1))

end Sys2Proof.Machine
end

