-- ==== Sys2Proof/Machine/Manager.lean ====
section
/-! DEFINITION. The manager's commands (9.2, 10.8): the taking of a command word, and each command over the copies of the
parameter words. -/

namespace Sys2Proof.Machine

/-- A write of this command code to ENGINE_COMMAND (R169): dropped with OVERRUN while the engine is BUSY; otherwise the engine
becomes BUSY with copies of the parameter words and begins the command. While RESET is asserted the window ignores writes
(R183). -/
def takeCommand (code : Byte) (body : Vector Word 4 → State → State) (s : State) : State :=
  if s.lines.reset then s
  else match s.engine.state with
    | .busy _ => s.setEngine { s.engine with overrun := true }
    | .idle =>
      settle (body s.engine.params (s.setEngine { s.engine with
        state := .busy .claim, command := code, copies := s.engine.params }))

/-- The index a 16-bit field names, if it is a usable descriptor's (R1). -/
def usableIndex (n : Nat) : Option DIdx := if 1 ≤ n ∧ n ≤ 255 then some (idxOf n) else none

/-- The slot a byte field names. -/
def slotOf (n : Nat) : Option Slot := if h : n < 16 then some ⟨n, h⟩ else none

/-- The level, or the filter number, a byte field names. -/
def fin4Of (n : Nat) : Option (Fin 4) := if h : n < 4 then some ⟨n, h⟩ else none

/-! ### CREATE (R20) -/

/-- The ranges and the placement constraint of a DATA or LIST window (R5, R20 check 3). -/
def placementOk (mapStart firstOffset length : Nat) : Bool :=
  decide (mapStart ≤ 2047) && decide (firstOffset ≤ 4095) && decide (1 ≤ length) && decide (length ≤ Config.maxLength) &&
    decide (firstOffset + length ≤ (2048 - mapStart) * Config.frameBytes)

/-- The ranges of a gate's fields (R20 check 4). -/
def gateRangesOk (gateOffset gateLength : Nat) : Bool :=
  decide (gateOffset ≤ Config.maxOffset) && decide (1 ≤ gateLength) && decide (gateLength ≤ Config.maxLength)

/-- The target is VALID or ABSENT, of type DATA, and long enough for the gate's range (R20 check 7). -/
def gateTargetOk (s : State) (target : DIdx) (gateOffset gateLength : Nat) : Bool :=
  let t := s.wt[target]
  target != 0 && (t.state == .valid || t.state == .absent) && t.dtype == .data &&
    decide (gateOffset + gateLength ≤ t.length)

/-- The lowest FREE index in 1..255 (R20 check 5). -/
def lowestFree (s : State) : Option DIdx :=
  (((List.range' 1 255).map idxOf).find? fun i => s.wt[i].state == .free)

/-- The initial state of a new descriptor: 1 VALID, 2 ABSENT (10.8). -/
def initialState (n : Nat) : Option DState :=
  match n with
  | 1 => some .valid
  | 2 => some .absent
  | _ => none

/-- The parameters of CREATE, as their fields hold them (10.8). -/
def createChecks (p : Vector Word 4) (s : State) : Except Code (DIdx × (Descriptor → Descriptor)) :=
  let index := field p[0] 15 0
  let target := idxOf (field p[0] 31 24)
  let mapStart := field p[2] 15 0
  let firstOffset := field p[2] 31 16
  let gateOffset := p[2].toNat
  let length := p[3].toNat
  if index > 255 then .error .badIndex
  else match initialState (field p[0] 19 16), dtypeOf (field p[0] 23 20), fin4Of (field p[1] 23 16),
      rightsOf (field p[1] 31 24) with
    | some st, some ty, some level, some rights =>
      if ty ≠ .gate ∧ !placementOk mapStart firstOffset length then .error .badField
      else if ty = .gate ∧ !gateRangesOk gateOffset length then .error .badField
      else
        match if index = 0 then lowestFree s else some (idxOf index) with
        | none => .error .noSpace
        | some i =>
          if s.wt[i].state ≠ .free then .error .notFree
          else if ty = .gate ∧ !gateTargetOk s target gateOffset length then .error .gateTarget
          else .ok (i, fun d =>
            let live := { d with state := st, dtype := ty, tag := BitVec.ofNat 16 (field p[1] 15 0), level := level,
                                 rights := rights }
            if ty = .gate then
              { live with mapStart := 0, firstOffset := 0, length := 0, targetIndex := target
                          targetGen := s.wt[target].gen, gateOffset := gateOffset, gateLength := length }
            else
              { live with mapStart := mapStart, firstOffset := firstOffset, length := length, targetIndex := 0
                          targetGen := 0, gateOffset := 0, gateLength := 0 })
    | _, _, _, _ => .error .badField

/-- CREATE's claim (R20): OK with the handle of the new life, or the first failing check's code. -/
def createClaim (p : Vector Word 4) (s : State) : State :=
  match createChecks p s with
  | .error code => completeWith code s
  | .ok (i, f) =>
    let s := s.updDesc i f
    complete .ok (Results.one (handleNat ⟨s.wt[i].gen, i⟩)) s

/-- CREATE (R20) -/
def execCreate (s : State) : Answer := .next (takeCommand 0x01 createClaim s)

/-! ### MODIFY (R22) -/

/-- The check of new gate fields against the target as it stands (R22 check 7). -/
def modifyGateOk (s : State) (d : Descriptor) (gateOffset gateLength : Nat) : Bool :=
  let t := s.wt[d.targetIndex]
  (t.state == .valid || t.state == .absent) && t.gen == d.targetGen && t.dtype == .data &&
    decide (gateOffset + gateLength ≤ t.length)

/-- The three groups applied together (R22); P1 to P3 as for CREATE. -/
def modifyGroups (p : Vector Word 4) (identity access placement : Bool) (d : Descriptor) : Descriptor :=
  let d := if identity then { d with tag := BitVec.ofNat 16 (field p[1] 15 0) } else d
  let d := if access then
      { d with level := (fin4Of (field p[1] 23 16)).getD d.level, rights := (rightsOf (field p[1] 31 24)).getD d.rights }
    else d
  if placement then
    if d.dtype = .gate then { d with gateOffset := p[2].toNat, gateLength := p[3].toNat }
    else { d with mapStart := field p[2] 15 0, firstOffset := field p[2] 31 16, length := p[3].toNat }
  else d

/-- The checks of MODIFY in their order (R22). -/
def modifyChecks (p : Vector Word 4) (s : State) : Except Code (DIdx × (Descriptor → Descriptor)) :=
  match usableIndex (field p[0] 15 0) with
  | none => .error .badIndex
  | some i =>
    let d := s.wt[i]
    let mask := field p[0] 23 16
    let identity := mask.testBit 0
    let access := mask.testBit 1
    let placement := mask.testBit 2
    if d.state ≠ .valid ∧ d.state ≠ .absent then .error .badState
    else if mask > 7 then .error .badField
    else if access ∧ ((fin4Of (field p[1] 23 16)).isNone ∨ (rightsOf (field p[1] 31 24)).isNone) then .error .badField
    else if placement ∧ d.dtype ≠ .gate ∧ !placementOk (field p[2] 15 0) (field p[2] 31 16) p[3].toNat then
      .error .badField
    else if placement ∧ d.dtype = .gate ∧ !gateRangesOk p[2].toNat p[3].toNat then .error .badField
    else if placement ∧ d.dtype = .gate ∧ !modifyGateOk s d p[2].toNat p[3].toNat then .error .gateTarget
    else if placement ∧ d.pins > 0 then .error .pinned
    else .ok (i, modifyGroups p identity access placement)

/-- MODIFY's claim (R22). -/
def modifyClaim (p : Vector Word 4) (s : State) : State :=
  match modifyChecks p s with
  | .error code => completeWith code s
  | .ok (i, f) => completeOk (s.updDesc i f)

/-- MODIFY (R22) -/
def execModify (s : State) : Answer := .next (takeCommand 0x02 modifyClaim s)

/-! ### SET_ABSENT, SET_VALID, RETIRE -/

/-- A claim that moves a descriptor from one state to another, else BAD_STATE (R26, R27). -/
def markClaim (was becomes : DState) (p : Vector Word 4) (s : State) : State :=
  match usableIndex (field p[0] 15 0) with
  | none => completeWith .badIndex s
  | some i =>
    if s.wt[i].state = was then completeOk (s.updDesc i fun d => { d with state := becomes })
    else completeWith .badState s

/-- SET_ABSENT (R26) -/
def execSetAbsent (s : State) : Answer := .next (takeCommand 0x03 (markClaim .valid .absent) s)

/-- SET_VALID (R27) -/
def execSetValid (s : State) : Answer := .next (takeCommand 0x04 (markClaim .absent .valid) s)

/-- The claim both modes of RETIRE take on the descriptor: RETIRING, its interlock released, and on to FREE where no pin is
held (R29, R30). -/
def retireDescriptor (i : DIdx) (s : State) : State :=
  let s := s.updDesc i fun d => { d.releaseLock with state := .retiring }
  if s.wt[i].pins = 0 then enterFree i s else s

/-- The primary holds a pin on the descriptor (R30). -/
def Primary.holdsPin (i : DIdx) (p : Primary) : Bool := p.pins.any (·.index == i)

/-- Every channel whose primary holds a pin on the descriptor is noted (R30, R133). -/
def noteChannels (i : DIdx) (s : State) : State :=
  ([0, 1, 2, 3] : List Chan).foldl (fun t c =>
    updPrimary c (fun p => { p with noted := p.noted || p.holdsPin i }) t) s

/-- RETIRE's claim (R28 to R30). FORCE waits for the descriptor's entry into FREE; the noted channels take their abort claims
by FORCE_ABORT_CLAIM. -/
def retireClaim (p : Vector Word 4) (s : State) : State :=
  match usableIndex (field p[0] 15 0) with
  | none => completeWith .badIndex s
  | some i =>
    let mode := field p[0] 23 16
    if mode ≠ 1 ∧ mode ≠ 2 then completeWith .badField s
    else if s.wt[i].state = .free then completeWith .badState s
    else if s.wt[i].state = .retiring ∧ mode = 1 then completeWith .badState s
    else if mode = 1 then completeOk (retireDescriptor i s)
    else retireDescriptor i (noteChannels i (s.setEngine { s.engine with state := .busy (.retire i) }))

/-- RETIRE (R28) -/
def execRetire (s : State) : Answer := .next (takeCommand 0x05 retireClaim s)

/-! ### The reads of the table: READ_DESCRIPTOR, READ_OPENER, PROBE -/

/-- READ_DESCRIPTOR's claim (R32). -/
def readDescriptorClaim (p : Vector Word 4) (s : State) : State :=
  match usableIndex (field p[0] 15 0) with
  | none => completeWith .badIndex s
  | some i => complete .ok (readDescriptorWords s.wt[i]) s

/-- READ_DESCRIPTOR (R32) -/
def execReadDescriptor (s : State) : Answer := .next (takeCommand 0x06 readDescriptorClaim s)

/-- READ_OPENER's claim (R33): the index is checked before the slot. -/
def readOpenerClaim (p : Vector Word 4) (s : State) : State :=
  match usableIndex (field p[0] 15 0), slotOf (field p[1] 7 0) with
  | none, _ => completeWith .badIndex s
  | some _, none => completeWith .badField s
  | some i, some slot => complete .ok (Results.one (readOpenerWord s.wt[i].openers[slot])) s

/-- READ_OPENER (R33) -/
def execReadOpener (s : State) : Answer := .next (takeCommand 0x07 readOpenerClaim s)

/-- The verdict of PROBE on a descriptor for a slot's record (R89). -/
def probeVerdict (r : Requester) (d : Descriptor) (rights : Rights) : Code :=
  if !visible r.filters d.tag then .notFound
  else if d.level < r.level then .level
  else if !Rights.within rights d.rights then .rights
  else if d.state ≠ .valid ∧ d.state ≠ .absent then .notFound
  else .ok

/-- PROBE's claim (R89): the verdict travels in RESULT0. -/
def probeClaim (p : Vector Word 4) (s : State) : State :=
  match usableIndex (field p[0] 15 0), slotOf (field p[1] 7 0), rightsOf (field p[1] 15 8) with
  | none, _, _ => completeWith .badIndex s
  | some i, some slot, some rights =>
    complete .ok (Results.one (probeVerdict s.su[slot] s.wt[i] rights).toNat) s
  | some _, _, _ => completeWith .badField s

/-- PROBE (R89) -/
def execProbe (s : State) : Answer := .next (takeCommand 0x08 probeClaim s)

/-! ### The map commands (3.5) -/

/-- MAP_WRITE's claim (R64). -/
def mapWriteClaim (p : Vector Word 4) (s : State) : State :=
  match markOf (field p[2] 7 0) with
  | none => completeWith .badField s
  | some valid =>
    if h : field p[0] 15 0 < 2048 then
      if p[1].toNat < Config.maxFrames then completeOk (s.setPm (s.pm.set (field p[0] 15 0) ⟨valid, p[1].toNat⟩))
      else completeWith .badField s
    else completeWith .badField s

/-- MAP_WRITE (R64) -/
def execMapWrite (s : State) : Answer := .next (takeCommand 0x10 mapWriteClaim s)

/-- The map with the entries first .. first + count - 1 changed by f, which is told an entry's place in the run. -/
def updEntries (first count : Nat) (f : Nat → MapEntry → MapEntry) (pm : Vector MapEntry 2048) : Vector MapEntry 2048 :=
  mapTableIdx (fun e x => if first ≤ e ∧ e < first + count then f (e - first) x else x) pm

/-- The run of entries lies in the map (R65, R66). -/
def runOk (first count : Nat) : Bool :=
  decide (first ≤ 2047) && decide (1 ≤ count) && decide (count ≤ 2048) && decide (first + count ≤ 2048)

/-- MAP_FILL's claim (R65). -/
def mapFillClaim (p : Vector Word 4) (s : State) : State :=
  let first := field p[0] 15 0
  let count := p[1].toNat
  let frame := p[2].toNat
  if runOk first count ∧ frame + count - 1 ≤ 131071 then
    completeOk (s.setPm (updEntries first count (fun k _ => ⟨true, frame + k⟩) s.pm))
  else completeWith .badField s

/-- MAP_FILL (R65) -/
def execMapFill (s : State) : Answer := .next (takeCommand 0x11 mapFillClaim s)

/-- MAP_CLEAR's claim (R66): the frame fields are kept. -/
def mapClearClaim (p : Vector Word 4) (s : State) : State :=
  let first := field p[0] 15 0
  let count := p[1].toNat
  if runOk first count then
    completeOk (s.setPm (updEntries first count (fun _ x => { x with valid := false }) s.pm))
  else completeWith .badField s

/-- MAP_CLEAR (R66) -/
def execMapClear (s : State) : Answer := .next (takeCommand 0x12 mapClearClaim s)

/-- MAP_READ's claim (R67). -/
def mapReadClaim (p : Vector Word 4) (s : State) : State :=
  if field p[0] 15 0 < 2048 then complete .ok (Results.one (mapReadWord (mapEntry s (field p[0] 15 0)))) s
  else completeWith .badField s

/-- MAP_READ (R67) -/
def execMapRead (s : State) : Answer := .next (takeCommand 0x13 mapReadClaim s)

/-! ### The requester commands -/

/-- REQUESTER_SET's claim (R141): the engine completes without waiting for the lists a teardown ends. -/
def requesterSetClaim (p : Vector Word 4) (s : State) : State :=
  match slotOf (field p[0] 7 0), markOf (field p[0] 15 8), fin4Of (field p[0] 23 16) with
  | some slot, some enable, some level =>
    let was := s.su[slot].enabled
    let s := s.updSlot slot fun r => { r with enabled := enable, level := level }
    completeOk (if was && !enable then teardown .disable slot false none s else s)
  | _, _, _ => completeWith .badField s

/-- REQUESTER_SET (R141) -/
def execRequesterSet (s : State) : Answer := .next (takeCommand 0x18 requesterSetClaim s)

/-- FILTER_SET's claim (R173). -/
def filterSetClaim (p : Vector Word 4) (s : State) : State :=
  match slotOf (field p[0] 7 0), fin4Of (field p[0] 15 8), markOf (field p[0] 23 16) with
  | some slot, some k, some enabled =>
    let f : Filter := ⟨enabled, BitVec.ofNat 16 (field p[1] 15 0), BitVec.ofNat 16 (field p[1] 31 16)⟩
    completeOk (s.updSlot slot fun r => { r with filters := r.filters.set k f })
  | _, _, _ => completeWith .badField s

/-- FILTER_SET (R173) -/
def execFilterSet (s : State) : Answer := .next (takeCommand 0x19 filterSetClaim s)

/-- REQUESTER_READ's claim (R154, R185). -/
def requesterReadClaim (p : Vector Word 4) (s : State) : State :=
  match slotOf (field p[0] 7 0) with
  | some slot =>
    if field p[0] 15 8 ≤ 1 then complete .ok (requesterReadWords s.su[slot] (field p[0] 15 8)) s
    else completeWith .badField s
  | none => completeWith .badField s

/-- REQUESTER_READ (R154) -/
def execRequesterRead (s : State) : Answer := .next (takeCommand 0x1A requesterReadClaim s)

/-- READMIT's claim (R153). -/
def readmitClaim (p : Vector Word 4) (s : State) : State :=
  match slotOf (field p[0] 7 0) with
  | some slot => completeOk (s.updSlot slot fun r => r.withScore 0)
  | none => completeWith .badField s

/-- READMIT (R153) -/
def execReadmit (s : State) : Answer := .next (takeCommand 0x1B readmitClaim s)

/-! ### The channel commands -/

/-- CHANNEL_READ's claim (R137, R185). -/
def channelReadClaim (p : Vector Word 4) (s : State) : State :=
  match chanOf (field p[0] 7 0) with
  | some c =>
    if field p[0] 15 8 ≤ 2 then complete .ok (channelReadWords s.chans[c] (field p[0] 15 8)) s
    else completeWith .badField s
  | none => completeWith .badField s

/-- CHANNEL_READ (R137) -/
def execChannelRead (s : State) : Answer := .next (takeCommand 0x20 channelReadClaim s)

/-- The abort of a channel's primary by the manager: the engine waits for the marked list's end, or completes at once where
there is none (R132). -/
def abortAndWait (c : Chan) (s : State) : State :=
  if s.chans[c].primary.isSome then
    abortPrimary c .aborted (s.setEngine { s.engine with state := .busy (.abort c) })
  else completeOk s

/-- CHANNEL_ABORT's claim (R132): selector 1 PRIMARY, 2 BACKUP, 3 BOTH. -/
def channelAbortClaim (p : Vector Word 4) (s : State) : State :=
  match chanOf (field p[0] 7 0), field p[0] 15 8 with
  | some c, 1 => abortAndWait c s
  | some c, 2 => completeOk (emptyBackup c s)
  | some c, 3 => abortAndWait c (emptyBackup c s)
  | _, _ => completeWith .badField s

/-- CHANNEL_ABORT (R132) -/
def execChannelAbort (s : State) : Answer := .next (takeCommand 0x21 channelAbortClaim s)

/-- CHANNEL_RESUME's claim (R129): the channel leaves STOPPED, the engine completes, and the channel then checks the stopped
work again. -/
def channelResumeClaim (p : Vector Word 4) (s : State) : State :=
  match chanOf (field p[0] 7 0) with
  | some c =>
    if s.chans[c].state = .stopped then
      completeOk (updPrimary c (fun q => { q with work := .resume }) (s.updChan c fun ch => { ch with state := .fetch }))
    else completeWith .badState s
  | none => completeWith .badField s

/-- CHANNEL_RESUME (R129) -/
def execChannelResume (s : State) : Answer := .next (takeCommand 0x22 channelResumeClaim s)

/-! ### The rest -/

/-- FAULT_ACK's claim (R182). -/
def faultAckClaim (_p : Vector Word 4) (s : State) : State :=
  completeOk (s.setAttn { s.attn with fault := FaultRecord.empty })

/-- FAULT_ACK (R182) -/
def execFaultAck (s : State) : Answer := .next (takeCommand 0x28 faultAckClaim s)

/-- SET_LOCK_TIMEOUT's claim (R174): RESULT0 carries the setting replaced. -/
def setLockTimeoutClaim (p : Vector Word 4) (s : State) : State :=
  if 16 ≤ p[0].toNat ∧ p[0].toNat ≤ 65535 then
    complete .ok (Results.one s.engine.timeout) (s.setEngine { s.engine with timeout := p[0].toNat })
  else completeWith .badField s

/-- SET_LOCK_TIMEOUT (R174) -/
def execSetLockTimeout (s : State) : Answer := .next (takeCommand 0x29 setLockTimeoutClaim s)

/-- LINK_RESET's claim (R175): the engine waits for what the reset ends. -/
def linkResetClaim (_p : Vector Word 4) (s : State) : State :=
  linkReset (s.setEngine { s.engine with state := .busy (.link (Vector.replicate 4 false) false) })

/-- LINK_RESET (R175) -/
def execLinkReset (s : State) : Answer := .next (takeCommand 0x30 linkResetClaim s)

/-- DEVICE_RESET's claim (R176): the engine's own reset leaves it IDLE with code 0. -/
def deviceResetClaim (_p : Vector Word 4) (s : State) : State := deviceReset s

/-- DEVICE_RESET (R176) -/
def execDeviceReset (s : State) : Answer := .next (takeCommand 0x31 deviceResetClaim s)

end Sys2Proof.Machine
end

