-- ==== Sys2Proof/Machine/Registers.lean ====
section
/-! DEFINITION. The register window (R168): what a read of each register returns, the read of ENGINE_STATUS, and the writes. -/

namespace Sys2Proof.Machine

/-- ENGINE_STATUS: bit 0 BUSY, bits 15..8 last result code, bit 16 OVERRUN (10.7, R170). -/
def engineStatusWord (e : Engine) : Word :=
  word (putBit 0 (e.state != .idle) + put 15 8 e.lastCode.toNat + putBit 16 e.overrun)

/-- FAULT0 (10.7, R181) -/
def faultWord0 (f : FaultRecord) : Word := word (putBit 0 f.valid + putBit 1 f.lost)

/-- FAULT1: reason, slot, source (10.7). -/
def faultWord1 (f : FaultRecord) : Word :=
  word (put 7 0 f.reason.toNat + put 11 8 f.slot.val + put 18 16 (f.source.elim 0 (·.val + 1)))

/-- What a read at an offset of the register window returns (10.7); an offset that names no register reads 0. FAULT3 shows the
low 23 bits of an offset that needs 24: of a BAD_REQUEST, and of a RANGE at list offset 8,388,608, which reads 0 there (log
entry 12). -/
def registerValue (s : State) (offset : Nat) : Word :=
  match offset with
  | 0x04 => s.engine.params[0]
  | 0x08 => s.engine.params[1]
  | 0x0C => s.engine.params[2]
  | 0x10 => s.engine.params[3]
  | 0x14 => s.engine.results[0]
  | 0x18 => s.engine.results[1]
  | 0x1C => s.engine.results[2]
  | 0x20 => s.engine.results[3]
  | 0x24 => engineStatusWord s.engine
  | 0x28 => s.attn.pending.setWidth 32
  | 0x2C => s.attn.enable.setWidth 32
  | 0x30 => word (attentionCode s.attn)
  | 0x34 => faultWord0 s.attn.fault
  | 0x38 => faultWord1 s.attn.fault
  | 0x3C => word (handleNat s.attn.fault.handle)
  | 0x40 => word (put 22 0 s.attn.fault.offset)
  | 0x44 => word s.attn.absentLatch.val
  | 0x48 => word (put 10 0 s.attn.holeLatch)
  | 0x4C => word (put 16 0 s.port.correctedLatch)
  | 0x50 => word s.attn.standingLatch.val
  | 0x54 => word s.attn.lockLatch.val
  | 0x58 => word s.attn.retireLatch.val
  | 0x5C => word s.attn.goneLatch.val
  | _ => 0

/-- A read of the window, as it stands when the read is taken; while RESET is asserted it reads 0 (R168, R183). -/
def readRegister (s : State) (offset : Nat) : Word := if s.lines.reset then 0 else registerValue s offset

/-- ENGINE_STATUS: the read returns OVERRUN as it stands and clears it in the same access (R170). -/
def execEngineStatus (s : State) : Answer :=
  .next ((s.setBusRead (readRegister s 0x24)).setEngine { s.engine with overrun := false })

/-- A write of ATTN_PENDING: each one clears the bit in its position (R179). -/
def writeAttnPending (v : Word) (s : State) : State :=
  if s.lines.reset then s
  else s.setAttn { s.attn with pending := s.attn.pending &&& ~~~(v.setWidth 12) }

/-- ATTN_PENDING (R179) -/
def execAttnPending (v : Word) (s : State) : Answer := .next (writeAttnPending v s)

/-- A write of ATTN_ENABLE: all twelve enable bits are replaced (R178). -/
def writeAttnEnable (v : Word) (s : State) : State :=
  if s.lines.reset then s else s.setAttn { s.attn with enable := v.setWidth 12 }

/-- ATTN_ENABLE (R178) -/
def execAttnEnable (v : Word) (s : State) : Answer := .next (writeAttnEnable v s)

/-- A write of one of PARAM0 to PARAM3 stores the value (R168). -/
def writeParam (k : Fin 4) (v : Word) (s : State) : State :=
  if s.lines.reset then s else s.setEngine { s.engine with params := s.engine.params.set k v }

/-- An unknown command code completes at once with BAD_FIELD (R169). -/
def unknownClaim (_p : Vector Word 4) (s : State) : State := completeWith .badField s

/-- The claim that a command code begins (10.8). -/
def claimOf (code : Byte) : Vector Word 4 → State → State :=
  match code.toNat with
  | 0x01 => createClaim
  | 0x02 => modifyClaim
  | 0x03 => markClaim .valid .absent
  | 0x04 => markClaim .absent .valid
  | 0x05 => retireClaim
  | 0x06 => readDescriptorClaim
  | 0x07 => readOpenerClaim
  | 0x08 => probeClaim
  | 0x10 => mapWriteClaim
  | 0x11 => mapFillClaim
  | 0x12 => mapClearClaim
  | 0x13 => mapReadClaim
  | 0x18 => requesterSetClaim
  | 0x19 => filterSetClaim
  | 0x1A => requesterReadClaim
  | 0x1B => readmitClaim
  | 0x20 => channelReadClaim
  | 0x21 => channelAbortClaim
  | 0x22 => channelResumeClaim
  | 0x28 => faultAckClaim
  | 0x29 => setLockTimeoutClaim
  | 0x30 => linkResetClaim
  | 0x31 => deviceResetClaim
  | _ => unknownClaim

/-- UNKNOWN_COMMAND (R169): a well-formed one's code is none of the table's. -/
def execUnknownCommand (code : Byte) (s : State) : Answer := .next (takeCommand code (claimOf code) s)

/-- A write at an offset of the register window (R168): a parameter word is stored, a read-only register and an offset that
names no register take no effect, and the three writes with rows of their own do what those do. -/
def writeRegister (offset : Nat) (v : Word) (s : State) : State :=
  match offset with
  | 0x00 => takeCommand (v.setWidth 8) (claimOf (v.setWidth 8)) s
  | 0x04 => writeParam 0 v s
  | 0x08 => writeParam 1 v s
  | 0x0C => writeParam 2 v s
  | 0x10 => writeParam 3 v s
  | 0x28 => writeAttnPending v s
  | 0x2C => writeAttnEnable v s
  | _ => s

/-- REGISTER_WRITE (R168) -/
def execRegisterWrite (offset : Nat) (v : Word) (s : State) : Answer := .next (writeRegister offset v s)

end Sys2Proof.Machine
end

