-- ==== Sys2Proof/Machine/Dispatch.lean ====
section
/-! DEFINITION. One arm per command: the meaning of each, called directly. -/

namespace Sys2Proof.Machine

def exec (i : Instr) (s : State) : Host.Outcome State Fault Refusal :=
  match i with
  | .confirmation slot message => Sys2Proof.Machine.execConfirmation slot message s
  | .openWindow claims => Sys2Proof.Machine.execOpen s claims
  | .closeWindow claims => Sys2Proof.Machine.execClose s claims
  | .read claims => Sys2Proof.Machine.execRead s claims
  | .write claims => Sys2Proof.Machine.execWrite s claims
  | .readLock claims => Sys2Proof.Machine.execReadLock s claims
  | .writeUnlock claims => Sys2Proof.Machine.execWriteUnlock s claims
  | .query claims => Sys2Proof.Machine.execQuery s claims
  | .start claims => Sys2Proof.Machine.execStart s claims
  | .cancel claims => Sys2Proof.Machine.execCancel s claims
  | .channelStatus claims => Sys2Proof.Machine.execChannelStatus s claims
  | .unknownKind claims => Sys2Proof.Machine.execUnknownKind s claims
  | .burstComplete upsets => Sys2Proof.Machine.execBurstComplete upsets s
  | .forceAbortClaim channel => Sys2Proof.Machine.execForceAbortClaim channel s
  | .interlockExpiry index => Sys2Proof.Machine.execInterlockExpiry index s
  | .presentRise slot => Sys2Proof.Machine.execPresentRise slot s
  | .presentFall slot => Sys2Proof.Machine.execPresentFall slot s
  | .init => Sys2Proof.Machine.execInit s
  | .initRelease => Sys2Proof.Machine.execInitRelease s
  | .reset => Sys2Proof.Machine.execReset s
  | .resetRelease => Sys2Proof.Machine.execResetRelease s
  | .create => Sys2Proof.Machine.execCreate s
  | .modify => Sys2Proof.Machine.execModify s
  | .setAbsent => Sys2Proof.Machine.execSetAbsent s
  | .setValid => Sys2Proof.Machine.execSetValid s
  | .retire => Sys2Proof.Machine.execRetire s
  | .readDescriptor => Sys2Proof.Machine.execReadDescriptor s
  | .readOpener => Sys2Proof.Machine.execReadOpener s
  | .probe => Sys2Proof.Machine.execProbe s
  | .mapWrite => Sys2Proof.Machine.execMapWrite s
  | .mapFill => Sys2Proof.Machine.execMapFill s
  | .mapClear => Sys2Proof.Machine.execMapClear s
  | .mapRead => Sys2Proof.Machine.execMapRead s
  | .requesterSet => Sys2Proof.Machine.execRequesterSet s
  | .filterSet => Sys2Proof.Machine.execFilterSet s
  | .requesterRead => Sys2Proof.Machine.execRequesterRead s
  | .readmit => Sys2Proof.Machine.execReadmit s
  | .channelRead => Sys2Proof.Machine.execChannelRead s
  | .channelAbort => Sys2Proof.Machine.execChannelAbort s
  | .channelResume => Sys2Proof.Machine.execChannelResume s
  | .faultAck => Sys2Proof.Machine.execFaultAck s
  | .setLockTimeout => Sys2Proof.Machine.execSetLockTimeout s
  | .linkReset => Sys2Proof.Machine.execLinkReset s
  | .deviceReset => Sys2Proof.Machine.execDeviceReset s
  | .unknownCommand code => Sys2Proof.Machine.execUnknownCommand code s
  | .engineStatus => Sys2Proof.Machine.execEngineStatus s
  | .attnPending value => Sys2Proof.Machine.execAttnPending value s
  | .attnEnable value => Sys2Proof.Machine.execAttnEnable value s
  | .registerWrite offset value => Sys2Proof.Machine.execRegisterWrite offset value s

end Sys2Proof.Machine
end

