-- ==== Sys2Proof/Safety.lean ====
section
/-! DEFINITION. The laws that the part keeps in every step, and the words in which statements describe states: when nothing
is left for a channel or the arbiter to take up, how an answered request or a completed command leaves the state, who holds a
pin, what a slot still has in the part. -/

namespace Sys2Proof.Machine

/-! ### When the part waits for the next command -/

/-- No channel has work to take up, and the DRAM is not free while a burst waits (R69). -/
def Settled (s : State) : Prop := readyChannel s = none ∧ (s.port.granted = none → nextClaimant s.port = none)

/-- The register window answers (R183), and a written command word is taken (R169). -/
def EngineReady (s : State) : Prop := s.lines.reset = false ∧ s.engine.state = .idle

/-- The Request Server is IDLE and this request is the one at the head of the queue (R90). -/
def AtHead (s : State) (q : Request) (rest : List Request) : Prop := s.server = none ∧ s.rq = q :: rest

/-! ### How a command or a request leaves the state -/

/-- The engine after a command has completed: IDLE, its command record, result words and last result code (R169, R171). -/
def Engine.completed (e : Engine) (command : Byte) (code : Code) (results : Results) : Engine :=
  { e with state := .idle, command := command, copies := e.params, results := results, lastCode := code }

/-- The state after a command that changed the engine alone. -/
def State.engineAnswers (s : State) (command : Byte) (code : Code) (results : Results) : State :=
  { s with engine := s.engine.completed command code results }

/-- A slot's record after a clean completion notice (R54, R143). -/
def Requester.credited (r : Requester) : Requester :=
  { r with score := if r.score ≤ 255 then r.score - 1 else r.score
           standing := standingOf (if r.score ≤ 255 then r.score - 1 else r.score) }

/-- A slot's record after a violation notice (R53, R143). -/
def Requester.charged (r : Requester) : Requester :=
  { r with score := min (r.score + 8) 256, standing := standingOf (min (r.score + 8) 256) }

/-- A clean completion of a slot. -/
def State.credited (s : State) (slot : Slot) : State := { s with su := s.su.set slot s.su[slot].credited }

/-- The Attention Unit after a violation notice: the record takes it and FAULT is raised, or LOST is set (R181); an upward
entry raises STANDING with its latch (R144). -/
def Attention.notified (a : Attention) (n : FaultRecord) (before after : Standing) : Attention :=
  let b := if a.fault.valid then { a with fault := { a.fault with lost := true } }
    else { a with pending := a.pending ||| 0x001, fault := n }
  if before.toNat < after.toNat then { b with pending := b.pending ||| 0x002, standingLatch := n.slot } else b

/-- A violation that does not bar its slot (R53). -/
def State.charged (s : State) (reason : Code) (slot : Slot) (source : Option Chan) (h : Handle) (offset : Nat) : State :=
  { s with
    su := s.su.set slot s.su[slot].charged
    attn := s.attn.notified ⟨true, false, reason, slot, source, h, offset⟩ s.su[slot].standing
      s.su[slot].charged.standing }

/-- A failing verdict noticed: ABSENT raises ABSENT_TOUCH with its latch (R41), a violation that does not bar is charged
(R53). -/
def State.failing (s : State) (code : Code) (touched : Option DIdx) (slot : Slot) (source : Option Chan) (h : Handle)
    (offset : Nat) : State :=
  let t : State := { s with attn := touched.elim s.attn fun i =>
    { s.attn with pending := s.attn.pending ||| 0x040, absentLatch := i } }
  if code.isViolation = true then t.charged code slot source h offset else t

/-- The head request has been served whole: it has left the queue, its slot's count has fallen, its reply is out (R90). -/
def State.answered (s : State) (q : Request) (rest : List Request) (code : Code) (payload : List Byte) : State :=
  { s with
    rq := rest
    su := s.su.set q.slot { s.su[q.slot] with outstanding := s.su[q.slot].outstanding - 1 }
    linkOut := s.linkOut ++ [.reply ⟨q.slot, q.tag, code, payload⟩] }

/-- The Window Table with one pin more for each entry of the list (R17). -/
def withPins (wt : Vector Descriptor 256) (is : List DIdx) : Vector Descriptor 256 :=
  is.foldl (fun v (i : DIdx) => v.set i { v[i] with pins := v[i].pins + 1 }) wt

/-- The port after a request of a claimant: the burst has the DRAM if it was free, else it waits (R69, R70). -/
def Port.requested (p : Port) (cl : Claimant) (b : Burst) : Port :=
  if p.granted.isSome then { p with waiting := p.waiting.set cl (some b) }
  else { p with granted := some (cl, b), pointer := cl }

/-- The in-service record of a direct access whose resolution and translation have passed (R90, R93, R94). -/
def InService.accessing (q : Request) (w : Resolved) (more : List Burst) : InService :=
  { InService.begin q with stage := .bursts, resolved := some w, pins := w.pinned, rest := more }

/-! ### The end of a service (R90) -/

/-- The row that serves requests of this kind, told how many claims to carry out. -/
def ReqBody.row (body : ReqBody) (claims : Option Nat) : Instr :=
  match body with
  | .openWindow _ _ => .openWindow claims
  | .closeWindow _ => .closeWindow claims
  | .read _ _ _ => .read claims
  | .write _ _ _ => .write claims
  | .readLock _ _ _ => .readLock claims
  | .writeUnlock _ _ _ => .writeUnlock claims
  | .query _ => .query claims
  | .start _ _ _ => .start claims
  | .cancel _ => .cancel claims
  | .channelStatus _ => .channelStatus claims
  | .unknown _ => .unknownKind claims

/-- The replies that a service with this result sends as its disposition says, the held answers after its own (R90). -/
def InService.replies (r : InService) (code : Code) (payload : List Byte) : List LinkMsg :=
  let reply (code : Code) (payload : List Byte) : LinkMsg := .reply ⟨r.request.slot, r.request.tag, code, payload⟩
  let own : List LinkMsg := match r.disposition with
    | .send => [reply code payload]
    | .discard => []
    | .disabled => [reply .disabled []]
    | .barred => [reply .barred []]
  own ++ r.held.map fun (tag, answer) => .reply ⟨r.request.slot, tag, answer, []⟩

/-- The requester record of the request's slot after the service has ended: credited for an OK that is sent, but for a QUERY,
its count lower unless the request is detached (R54, R90, R160). -/
def InService.leaves (r : InService) (code : Code) (q : Requester) : Requester :=
  let q := if r.disposition = .send ∧ code = .ok ∧ r.request.body.isQuery = false then q.credited else q
  if r.detached then q else { q with outstanding := q.outstanding - 1 }

/-- The engine after the command that kept it BUSY has completed OK (R169, R171). -/
def Engine.finished (e : Engine) : Engine := { e with state := .idle, results := Results.zero, lastCode := .ok }

/-- The engine after a LINK_RESET that waits has these ends left to wait for (R175). -/
def Engine.waitsFor (e : Engine) (lists : Vector Bool 4) (detached : Bool) : Engine :=
  if lists = Vector.replicate 4 false ∧ detached = false then e.finished
  else { e with state := .busy (.link lists detached) }

/-- The engine after a list of the channel has ended: a CHANNEL_ABORT of the channel has its end, a LINK_RESET waits for one
list less (R132, R175). -/
def Engine.listEnded (e : Engine) (c : Chan) : Engine :=
  match e.state with
  | .busy (.abort d) => if d = c then e.finished else e
  | .busy (.link lists detached) => e.waitsFor (lists.set c false) detached
  | .idle | .busy .claim | .busy (.retire _) => e

/-- The engine after a detached request's service has ended (R172, R175). -/
def Engine.detachedEnded (e : Engine) : Engine :=
  match e.state with
  | .busy (.link lists _) => e.waitsFor lists false
  | .idle | .busy .claim | .busy (.retire _) | .busy (.abort _) => e

/-- The state after the claim that ends a service, its interlock apart (R90): its pins have fallen, its replies are out, the
slot's count has fallen, and the end of a detached request has reached the engine. -/
def State.ended (s : State) (r : InService) (code : Code) (payload : List Byte) : State :=
  let t := removePins r.pins { s with server := none }
  { t with
    su := s.su.set r.request.slot (r.leaves code s.su[r.request.slot])
    linkOut := s.linkOut ++ r.replies code payload
    engine := if r.detached then t.engine.detachedEnded else t.engine }

/-- The state in which the interlock is given up that a READ_LOCK took and cannot keep (R103): its result is not OK, or its
OK is not sent. -/
def State.lockGivenUp (s : State) (r : InService) (code : Code) : State :=
  match r.resolved with
  | some w =>
    if r.lockTaken = true ∧ (code ≠ .ok ∨ r.disposition ≠ .send) ∧ s.wt[w.index].holder = some r.request.slot then
      { s with wt := s.wt.set w.index { s.wt[w.index] with holder := none, expiry := none } }
    else s
  | none => s

/-- The stages before the claim that decides a service's effect (R86, R88, R105). -/
def Stage.early : Stage → Bool
  | .begun | .checked | .search _ => true
  | .slotClaim | .translation | .bursts | .ending _ _ => false

/-- What a teardown of a slot leaves of the request in service and sends on the link (R150, R152). A request of the slot takes
the disposition and the held answers that the cause gives it; before its deciding claim it ends at once, before its slot claim
a START goes to its end. Without such a request the answers of the removed entries are sent. -/
def TeardownReaches (s u : State) (slot : Slot) (disposition : InService → Disposition) (answers : List (BitVec 3 × Code))
    (kept : InService → List (BitVec 3 × Code)) : Prop :=
  let sent : List LinkMsg := answers.map fun (tag, code) => .reply ⟨slot, tag, code, []⟩
  (∀ r, s.server = some r → r.request.slot = slot → r.detached = false →
    let torn : InService := { r with disposition := disposition r, held := kept r ++ answers }
    if r.stage.early = true then u.server = none ∧ u.linkOut = s.linkOut ++ torn.replies .ok []
    else u.linkOut = s.linkOut ∧
      u.server = some { torn with stage := if r.stage = .slotClaim then .ending .ok [] else r.stage }) ∧
  ((∀ r, s.server = some r → r.request.slot ≠ slot ∨ r.detached = true) →
    u.server = s.server ∧ u.linkOut = s.linkOut ++ sent)

/-- The service has yet to take the claim that could give its slot an entry, a pin or a channel's slot. -/
def Stage.uncommitted : Stage → Bool
  | .begun | .checked | .search _ | .slotClaim => true
  | .translation | .bursts | .ending _ _ => false

/-! ### Views -/

/-- Every byte of shared DRAM reads as before. -/
def SameBytes (s t : State) : Prop := ∀ a, Memory.read t.mem a = Memory.read s.mem a

/-- Every byte of shared DRAM outside these n bytes reads as before. -/
def SameBytesOutside (a n : Nat) (s t : State) : Prop :=
  ∀ x, x < a ∨ a + n ≤ x → Memory.read t.mem x = Memory.read s.mem x

/-- The slot is in no opener set, holds no interlock, is no expired holder, owns no channel slot and has no entry in the
request queue (R148). -/
def HoldsNothing (s : State) (slot : Slot) : Prop :=
  (∀ i : DIdx, s.wt[i].openers[slot] = none ∧ s.wt[i].holder ≠ some slot ∧ s.wt[i].expiredHolder ≠ some slot) ∧
  (∀ c : Chan, (∀ p, s.chans[c].primary = some p → p.owner ≠ some slot) ∧
    (∀ b, s.chans[c].backup = some b → b.owner ≠ slot)) ∧
  ∀ q ∈ s.rq, q.slot ≠ slot

/-- Pins that the Request Server holds on a descriptor (R16). -/
def serverPins (s : State) (i : DIdx) : Nat := s.server.elim 0 fun r => r.pins.count i

/-- Pins that a channel's primary slot holds on a descriptor (R16). -/
def channelPins (s : State) (c : Chan) (i : DIdx) : Nat :=
  s.chans[c].primary.elim 0 fun p => (p.pins.map (·.index)).count i

/-- Pins that are held on a descriptor (R16). -/
def holdsOn (s : State) (i : DIdx) : Nat :=
  serverPins s i + channelPins s 0 i + channelPins s 1 i + channelPins s 2 i + channelPins s 3 i

/-- Requests of a slot in the queue (R159). -/
def queuedOf (s : State) (slot : Slot) : Nat := s.rq.countP fun q => q.slot == slot

/-- The slot's request in service, a detached one not counted (R160). -/
def inServiceOf (s : State) (slot : Slot) : Nat :=
  s.server.elim 0 fun r => if r.request.slot = slot ∧ r.detached = false then 1 else 0

/-! ### What a teardown leaves (7.4) -/

/-- A descriptor from which this many pins have fallen: the last one on a RETIRING descriptor has freed it (R10, R18). -/
def Descriptor.unpinned (d : Descriptor) (n : Nat) : Descriptor :=
  if d.state = .retiring ∧ 0 < n ∧ d.pins ≤ n then
    { d with
      state := .free, gen := d.gen + 1, openers := Vector.replicate 16 none, pins := 0, holder := none, expiry := none
      expiredHolder := none }
  else { d with pins := d.pins - n }

/-- A descriptor without a slot's opener entry, the interlock it holds and the mark that names it (R149). -/
def Descriptor.without (d : Descriptor) (slot : Slot) : Descriptor :=
  { d with
    openers := d.openers.set slot none
    holder := if d.holder = some slot then none else d.holder
    expiry := if d.holder = some slot then none else d.expiry
    expiredHolder := if d.expiredHolder = some slot then none else d.expiredHolder }

/-- The result code of a list that its ending mark ends (R131). -/
def Mark.result (m : Mark) : Code :=
  match m.code with
  | .aborted => .aborted
  | .ownerGone => .ownerGone
  | .ownerBarred => .ownerBarred

/-- The primary slot that a backup becomes, its promotion checks still to come (R115, R126). -/
def Backup.promoted (b : Backup) : Primary where
  owner := some b.owner
  handle := b.handle
  offset := b.offset
  step := none
  bytesDone := 0
  total := 0
  jumps := 0
  pins := []
  mark := none
  source := none
  dest := none
  completion := none
  noted := false
  work := .promote

/-- What a teardown of a slot, with this ending mark, leaves of one channel (R134, R151). A backup of the slot is gone. A primary
of the slot carries the mark, or the one it had, and has no owner; with a burst granted it waits for its boundary, and the list
whose own violation is the cause of the teardown (`own`) waits for its own end. Any other ends at once: the outcome has the
mark's owner and code, the event is ABORTED, and another slot's backup is promoted. A primary of another slot stays. -/
def TornDownChannel (s u : State) (slot : Slot) (code : MarkCode) (own : Option Chan) (c : Chan) : Prop :=
  let ch := s.chans[c]
  let cl := Claimant.ch c
  let backup := ch.backup.filter fun b => b.owner != slot
  let waits : Prop := (∃ b, s.port.granted = some (cl, b)) ∨ own = some c
  ((∀ p, ch.primary = some p → p.owner ≠ some slot) →
    u.chans[c] = { ch with backup := backup } ∧ u.port.waiting[cl] = s.port.waiting[cl]) ∧
  ∀ p m, ch.primary = some p → p.owner = some slot → (p.mark <|> some ⟨code, slot⟩) = some m →
    (waits → u.chans[c] = { ch with backup := backup, primary := some { p with mark := some m, owner := none } } ∧
      u.port.waiting[cl] = s.port.waiting[cl]) ∧
    (¬ waits →
      u.chans[c] = {
        state := if backup.isSome then .fetch else .idle
        primary := backup.map Backup.promoted
        backup := none
        outcome := ⟨true, m.owner, p.handle.index, m.result, p.total, p.offset⟩
        event := some .aborted } ∧
      u.port.waiting[cl] = none ∧ u.attn.pending.getLsbD (c.val + 2) = true)

/-- What a teardown of a slot leaves: each channel as R134 says, every descriptor without the slot's entry, interlock and mark
(R149), the queue without its requests, the others in their order, and the slot's count so much lower (R150). Pins fall with
the lists and the request that end and with nothing else; other slots' entries, interlocks, marks and records, the map, shared
DRAM, the time and the turns to come stay (R148). -/
def TornDown (s u : State) (slot : Slot) (code : MarkCode) (own : Option Chan) : Prop :=
  (∀ c : Chan, TornDownChannel s u slot code own c) ∧
  (∀ i : DIdx, u.wt[i] = (s.wt[i].without slot).unpinned (holdsOn s i - holdsOn u i)) ∧
  u.rq = s.rq.filter (fun q => q.slot != slot) ∧
  u.su[slot].outstanding = s.su[slot].outstanding - queuedOf s slot - (inServiceOf s slot - inServiceOf u slot) ∧
  (∀ other : Slot, other ≠ slot → u.su[other] = s.su[other]) ∧
  u.port.granted = s.port.granted ∧ u.port.waiting[Claimant.rs] = s.port.waiting[Claimant.rs] ∧
  u.pm = s.pm ∧ u.mem = s.mem ∧ u.ecc = s.ecc ∧ u.now = s.now ∧ u.turns = s.turns

/-- What a teardown for barring leaves of the slot's request in service, where the violation is not that request's own: the
reply is to be BARRED unless it is discarded, and the slot's queued requests are answered BARRED (R147, R150, R152). -/
def BarringReaches (s u : State) (slot : Slot) : Prop :=
  TeardownReaches s u slot (fun r => if r.disposition = .discard then .discard else .barred)
    ((s.rq.filter fun q => q.slot == slot).map fun q => (q.tag, .barred)) (·.held)

/-- The violation that this record tells of brings its slot to 256 and bars it: the fault record is offered it, STANDING is
raised, and in the same claim the slot is torn down, so that it holds nothing (R53, R143, R144, R147, R181). -/
def BarsItsSlot (s u : State) (n : FaultRecord) : Prop :=
  u.su[n.slot] = { s.su[n.slot] with score := 256, standing := .barred, outstanding := u.su[n.slot].outstanding } ∧
  HoldsNothing u n.slot ∧
  u.attn.fault = (if s.attn.fault.valid then { s.attn.fault with lost := true } else n) ∧
  (s.attn.fault.valid = false → u.attn.pending.getLsbD 0 = true) ∧
  u.attn.pending.getLsbD 1 = true ∧ u.attn.standingLatch = n.slot ∧
  TornDown s u n.slot .ownerBarred n.source

/-- A violation that a list finds in its own fetch, step or promotion, and that bars its owner: the teardown marks this list
and leaves its end to the claim that follows, which records the violation's own code with event FAULT (R126, R147). -/
def ListBars (s t : State) (c : Chan) (p : Primary) (owner : Slot) (code : Code) (h : Handle) (offset : Nat) : Prop :=
  ∃ u, BarsItsSlot s u ⟨true, false, code, owner, some c, h, offset⟩ ∧ BarringReaches s u owner ∧ t = endList c code u ∧
    HoldsNothing t owner ∧ t.chans[c].outcome = ⟨true, owner, p.handle.index, code, p.total, p.offset⟩ ∧
    t.chans[c].event = some .fault

/-- A list ends with the code of its failing fetch, step or promotion: a violation is charged to its owner first, or bars it;
a neutral code moves no score (R53, R126). -/
def ListFails (s t : State) (c : Chan) (p : Primary) (owner : Slot) (code : Code) (touched : Option DIdx) (h : Handle)
    (offset : Nat) : Prop :=
  ((code.isViolation = true → s.su[owner].score ≤ 247) →
    t = endList c code (s.failing code touched owner (some c) h offset)) ∧
  (code.isViolation = true → 248 ≤ s.su[owner].score → s.su[owner].standing ≠ .barred →
    ListBars s t c p owner code h offset)

/-! ### Laws that every step keeps -/

/-- Every score lies in 0..256 and every standing is its score's band (R144). -/
def ScoreLaw (s : State) : Prop := ∀ slot : Slot, s.su[slot].score ≤ 256 ∧ s.su[slot].standing = standingOf s.su[slot].score

/-- An interlock holder is an opener with LOCK granted and no expired holder stands beside it, an expiry is present exactly
with a holder, and an expired holder is an opener (R15, R97). -/
def InterlockLaw (s : State) : Prop := ∀ i : DIdx,
  (s.wt[i].holder.isSome = s.wt[i].expiry.isSome) ∧
  (∀ h, s.wt[i].holder = some h → s.wt[i].expiredHolder = none ∧
    ∃ r, s.wt[i].openers[h] = some r ∧ r &&& Rights.K = Rights.K) ∧
  (∀ x, s.wt[i].expiredHolder = some x → (s.wt[i].openers[x]).isSome)

/-- A FREE descriptor has no opener, pin, interlock or mark, a RETIRING one has a pin and no holder, and index 0 keeps its
reset values (R1, R9, R10). -/
def LifecycleLaw (s : State) : Prop :=
  s.wt[(0 : DIdx)] = Descriptor.reset ∧ ∀ i : DIdx,
    (s.wt[i].state = .free → s.wt[i].openers = Vector.replicate 16 none ∧ s.wt[i].pins = 0 ∧ s.wt[i].holder = none ∧
      s.wt[i].expiry = none ∧ s.wt[i].expiredHolder = none) ∧
    (s.wt[i].state = .retiring → 1 ≤ s.wt[i].pins ∧ s.wt[i].holder = none)

/-- The fields a type does not use are 0, and the used ones lie in their ranges; a window that is not FREE has a length, and
its placement fits the map (R3, R5). -/
def PlacementLaw (s : State) : Prop := ∀ i : DIdx,
  if s.wt[i].dtype = .gate then
    s.wt[i].mapStart = 0 ∧ s.wt[i].firstOffset = 0 ∧ s.wt[i].length = 0 ∧
    s.wt[i].gateOffset ≤ 8388607 ∧ 1 ≤ s.wt[i].gateLength ∧ s.wt[i].gateLength ≤ 8388608
  else
    s.wt[i].targetIndex = 0 ∧ s.wt[i].targetGen = 0 ∧ s.wt[i].gateOffset = 0 ∧ s.wt[i].gateLength = 0 ∧
    s.wt[i].mapStart ≤ 2047 ∧ s.wt[i].firstOffset ≤ 4095 ∧ s.wt[i].length ≤ 8388608 ∧
    (s.wt[i].state ≠ .free → 1 ≤ s.wt[i].length) ∧
    s.wt[i].firstOffset + s.wt[i].length ≤ (2048 - s.wt[i].mapStart) * 4096

/-- Every map entry names a frame of the physical address space (R57). -/
def FrameLaw (s : State) : Prop := ∀ e : Fin 2048, s.pm[e].frame ≤ 131071

/-- Shared DRAM and the list of words in error keep their canonical forms. -/
def CanonicalMemory (s : State) : Prop := Memory.wf s.mem = true ∧ Ecc.wf s.ecc = true

/-- Every slot's count is its queued requests and the one in service, at most 4; the queue has at most 32 entries (R159). -/
def CreditLaw (s : State) : Prop :=
  s.rq.length ≤ 32 ∧
  ∀ slot : Slot, s.su[slot].outstanding = queuedOf s slot + inServiceOf s slot ∧ s.su[slot].outstanding ≤ 4

/-- A channel is IDLE exactly when its primary is empty, has a backup only behind a primary, is STOPPED exactly when its work
waits for the manager, and a primary without owner carries an ending mark (R108 to R110, R134). -/
def ChannelLaw (s : State) : Prop := ∀ c : Chan,
  (s.chans[c].state = .idle ↔ s.chans[c].primary = none) ∧
  (s.chans[c].backup ≠ none → s.chans[c].primary ≠ none) ∧
  ∀ p, s.chans[c].primary = some p →
    (s.chans[c].state = .stopped ↔ p.work = .stopped) ∧ (p.owner = none → p.mark ≠ none)

/-- Each pin count is the number of holds that the Request Server and the channels keep, and a promotion whose checks have
not been made holds none (R16, R115). -/
def PinLaw (s : State) : Prop :=
  (∀ i : DIdx, s.wt[i].pins = holdsOn s i) ∧
  ∀ c : Chan, ∀ p, s.chans[c].primary = some p → p.work = .promote → p.pins = []

/-- While the RESET pin is asserted every block holds its reset values, and present follows the lines (R183). -/
def HeldInReset (s : State) : Prop :=
  s.lines.reset = true →
    s.wt = State.reset.wt ∧ s.pm = State.reset.pm ∧ s.port.waiting = State.reset.port.waiting ∧ s.port.granted = none ∧
    s.port.pointer = Claimant.rs ∧ s.port.correctedLatch = 0 ∧ s.rq = [] ∧ s.server = none ∧
    s.chans = State.reset.chans ∧ s.engine = Engine.reset ∧ s.attn = Attention.reset ∧
    ∀ slot : Slot, s.su[slot] = Requester.reset s.lines.present[slot]

/-- The slot is disabled, not present or BARRED. -/
def ShutOut (s : State) (slot : Slot) : Prop :=
  s.su[slot].enabled = false ∨ s.su[slot].present = false ∨ s.su[slot].standing = .barred

/-- A slot that is disabled, not present or BARRED holds nothing, and a request of it in service, like a detached one, has
nothing more to gain (R86, R113, R148). -/
def TornDownLaw (s : State) : Prop :=
  (∀ slot : Slot, ShutOut s slot → HoldsNothing s slot) ∧
  ∀ r, s.server = some r → r.detached = true ∨ ShutOut s r.request.slot → r.stage.uncommitted = false

/-- A detached request's reply is discarded, and no answer is held behind it (R160, R167). -/
def DetachedLaw (s : State) : Prop :=
  ∀ r, s.server = some r → r.detached = true → r.disposition = .discard ∧ r.held = []

/-- Pins of a primary slot with this purpose. -/
def Primary.pinsFor (p : Primary) (u : Purpose) : Nat := p.pins.countP fun x => x.purpose == u

/-- A primary slot holds at most one pin on its list window and those of its current step alone: of a MOVE its source's and
its destination's, of a HALT its completion window's, a gate's target beside the window named; while it has no step whose
handles have been resolved it holds none but the list's. Its work on units and records has the windows it needs
(R16, R109). -/
def Primary.holdsOk (p : Primary) : Prop :=
  let pair (named target : Purpose) : Prop := p.pinsFor named ≤ 1 ∧ p.pinsFor target ≤ p.pinsFor named
  let absent (us : List Purpose) : Prop := ∀ u ∈ us, p.pinsFor u = 0
  let idleStep : Prop := absent [.source, .sourceTarget, .destination, .destinationTarget, .completion, .completionTarget]
  p.pinsFor .list ≤ 1 ∧
  (match p.step with
    | some (.move _ _ _ _ _ _ _ _) => pair .source .sourceTarget ∧ pair .destination .destinationTarget ∧
        absent [.completion, .completionTarget]
    | some (.halt _ _) => pair .completion .completionTarget ∧
        absent [.source, .sourceTarget, .destination, .destinationTarget]
    | some (.jump _) | none => idleStep) ∧
  (match p.work with
    | .promote => p.pins = []
    | .fetch | .fetchBurst _ _ => idleStep
    | .unit | .unitRead _ _ | .unitWrite _ =>
        p.dest.isSome = true ∧ ∃ src so dst d n f l dn, p.step = some (.move src so dst d n f l dn)
    | .record | .recordBurst _ => p.completion.isSome = true ∧ ∃ h o, p.step = some (.halt h o)
    | .resume | .resolve | .stopped => True)

/-- Each primary slot holds the pins of its run and no more, and the Request Server at most two, one for a START, none before
its resolution (R16). -/
def HoldLaw (s : State) : Prop :=
  (∀ c : Chan, ∀ p, s.chans[c].primary = some p → p.holdsOk) ∧
  ∀ r, s.server = some r →
    r.pins.length ≤ 2 ∧ (r.stage.uncommitted = true → r.pins.length ≤ 1 ∧ (r.stage ≠ .slotClaim → r.pins = []))

/-- The interlock timeout lies in its range (R98, R174). -/
def TimeoutLaw (s : State) : Prop := 16 ≤ s.engine.timeout ∧ s.engine.timeout ≤ 65535

end Sys2Proof.Machine
end

