-- ==== Sys2Proof/WellFormed.lean ====
section
/-! DEFINITION. What a command must satisfy to be an instance of its row: one check for each operand that its type does not
bound already. exec gives every term a meaning; the checks say which terms the table's rows stand for. -/

namespace Sys2Proof

/-- The command codes that the table of 10.8 names. -/
def knownCommandCodes : List Byte :=
  [0x01, 0x02, 0x03, 0x04, 0x05, 0x06, 0x07, 0x08, 0x10, 0x11, 0x12, 0x13,
   0x18, 0x19, 0x1A, 0x1B, 0x20, 0x21, 0x22, 0x28, 0x29, 0x30, 0x31]

/-- The offsets whose writes are rows of their own: ENGINE_COMMAND, ATTN_PENDING, ATTN_ENABLE (10.7). -/
def rowOffsets : List Nat := [0x00, 0x28, 0x2C]

/-- A command is well formed when its operands lie in the ranges the rules give them:
an upset hits a word of the 512 MiB address space (R57, R71); an expiry names a usable descriptor (R1);
an unknown command's code is unknown (R169); a register write is none of the three writes with rows of their own (R168). -/
def Instr.wellFormed : Instr → Bool
  | .burstComplete upsets => upsets.all fun u => decide (u.word < Config.maxWords)
  | .interlockExpiry index => index != 0
  | .unknownCommand code => !knownCommandCodes.contains code
  | .registerWrite offset _ => !rowOffsets.contains offset
  | .confirmation _ _ | .openWindow _ | .closeWindow _ | .read _ | .write _ | .readLock _ | .writeUnlock _ | .query _
  | .start _ | .cancel _ | .channelStatus _ | .unknownKind _ | .forceAbortClaim _ | .presentRise _ | .presentFall _ | .init | .initRelease | .reset
  | .resetRelease | .create | .modify | .setAbsent | .setValid | .retire | .readDescriptor | .readOpener | .probe
  | .mapWrite | .mapFill | .mapClear | .mapRead | .requesterSet | .filterSet | .requesterRead | .readmit | .channelRead
  | .channelAbort | .channelResume | .faultAck | .setLockTimeout | .linkReset | .deviceReset | .engineStatus
  | .attnPending _ | .attnEnable _ => true

end Sys2Proof
end

