-- ==== Sys2Proof/Certificates/Slice0/Obligations.lean ====
section
/-! DEFINITION. The statements for the provers. Each is one rule, or one group of rules, of the specification about what a
command does; a state that a command leaves is written out, so that the statement also says what the command leaves
unchanged. -/

open Sys2Proof Sys2Proof.Machine

/-! ### Steps -/

/-- A step takes the command at the front of the queue and carries it out on the state with the queue's rest. -/
def Obligations.StepCarriesOutTheFrontCommand : Prop :=
  ∀ (s : State) (c : Instr) (rest : List Instr),
    s.pending = c :: rest → step s = exec c { s with pending := rest }

/-- Every command has an effect in every state: the part never stops (the model's choice for events that cannot occur: log
entries 1 and 9). A step on an empty queue lets one µs pass and channels take up work that a step before has left; of a
settled part it changes nothing else (the model's choice: log entries 6 and 20). A request row serves the request in
service, or the oldest in the queue, where it is of the row's kind and no burst of it is out; in every other state the row
changes nothing (the model's choice: log entry 9). A row of no claims takes the oldest request into service and goes no
further. A CLOSE, QUERY, CANCEL, CHANNEL_STATUS or request of an unknown kind is served in one claim, and the claim that
ends its service is the next; a row of one claim leaves the service before its end. -/
def Obligations.EveryStepAnswersANextState : Prop :=
  (∀ (c : Instr) (s : State), ∃ t, exec c s = .next t) ∧
  (∀ s : State, s.pending = [] →
     step s = .next (settle { s with now := s.now + 1 }) ∧ (Settled s → step s = .next { s with now := s.now + 1 })) ∧
  (∀ (s : State) (b : ReqBody) (claims : Option Nat),
     let c := b.row claims
     (s.server = none → s.rq = [] → exec c s = .next s) ∧
     (∀ q rest, AtHead s q rest → q.body.row claims ≠ c → exec c s = .next s) ∧
     (∀ r, s.server = some r → r.stage = .bursts ∨ r.request.body.row claims ≠ c → exec c s = .next s) ∧
     (∀ q rest, Settled s → AtHead s q rest → exec (q.body.row (some 0)) s =
       .next { s with rq := rest, server := some (InService.begin q) })) ∧
  (∀ (s : State) (q : Request) (rest : List Request), AtHead s q rest →
     (∃ h channel kind, q.body = .closeWindow h ∨ q.body = .query h ∨ q.body = .cancel channel ∨
       q.body = .channelStatus channel ∨ q.body = .unknown kind) →
     ∃ (u : State) (r : InService) (code : Code) (payload : List Byte),
       u.server = some r ∧ r.request = q ∧ r.stage = .ending code payload ∧
       exec (q.body.row (some 1)) s = .next (settle u) ∧
       exec (q.body.row none) s = .next (settle ((u.lockGivenUp r code).ended r code payload)) ∧
       ∀ n, exec (q.body.row (some (n + 2))) s = exec (q.body.row none) s)

/-! ### Resets -/

/-- The values that the specification gives every block after a device reset stand in the reset state. -/
def Obligations.ResetStateHoldsTheResetValues : Prop :=
  (∀ i : DIdx, State.reset.wt[i] =
    { state := .free, gen := 0, dtype := .data, tag := 0, level := 0, rights := 0, mapStart := 0, firstOffset := 0,
      length := 0, targetIndex := 0, targetGen := 0, gateOffset := 0, gateLength := 0
      openers := Vector.replicate 16 none, pins := 0, holder := none, expiry := none, expiredHolder := none }) ∧
  (∀ e : Fin 2048, State.reset.pm[e] = ⟨false, 0⟩) ∧
  State.reset.port.pointer = Claimant.rs ∧ State.reset.port.correctedLatch = 0 ∧
  State.reset.port.granted = none ∧ (∀ cl : Claimant, State.reset.port.waiting[cl] = none) ∧
  (∀ slot : Slot, State.reset.su[slot] =
    { enabled := false, present := State.reset.lines.present[slot], level := 3,
      filters := Vector.replicate 4 ⟨false, 0, 0⟩, score := 0, standing := .good, outstanding := 0 }) ∧
  State.reset.rq = [] ∧ State.reset.server = none ∧
  (∀ c : Chan, State.reset.chans[c] =
    { state := .idle, primary := none, backup := none, outcome := ⟨false, 0, 0, .ok, 0, 0⟩, event := none }) ∧
  State.reset.engine.state = .idle ∧ State.reset.engine.params = Results.zero ∧
  State.reset.engine.results = Results.zero ∧ State.reset.engine.lastCode = .ok ∧
  State.reset.engine.overrun = false ∧ State.reset.engine.timeout = 1000 ∧
  State.reset.attn.pending = 0 ∧ State.reset.attn.enable = 0 ∧ State.reset.attn.standingLatch = 0 ∧
  State.reset.attn.absentLatch = 0 ∧ State.reset.attn.holeLatch = 0 ∧ State.reset.attn.lockLatch = 0 ∧
  State.reset.attn.retireLatch = 0 ∧ State.reset.attn.goneLatch = 0 ∧
  State.reset.attn.fault = ⟨false, false, .ok, 0, none, ⟨0, 0⟩, 0⟩ ∧ attentionLine State.reset.attn = false

/-- A device reset, from the pin or from the command, gives every block its reset values, present following the lines.
Shared DRAM stays where no write burst is granted; of a write burst that it cuts each byte is old or new, and every other
byte stays. That the size of the bank, the lines, the time, the messages sent, the value last read and the turns to come
stay, and that the cut is counted, is the model's (log entries 2, 3, 5 and 20). -/
def Obligations.DeviceResetGivesEveryBlockItsResetValues : Prop :=
  ∀ s : State, ∃ (mem : List Host.Cell) (ecc : List (Nat × WordErr)),
    let after (lines : Lines) : State :=
      { State.reset with
        port := { State.reset.port with installedFrames := s.port.installedFrames }
        mem := mem
        ecc := ecc
        su := Vector.ofFn fun slot => Requester.reset lines.present[slot]
        linkOut := s.linkOut
        busRead := s.busRead
        lines := lines
        now := s.now
        cuts := s.cuts + 1
        turns := s.turns
        pending := s.pending }
    (s.lines.reset = false → exec .reset s = .next (after { s.lines with reset := true })) ∧
    (EngineReady s → exec .deviceReset s = .next (after s.lines)) ∧
    ((∀ cl a bytes, s.port.granted ≠ some (cl, .write a bytes)) → mem = s.mem ∧ ecc = s.ecc) ∧
    (∀ cl a bytes, CanonicalMemory s → s.port.granted = some (cl, .write a bytes) →
      (∀ x, x < a ∨ a + bytes.length ≤ x → Memory.read mem x = Memory.read s.mem x) ∧
      (∀ k : Fin bytes.length, Memory.read mem (a + k) = Memory.read s.mem (a + k) ∨ Memory.read mem (a + k) = bytes[k]) ∧
      ∀ w, w < a / 8 ∨ (a + bytes.length - 1) / 8 < w → Sparse.find ecc w = Sparse.find s.ecc w)

/-- While the RESET pin is asserted, messages, the manager's accesses and the lines INIT and PRESENT change nothing but the
levels of lines, the present fields that follow them, and what a register read returns: 0. That RESET or INIT on a line
asserted already, and INIT under RESET, have no more effect than the line's level is the model's choice (log entry 9). The
releases of INIT and of the RESET pin change the line and nothing else. -/
def Obligations.AssertedResetPinHoldsThePart : Prop :=
  (∀ s : State, s.lines.reset = true →
     (∀ slot message, exec (.confirmation slot message) s = .next s) ∧
     (∀ c ∈ [Instr.create, .modify, .setAbsent, .setValid, .retire, .readDescriptor, .readOpener, .probe, .mapWrite,
         .mapFill, .mapClear, .mapRead, .requesterSet, .filterSet, .requesterRead, .readmit, .channelRead, .channelAbort,
         .channelResume, .faultAck, .setLockTimeout, .linkReset, .deviceReset], exec c s = .next s) ∧
     (∀ code, exec (.unknownCommand code) s = .next s) ∧
     (∀ v, exec (.attnPending v) s = .next s ∧ exec (.attnEnable v) s = .next s) ∧
     (∀ offset v, exec (.registerWrite offset v) s = .next s) ∧
     (∀ offset, readRegister s offset = 0) ∧
     exec .reset s = .next s ∧
     exec .init s = .next { s with lines := { s.lines with init := true } } ∧
     (∀ slot, exec (.presentRise slot) s = .next { s with
       lines := { s.lines with present := s.lines.present.set slot true }
       su := s.su.set slot { s.su[slot] with present := true } }) ∧
     (∀ slot, s.lines.present[slot] = true → exec (.presentFall slot) s = .next { s with
       lines := { s.lines with present := s.lines.present.set slot false }
       su := s.su.set slot { s.su[slot] with present := false } })) ∧
  (∀ s : State,
     exec .initRelease s = .next { s with lines := { s.lines with init := false } } ∧
     exec .resetRelease s = .next { s with lines := { s.lines with reset := false } })

/-! ### The link -/

/-- A readable message is refused, given BUSY or accepted, the conditions taken in that order; acceptance appends the
request and raises the slot's count, and nothing else changes. -/
def Obligations.ReadableMessageIsConfirmed : Prop :=
  ∀ (s : State) (slot : Slot) (message : List Byte) (tag : BitVec 3) (body : ReqBody),
    s.lines.init = false → s.lines.reset = false → parseMessage message = some (tag, body) →
    s.rq.length ≤ 32 → s.su[slot].outstanding ≤ 4 →
    let confirmed (c : Confirmation) : State := { s with linkOut := s.linkOut ++ [.confirmation slot c] }
    exec (.confirmation slot message) s = .next (
      if s.su[slot].enabled = false ∨ s.su[slot].present = false ∨ s.su[slot].standing = .barred then
        confirmed .refuse
      else if s.rq.length = 32 ∨ s.su[slot].outstanding = 4 then confirmed .busy
      else { confirmed .accept with
        rq := s.rq ++ [⟨slot, tag, body⟩]
        su := s.su.set slot { s.su[slot] with outstanding := s.su[slot].outstanding + 1 } })

/-- An unreadable message is given REFUSE and changes nothing; while INIT is asserted a message is not confirmed at all. A
message is readable exactly when its length is the one its kind byte calls for and the exclusive-or of all its bytes is 0.
-/
def Obligations.UnreadableMessageIsRefused : Prop :=
  (∀ (s : State) (slot : Slot) (message : List Byte),
     (s.lines.init = false → s.lines.reset = false → parseMessage message = none →
       exec (.confirmation slot message) s = .next { s with linkOut := s.linkOut ++ [.confirmation slot .refuse] }) ∧
     (s.lines.init = true → exec (.confirmation slot message) s = .next s)) ∧
  (∀ (kind tag : Byte) (rest : List Byte),
     let data (n : Nat) : Bool := match rest[5]? with
       | some count => rest.length == n + count.toNat
       | none => false
     let fits : Bool :=
       match kind.toNat with
       | 0x01 => rest.length == 4
       | 0x02 => rest.length == 3
       | 0x03 => rest.length == 7
       | 0x04 => data 7
       | 0x05 => rest.length == 7
       | 0x06 => data 7
       | 0x07 => rest.length == 3
       | 0x08 => rest.length == 7
       | 0x09 => rest.length == 2
       | 0x0A => rest.length == 2
       | _ => rest.length == 1
     ((parseMessage (kind :: tag :: rest)).isSome ↔
       fits = true ∧ (kind :: tag :: rest).foldl (fun x b => x ^^^ b) 0 = 0) ∧
     parseMessage [kind] = none ∧ parseMessage [] = none)

/-- Each kind's fields are read from the bytes that the formats give them. -/
def Obligations.MessageFieldsAreRead : Prop :=
  ∀ (t g i o2 o1 o0 n c p : Byte) (data : List Byte),
    let h : Handle := ⟨g, Fin.ofNat 256 i.toNat⟩
    let offset : Nat := o2.toNat * 65536 + o1.toNat * 256 + o0.toNat
    let reads (bytes : List Byte) (body : ReqBody) : Prop :=
      bytes.foldl (fun x b => x ^^^ b) 0 = 0 → parseMessage bytes = some (BitVec.ofNat 3 t.toNat, body)
    reads [0x01, t, g, i, n, p] (.openWindow (BitVec.ofNat 16 (g.toNat * 256 + i.toNat)) n) ∧
    reads [0x02, t, g, i, p] (.closeWindow h) ∧
    reads [0x03, t, g, i, o2, o1, o0, n, p] (.read h offset n) ∧
    (n.toNat = data.length → reads ([0x04, t, g, i, o2, o1, o0, n] ++ data ++ [p]) (.write h offset data)) ∧
    reads [0x05, t, g, i, o2, o1, o0, n, p] (.readLock h offset n) ∧
    (n.toNat = data.length → reads ([0x06, t, g, i, o2, o1, o0, n] ++ data ++ [p]) (.writeUnlock h offset data)) ∧
    reads [0x07, t, g, i, p] (.query h) ∧
    reads [0x08, t, c, g, i, o2, o1, o0, p] (.start c h offset) ∧
    reads [0x09, t, c, p] (.cancel c) ∧
    reads [0x0A, t, c, p] (.channelStatus c) ∧
    ∀ kind : Byte, (kind.toNat = 0 ∨ 0x0B ≤ kind.toNat) → reads [kind, t, p] (.unknown kind)

/-! ### Finding windows -/

/-- A tag is visible exactly when an enabled filter agrees with it in every position where the filter's mask has a one. -/
def Obligations.TagIsVisibleThroughAFilter : Prop :=
  ∀ (filters : Vector Filter 4) (tag : BitVec 16),
    visible filters tag = true ↔
      ∃ k : Fin 4, filters[k].enabled = true ∧
        ∀ b : Nat, b < 16 → filters[k].mask.getLsbD b = true → tag.getLsbD b = filters[k].value.getLsbD b

/-- An OPEN that has passed its standing check reads its slot's level and filters in one read. A tag that these filters do
not show is not found; else the search goes to index 1 with the level and the filters read and the running verdict
NOT_FOUND. One examination is one claim on one descriptor as it then stands, under the level read at the start. A descriptor
that is no candidate leaves the verdict; one that fails the level test makes NOT_FOUND into LEVEL, one that fails the rights
test gives RIGHTS; the first that passes is chosen, its opener entry is made and OK with its handle is the result. The
search goes on to the next index, and after 255 ends with the verdict, LEVEL and RIGHTS being charged with the null handle
(generation 0 is the model's choice: log entry 18). A search that no other claim comes between chooses the lowest descriptor
from its next index on that passes; where none passes it ends with the furthest test that a candidate has reached. -/
def Obligations.OpenSearchChoosesTheLowestPassingDescriptor : Prop :=
  (∀ (s : State) (r : InService) (tag : BitVec 16) (wanted : Byte), Settled s → s.server = some r →
     r.request.body = .openWindow tag wanted → r.stage = .checked → wanted.toNat < 16 →
     let su := s.su[r.request.slot]
     exec (.openWindow (some 1)) s = .next { s with server := some { r with
       stage := if visible su.filters tag = true then
           .search {
             tag := tag, wanted := wanted.setWidth 4, level := su.level, filters := su.filters, next := 1
             verdict := .notFound }
         else .ending .notFound [] } }) ∧
  (∀ (s : State) (r : InService) (tag : BitVec 16) (wanted : Byte) (k : Search), Settled s → s.server = some r →
     r.request.body = .openWindow tag wanted → r.stage = .search k →
     let slot := r.request.slot
     let d := s.wt[k.next]
     let candidate : Prop := (d.state = .valid ∨ d.state = .absent) ∧ d.tag = k.tag
     let gives (t : State) (g : Stage) : Prop :=
       exec (.openWindow (some 1)) s = .next { t with server := some { r with stage := g } }
     let goesOn (v : RunningVerdict) : Prop :=
       (k.next ≠ 255 → gives s (.search { k with next := k.next + 1, verdict := v })) ∧
       (k.next = 255 → v = .notFound → gives s (.ending .notFound [])) ∧
       (k.next = 255 → s.su[slot].score ≤ 247 →
         (v = .level → gives (s.charged .level slot none ⟨0, 0⟩ k.tag.toNat) (.ending .level [])) ∧
         (v = .rights → gives (s.charged .rights slot none ⟨0, 0⟩ k.tag.toNat) (.ending .rights [])))
     (¬ candidate → goesOn k.verdict) ∧
     (candidate → d.level < k.level → goesOn (if k.verdict = .notFound then .level else k.verdict)) ∧
     (candidate → k.level ≤ d.level → k.wanted &&& d.rights ≠ k.wanted → goesOn .rights) ∧
     (candidate → k.level ≤ d.level → k.wanted &&& d.rights = k.wanted →
       let e : Descriptor := { d with openers := d.openers.set slot (some k.wanted) }
       gives { s with wt := s.wt.set k.next (if d.holder = some slot ∧ k.wanted.getLsbD 3 = false then
         { e with holder := none, expiry := none } else e) } (.ending .ok [d.gen, BitVec.ofNat 8 k.next.val]))) ∧
  (∀ (s : State) (r : InService) (tag : BitVec 16) (wanted : Byte) (k : Search), Settled s → s.server = some r →
     r.request.body = .openWindow tag wanted → r.stage = .search k →
     let slot := r.request.slot
     let candidate (i : DIdx) : Prop :=
       k.next ≤ i ∧ (s.wt[i].state = .valid ∨ s.wt[i].state = .absent) ∧ s.wt[i].tag = k.tag
     let admits (i : DIdx) : Prop := candidate i ∧ k.level ≤ s.wt[i].level
     let passes (i : DIdx) : Prop := admits i ∧ k.wanted &&& s.wt[i].rights = k.wanted
     (∀ i, passes i → (∀ j, j < i → ¬ passes j) → ∃ t,
       exec (.openWindow (some (i.val - k.next.val + 1))) s = .next t ∧
       t.server = some { r with stage := .ending .ok [s.wt[i].gen, BitVec.ofNat 8 i.val] } ∧
       t.wt[i].openers = s.wt[i].openers.set slot (some k.wanted) ∧ (∀ j : DIdx, j ≠ i → t.wt[j] = s.wt[j])) ∧
     ((∀ i, ¬ passes i) → s.su[slot].score ≤ 247 ∨ k.verdict = .notFound ∧ (∀ i, ¬ candidate i) → ∃ t code,
       exec (.openWindow (some (256 - k.next.val))) s = .next t ∧
       t.server = some { r with stage := .ending code [] } ∧ t.wt = s.wt ∧
       (code = .notFound ∨ code = .level ∨ code = .rights) ∧
       (code = .rights ↔ k.verdict = .rights ∨ ∃ i, admits i) ∧
       (code = .notFound ↔ k.verdict = .notFound ∧ ∀ i, ¬ candidate i)))

/-- An OPEN without another claim in between chooses the lowest descriptor of the tag that admits the slot's level and
carries the wanted rights. It makes or replaces the slot's opener entry, releases an interlock of the slot that the new
rights no longer cover, and is answered OK with the handle. An OPEN of a LIMITED slot is answered LIMITED, one whose wanted-
rights byte names no set of rights BAD_REQUEST, and one whose search chooses nothing NOT_FOUND, LEVEL or RIGHTS as the
furthest test says that a candidate reached. LIMITED and NOT_FOUND move no score, whatever it is; LEVEL, RIGHTS and
BAD_REQUEST are charged with the null handle, whose generation 0 is the model's choice (log entry 18). -/
def Obligations.OpenIsAnswered : Prop :=
  (∀ (s : State) (slot : Slot) (tag : BitVec 3) (wtag : BitVec 16) (wanted : Byte) (rest : List Request) (i : DIdx),
     Settled s → AtHead s ⟨slot, tag, .openWindow wtag wanted⟩ rest → s.su[slot].standing ≠ .limited →
     wanted.toNat < 16 → visible s.su[slot].filters wtag = true →
     let passes (j : DIdx) : Prop :=
       j ≠ 0 ∧ (s.wt[j].state = .valid ∨ s.wt[j].state = .absent) ∧ s.wt[j].tag = wtag ∧
       s.su[slot].level ≤ s.wt[j].level ∧ wanted.setWidth 4 &&& s.wt[j].rights = wanted.setWidth 4
     passes i → (∀ j, j < i → ¬ passes j) →
     let d : Descriptor := { s.wt[i] with openers := s.wt[i].openers.set slot (some (wanted.setWidth 4)) }
     exec (.openWindow none) s = .next
       { (s.credited slot).answered ⟨slot, tag, .openWindow wtag wanted⟩ rest .ok
           [s.wt[i].gen, BitVec.ofNat 8 i.val] with
         wt := s.wt.set i (if s.wt[i].holder = some slot ∧ wanted.getLsbD 3 = false then
           { d with holder := none, expiry := none } else d) }) ∧
  (∀ (s : State) (slot : Slot) (tag : BitVec 3) (wtag : BitVec 16) (wanted : Byte) (rest : List Request),
     Settled s → AtHead s ⟨slot, tag, .openWindow wtag wanted⟩ rest →
     let ends (t : State) (code : Code) : Prop :=
       exec (.openWindow none) s = .next (t.answered ⟨slot, tag, .openWindow wtag wanted⟩ rest code [])
     let charges (code : Code) (offset : Nat) : Prop :=
       s.su[slot].score ≤ 247 → ends (s.charged code slot none ⟨0, 0⟩ offset) code
     let candidate (i : DIdx) : Prop :=
       i ≠ 0 ∧ (s.wt[i].state = .valid ∨ s.wt[i].state = .absent) ∧ s.wt[i].tag = wtag
     let admits (i : DIdx) : Prop := candidate i ∧ s.su[slot].level ≤ s.wt[i].level
     let passes (i : DIdx) : Prop := admits i ∧ wanted.setWidth 4 &&& s.wt[i].rights = wanted.setWidth 4
     (s.su[slot].standing = .limited → ends s .limited) ∧
     (s.su[slot].standing ≠ .limited → 16 ≤ wanted.toNat → charges .badRequest 0) ∧
     (s.su[slot].standing ≠ .limited → wanted.toNat < 16 →
       (visible s.su[slot].filters wtag = false → ends s .notFound) ∧
       (visible s.su[slot].filters wtag = true → (∀ i, ¬ passes i) →
         ((∀ i, ¬ candidate i) → ends s .notFound) ∧
         ((∃ i, candidate i) → (∀ i, ¬ admits i) → charges .level wtag.toNat) ∧
         ((∃ i, admits i) → charges .rights wtag.toNat))))

/-- A CLOSE whose handle passes checks 1 to 3 removes the slot's opener entry, with the interlock it holds and the mark that
names it, and is answered OK: the entry goes in one claim, the reply in the next. A CLOSE whose handle fails check 1, 2 or 3
changes nothing in the table, and is charged and answered with its code. -/
def Obligations.CloseIsAnswered : Prop :=
  (∀ (s : State) (slot : Slot) (tag : BitVec 3) (h : Handle) (rest : List Request),
     Settled s → AtHead s ⟨slot, tag, .closeWindow h⟩ rest → h.index ≠ 0 → s.wt[h.index].state ≠ .free →
     s.wt[h.index].gen = h.gen → s.wt[h.index].openers[slot] ≠ none →
     let d := s.wt[h.index]
     let q : Request := ⟨slot, tag, .closeWindow h⟩
     let without : Vector Descriptor 256 := s.wt.set h.index { d with
       openers := d.openers.set slot none
       holder := if d.holder = some slot then none else d.holder
       expiry := if d.holder = some slot then none else d.expiry
       expiredHolder := if d.expiredHolder = some slot then none else d.expiredHolder }
     exec (.closeWindow none) s = .next { (s.credited slot).answered q rest .ok [] with wt := without } ∧
     exec (.closeWindow (some 1)) s = .next { s with
       rq := rest, wt := without, server := some { InService.begin q with stage := .ending .ok [] } }) ∧
  (∀ (s : State) (slot : Slot) (tag : BitVec 3) (h : Handle) (rest : List Request) (code : Code),
     Settled s → AtHead s ⟨slot, tag, .closeWindow h⟩ rest → s.su[slot].score ≤ 247 →
     (h.index = 0 ∧ code = .nullHandle ∨
       h.index ≠ 0 ∧ (s.wt[h.index].state = .free ∨ s.wt[h.index].gen ≠ h.gen) ∧ code = .staleHandle ∨
       h.index ≠ 0 ∧ s.wt[h.index].state ≠ .free ∧ s.wt[h.index].gen = h.gen ∧
         s.wt[h.index].openers[slot] = none ∧ code = .notOpen) →
     exec (.closeWindow none) s = .next
       ((s.charged code slot none h 0).answered ⟨slot, tag, .closeWindow h⟩ rest code []))

/-- A QUERY is answered with the record of the descriptor as it stands, or with the code of check 1, 2 or 3; either way it
changes nothing but the queue, the slot's count and the link, and moves no score. -/
def Obligations.QueryDescribesTheWindow : Prop :=
  ∀ (s : State) (slot : Slot) (tag : BitVec 3) (h : Handle) (rest : List Request),
    Settled s → AtHead s ⟨slot, tag, .query h⟩ rest →
    let d := s.wt[h.index]
    let target := s.wt[d.targetIndex]
    let ends (code : Code) (payload : List Byte) : Prop :=
      exec (.query none) s = .next (s.answered ⟨slot, tag, .query h⟩ rest code payload)
    (h.index = 0 → ends .nullHandle []) ∧
    (h.index ≠ 0 → d.state = .free ∨ d.gen ≠ h.gen → ends .staleHandle []) ∧
    (h.index ≠ 0 → d.state ≠ .free → d.gen = h.gen → d.openers[slot] = none → ends .notOpen []) ∧
    (∀ granted, h.index ≠ 0 → d.state ≠ .free → d.gen = h.gen → d.openers[slot] = some granted →
      let effective : Rights :=
        if d.dtype = .gate then
          if target.state ≠ .free ∧ target.gen = d.targetGen ∧ target.dtype = .data then
            granted &&& d.rights &&& target.rights
          else 0
        else granted &&& d.rights
      let length := if d.dtype = .gate then d.gateLength else d.length
      ends .ok [BitVec.ofNat 8 d.state.toNat, BitVec.ofNat 8 d.dtype.toNat, d.gen, BitVec.ofNat 8 effective.toNat,
        BitVec.ofNat 8 (length / 65536), BitVec.ofNat 8 (length / 256), BitVec.ofNat 8 length,
        BitVec.ofNat 8 (d.level.val + if d.holder = some slot then 128 else 0)])

/-- A CHANNEL_STATUS is answered OK with the record of the channel, or BAD_REQUEST for a channel byte above 3 (charged with
the null handle of log entry 18). The channel status record lays out the channel's fields in 25 bytes. A request of an
unknown kind is charged BAD_REQUEST with the null handle, of generation 0 by the model's choice (log entry 18), and offset
0, and answered so. -/
def Obligations.ChannelStatusAndUnknownKindsAreAnswered : Prop :=
  (∀ (s : State) (slot : Slot) (tag : BitVec 3) (channel : Byte) (rest : List Request),
     Settled s → AtHead s ⟨slot, tag, .channelStatus channel⟩ rest →
     (∀ c : Chan, channel.toNat = c.val → exec (.channelStatus none) s = .next
       ((s.credited slot).answered ⟨slot, tag, .channelStatus channel⟩ rest .ok (channelStatusRecord s.chans[c]))) ∧
     (3 < channel.toNat → s.su[slot].score ≤ 247 → exec (.channelStatus none) s = .next
       ((s.charged .badRequest slot none ⟨0, 0⟩ 0).answered ⟨slot, tag, .channelStatus channel⟩ rest
         .badRequest []))) ∧
  (∀ c : Channel,
     let p := c.primary
     let offset := p.elim 0 (·.offset)
     let done := p.elim 0 fun x => if x.step.isSome then x.bytesDone else 0
     let total := p.elim 0 (·.total.toNat)
     channelStatusRecord c =
       [BitVec.ofNat 8 c.state.toNat,
         BitVec.ofNat 8 ((p.bind (·.owner)).elim 255 (·.val)), BitVec.ofNat 8 (p.elim 0 (·.handle.index.val)),
         BitVec.ofNat 8 (offset / 65536), BitVec.ofNat 8 (offset / 256), BitVec.ofNat 8 offset,
         BitVec.ofNat 8 (done / 65536), BitVec.ofNat 8 (done / 256), BitVec.ofNat 8 done,
         BitVec.ofNat 8 (total / 16777216), BitVec.ofNat 8 (total / 65536), BitVec.ofNat 8 (total / 256),
         BitVec.ofNat 8 total,
         BitVec.ofNat 8 (c.backup.elim 255 (·.owner.val)), if c.outcome.valid then 1 else 0,
         BitVec.ofNat 8 c.outcome.owner.val, BitVec.ofNat 8 c.outcome.listIndex.val,
         BitVec.ofNat 8 c.outcome.code.toNat,
         BitVec.ofNat 8 (c.outcome.total.toNat / 16777216), BitVec.ofNat 8 (c.outcome.total.toNat / 65536),
         BitVec.ofNat 8 (c.outcome.total.toNat / 256), BitVec.ofNat 8 c.outcome.total.toNat,
         BitVec.ofNat 8 (c.outcome.offset / 65536), BitVec.ofNat 8 (c.outcome.offset / 256),
         BitVec.ofNat 8 c.outcome.offset]) ∧
  (∀ (s : State) (slot : Slot) (tag : BitVec 3) (kind : Byte) (rest : List Request),
     Settled s → AtHead s ⟨slot, tag, .unknown kind⟩ rest → s.su[slot].score ≤ 247 →
     exec (.unknownKind none) s = .next
       ((s.charged .badRequest slot none ⟨0, 0⟩ 0).answered ⟨slot, tag, .unknown kind⟩ rest .badRequest []))

/-! ### Resolution and translation -/

/-- A resolution answers the code of the first check that fails, in the order of the checks, or the resolved window; checks
2, 4, 5 and 6 look at the descriptor's state, checks 5 and 6 report the descriptor found ABSENT. -/
def Obligations.ResolverAnswersTheFirstFailingCheck : Prop :=
  ∀ (s : State) (slot : Slot) (h : Handle) (offset length : Nat) (needed : Rights) (needsList aligned : Bool),
    let d := s.wt[h.index]
    let target := s.wt[d.targetIndex]
    let gate : Bool := d.dtype = .gate
    let granted := d.openers[slot].getD 0
    let effective := if gate then granted &&& d.rights &&& target.rights else granted &&& d.rights
    let window := if gate then d.gateLength else d.length
    resolve s slot h offset length needed needsList aligned =
      if h.index = 0 then .error (.nullHandle, none)
      else if d.state = .free ∨ d.gen ≠ h.gen then .error (.staleHandle, none)
      else if d.openers[slot] = none then .error (.notOpen, none)
      else if d.state = .retiring then .error (.retiring, none)
      else if d.state = .absent then .error (.absent, some h.index)
      else if gate ∧ (target.state = .free ∨ target.gen ≠ d.targetGen ∨ target.dtype ≠ .data) then
        .error (.gateTarget, none)
      else if gate ∧ target.state = .retiring then .error (.retiring, none)
      else if gate ∧ target.state = .absent then .error (.absent, some d.targetIndex)
      else if needsList ∧ d.dtype ≠ .list then .error (.wrongType, none)
      else if needed &&& effective ≠ needed then .error (.rights, none)
      else if window < offset + length ∨ (aligned ∧ offset % 16 ≠ 0) then .error (.range, none)
      else if gate ∧ target.length < d.gateOffset + offset + length then .error (.gateTarget, none)
      else .ok {
        index := h.index
        target := if gate then some d.targetIndex else none
        rights := effective
        base := if gate then d.targetIndex else h.index
        baseOffset := if gate then d.gateOffset + offset else offset
        length := length }

/-- Every byte of a range of 1 to 64 bytes translates by the map entry of its page: the pieces spell the bytes' physical
addresses in order, and without them the entry reported is the lowest invalid one that the range touches. -/
def Obligations.TranslationFollowsThePageMap : Prop :=
  ∀ (s : State) (base : DIdx) (offset n : Nat), 1 ≤ n → n ≤ 64 →
    let d := s.wt[base]
    let page (k : Nat) : Nat := d.mapStart + (d.firstOffset + offset + k) / 4096
    page (n - 1) < 2048 →
    (∀ pieces, Machine.translate s base offset n = .ok pieces →
      (∀ k, k < n → (mapEntry s (page k)).valid = true) ∧
      (pieces.flatMap fun (a, m) => List.range' a m) =
        (List.range n).map fun k =>
          (mapEntry s (page k)).frame * 4096 + (d.firstOffset + offset + k) % 4096) ∧
    (∀ entry, Machine.translate s base offset n = .error entry →
      (∃ k, k < n ∧ page k = entry) ∧ (mapEntry s entry).valid = false ∧
      ∀ k, k < n → page k < entry → (mapEntry s (page k)).valid = true) ∧
    ((∀ k, k < n → (mapEntry s (page k)).valid = true) → ∃ pieces, Machine.translate s base offset n = .ok pieces)

/-! ### Direct access -/

/-- A READ and a WRITE whose fields, resolution and translation pass place their pins and request their first burst; the
server is SERVING and nothing else changes. A direct access goes claim by claim, and another command may come between two of
its claims. How they are cut is the model's (log entry 10): its fields and its standing are checked in one claim, in which a
LIMITED slot's WRITE_UNLOCK also releases the interlock (R92); then its resolution; then its translation with the request of
the first burst, in one claim. A hole ends it with MAP_HOLE, raised with the entry latched, its pins staying until its end.
-/
def Obligations.ReadAndWriteRequestTheirFirstBurst : Prop :=
  (∀ (s : State) (slot : Slot) (tag : BitVec 3) (h : Handle) (offset : Nat) (rest : List Request) (w : Resolved)
     (pieces : List (Nat × Nat)) (first : Burst) (more : List Burst),
     Settled s → offset ≤ 8388607 → Machine.translate s w.base w.baseOffset w.length = .ok pieces →
     let taken (q : Request) : State :=
       { s with
         rq := rest
         server := some (InService.accessing q w more)
         wt := withPins s.wt w.pinned
         port := s.port.requested Claimant.rs first }
     (∀ n : Byte, 1 ≤ n.toNat → n.toNat ≤ 64 → AtHead s ⟨slot, tag, .read h offset n⟩ rest →
       resolve s slot h offset n.toNat Rights.R false false = .ok w → readBursts pieces = first :: more →
       exec (.read none) s = .next (taken ⟨slot, tag, .read h offset n⟩)) ∧
     (∀ data : List Byte, 1 ≤ data.length → data.length ≤ 64 → AtHead s ⟨slot, tag, .write h offset data⟩ rest →
       s.su[slot].standing ≠ .limited → resolve s slot h offset data.length Rights.W false false = .ok w →
       writeBursts pieces data = first :: more →
       exec (.write none) s = .next (taken ⟨slot, tag, .write h offset data⟩))) ∧
  (∀ (s : State) (r : InService) (h : Handle) (offset : Nat) (i : Instr) (m : Nat) (needed : Rights),
     Settled s → s.server = some r →
     (∃ n : Byte, r.request.body = .read h offset n ∧ i = .read (some 1) ∧ m = n.toNat ∧ needed = Rights.R) ∨
     (∃ data, r.request.body = .write h offset data ∧ i = .write (some 1) ∧ m = data.length ∧ needed = Rights.W) ∨
     (∃ n : Byte, r.request.body = .readLock h offset n ∧ i = .readLock (some 1) ∧ m = n.toNat ∧
       needed = Rights.R ||| Rights.K) ∨
     (∃ data, r.request.body = .writeUnlock h offset data ∧ i = .writeUnlock (some 1) ∧ m = data.length ∧
       needed = Rights.W ||| Rights.K) →
     let slot := r.request.slot
     let d := s.wt[h.index]
     (r.stage = .begun → offset ≤ 8388607 → 1 ≤ m → m ≤ 64 → i = .read (some 1) ∨ s.su[slot].standing ≠ .limited →
       exec i s = .next { s with server := some { r with stage := .checked } }) ∧
     (r.stage = .begun → offset ≤ 8388607 → 1 ≤ m → m ≤ 64 → i ≠ .read (some 1) → s.su[slot].standing = .limited →
       exec i s = .next { s with
         wt := if i = .writeUnlock (some 1) ∧ h.index ≠ 0 ∧ d.state ≠ .free ∧ d.gen = h.gen ∧ d.holder = some slot then
             s.wt.set h.index { d with holder := none, expiry := none }
           else s.wt
         server := some { r with stage := .ending .limited [] } }) ∧
     (∀ w, r.stage = .checked → i = .read (some 1) ∨ i = .write (some 1) →
       resolve s slot h offset m needed false false = .ok w →
       exec i s = .next { s with
         wt := withPins s.wt w.pinned
         server := some { r with stage := .translation, resolved := some w, pins := r.pins ++ w.pinned } }) ∧
     (∀ code touched, r.stage = .checked → (code.isViolation = true → s.su[slot].score ≤ 247) →
       resolve s slot h offset m needed false false = .error (code, touched) →
       exec i s = .next { s.failing code touched slot none h offset with
         server := some { r with stage := .ending code [] } }) ∧
     (∀ w entry, r.stage = .translation → r.resolved = some w →
       Machine.translate s w.base w.baseOffset w.length = .error entry →
       exec i s = .next { s with
         attn := { s.attn with pending := s.attn.pending ||| 0x080, holeLatch := entry }
         server := some { r with stage := .ending .mapHole [] } }) ∧
     (∀ w pieces first more, r.stage = .translation → r.resolved = some w →
       Machine.translate s w.base w.baseOffset w.length = .ok pieces →
       (∃ data, (r.request.body = .write h offset data ∨ r.request.body = .writeUnlock h offset data) ∧
         writeBursts pieces data = first :: more) ∨
       (∃ n, (r.request.body = .read h offset n ∨ r.request.body = .readLock h offset n) ∧
         readBursts pieces = first :: more) →
       exec i s = .next { s with
         server := some { r with stage := .bursts, rest := more }
         port := s.port.requested Claimant.rs first }))

/-- A READ_LOCK that passes takes or renews the interlock and clears the mark, a WRITE_UNLOCK of the holder releases it, in
the same claim as its pins; each then requests its first burst. The interlock step is part of the claim of a passing
resolution: READ_LOCK then takes or renews the interlock, or reaches LOCK_BUSY; WRITE_UNLOCK releases it, or reaches
LOCK_LOST, the mark being cleared, or NOT_HOLDER, which is charged. -/
def Obligations.LockedAccessesTakeAndReleaseTheInterlock : Prop :=
  (∀ (s : State) (slot : Slot) (tag : BitVec 3) (h : Handle) (offset : Nat) (rest : List Request) (w : Resolved)
     (pieces : List (Nat × Nat)) (first : Burst) (more : List Burst),
     Settled s → offset ≤ 8388607 → s.su[slot].standing ≠ .limited →
     Machine.translate s w.base w.baseOffset w.length = .ok pieces →
     let pinned := withPins s.wt w.pinned
     let taken (q : Request) (locks : Bool) (wt : Vector Descriptor 256) : State :=
       { s with
         rq := rest
         server := some { InService.accessing q w more with lockTaken := locks }
         wt := wt
         port := s.port.requested Claimant.rs first }
     (∀ n : Byte, 1 ≤ n.toNat → n.toNat ≤ 64 → AtHead s ⟨slot, tag, .readLock h offset n⟩ rest →
       resolve s slot h offset n.toNat (Rights.R ||| Rights.K) false false = .ok w →
       s.wt[h.index].holder = none ∨ s.wt[h.index].holder = some slot → readBursts pieces = first :: more →
       exec (.readLock none) s = .next (taken ⟨slot, tag, .readLock h offset n⟩ true
         (pinned.set h.index { pinned[h.index] with
           holder := some slot, expiry := some (s.now + s.engine.timeout), expiredHolder := none }))) ∧
     (∀ data : List Byte, 1 ≤ data.length → data.length ≤ 64 → AtHead s ⟨slot, tag, .writeUnlock h offset data⟩ rest →
       resolve s slot h offset data.length (Rights.W ||| Rights.K) false false = .ok w →
       s.wt[h.index].holder = some slot → writeBursts pieces data = first :: more →
       exec (.writeUnlock none) s = .next (taken ⟨slot, tag, .writeUnlock h offset data⟩ false
         (pinned.set h.index { pinned[h.index] with holder := none, expiry := none })))) ∧
  (∀ (s : State) (r : InService) (h : Handle) (offset : Nat) (w : Resolved), Settled s → s.server = some r →
     r.stage = .checked →
     let slot := r.request.slot
     let d := s.wt[h.index]
     let pinned := withPins s.wt w.pinned
     let noted (t : State) (g : Stage) (locks : Bool) (wt : Vector Descriptor 256) : State :=
       { t with
         wt := wt
         server := some { r with
           stage := g, resolved := some w, pins := r.pins ++ w.pinned, lockTaken := locks || r.lockTaken } }
     (∀ n : Byte, r.request.body = .readLock h offset n →
       resolve s slot h offset n.toNat (Rights.R ||| Rights.K) false false = .ok w →
       (d.holder = none ∨ d.holder = some slot → exec (.readLock (some 1)) s = .next (noted s .translation true
         (pinned.set h.index { pinned[h.index] with
           holder := some slot, expiry := some (s.now + s.engine.timeout), expiredHolder := none }))) ∧
       (d.holder ≠ none → d.holder ≠ some slot →
         exec (.readLock (some 1)) s = .next (noted s (.ending .lockBusy []) false pinned))) ∧
     (∀ data, r.request.body = .writeUnlock h offset data →
       resolve s slot h offset data.length (Rights.W ||| Rights.K) false false = .ok w →
       (d.holder = some slot → exec (.writeUnlock (some 1)) s = .next (noted s .translation false
         (pinned.set h.index { pinned[h.index] with holder := none, expiry := none }))) ∧
       (d.holder = none → d.expiredHolder = some slot →
         exec (.writeUnlock (some 1)) s = .next (noted s (.ending .lockLost []) false
           (pinned.set h.index { pinned[h.index] with expiredHolder := none }))) ∧
       (d.holder ≠ some slot → d.holder ≠ none ∨ d.expiredHolder ≠ some slot → s.su[slot].score ≤ 247 →
         exec (.writeUnlock (some 1)) s =
           .next (noted (s.charged .notHolder slot none h offset) (.ending .notHolder []) false pinned))))

/-- A READ_LOCK on another slot's interlock is answered LOCK_BUSY; a WRITE_UNLOCK by a slot that holds no interlock is
answered LOCK_LOST where the mark names it, the mark being cleared, and is charged NOT_HOLDER otherwise. No pin stays. -/
def Obligations.LockedAccessesAreRefusedByOthersInterlocks : Prop :=
  ∀ (s : State) (slot : Slot) (tag : BitVec 3) (h : Handle) (offset : Nat) (rest : List Request) (w : Resolved),
    Settled s → offset ≤ 8388607 → s.su[slot].standing ≠ .limited →
    let d := s.wt[h.index]
    let answers (i : Instr) (body : ReqBody) (code : Code) (t : State) : Prop :=
      AtHead s ⟨slot, tag, body⟩ rest → exec i s = .next (t.answered ⟨slot, tag, body⟩ rest code [])
    (∀ n : Byte, 1 ≤ n.toNat → n.toNat ≤ 64 →
      resolve s slot h offset n.toNat (Rights.R ||| Rights.K) false false = .ok w →
      d.holder ≠ none → d.holder ≠ some slot → answers (.readLock none) (.readLock h offset n) .lockBusy s) ∧
    (∀ data : List Byte, 1 ≤ data.length → data.length ≤ 64 →
      resolve s slot h offset data.length (Rights.W ||| Rights.K) false false = .ok w → d.holder ≠ some slot →
      (d.holder = none → d.expiredHolder = some slot →
        answers (.writeUnlock none) (.writeUnlock h offset data) .lockLost
          { s with wt := s.wt.set h.index { d with expiredHolder := none } }) ∧
      (d.holder ≠ none ∨ d.expiredHolder ≠ some slot → s.su[slot].score ≤ 247 →
        answers (.writeUnlock none) (.writeUnlock h offset data) .notHolder (s.charged .notHolder slot none h offset)))

/-- A direct access whose offset or length is out of range is charged BAD_REQUEST; one of a LIMITED slot, unless it is a
READ, is answered LIMITED, whatever its score, a WRITE_UNLOCK then releasing the interlock its slot holds on the descriptor
the handle names. A direct access whose resolution fails is answered with the failing check's code: a violation is charged,
a neutral code moves no score, ABSENT raises ABSENT_TOUCH with its latch, and nothing else changes. -/
def Obligations.DirectAccessIsTurnedAway : Prop :=
  (∀ (s : State) (slot : Slot) (tag : BitVec 3) (h : Handle) (offset : Nat) (rest : List Request) (n : Byte)
     (data : List Byte), Settled s →
     let bad (m : Nat) : Prop := 8388607 < offset ∨ m = 0 ∨ 64 < m
     let answers (i : Instr) (body : ReqBody) (code : Code) (t : State) : Prop :=
       AtHead s ⟨slot, tag, body⟩ rest → exec i s = .next (t.answered ⟨slot, tag, body⟩ rest code [])
     let charges (i : Instr) (body : ReqBody) : Prop :=
       s.su[slot].score ≤ 247 → answers i body .badRequest (s.charged .badRequest slot none h offset)
     let d := s.wt[h.index]
     (bad n.toNat → charges (.read none) (.read h offset n) ∧ charges (.readLock none) (.readLock h offset n)) ∧
     (bad data.length → charges (.write none) (.write h offset data) ∧
       charges (.writeUnlock none) (.writeUnlock h offset data)) ∧
     (¬ bad n.toNat → s.su[slot].standing = .limited → answers (.readLock none) (.readLock h offset n) .limited s) ∧
     (¬ bad data.length → s.su[slot].standing = .limited →
       answers (.write none) (.write h offset data) .limited s ∧
       answers (.writeUnlock none) (.writeUnlock h offset data) .limited
         (if h.index ≠ 0 ∧ d.state ≠ .free ∧ d.gen = h.gen ∧ d.holder = some slot then
           { s with wt := s.wt.set h.index { d with holder := none, expiry := none } } else s))) ∧
  (∀ (s : State) (slot : Slot) (tag : BitVec 3) (h : Handle) (offset : Nat) (rest : List Request) (n : Byte)
     (data : List Byte) (code : Code) (touched : Option DIdx), Settled s → offset ≤ 8388607 →
     (code.isViolation = true → s.su[slot].score ≤ 247) →
     let answers (i : Instr) (body : ReqBody) (m : Nat) (needed : Rights) : Prop :=
       AtHead s ⟨slot, tag, body⟩ rest → 1 ≤ m → m ≤ 64 →
       resolve s slot h offset m needed false false = .error (code, touched) →
       exec i s = .next ((s.failing code touched slot none h offset).answered ⟨slot, tag, body⟩ rest code [])
     answers (.read none) (.read h offset n) n.toNat Rights.R ∧
     (s.su[slot].standing ≠ .limited →
       answers (.write none) (.write h offset data) data.length Rights.W ∧
       answers (.readLock none) (.readLock h offset n) n.toNat (Rights.R ||| Rights.K) ∧
       answers (.writeUnlock none) (.writeUnlock h offset data) data.length (Rights.W ||| Rights.K)))

/-- A direct access that meets a hole is answered MAP_HOLE with no burst: MAP_HOLE is raised with the entry latched, the
pins fall, the interlock of a READ_LOCK is given up and that of a WRITE_UNLOCK stays released. -/
def Obligations.HoleEndsADirectAccess : Prop :=
  ∀ (s : State) (slot : Slot) (tag : BitVec 3) (h : Handle) (offset : Nat) (rest : List Request) (n : Byte)
    (data : List Byte) (w : Resolved) (entry : Nat), Settled s → offset ≤ 8388607 →
    Machine.translate s w.base w.baseOffset w.length = .error entry →
    let d := s.wt[h.index]
    let answers (i : Instr) (body : ReqBody) (m : Nat) (needed : Rights) (after : Descriptor) : Prop :=
      AtHead s ⟨slot, tag, body⟩ rest → 1 ≤ m → m ≤ 64 → resolve s slot h offset m needed false false = .ok w →
      exec i s = .next (State.answered { s with
          attn := { s.attn with pending := s.attn.pending ||| 0x080, holeLatch := entry }
          wt := s.wt.set h.index after } ⟨slot, tag, body⟩ rest .mapHole [])
    answers (.read none) (.read h offset n) n.toNat Rights.R d ∧
    (s.su[slot].standing ≠ .limited →
      answers (.write none) (.write h offset data) data.length Rights.W d ∧
      (d.holder = none ∨ d.holder = some slot →
        answers (.readLock none) (.readLock h offset n) n.toNat (Rights.R ||| Rights.K)
          { d with holder := none, expiry := none, expiredHolder := none }) ∧
      (d.holder = some slot →
        answers (.writeUnlock none) (.writeUnlock h offset data) data.length (Rights.W ||| Rights.K)
          { d with holder := none, expiry := none }))

/-- With the last burst of a direct access its service ends, OK with the bytes read; an uncorrectable burst ends it
MEMORY_ERROR; before the last one the next burst is requested. The end is the one of its disposition, detached or not, with
the answers held behind it; a READ_LOCK that ends without a sent OK gives its interlock up. The claim that ends a service:
the interlock of a READ_LOCK that cannot keep it is given up, the pins fall, and the disposition says what is sent: under
SEND the reply, an OK of any kind but QUERY being credited; under DISCARD nothing; under DISABLED or BARRED that code; then
the answers held behind it. The slot's count falls, but for a detached request, whose end a waiting LINK_RESET is told. -/
def Obligations.BurstCompletionAdvancesADirectAccess : Prop :=
  (∀ (s u : State) (r : InService) (b : Burst) (st : BurstStatus) (data : List Byte),
     s.server = some r → s.port.granted = some (Claimant.rs, b) → performBurst b s = (st, data, u) →
     let free : State := { u with port := { u.port with granted := none } }
     let ends (code : Code) (payload : List Byte) : Prop := exec (.burstComplete []) s =
       .next (settle ((free.lockGivenUp r code).ended r code payload))
     (st = .uncorrectable → ends .memoryError []) ∧
     (st ≠ .uncorrectable → r.rest = [] →
       (∀ h offset n, r.request.body = .read h offset n ∨ r.request.body = .readLock h offset n →
         ends .ok (r.data ++ data)) ∧
       (∀ h offset bytes, r.request.body = .write h offset bytes ∨ r.request.body = .writeUnlock h offset bytes →
         ends .ok [])) ∧
     (st ≠ .uncorrectable → ∀ next more, r.rest = next :: more →
       exec (.burstComplete []) s = .next (settle { free with
         server := some { r with stage := .bursts, rest := more, data := r.data ++ data }
         port := { free.port with waiting := free.port.waiting.set Claimant.rs (some next) } }))) ∧
  (∀ (s : State) (r : InService) (code : Code) (payload : List Byte) (claims : Option Nat),
     Settled s → s.server = some r → r.stage = .ending code payload → claims ≠ some 0 →
     let t := (s.lockGivenUp r code).ended r code payload
     let reply (answer : Code) (bytes : List Byte) : List LinkMsg := [.reply ⟨r.request.slot, r.request.tag, answer, bytes⟩]
     let held : List LinkMsg := r.held.map fun (tag, answer) => .reply ⟨r.request.slot, tag, answer, []⟩
     exec (r.request.body.row claims) s = .next t ∧ t.server = none ∧
     (r.disposition = .send → t.linkOut = s.linkOut ++ reply code payload ++ held) ∧
     (r.disposition = .discard → t.linkOut = s.linkOut ++ held) ∧
     (r.disposition = .disabled → t.linkOut = s.linkOut ++ reply .disabled [] ++ held) ∧
     (r.disposition = .barred → t.linkOut = s.linkOut ++ reply .barred [] ++ held) ∧
     (r.disposition ≠ .send ∨ code ≠ .ok → t.su[r.request.slot] = { s.su[r.request.slot] with
       outstanding := if r.detached then s.su[r.request.slot].outstanding else s.su[r.request.slot].outstanding - 1 }) ∧
     (∀ lists detached, r.detached = true → s.engine.state = .busy (.link lists detached) →
       t.engine = if (∀ c : Chan, lists[c] = false) then
           { s.engine with state := .idle, results := Results.zero, lastCode := .ok }
         else { s.engine with state := .busy (.link lists false) }))

/-! ### Shared memory -/

/-- A write burst that is not uncorrectable stores its bytes; its words' check bits then agree, and outside its words every
byte and every word's error is as before. A word that it covers in part is read first, and a correction there gives the
status corrected and raises MEM_CORRECTED with its latch. The bit errors that have come about come before the burst that
completes. One turns a stored data bit over, or a check bit, or makes its word uncorrectable; two in a word make it
uncorrectable unless they turn the same data bit twice (the model's choice: log entry 7). With no burst granted none
completes (log entry 9). -/
def Obligations.WriteBurstStoresItsBytes : Prop :=
  (∀ (s t : State) (a : Nat) (bytes : List Byte) (st : BurstStatus) (got : List Byte),
     CanonicalMemory s → bytes ≠ [] → performBurst (.write a bytes) s = (st, got, t) → st ≠ .uncorrectable →
     (∀ k : Fin bytes.length, Memory.read t.mem (a + k) = bytes[k]) ∧
     (∀ w, a / 8 ≤ w → w ≤ (a + bytes.length - 1) / 8 → Sparse.find t.ecc w = none) ∧
     (∀ w, w < a / 8 ∨ (a + bytes.length - 1) / 8 < w → Sparse.find t.ecc w = Sparse.find s.ecc w) ∧
     (∀ x, x < a ∨ a + bytes.length ≤ x → delivered t x = delivered s x) ∧
     (∀ x, x / 8 < a / 8 ∨ (a + bytes.length - 1) / 8 < x / 8 → Memory.read t.mem x = Memory.read s.mem x) ∧
     t = { s with mem := t.mem, ecc := t.ecc, attn := t.attn, port := t.port } ∧
     let merged (w : Nat) : Prop := a / 8 ≤ w ∧ w ≤ (a + bytes.length - 1) / 8 ∧
       ¬ (a ≤ 8 * w ∧ 8 * w + 8 ≤ a + bytes.length) ∧ Sparse.find s.ecc w ≠ none
     ((∀ w, ¬ merged w) → st = .good ∧ t.attn = s.attn ∧ t.port = s.port) ∧
     (∀ w, merged w → a / 4096 = (a + bytes.length - 1) / 4096 →
       st = .corrected ∧ t.attn = { s.attn with pending := s.attn.pending ||| 0x800 } ∧
       t.port = { s.port with correctedLatch := a / 4096 })) ∧
  ((∀ (s : State) (upsets : List Upset),
     (s.port.granted = none → exec (.burstComplete upsets) s = .next s) ∧
     (s.port.granted ≠ none → exec (.burstComplete upsets) s = exec (.burstComplete []) (upsets.foldl applyUpset s))) ∧
   ∀ (s : State) (u : Upset), CanonicalMemory s →
     let t := applyUpset s u
     (67108864 ≤ u.word → t = s) ∧
     (u.word < 67108864 →
       t = { s with mem := t.mem, ecc := t.ecc } ∧
       (∀ w, w ≠ u.word → Sparse.find t.ecc w = Sparse.find s.ecc w) ∧
       (∀ b, u.err = .dataBit b → ∀ x, Memory.read t.mem x =
         if x = 8 * u.word + b.val / 8 then Memory.read s.mem x ^^^ BitVec.ofNat 8 (2 ^ (b.val % 8))
         else Memory.read s.mem x) ∧
       ((∀ b, u.err ≠ .dataBit b) → t.mem = s.mem) ∧
       (Sparse.find s.ecc u.word = none → Sparse.find t.ecc u.word = some u.err) ∧
       (∀ e, Sparse.find s.ecc u.word = some e → Sparse.find t.ecc u.word =
         if (∃ b, e = .dataBit b) ∧ u.err = e then none else some .multi)))

/-- A read burst of sound words delivers the stored bytes and changes nothing; one that meets correctable words alone
delivers their bytes corrected, raises MEM_CORRECTED with the last such word's frame, and leaves the DRAM as it is. A burst
that touches a frame beyond the bank, reads a word beyond correction, or would write one in part, is uncorrectable: it
delivers nothing and leaves shared DRAM as it is, and beyond the bank it changes nothing at all. Within the bank a
correctable word among those it reads still raises MEM_CORRECTED with its latch, by the model's choice (log entry 11), and
without such a word it changes nothing. -/
def Obligations.ReadBurstDeliversCorrectedBytes : Prop :=
  (∀ (s : State) (a n : Nat), 1 ≤ n → a / 4096 = (a + n - 1) / 4096 → a / 4096 < s.port.installedFrames →
     let reads (w : Nat) : Prop := a / 8 ≤ w ∧ w ≤ (a + n - 1) / 8
     let stored := (List.range' a n).map (Memory.read s.mem)
     ((∀ w, reads w → Sparse.find s.ecc w = none) → performBurst (.read a n) s = (.good, stored, s)) ∧
     ((∀ w, reads w → Sparse.find s.ecc w ≠ some .multi) → (∃ w, reads w ∧ Sparse.find s.ecc w ≠ none) →
       performBurst (.read a n) s = (.corrected, (List.range' a n).map (delivered s),
         { s with
           attn := { s.attn with pending := s.attn.pending ||| 0x800 }
           port := { s.port with correctedLatch := a / 4096 } })) ∧
     (∀ x b, Sparse.find s.ecc (x / 8) = some (.dataBit b) → delivered s x =
       if b.val / 8 = x % 8 then Memory.read s.mem x ^^^ BitVec.ofNat 8 (2 ^ (b.val % 8)) else Memory.read s.mem x) ∧
     (∀ x, (Sparse.find s.ecc (x / 8) = none ∨ Sparse.find s.ecc (x / 8) = some .checkBit) →
       delivered s x = Memory.read s.mem x)) ∧
  (∀ (s : State) (b : Burst) (a n : Nat), b = .read a n ∨ (∃ bytes, b = .write a bytes ∧ bytes.length = n) → 1 ≤ n →
     a / 4096 = (a + n - 1) / 4096 →
     let whole (w : Nat) : Prop := a ≤ 8 * w ∧ 8 * w + 8 ≤ a + n
     let beyond : Prop := s.port.installedFrames ≤ a / 4096
     let bad : Prop := ∃ w, a / 8 ≤ w ∧ w ≤ (a + n - 1) / 8 ∧ Sparse.find s.ecc w = some .multi ∧
       (b = .read a n ∨ ¬ whole w)
     ((performBurst b s).1 = .uncorrectable ↔ beyond ∨ bad) ∧
     (beyond ∨ bad → (performBurst b s).2.1 = [] ∧ (performBurst b s).2.2.mem = s.mem ∧
       (performBurst b s).2.2.ecc = s.ecc) ∧
     (beyond → performBurst b s = (.uncorrectable, [], s)) ∧
     (¬ beyond → bad →
       let corrects : Prop := ∃ w, a / 8 ≤ w ∧ w ≤ (a + n - 1) / 8 ∧ (b = .read a n ∨ ¬ whole w) ∧
         Sparse.find s.ecc w ≠ none ∧ Sparse.find s.ecc w ≠ some .multi
       (¬ corrects → performBurst b s = (.uncorrectable, [], s)) ∧
       (corrects → performBurst b s = (.uncorrectable, [], { s with
         attn := { s.attn with pending := s.attn.pending ||| 0x800 }
         port := { s.port with correctedLatch := a / 4096 } }))))

/-- A free DRAM is granted to the first waiting claimant that follows the pointer in ring order, which the pointer then
names; a busy DRAM is granted to nobody, and without waiting bursts nothing is granted. -/
def Obligations.FreeDramIsGrantedInRingOrder : Prop :=
  ∀ s : State,
    (s.port.granted ≠ none → grantBurst s = s) ∧
    (s.port.granted = none → (∀ cl : Claimant, s.port.waiting[cl] = none) → grantBurst s = s) ∧
    (∀ (k : Nat) (cl : Claimant) (b : Burst), s.port.granted = none → 1 ≤ k → k ≤ 5 →
      cl.val = (s.port.pointer.val + k) % 5 → s.port.waiting[cl] = some b →
      (∀ (j : Nat) (other : Claimant), 1 ≤ j → j < k → other.val = (s.port.pointer.val + j) % 5 →
        s.port.waiting[other] = none) →
      grantBurst s = { s with
        port := { s.port with waiting := s.port.waiting.set cl none, granted := some (cl, b), pointer := cl } })

/-! ### Copy channels -/

/-- A START that passes fills an idle channel's primary, whose step fetch then begins, or a running channel's empty backup,
and is answered OK; with both occupied it is answered CHANNEL_BUSY and fills nothing. That the reply and the credit of a
START carried out whole come before its channel's fetch is the model's order (log entry 11). A START goes claim by claim,
and another command may come between two of its claims, cut as the model cuts them (log entry 10): the checks of its fields
and its standing in one claim, its resolution with the pin it places, and its slot claim, in which the pin passes to the
primary slot it fills or stays until the service ends. The slot claim takes the channel as it stands, whatever work channels
have still to take up. Where it falls between the end of a list and the checks of the promoted backup (a turn of none lets
it: log entry 20), the START fills the backup, and a check that ends the promoted list promotes that backup in its turn. A
START with a bad channel byte or offset is charged BAD_REQUEST, one of a LIMITED slot is answered LIMITED, whatever its
score, and one whose resolution fails is answered with the code, charged where it is a violation, ABSENT_TOUCH raised where
it is ABSENT. That a START's notices carry its list handle and its start offset, those of BAD_REQUEST included, is the
model's reading (log entry 13). -/
def Obligations.StartIsAnswered : Prop :=
  (∀ (s : State) (slot : Slot) (tag : BitVec 3) (channel : Byte) (c : Chan) (h : Handle) (offset : Nat)
     (rest : List Request) (w : Resolved),
     Settled s → AtHead s ⟨slot, tag, .start channel h offset⟩ rest → channel.toNat = c.val → offset ≤ 8388607 →
     s.su[slot].standing ≠ .limited → resolve s slot h offset 1 Rights.F true true = .ok w →
     let q : Request := ⟨slot, tag, .start channel h offset⟩
     let ch := s.chans[c]
     (ch.primary = none → exec (.start none) s = .next (settle { (s.credited slot).answered q rest .ok [] with
       wt := withPins s.wt [h.index]
       chans := s.chans.set c { ch with
         state := .fetch
         primary := some {
           owner := some slot, handle := h, offset := offset, step := none, bytesDone := 0, total := 0, jumps := 0
           pins := [⟨h.index, .list⟩], mark := none, source := none, dest := none, completion := none, noted := false
           work := .fetch } } })) ∧
     (ch.primary ≠ none → ch.backup = none → exec (.start none) s = .next { (s.credited slot).answered q rest .ok [] with
       chans := s.chans.set c { ch with backup := some ⟨slot, h, offset⟩ } }) ∧
     (ch.primary ≠ none → ch.backup ≠ none → exec (.start none) s = .next (s.answered q rest .channelBusy []))) ∧
  (∀ (s : State) (r : InService) (channel : Byte) (c : Chan) (h : Handle) (offset : Nat),
     Settled s → s.server = some r → r.request.body = .start channel h offset → channel.toNat = c.val →
     let slot := r.request.slot
     let ch := s.chans[c]
     let ending (r : InService) (code : Code) : Option InService := some { r with stage := .ending code [] }
     (r.stage = .begun → offset ≤ 8388607 → s.su[slot].standing ≠ .limited →
       exec (.start (some 1)) s = .next { s with server := some { r with stage := .checked } }) ∧
     (r.stage = .begun → offset ≤ 8388607 → s.su[slot].standing = .limited →
       exec (.start (some 1)) s = .next { s with server := ending r .limited }) ∧
     (∀ w, r.stage = .checked → resolve s slot h offset 1 Rights.F true true = .ok w →
       exec (.start (some 1)) s = .next { s with
         wt := withPins s.wt w.pinned
         server := some { r with stage := .slotClaim, resolved := some w, pins := r.pins ++ w.pinned } }) ∧
     (∀ code touched, r.stage = .checked → (code.isViolation = true → s.su[slot].score ≤ 247) →
       resolve s slot h offset 1 Rights.F true true = .error (code, touched) →
       exec (.start (some 1)) s = .next { s.failing code touched slot none h offset with server := ending r code }) ∧
     (r.stage = .slotClaim →
       (ch.primary ≠ none → ch.backup = none → exec (.start (some 1)) s = .next { s with
         server := ending r .ok
         chans := s.chans.set c { ch with backup := some ⟨slot, h, offset⟩ } }) ∧
       (ch.primary ≠ none → ch.backup ≠ none →
         exec (.start (some 1)) s = .next { s with server := ending r .channelBusy }))) ∧
  (∀ (s : State) (r : InService) (channel : Byte) (c : Chan) (h : Handle) (offset : Nat),
     s.server = some r → r.request.body = .start channel h offset → channel.toNat = c.val → r.stage = .slotClaim →
     let slot := r.request.slot
     let ch := s.chans[c]
     let filled : State := { s with
       server := some { r with stage := .ending .ok [] }
       chans := s.chans.set c { ch with backup := some ⟨slot, h, offset⟩ } }
     (ch.primary = none → exec (.start (some 1)) s = .next (settle { s with
       server := some { r with pins := [], stage := .ending .ok [] }
       chans := s.chans.set c { ch with
         state := .fetch
         primary := some {
           owner := some slot, handle := h, offset := offset, step := none, bytesDone := 0, total := 0, jumps := 0
           pins := r.pins.map (⟨·, .list⟩), mark := none, source := none, dest := none, completion := none
           noted := false, work := .fetch } } })) ∧
     (ch.primary ≠ none → ch.backup = none → exec (.start (some 1)) s = .next (settle filled)) ∧
     (ch.primary ≠ none → ch.backup ≠ none →
       exec (.start (some 1)) s = .next (settle { s with server := some { r with stage := .ending .channelBusy [] } })) ∧
     (∀ p owner code touched, ch.primary = some p → p.work = .promote → p.mark = none → p.owner = some owner →
       s.su[owner].standing = .limited ∨ (code.isViolation = true → s.su[owner].score ≤ 247) ∧
         resolve s owner p.handle p.offset 1 Rights.F true true = .error (code, touched) →
       (advance c filled).chans[c].primary = some (Backup.promoted ⟨slot, h, offset⟩) ∧
       (advance c filled).chans[c].backup = none)) ∧
  (∀ (s : State) (slot : Slot) (tag : BitVec 3) (channel : Byte) (h : Handle) (offset : Nat) (rest : List Request),
     Settled s → AtHead s ⟨slot, tag, .start channel h offset⟩ rest →
     let ends (t : State) (code : Code) : Prop :=
       exec (.start none) s = .next (t.answered ⟨slot, tag, .start channel h offset⟩ rest code [])
     (3 < channel.toNat ∨ 8388607 < offset → s.su[slot].score ≤ 247 → ends (s.charged .badRequest slot none h offset) .badRequest) ∧
     (channel.toNat ≤ 3 → offset ≤ 8388607 → s.su[slot].standing = .limited → ends s .limited) ∧
     (∀ code touched, channel.toNat ≤ 3 → offset ≤ 8388607 → s.su[slot].standing ≠ .limited →
       (code.isViolation = true → s.su[slot].score ≤ 247) →
       resolve s slot h offset 1 Rights.F true true = .error (code, touched) → ends (s.failing code touched slot none h offset) code))

/-- A CANCEL empties the sender's backup and marks the sender's primary ABORTED, unless it carries a mark, a primary between
bursts ending at once with its mark's code; it is answered OK, or NOT_FOUND where neither slot of the channel is the
sender's. A CANCEL with a channel byte above 3 is charged BAD_REQUEST, with the null handle (generation 0: log entry 18) and
offset 0. -/
def Obligations.CancelAbortsTheSendersLists : Prop :=
  (∀ (s : State) (slot : Slot) (tag : BitVec 3) (channel : Byte) (c : Chan) (rest : List Request),
     Settled s → AtHead s ⟨slot, tag, .cancel channel⟩ rest → channel.toNat = c.val →
     let q : Request := ⟨slot, tag, .cancel channel⟩
     let ch := s.chans[c]
     let mineB : Bool := ch.backup.any (·.owner == slot)
     let backup := if mineB then none else ch.backup
     (ch.primary.any (·.owner == some slot) = false → mineB = false →
       exec (.cancel none) s = .next (s.answered q rest .notFound [])) ∧
     (ch.primary.any (·.owner == some slot) = false → mineB = true →
       exec (.cancel none) s = .next { (s.credited slot).answered q rest .ok [] with
         chans := s.chans.set c { ch with backup := none } }) ∧
     (∀ p, ch.primary = some p → p.owner = some slot →
       let p' := { p with mark := p.mark <|> some ⟨.aborted, slot⟩ }
       ((∃ b, s.port.granted = some (Claimant.ch c, b)) →
         exec (.cancel none) s = .next { (s.credited slot).answered q rest .ok [] with
           chans := s.chans.set c { ch with primary := some p', backup := backup } }) ∧
       (∀ m, (∀ b, s.port.granted ≠ some (Claimant.ch c, b)) → p'.mark = some m →
         let ended := endList c m.result
           { s with rq := rest, chans := s.chans.set c { ch with primary := some p', backup := backup } }
         exec (.cancel none) s = .next (settle ((ended.credited slot).answered q rest .ok []))))) ∧
  (∀ (s : State) (slot : Slot) (tag : BitVec 3) (channel : Byte) (rest : List Request),
     Settled s → AtHead s ⟨slot, tag, .cancel channel⟩ rest → 3 < channel.toNat → s.su[slot].score ≤ 247 →
     exec (.cancel none) s = .next
       ((s.charged .badRequest slot none ⟨0, 0⟩ 0).answered ⟨slot, tag, .cancel channel⟩ rest .badRequest []))

/-- The sixteen bytes of a step spell a MOVE, a JUMP or a HALT by their kind byte, flags and fields, or no step. -/
def Obligations.StepBytesSpellAStepOrNone : Prop :=
  ∀ kind flags b2 b3 b4 b5 b6 b7 b8 b9 b10 b11 b12 b13 b14 b15 : Byte,
    let handle (g i : Byte) : Handle := ⟨g, Fin.ofNat 256 i.toNat⟩
    let number (x y z : Byte) : Nat := x.toNat * 65536 + y.toNat * 256 + z.toNat
    let count := number b13 b14 b15
    decodeStep [kind, flags, b2, b3, b4, b5, b6, b7, b8, b9, b10, b11, b12, b13, b14, b15] =
      if kind = 0x01 ∧ flags.toNat ≤ 3 ∧ number b4 b5 b6 ≤ 8388607 ∧ number b10 b11 b12 ≤ 8388607 ∧ 1 ≤ count ∧
          count ≤ 1048576 then
        some (.move (handle b2 b3) (number b4 b5 b6) (handle b8 b9) (number b10 b11 b12) count b7
          (flags.getLsbD 0) (flags.getLsbD 1))
      else if kind = 0x02 ∧ flags = 0 ∧ number b2 b3 b4 ≤ 8388607 ∧ number b2 b3 b4 % 16 = 0 ∧
          (b5 = 0 ∧ b6 = 0 ∧ b7 = 0 ∧ b8 = 0 ∧ b9 = 0 ∧ b10 = 0 ∧ b11 = 0 ∧ b12 = 0 ∧ b13 = 0 ∧ b14 = 0 ∧ b15 = 0) then
        some (.jump (number b2 b3 b4))
      else if kind = 0x03 ∧ flags = 0 ∧ number b4 b5 b6 ≤ 8388607 ∧
          (b7 = 0 ∧ b8 = 0 ∧ b9 = 0 ∧ b10 = 0 ∧ b11 = 0 ∧ b12 = 0 ∧ b13 = 0 ∧ b14 = 0 ∧ b15 = 0) then
        some (.halt (handle b2 b3) (number b4 b5 b6))
      else none

/-- The completion of a step fetch's last burst takes up the step: a JUMP moves the list offset, up to eight times in a row,
and its step is fetched; a MOVE or a HALT becomes the current step; no step ends the list LIST_FORMAT, a ninth JUMP
LIST_LOOP, both being charged to the owner. Where the charge bars the owner, the owner is torn down and the list still ends
with its own code. (What a barring leaves of the owner's request in service is in part the model's choice: log entries 21,
22 and 24.) -/
def Obligations.FetchedStepIsTakenUp : Prop :=
  ∀ (s u : State) (c : Chan) (p : Primary) (owner : Slot) (got data : List Byte) (b : Burst) (st : BurstStatus),
    s.port.granted = some (Claimant.ch c, b) → s.chans[c].primary = some p → p.work = .fetchBurst [] got →
    p.mark = none → p.owner = some owner → performBurst b s = (st, data, u) → st ≠ .uncorrectable →
    let free : State := { u with port := { u.port with granted := none } }
    let goes (p' : Primary) : Prop := exec (.burstComplete []) s =
      .next (settle { free with chans := s.chans.set c { s.chans[c] with primary := some p' } })
    let fails (code : Code) : Prop := ∃ t, exec (.burstComplete []) s = .next (settle t) ∧
      ListFails free t c p owner code none p.handle p.offset
    (decodeStep (got ++ data) = none → fails .listFormat) ∧
    (∀ target, decodeStep (got ++ data) = some (.jump target) →
      (p.jumps ≤ 7 → goes { p with
        offset := target, step := none, bytesDone := 0, jumps := p.jumps + 1, work := .fetch }) ∧
      (8 ≤ p.jumps → fails .listLoop)) ∧
    (∀ src so dst d n f l dn, decodeStep (got ++ data) = some (.move src so dst d n f l dn) → goes { p with
      step := some (.move src so dst d n f l dn), bytesDone := 0, jumps := 0
      source := none, dest := none, completion := none, work := .resolve }) ∧
    (∀ h o, decodeStep (got ++ data) = some (.halt h o) → goes { p with
      step := some (.halt h o), bytesDone := 0
      source := none, dest := none, completion := none, work := .resolve })

/-- A promoted list is checked before its first step: LIMITED ends it LIMITED, a failing resolution ends it with the code, a
violation being charged to the owner or barring it, and a pass pins its list descriptor and fetches. The standing and the
resolution are checked in one piece, as the model cuts a channel's work (log entry 10). A step fetch checks the list handle
again and requests its bytes: ABSENT and a hole stop the channel with their attentions, another failing check ends the list,
a violation being charged to the owner or barring it. Of two bursts the one of the lower bytes is first, the model's choice
(log entry 23). The check, the translation and the request of the burst are one piece of the channel's work, as the model
cuts it (log entry 10). CHANNEL_RESUME's list check: ABSENT stops the channel again, another failing check ends the list, a
violation being charged to the owner or barring it; on a pass the handles of the current step are resolved next, or without
a step the next one is fetched. (What a barring leaves of the owner's request in service is in part the model's choice: log
entries 21, 22 and 24.) -/
def Obligations.ListIsCheckedAtPromotionAndFetch : Prop :=
  (∀ (s : State) (c : Chan) (p : Primary) (owner : Slot),
     s.chans[c].primary = some p → p.work = .promote → p.mark = none → p.owner = some owner →
     (s.su[owner].standing = .limited → advance c s = endList c .limited s) ∧
     (s.su[owner].standing ≠ .limited →
       (∀ code touched, resolve s owner p.handle p.offset 1 Rights.F true true = .error (code, touched) →
         ListFails s (advance c s) c p owner code touched p.handle p.offset) ∧
       (∀ w, resolve s owner p.handle p.offset 1 Rights.F true true = .ok w →
         advance c s = { s with
           wt := withPins s.wt [p.handle.index]
           chans := s.chans.set c { s.chans[c] with
             primary := some { p with pins := [⟨p.handle.index, .list⟩], work := .fetch } } }))) ∧
  (∀ (s : State) (c : Chan) (p : Primary) (owner : Slot),
     s.chans[c].primary = some p → p.work = .fetch → p.mark = none → p.owner = some owner →
     let verdict := resolve s owner p.handle p.offset 16 Rights.F true false
     let stopped (cause : BitVec 12) : State := { s with
       chans := s.chans.set c { s.chans[c] with
         state := .stopped, primary := some { p with work := .stopped }, event := some .stop }
       attn := { s.attn with pending := s.attn.pending ||| cause ||| BitVec.ofNat 12 (2 ^ (c.val + 2)) } }
     (∀ i, verdict = .error (.absent, some i) →
       advance c s = { stopped 0x040 with attn := { (stopped 0x040).attn with absentLatch := i } }) ∧
     (∀ code, verdict = .error (code, none) → code ≠ .absent →
       ListFails s (advance c s) c p owner code none p.handle p.offset) ∧
     (∀ w, verdict = .ok w →
       (∀ entry, Machine.translate s w.base w.baseOffset 16 = .error entry →
         advance c s = { stopped 0x080 with attn := { (stopped 0x080).attn with holeLatch := entry } }) ∧
       (∀ pieces first more, Machine.translate s w.base w.baseOffset 16 = .ok pieces → readBursts pieces = first :: more →
         advance c s = { s with
           chans := s.chans.set c { s.chans[c] with primary := some { p with work := .fetchBurst more [] } }
           port := { s.port with waiting := s.port.waiting.set (Claimant.ch c) (some first) } }))) ∧
  (∀ (s : State) (c : Chan) (p : Primary) (owner : Slot),
     s.chans[c].primary = some p → p.work = .resume → p.mark = none → p.owner = some owner →
     let verdict := resolve s owner p.handle p.offset 16 Rights.F true false
     (∀ i, verdict = .error (.absent, some i) → advance c s = { s with
       chans := s.chans.set c { s.chans[c] with
         state := .stopped, primary := some { p with work := .stopped }, event := some .stop }
       attn := { s.attn with
         pending := s.attn.pending ||| 0x040 ||| BitVec.ofNat 12 (2 ^ (c.val + 2)), absentLatch := i } }) ∧
     (∀ code, verdict = .error (code, none) → code ≠ .absent →
       ListFails s (advance c s) c p owner code none p.handle p.offset) ∧
     (∀ w, verdict = .ok w → advance c s = { s with chans := s.chans.set c { s.chans[c] with
       primary := some { p with work := if p.step = none then .fetch else .resolve } } }))

/-- A MOVE resolves its source and then its destination: a pass of each pins it, unless a check before a stop has pinned it
already, and the channel goes to MOVE; a null source is a fill. A handle that fails ends the list, a violation being charged
to the owner or barring it; an ABSENT one stops the channel, the pins of a source that has passed staying. A HALT with the
null handle ends the list OK. With another it resolves the completion handle: ABSENT stops the channel, another failing
check ends the list, a violation being charged to the owner or barring it, and a pass pins the window, unless a check before
a stop has pinned it already, and goes HALTING. It then requests the write of the completion record: the list's total, the
HALT's offset, the channel and the owner, of two bursts the one of the lower bytes first, the model's choice (log entry 23).
A hole there stops the channel. That source and destination are resolved in one piece, and the record is translated and its
burst requested in one, is how the model cuts a channel's work (log entry 10). (What a barring leaves of the owner's request
in service is in part the model's choice: log entries 21, 22 and 24.) -/
def Obligations.StepResolvesItsHandles : Prop :=
  (∀ (s : State) (c : Chan) (p : Primary) (owner : Slot) (src dst : Handle) (so d count : Nat) (fill : Byte)
     (last down : Bool), s.chans[c].primary = some p → p.work = .resolve → p.mark = none → p.owner = some owner →
     p.step = some (.move src so dst d count fill last down) →
     let sourceVerdict := resolve s owner src so count Rights.R false false
     let destVerdict := resolve s owner dst d count Rights.W false false
     let sourcePinned : Bool := p.pins.any (·.purpose == .source)
     let destPinned : Bool := p.pins.any (·.purpose == .destination)
     let destPins (w : Resolved) : List ChanPin :=
       ⟨w.index, .destination⟩ :: w.target.toList.map (⟨·, .destinationTarget⟩)
     let sourced (v : Resolved) : Primary := { p with
       source := some v
       pins := if sourcePinned then p.pins
         else p.pins ++ ⟨v.index, .source⟩ :: v.target.toList.map (⟨·, .sourceTarget⟩) }
     let sourcedTable (v : Resolved) : Vector Descriptor 256 := if sourcePinned then s.wt else withPins s.wt v.pinned
     let goes (wt : Vector Descriptor 256) (x : Primary) (w : Resolved) : Prop := advance c s = { s with
       wt := if destPinned then wt else withPins wt w.pinned
       chans := s.chans.set c { s.chans[c] with
         state := .move
         primary := some { x with
           pins := if destPinned then x.pins else x.pins ++ destPins w, dest := some w, work := .unit } } }
     let stops (wt : Vector Descriptor 256) (x : Primary) (i : DIdx) : Prop := advance c s = { s with
       wt := wt
       chans := s.chans.set c { s.chans[c] with
         state := .stopped, primary := some { x with work := .stopped }, event := some .stop }
       attn := { s.attn with
         pending := s.attn.pending ||| 0x040 ||| BitVec.ofNat 12 (2 ^ (c.val + 2)), absentLatch := i } }
     let ends (wt : Vector Descriptor 256) (x : Primary) (code : Code) (h : Handle) (offset : Nat) : Prop :=
       code ≠ .absent → ListFails { s with wt := wt, chans := s.chans.set c { s.chans[c] with primary := some x } }
         (advance c s) c p owner code none h offset
     (src.index = 0 →
       (∀ w, destVerdict = .ok w → goes s.wt p w) ∧ (∀ i, destVerdict = .error (.absent, some i) → stops s.wt p i) ∧
       (∀ code, destVerdict = .error (code, none) → ends s.wt p code dst d)) ∧
     (src.index ≠ 0 →
       (∀ i, sourceVerdict = .error (.absent, some i) → stops s.wt p i) ∧
       (∀ code, sourceVerdict = .error (code, none) → ends s.wt p code src so) ∧
       (∀ v, sourceVerdict = .ok v →
         (∀ w, destVerdict = .ok w → goes (sourcedTable v) (sourced v) w) ∧
         (∀ i, destVerdict = .error (.absent, some i) → stops (sourcedTable v) (sourced v) i) ∧
         (∀ code, destVerdict = .error (code, none) → ends (sourcedTable v) (sourced v) code dst d)))) ∧
  (∀ (s : State) (c : Chan) (p : Primary) (owner : Slot) (comp : Handle) (offset : Nat),
     s.chans[c].primary = some p → p.mark = none → p.owner = some owner → p.step = some (.halt comp offset) →
     let verdict := resolve s owner comp offset 8 Rights.W false false
     let pinned : Bool := p.pins.any (·.purpose == .completion)
     let stopped (a : Attention) : State := { s with
       chans := s.chans.set c { s.chans[c] with
         state := .stopped, primary := some { p with work := .stopped }, event := some .stop }
       attn := { a with pending := a.pending ||| BitVec.ofNat 12 (2 ^ (c.val + 2)) } }
     (p.work = .resolve → comp.index = 0 → advance c s = endList c .ok s) ∧
     (∀ w, p.work = .resolve → comp.index ≠ 0 → verdict = .ok w →
       advance c s = { s with
         wt := if pinned then s.wt else withPins s.wt w.pinned
         chans := s.chans.set c { s.chans[c] with
           state := .halting
           primary := some { p with
             pins := if pinned then p.pins
               else p.pins ++ ⟨w.index, .completion⟩ :: w.target.toList.map (⟨·, .completionTarget⟩)
             completion := some w, work := .record } } }) ∧
     (∀ i, p.work = .resolve → comp.index ≠ 0 → verdict = .error (.absent, some i) →
       advance c s = stopped { s.attn with pending := s.attn.pending ||| 0x040, absentLatch := i }) ∧
     (∀ code, p.work = .resolve → comp.index ≠ 0 → verdict = .error (code, none) → code ≠ .absent →
       ListFails s (advance c s) c p owner code none comp offset) ∧
     (∀ w entry, p.work = .record → p.completion = some w → Machine.translate s w.base w.baseOffset 8 = .error entry →
       advance c s = stopped { s.attn with pending := s.attn.pending ||| 0x080, holeLatch := entry }) ∧
     (∀ w pieces first more, p.work = .record → p.completion = some w →
       Machine.translate s w.base w.baseOffset 8 = .ok pieces →
       writeBursts pieces [BitVec.ofNat 8 (p.total.toNat / 16777216), BitVec.ofNat 8 (p.total.toNat / 65536),
         BitVec.ofNat 8 (p.total.toNat / 256), BitVec.ofNat 8 p.total.toNat,
         BitVec.ofNat 8 (p.offset / 65536), BitVec.ofNat 8 (p.offset / 256), BitVec.ofNat 8 p.offset,
         BitVec.ofNat 8 (c.val * 16 + owner.val)] = first :: more →
       advance c s = { s with
         chans := s.chans.set c { s.chans[c] with primary := some { p with work := .recordBurst more } }
         port := { s.port with waiting := s.port.waiting.set (Claimant.ch c) (some first) } }))

/-- A transfer unit carries as many of the remaining bytes, at most 64, as stay in one page on each side, the lowest first,
or with DOWN the highest. The next transfer unit is cut and its bytes on both sides are translated, the source examined
first. A hole stops the channel with the bytes done exact; else the unit is read from the source's physical address, to be
written at the destination's, or, without a source, its bytes are written with the fill byte. That is one piece of the
channel's work, as the model cuts it (log entry 10). -/
def Obligations.TransferUnitStaysInOnePageOnEachSide : Prop :=
  (∀ (s : State) (source : Option Resolved) (dest : Resolved) (count done : Nat) (down : Bool), done < count →
     let n := unitSize s source dest count done down
     let position (r : Resolved) (k : Nat) : Nat :=
       s.wt[r.base].firstOffset + r.baseOffset + (if down then count - done - k else done + k - 1)
     let onePage (r : Resolved) (m : Nat) : Prop := ∀ k, 1 ≤ k → k ≤ m → position r k / 4096 = position r 1 / 4096
     let fits (m : Nat) : Prop := m ≤ 64 ∧ m ≤ count - done ∧ onePage dest m ∧ ∀ r, source = some r → onePage r m
     1 ≤ n ∧ fits n ∧ (∀ m, fits m → m ≤ n) ∧
     ∀ r, unitOffset r count done n down = if down then r.baseOffset + (count - done - n) else r.baseOffset + done) ∧
  (∀ (s : State) (c : Chan) (p : Primary) (owner : Slot) (dest : Resolved) (src dst : Handle) (so d count : Nat)
     (fill : Byte) (last down : Bool),
     s.chans[c].primary = some p → p.work = .unit → p.mark = none → p.owner = some owner → p.dest = some dest →
     p.step = some (.move src so dst d count fill last down) →
     let n := unitSize s p.source dest count p.bytesDone down
     let place (w : Resolved) : Except Nat (List (Nat × Nat)) :=
       Machine.translate s w.base (unitOffset w count p.bytesDone n down) n
     let stops (entry : Nat) : Prop := advance c s = { s with
       chans := s.chans.set c { s.chans[c] with
         state := .stopped, primary := some { p with work := .stopped }, event := some .stop }
       attn := { s.attn with
         pending := s.attn.pending ||| 0x080 ||| BitVec.ofNat 12 (2 ^ (c.val + 2)), holeLatch := entry } }
     let requests (b : Burst) (w : Work) : Prop := advance c s = { s with
       chans := s.chans.set c { s.chans[c] with primary := some { p with work := w } }
       port := { s.port with waiting := s.port.waiting.set (Claimant.ch c) (some b) } }
     (∀ w entry, p.source = some w → place w = .error entry → stops entry) ∧
     (∀ w pieces entry, p.source = some w → place w = .ok pieces → place dest = .error entry → stops entry) ∧
     (∀ w a b, p.source = some w → place w = .ok [(a, n)] → place dest = .ok [(b, n)] →
       requests (.read a n) (.unitRead n b)) ∧
     (∀ entry, p.source = none → place dest = .error entry → stops entry) ∧
     (∀ b, p.source = none → place dest = .ok [(b, n)] →
       requests (.write b (List.replicate n fill)) (.unitWrite n)) ∧
     (∀ w pieces, w = dest ∨ p.source = some w → p.bytesDone < count → place w = .ok pieces →
       ∃ a, pieces = [(a, n)]))

/-- The bytes a unit's read burst delivered are written by its write burst; the completion of a unit's write counts its
bytes as done and in the list's total, and the last unit completes the step: its pins fall, and the list ends OK on LAST or
goes on to its next step. -/
def Obligations.UnitIsReadWrittenAndCounted : Prop :=
  ∀ (s u : State) (c : Chan) (p : Primary) (owner : Slot) (b : Burst) (st : BurstStatus) (data : List Byte)
    (src dst : Handle) (so d count : Nat) (fill : Byte) (last down : Bool),
    s.port.granted = some (Claimant.ch c, b) → s.chans[c].primary = some p → p.mark = none → p.owner = some owner →
    p.step = some (.move src so dst d count fill last down) → performBurst b s = (st, data, u) → st ≠ .uncorrectable →
    let free : State := { u with port := { u.port with granted := none } }
    let withPrimary (t : State) (p' : Primary) (st : ChanState) : State :=
      { t with chans := s.chans.set c { s.chans[c] with primary := some p', state := st } }
    (∀ n a, p.work = .unitRead n a → exec (.burstComplete []) s =
      .next (settle { withPrimary free { p with work := .unitWrite n } s.chans[c].state with
        port := { free.port with waiting := free.port.waiting.set (Claimant.ch c) (some (.write a data)) } })) ∧
    (∀ n, p.work = .unitWrite n →
      let counted := { p with bytesDone := p.bytesDone + n, total := p.total + BitVec.ofNat 32 n, work := .unit }
      let ended := { counted with
        pins := p.pins.filter (·.purpose == .list), step := none, bytesDone := 0
        source := none, dest := none, completion := none }
      let unpinned (t : State) : State := removePins ((p.pins.filter (·.purpose != .list)).map (·.index)) t
      (p.bytesDone + n < count → exec (.burstComplete []) s =
        .next (settle (withPrimary free counted s.chans[c].state))) ∧
      (count ≤ p.bytesDone + n → last = false → exec (.burstComplete []) s =
        .next (settle (withPrimary (unpinned free) { ended with offset := p.offset + 16, work := .fetch } .fetch))) ∧
      (count ≤ p.bytesDone + n → last = true → exec (.burstComplete []) s =
        .next (settle (endList c .ok (withPrimary (unpinned free) ended s.chans[c].state)))))

/-- At the completion of a channel's burst a list with an ending mark ends with the mark's code, the bytes of a unit's write
being counted first; an uncorrectable burst ends an unmarked list MEMORY_ERROR. A step fetch or a completion record that
crosses a page takes two bursts: the completion of the first keeps the bytes read and requests the second. That the first
carries the lower bytes is the model's choice (log entry 23). With the last burst of its completion record the list ends OK.
-/
def Obligations.BurstBoundaryEndsMarkedAndFailedLists : Prop :=
  (∀ (s u : State) (c : Chan) (p : Primary) (b : Burst) (st : BurstStatus) (data : List Byte),
     s.port.granted = some (Claimant.ch c, b) → s.chans[c].primary = some p → performBurst b s = (st, data, u) →
     let free : State := { u with port := { u.port with granted := none } }
     (∀ m, p.mark = some m → ((∀ n, p.work ≠ .unitWrite n) ∨ st = .uncorrectable) →
       exec (.burstComplete []) s = .next (settle (endList c m.result free))) ∧
     (∀ m n, p.mark = some m → p.work = .unitWrite n → st ≠ .uncorrectable →
       exec (.burstComplete []) s = .next (settle (endList c m.result { free with
         chans := s.chans.set c { s.chans[c] with primary := some { p with
           bytesDone := p.bytesDone + n, total := p.total + BitVec.ofNat 32 n, work := .unit } } }))) ∧
     (p.mark = none → st = .uncorrectable → exec (.burstComplete []) s = .next (settle (endList c .memoryError free)))) ∧
  (∀ (s u : State) (c : Chan) (p : Primary) (b : Burst) (st : BurstStatus) (data : List Byte),
     s.port.granted = some (Claimant.ch c, b) → s.chans[c].primary = some p → p.mark = none →
     performBurst b s = (st, data, u) → st ≠ .uncorrectable →
     let free : State := { u with port := { u.port with granted := none } }
     let goesOn (next : Burst) (w : Work) : Prop := exec (.burstComplete []) s = .next (settle { free with
       chans := s.chans.set c { s.chans[c] with primary := some { p with work := w } }
       port := { free.port with waiting := free.port.waiting.set (Claimant.ch c) (some next) } })
     (∀ next more got, p.work = .fetchBurst (next :: more) got → goesOn next (.fetchBurst more (got ++ data))) ∧
     (∀ next more, p.work = .recordBurst (next :: more) → goesOn next (.recordBurst more)) ∧
     (p.work = .recordBurst [] → exec (.burstComplete []) s = .next (settle (endList c .ok free))))

/-- A list's end records its outcome, sets the channel's event kind and cause, credits the owner where the code is OK,
removes the list's pins and moves the backup into the primary slot or leaves the channel IDLE. A BUSY engine that waits for
it goes on: a CHANNEL_ABORT of the channel completes OK, a LINK_RESET waits for one list less and completes OK with nothing
left. The outcome of a list whose owner is torn down names the owner its ending mark was set for. -/
def Obligations.ListEndRecordsItsOutcome : Prop :=
  ∀ (s : State) (c : Chan) (p : Primary) (owner : Slot) (code : Code),
    s.chans[c].primary = some p → (∀ x ∈ p.pins, s.wt[x.index].state ≠ .retiring) →
    (p.owner = some owner ∨ p.owner = none ∧ code ≠ .ok ∧ ∃ m, p.mark = some m ∧ m.owner = owner) →
    let ch := s.chans[c]
    let finished : Engine := { s.engine with state := .idle, results := Results.zero, lastCode := .ok }
    let engine : Engine := match s.engine.state with
      | .busy (.abort d) => if d = c then finished else s.engine
      | .busy (.link lists detached) =>
        if (∀ d : Chan, d ≠ c → lists[d] = false) ∧ detached = false then finished
        else { s.engine with state := .busy (.link (lists.set c false) detached) }
      | _ => s.engine
    let kind : EventKind := match code with
      | .ok => .ended
      | .aborted | .ownerGone | .ownerBarred => .aborted
      | _ => .fault
    endList c code s = { s with
      chans := s.chans.set c {
        state := if ch.backup.isSome then .fetch else .idle
        primary := ch.backup.map fun b => {
          owner := some b.owner, handle := b.handle, offset := b.offset, step := none, bytesDone := 0, total := 0
          jumps := 0, pins := [], mark := none, source := none, dest := none, completion := none, noted := false
          work := .promote }
        backup := none
        outcome := ⟨true, owner, p.handle.index, code, p.total, p.offset⟩
        event := some kind }
      attn := { s.attn with pending := s.attn.pending ||| BitVec.ofNat 12 (2 ^ (c.val + 2)) }
      su := if code = .ok then s.su.set owner s.su[owner].credited else s.su
      wt := p.pins.foldl (fun v x => v.set x.index { v[x.index] with pins := v[x.index].pins - 1 }) s.wt
      port := { s.port with waiting := s.port.waiting.set (Claimant.ch c) none }
      engine := engine }

/-- A channel that a RETIRE FORCE has noted takes its abort claim: the list is marked ABORTED, unless it carries a mark,
which it keeps with its code and its owner, and ends with its mark's code at once unless its burst is granted. A channel
that is not noted is left as it is (the model's choice: log entry 9). -/
def Obligations.NotedChannelTakesItsAbortClaim : Prop :=
  ∀ (s : State) (c : Chan), Settled s →
    ((∀ p, s.chans[c].primary = some p → p.noted = false) → exec (.forceAbortClaim c) s = .next s) ∧
    (∀ p m, s.chans[c].primary = some p → p.noted = true → (p.mark <|> some ⟨.aborted, p.owner.getD 0⟩) = some m →
      let marked : State := { s with chans := s.chans.set c { s.chans[c] with
        primary := some { p with noted := false, mark := some m } } }
      ((∃ b, s.port.granted = some (Claimant.ch c, b)) → exec (.forceAbortClaim c) s = .next marked) ∧
      ((∀ b, s.port.granted ≠ some (Claimant.ch c, b)) →
        exec (.forceAbortClaim c) s = .next (settle (endList c m.result marked))))

/-! ### Descriptors and interlocks -/

/-- The last pin that falls from a RETIRING descriptor frees it: its openers, interlock and mark are gone, its generation
has gone on by one, and RETIRE_DONE is raised with its index latched; a RETIRE FORCE that waits for it completes OK in the
same claim. Another pin that falls only lowers the count, and the engine stays as it is. -/
def Obligations.LastPinFreesARetiringDescriptor : Prop :=
  ∀ (s : State) (i : DIdx),
    let d := s.wt[i]
    (d.state = .retiring → d.pins = 1 → removePin i s = { s with
      wt := s.wt.set i { d with
        state := .free, gen := d.gen + 1, openers := Vector.replicate 16 none, pins := 0, holder := none
        expiry := none, expiredHolder := none }
      attn := { s.attn with pending := s.attn.pending ||| 0x200, retireLatch := i }
      engine := if s.engine.state = .busy (.retire i) then
          { s.engine with state := .idle, results := Results.zero, lastCode := .ok }
        else s.engine }) ∧
    (d.state ≠ .retiring ∨ 2 ≤ d.pins →
      removePin i s = { s with wt := s.wt.set i { d with pins := d.pins - 1 } })

/-- An interlock that expires is released, its holder becoming the expired holder; LOCK_EXPIRED is raised, and the holder is
charged with a violation that names the descriptor. Where the charge bars the holder, the holder is torn down in the same
claim, which takes the mark away again; what that leaves of the holder's request in service is in part the model's choice
(log entries 21, 22 and 24). The time is then no earlier than the expiry (the model's choice: log entry 6). A descriptor
without an interlock has none to expire. -/
def Obligations.InterlockExpiryMarksAndChargesTheHolder : Prop :=
  ∀ (s : State) (i : DIdx), Settled s →
    (s.wt[i].holder = none → exec (.interlockExpiry i) s = .next s) ∧
    (∀ holder expiry, s.wt[i].holder = some holder → s.wt[i].expiry = some expiry →
      let marked : State := { s with
        now := max s.now expiry
        wt := s.wt.set i { s.wt[i] with holder := none, expiry := none, expiredHolder := some holder }
        attn := { s.attn with pending := s.attn.pending ||| 0x100, lockLatch := i } }
      (s.su[holder].score ≤ 247 → exec (.interlockExpiry i) s =
        .next (marked.charged .lockExpired holder none ⟨s.wt[i].gen, i⟩ 0)) ∧
      (248 ≤ s.su[holder].score → s.su[holder].standing ≠ .barred → ∃ u,
        exec (.interlockExpiry i) s = .next (settle u) ∧ u.wt[i].holder = none ∧ u.wt[i].expiredHolder = none ∧
        BarsItsSlot marked u ⟨true, false, .lockExpired, holder, none, ⟨s.wt[i].gen, i⟩, 0⟩ ∧
        BarringReaches marked u holder ∧ u.attn.pending.getLsbD 8 = true ∧ u.attn.lockLatch = i))

/-! ### Lines -/

/-- A PRESENT line that rises makes the slot present. One that falls makes it not present and raises REQUESTER_GONE; of a
disabled or BARRED slot with nothing in service that is all, and an enabled slot that is not BARRED then holds nothing, its
queued requests gone unanswered. A line that is low already does not fall (the model's choice: log entry 9). A PRESENT line
that falls tears an enabled slot down that is not BARRED: its backups are emptied, its running lists end OWNER_GONE, at once
or at their boundary, its entries, interlocks, marks and queued requests go, and the other slots' stay. It reaches the
slot's request in service, whether the slot is enabled, disabled or BARRED: the reply and the answers held behind it are
discarded. Before its deciding claim the request ends at once, before its slot claim a START fills no slot, and another goes
on to its end, one that has reached BAD_REQUEST or LIMITED or the end of its search included (the model's choice: log entry
21). Which claim decides for a QUERY, CANCEL, CHANNEL_STATUS or unknown kind is the model's choice too (log entry 24). -/
def Obligations.PresentLinesComeAndGo : Prop :=
  (∀ (s : State) (slot : Slot),
     let line (v : Bool) : Lines := { s.lines with present := s.lines.present.set slot v }
     let gone : State := { s with
       lines := line false
       su := s.su.set slot { s.su[slot] with present := false }
       attn := { s.attn with pending := s.attn.pending ||| 0x400, goneLatch := slot } }
     exec (.presentRise slot) s = .next { s with
       lines := line true, su := s.su.set slot { s.su[slot] with present := true } } ∧
     (s.lines.present[slot] = false → exec (.presentFall slot) s = .next s) ∧
     (s.lines.present[slot] = true → s.lines.reset = false →
       (Settled s → s.su[slot].enabled = false ∨ s.su[slot].standing = .barred → inServiceOf s slot = 0 →
         exec (.presentFall slot) s = .next gone) ∧
       (Settled s → s.su[slot].enabled = true → s.su[slot].standing ≠ .barred → ∃ t,
         exec (.presentFall slot) s = .next t ∧ HoldsNothing t slot ∧ t.su[slot].present = false ∧
         t.attn.pending.getLsbD 10 = true ∧ t.attn.goneLatch = slot ∧
         (∃ more, t.linkOut = s.linkOut ++ more ∧ ∀ r, LinkMsg.reply r ∈ more → r.slot ≠ slot) ∧ SameBytes s t))) ∧
  (∀ (s : State) (slot : Slot), s.lines.present[slot] = true → s.lines.reset = false →
     ∃ u, exec (.presentFall slot) s = .next (settle u) ∧
       u.su[slot] = { s.su[slot] with present := false, outstanding := u.su[slot].outstanding } ∧
       TeardownReaches s u slot (fun _ => .discard) [] (fun _ => []) ∧
       (s.su[slot].enabled = true → s.su[slot].standing ≠ .barred → TornDown s u slot .ownerGone none) ∧
       (s.su[slot].enabled = false ∨ s.su[slot].standing = .barred → u.chans = s.chans ∧ u.rq = s.rq ∧
         ∀ other : Slot, other ≠ slot → u.su[other] = s.su[other]))

/-- A link reset empties the queue without a reply, empties every opener set with its interlock and mark, empties the
backups and marks the running lists ABORTED; the line INIT takes one when it becomes asserted. A line that is asserted
already does not become so (the model's choice: log entry 9). LINK_RESET takes the link reset that INIT takes, with the
engine BUSY for the ends of what it ends. With no list running and no request in service it completes at once. A link reset
ends a running list ABORTED, at once unless its burst is granted, and then leaves its channel IDLE. The request in service
ends before its deciding claim; past it, it is detached, its reply and held answers are dropped, and it goes on, as does one
that has reached BAD_REQUEST or LIMITED or the end of its search (the model's choice: log entry 21). Which claim decides for
a QUERY, CANCEL, CHANNEL_STATUS or unknown kind is the model's choice too (log entry 24). A LINK_RESET then waits for the
lists and the request that are left, or, with none, has completed OK. -/
def Obligations.LinkResetsEmptyTheLinkAndTheTable : Prop :=
  (∀ s : State, s.lines.reset = false →
     (s.lines.init = true → exec .init s = .next s) ∧
     (s.lines.init = false → exec .init s = .next (settle (linkReset { s with lines := { s.lines with init := true } })) ∧
       let t := linkReset { s with lines := { s.lines with init := true } }
       t.rq = [] ∧ (∀ slot : Slot, t.su[slot] = { s.su[slot] with outstanding := 0 }) ∧
       (∀ i : DIdx, t.wt[i].openers = Vector.replicate 16 none ∧ t.wt[i].holder = none ∧ t.wt[i].expiry = none ∧
         t.wt[i].expiredHolder = none) ∧
       t.lines = { s.lines with init := true } ∧ t.linkOut = s.linkOut ∧ t.pm = s.pm ∧ t.mem = s.mem ∧ t.ecc = s.ecc)) ∧
  (∀ s : State, EngineReady s → Settled s →
     exec .linkReset s = .next (settle (linkReset { s with engine := { s.engine with
       state := .busy (.link (Vector.replicate 4 false) false), command := 0x30, copies := s.engine.params } })) ∧
     ((∀ c : Chan, s.chans[c].primary = none) → s.server = none →
       exec .linkReset s = .next { s.engineAnswers 0x30 .ok Results.zero with
         wt := Vector.ofFn fun i => { s.wt[i] with
           openers := Vector.replicate 16 none, holder := none, expiry := none, expiredHolder := none }
         rq := []
         su := Vector.ofFn fun slot => { s.su[slot] with outstanding := 0 }
         chans := Vector.ofFn fun c => { s.chans[c] with backup := none } })) ∧
  (∀ s : State,
     let t := linkReset s
     let granted (c : Chan) : Prop := ∃ b, s.port.granted = some (Claimant.ch c, b)
     let finished : Engine := { s.engine with state := .idle, results := Results.zero, lastCode := .ok }
     (∀ c : Chan, t.chans[c].backup = none ∧ (s.chans[c].primary = none → t.chans[c].primary = none)) ∧
     (∀ (c : Chan) (p : Primary) (m : Mark), s.chans[c].primary = some p → (p.mark <|> some ⟨.aborted, p.owner.getD 0⟩) = some m →
       (granted c → t.chans[c].primary = some { p with mark := some m }) ∧
       (¬ granted c → t.chans[c].primary = none ∧ t.chans[c].state = .idle ∧ t.chans[c].event = some .aborted ∧
         t.chans[c].outcome = ⟨true, p.owner.getD m.owner, p.handle.index, m.result, p.total, p.offset⟩)) ∧
     (s.server = none → t.server = none) ∧
     (∀ r, s.server = some r →
       (r.stage.early = true → t.server = none) ∧
       (r.stage.early = false → t.server = some { r with
         disposition := .discard, held := [], detached := true
         stage := if r.stage = .slotClaim then .ending .ok [] else r.stage })) ∧
     (∀ lists detached, s.engine.state = .busy (.link lists detached) →
       ((∀ c : Chan, t.chans[c].primary = none) → t.server = none → t.engine = finished) ∧
       ((∃ c : Chan, t.chans[c].primary ≠ none) ∨ t.server ≠ none → t.engine = { s.engine with
         state := .busy (.link (Vector.ofFn fun c => t.chans[c].primary.isSome) t.server.isSome) })))

/-! ### The Command Engine -/

/-- While the engine is BUSY, a written command word is dropped, whatever its code, and sets OVERRUN. An unknown command
code completes at once with BAD_FIELD and zero result words. -/
def Obligations.BusyOrUnknownCommandsTakeNoEffect : Prop :=
  (∀ (s : State) (w : Wait), s.lines.reset = false → s.engine.state = .busy w →
     let dropped : State := { s with engine := { s.engine with overrun := true } }
     (∀ c ∈ [Instr.create, .modify, .setAbsent, .setValid, .retire, .readDescriptor, .readOpener, .probe, .mapWrite,
         .mapFill, .mapClear, .mapRead, .requesterSet, .filterSet, .requesterRead, .readmit, .channelRead, .channelAbort,
         .channelResume, .faultAck, .setLockTimeout, .linkReset, .deviceReset], exec c s = .next dropped) ∧
     ∀ code, exec (.unknownCommand code) s = .next dropped) ∧
  (∀ (s : State) (code : Byte), EngineReady s → Settled s → Instr.wellFormed (.unknownCommand code) = true →
     exec (.unknownCommand code) s = .next (s.engineAnswers code .badField Results.zero))

/-- CREATE answers the first failing check's code, in the order of the checks, and otherwise makes the named, or the lowest,
FREE index a descriptor with these fields, and answers its handle. -/
def Obligations.CreateMakesADescriptor : Prop :=
  ∀ s : State, EngineReady s → Settled s →
    let P := s.engine.params
    let index := P[0].toNat % 65536
    let initial := P[0].toNat / 65536 % 16
    let dtype := P[0].toNat / 1048576 % 16
    let target : DIdx := Fin.ofNat 256 (P[0].toNat / 16777216)
    let level := P[1].toNat / 65536 % 256
    let rights := P[1].toNat / 16777216
    let mapStart := P[2].toNat % 65536
    let firstOffset := P[2].toNat / 65536
    let gateOffset := P[2].toNat
    let length := P[3].toNat
    let t := s.wt[target]
    let fails (code : Code) : Prop := exec .create s = .next (s.engineAnswers 0x01 code Results.zero)
    let badFields : Prop := initial ≠ 1 ∧ initial ≠ 2 ∨ 2 < dtype ∨ 3 < level ∨ 15 < rights ∨
      dtype ≠ 2 ∧ (2047 < mapStart ∨ 4095 < firstOffset ∨ length = 0 ∨ 8388608 < length ∨
        (2048 - mapStart) * 4096 < firstOffset + length) ∨
      dtype = 2 ∧ (8388607 < gateOffset ∨ length = 0 ∨ 8388608 < length)
    let badTarget : Prop := dtype = 2 ∧ (target = 0 ∨ t.state ≠ .valid ∧ t.state ≠ .absent ∨ t.dtype ≠ .data ∨
      t.length < gateOffset + length)
    let made (i : DIdx) : Descriptor := { s.wt[i] with
      state := if initial = 1 then .valid else .absent
      dtype := if dtype = 0 then .data else if dtype = 1 then .list else .gate
      tag := BitVec.ofNat 16 P[1].toNat
      level := Fin.ofNat 4 level
      rights := BitVec.ofNat 4 rights
      mapStart := if dtype = 2 then 0 else mapStart
      firstOffset := if dtype = 2 then 0 else firstOffset
      length := if dtype = 2 then 0 else length
      targetIndex := if dtype = 2 then target else 0
      targetGen := if dtype = 2 then t.gen else 0
      gateOffset := if dtype = 2 then gateOffset else 0
      gateLength := if dtype = 2 then length else 0 }
    (255 < index → fails .badIndex) ∧
    (index ≤ 255 → badFields → fails .badField) ∧
    (index = 0 → ¬ badFields → (∀ i : DIdx, i ≠ 0 → s.wt[i].state ≠ .free) → fails .noSpace) ∧
    (∀ i : DIdx, i ≠ 0 → i.val = index → ¬ badFields → s.wt[i].state ≠ .free → fails .notFree) ∧
    (∀ i : DIdx, i ≠ 0 → i.val = index ∨ index = 0 ∧ (∀ j : DIdx, j ≠ 0 → j < i → s.wt[j].state ≠ .free) →
      s.wt[i].state = .free → ¬ badFields →
      (badTarget → fails .gateTarget) ∧
      (¬ badTarget → exec .create s = .next
        { s.engineAnswers 0x01 .ok #v[BitVec.ofNat 32 (s.wt[i].gen.toNat * 256 + i.val), 0, 0, 0] with
          wt := s.wt.set i (made i) }))

/-- MODIFY replaces the groups that its mask names, all together, where every check passes; it answers the first failing
check's code and changes nothing where one fails. -/
def Obligations.ModifyReplacesTheNamedGroups : Prop :=
  ∀ s : State, EngineReady s → Settled s →
    let P := s.engine.params
    let index := P[0].toNat % 65536
    let mask := P[0].toNat / 65536 % 256
    let identity : Bool := mask % 2 = 1
    let access : Bool := mask / 2 % 2 = 1
    let placement : Bool := mask / 4 % 2 = 1
    let level := P[1].toNat / 65536 % 256
    let rights := P[1].toNat / 16777216
    let mapStart := P[2].toNat % 65536
    let firstOffset := P[2].toNat / 65536
    let gateOffset := P[2].toNat
    let length := P[3].toNat
    let fails (code : Code) : Prop := exec .modify s = .next (s.engineAnswers 0x02 code Results.zero)
    (index = 0 ∨ 255 < index → fails .badIndex) ∧
    (∀ i : DIdx, i ≠ 0 → i.val = index →
      let d := s.wt[i]
      let t := s.wt[d.targetIndex]
      let live : Prop := d.state = .valid ∨ d.state = .absent
      let badFields : Prop := 7 < mask ∨ access = true ∧ (3 < level ∨ 15 < rights) ∨
        placement = true ∧ d.dtype ≠ .gate ∧ (2047 < mapStart ∨ 4095 < firstOffset ∨ length = 0 ∨ 8388608 < length ∨
          (2048 - mapStart) * 4096 < firstOffset + length) ∨
        placement = true ∧ d.dtype = .gate ∧ (8388607 < gateOffset ∨ length = 0 ∨ 8388608 < length)
      let badTarget : Prop := placement = true ∧ d.dtype = .gate ∧ (t.state ≠ .valid ∧ t.state ≠ .absent ∨
        t.gen ≠ d.targetGen ∨ t.dtype ≠ .data ∨ t.length < gateOffset + length)
      (¬ live → fails .badState) ∧
      (live → badFields → fails .badField) ∧
      (live → ¬ badFields → badTarget → fails .gateTarget) ∧
      (live → ¬ badFields → ¬ badTarget → placement = true → 0 < d.pins → fails .pinned) ∧
      (live → ¬ badFields → ¬ badTarget → placement = false ∨ d.pins = 0 →
        exec .modify s = .next { s.engineAnswers 0x02 .ok Results.zero with
          wt := s.wt.set i { d with
            tag := if identity then BitVec.ofNat 16 P[1].toNat else d.tag
            level := if access then Fin.ofNat 4 level else d.level
            rights := if access then BitVec.ofNat 4 rights else d.rights
            mapStart := if placement ∧ d.dtype ≠ .gate then mapStart else d.mapStart
            firstOffset := if placement ∧ d.dtype ≠ .gate then firstOffset else d.firstOffset
            length := if placement ∧ d.dtype ≠ .gate then length else d.length
            gateOffset := if placement ∧ d.dtype = .gate then gateOffset else d.gateOffset
            gateLength := if placement ∧ d.dtype = .gate then length else d.gateLength } }))

/-- SET_ABSENT moves a VALID descriptor to ABSENT and SET_VALID an ABSENT one to VALID, pins and all else staying; in
another state they answer BAD_STATE, and for an index that names no descriptor BAD_INDEX. -/
def Obligations.AbsentAndValidMarksMove : Prop :=
  ∀ s : State, EngineReady s → Settled s →
    let index := s.engine.params[0].toNat % 65536
    let moves (c : Instr) (code : Byte) (was becomes : DState) : Prop :=
      (index = 0 ∨ 255 < index → exec c s = .next (s.engineAnswers code .badIndex Results.zero)) ∧
      ∀ i : DIdx, i ≠ 0 → i.val = index →
        (s.wt[i].state ≠ was → exec c s = .next (s.engineAnswers code .badState Results.zero)) ∧
        (s.wt[i].state = was → exec c s = .next { s.engineAnswers code .ok Results.zero with
          wt := s.wt.set i { s.wt[i] with state := becomes } })
    moves .setAbsent 0x03 .valid .absent ∧ moves .setValid 0x04 .absent .valid

/-- RETIRE releases the interlock and makes a pinned descriptor RETIRING and an unpinned one FREE, its generation gone on by
one and RETIRE_DONE raised. POLITE completes at once; FORCE notes the channels whose lists hold a pin and completes with the
entry into FREE. -/
def Obligations.RetireEndsADescriptor : Prop :=
  ∀ s : State, EngineReady s → Settled s →
    let P := s.engine.params
    let index := P[0].toNat % 65536
    let mode := P[0].toNat / 65536 % 256
    let fails (code : Code) : Prop := exec .retire s = .next (s.engineAnswers 0x05 code Results.zero)
    (index = 0 ∨ 255 < index → fails .badIndex) ∧
    (∀ i : DIdx, i ≠ 0 → i.val = index →
      let d := s.wt[i]
      let retiring : Descriptor := { d with state := .retiring, holder := none, expiry := none }
      let freed : Descriptor := { d with
        state := .free, gen := d.gen + 1, openers := Vector.replicate 16 none, holder := none, expiry := none
        expiredHolder := none }
      let done (t : State) : State := { t with
        wt := s.wt.set i freed
        attn := { s.attn with pending := s.attn.pending ||| 0x200, retireLatch := i } }
      let noted (ch : Channel) : Channel := { ch with
        primary := ch.primary.map fun p => { p with noted := p.noted || p.pins.any (·.index == i) } }
      let chans : Vector Channel 4 := Vector.ofFn fun c => noted s.chans[c]
      (mode ≠ 1 → mode ≠ 2 → fails .badField) ∧
      (mode = 1 ∨ mode = 2 → d.state = .free → fails .badState) ∧
      (mode = 1 → d.state = .retiring → fails .badState) ∧
      (mode = 1 → d.state = .valid ∨ d.state = .absent →
        (d.pins = 0 → exec .retire s = .next (done (s.engineAnswers 0x05 .ok Results.zero))) ∧
        (0 < d.pins → exec .retire s = .next { s.engineAnswers 0x05 .ok Results.zero with wt := s.wt.set i retiring })) ∧
      (mode = 2 → d.state ≠ .free →
        (d.pins = 0 → exec .retire s = .next { done (s.engineAnswers 0x05 .ok Results.zero) with chans := chans }) ∧
        (0 < d.pins → exec .retire s = .next { s with
          wt := s.wt.set i retiring
          chans := chans
          engine := { s.engine with state := .busy (.retire i), command := 0x05, copies := P } })))

/-- The reading commands answer the words that lay out the record their parameters name, and change the engine alone; the
index is checked before the slot and the other fields. -/
def Obligations.ReadingCommandsAnswerTheRecord : Prop :=
  ∀ s : State, EngineReady s → Settled s →
    let P := s.engine.params
    let index := P[0].toNat % 65536
    let low := P[0].toNat % 256
    let part := P[0].toNat / 256 % 256
    let slotByte := P[1].toNat % 256
    let rightsByte := P[1].toNat / 256 % 256
    let answers (c : Instr) (command : Byte) (code : Code) (results : Results) : Prop :=
      exec c s = .next (s.engineAnswers command code results)
    (index = 0 ∨ 255 < index → answers .readDescriptor 0x06 .badIndex Results.zero ∧
      answers .readOpener 0x07 .badIndex Results.zero ∧ answers .probe 0x08 .badIndex Results.zero) ∧
    (∀ i : DIdx, i ≠ 0 → i.val = index →
      answers .readDescriptor 0x06 .ok (readDescriptorWords s.wt[i]) ∧
      (15 < slotByte → answers .readOpener 0x07 .badField Results.zero) ∧
      (15 < slotByte ∨ 15 < rightsByte → answers .probe 0x08 .badField Results.zero) ∧
      ∀ slot : Slot, slot.val = slotByte →
        (answers .readOpener 0x07 .ok (match s.wt[i].openers[slot] with
          | some r => #v[BitVec.ofNat 32 (r.toNat + 256), 0, 0, 0]
          | none => Results.zero)) ∧
        (rightsByte ≤ 15 → answers .probe 0x08 .ok #v[
          if visible s.su[slot].filters s.wt[i].tag = false then 0x04
          else if s.wt[i].level < s.su[slot].level then 0x05
          else if BitVec.ofNat 4 rightsByte &&& s.wt[i].rights ≠ BitVec.ofNat 4 rightsByte then 0x06
          else if s.wt[i].state = .valid ∨ s.wt[i].state = .absent then 0x00 else 0x04, 0, 0, 0])) ∧
    (2047 < index → answers .mapRead 0x13 .badField Results.zero) ∧
    (∀ e : Fin 2048, e.val = index → s.pm[e].frame ≤ 131071 → answers .mapRead 0x13 .ok
      #v[BitVec.ofNat 32 (s.pm[e].frame + if s.pm[e].valid then 16777216 else 0), 0, 0, 0]) ∧
    (15 < low ∨ 1 < part → answers .requesterRead 0x1A .badField Results.zero) ∧
    (∀ slot : Slot, slot.val = low → part ≤ 1 → answers .requesterRead 0x1A .ok (requesterReadWords s.su[slot] part)) ∧
    (3 < low ∨ 2 < part → answers .channelRead 0x20 .badField Results.zero) ∧
    (∀ c : Chan, c.val = low → part ≤ 2 → answers .channelRead 0x20 .ok (channelReadWords s.chans[c] part))

/-- The result words of READ_DESCRIPTOR, REQUESTER_READ and CHANNEL_READ carry the record's fields in these bits. That
filter 0 has the lowest of bits 28..25 is the model's reading (log entry 15), and that the owner of an ending mark that is
not there reads 0 its choice (log entry 19). -/
def Obligations.ResultWordsLayOutTheRecords : Prop :=
  let bit (b : Bool) : Nat := if b then 1 else 0
  (∀ d : Descriptor, d.pins < 32 → d.mapStart < 2048 → d.firstOffset < 4096 → d.length < 16777216 →
    d.gateOffset < 8388608 → d.gateLength < 16777216 →
    let openers := ((List.finRange 16).map fun i => if d.openers[i].isSome then 2 ^ i.val else 0).sum
    let condition := if d.holder.isSome then 2 else bit d.expiredHolder.isSome
    let slot := (d.holder <|> d.expiredHolder).elim 0 (·.val)
    readDescriptorWords d = #v[
      BitVec.ofNat 32 (d.tag.toNat + d.gen.toNat * 2 ^ 16 + d.state.toNat * 2 ^ 24 + d.dtype.toNat * 2 ^ 26 +
        d.rights.toNat * 2 ^ 28),
      BitVec.ofNat 32 (openers + d.pins * 2 ^ 16 + d.level.val * 2 ^ 21 + condition * 2 ^ 23 + slot * 2 ^ 25),
      BitVec.ofNat 32 (if d.dtype = .gate then d.gateOffset + d.targetGen.toNat * 2 ^ 23
        else d.mapStart + d.firstOffset * 2 ^ 11),
      BitVec.ofNat 32 (if d.dtype = .gate then d.gateLength + d.targetIndex.val * 2 ^ 24 else d.length)]) ∧
  (∀ (r : Requester) (part : Nat), r.score ≤ 256 → r.outstanding ≤ 4 → part ≤ 1 →
    let filter (f : Filter) : Word := BitVec.ofNat 32 (f.value.toNat + f.mask.toNat * 2 ^ 16)
    requesterReadWords r part = #v[
      BitVec.ofNat 32 (bit r.enabled + bit r.present * 2 + r.level.val * 2 ^ 2 + r.standing.toNat * 2 ^ 4 +
        r.outstanding * 2 ^ 8 + r.score * 2 ^ 16 + bit r.filters[0].enabled * 2 ^ 25 +
        bit r.filters[1].enabled * 2 ^ 26 + bit r.filters[2].enabled * 2 ^ 27 + bit r.filters[3].enabled * 2 ^ 28),
      if part = 0 then filter r.filters[0] else filter r.filters[2],
      if part = 0 then filter r.filters[1] else filter r.filters[3], 0]) ∧
  ∀ c : Channel, (∀ p, c.primary = some p → p.offset < 8388608 ∧ p.jumps < 16 ∧ p.bytesDone < 2097152) →
    (∀ b, c.backup = some b → b.offset < 8388608) → c.outcome.offset < 8388608 →
    let handle (h : Handle) : Nat := h.gen.toNat * 256 + h.index.val
    let event := match c.event with
      | none => 0
      | some .ended => 1
      | some .fault => 2
      | some .stop => 3
      | some .aborted => 4
    channelReadWords c 0 = #v[
      BitVec.ofNat 32 (c.primary.elim 0 (fun p => handle p.handle) + c.state.toNat * 2 ^ 16 + event * 2 ^ 20 +
        (c.primary.bind (·.owner)).elim 31 (·.val) * 2 ^ 24),
      BitVec.ofNat 32 (c.primary.elim 0 fun p => p.offset + p.jumps * 2 ^ 24 + (match p.mark.map (·.code) with
        | none => 0
        | some .aborted => 1
        | some .ownerGone => 2
        | some .ownerBarred => 3) * 2 ^ 28),
      BitVec.ofNat 32 (c.primary.elim 0 fun p => p.bytesDone + p.mark.elim 0 (·.owner.val) * 2 ^ 24),
      c.primary.elim 0 (·.total)] ∧
    channelReadWords c 1 = #v[
      BitVec.ofNat 32 (c.backup.elim 0 (fun b => handle b.handle) + c.backup.elim 31 (·.owner.val) * 2 ^ 16),
      BitVec.ofNat 32 (c.backup.elim 0 (·.offset)), 0, 0] ∧
    channelReadWords c 2 = #v[
      BitVec.ofNat 32 (bit c.outcome.valid + c.outcome.owner.val * 2 ^ 4 + c.outcome.listIndex.val * 2 ^ 8 +
        c.outcome.code.toNat * 2 ^ 16),
      c.outcome.total, BitVec.ofNat 32 c.outcome.offset, 0]

/-- MAP_WRITE sets one entry, MAP_FILL a run of valid entries with frames that count up, MAP_CLEAR clears the valid marks of
a run and keeps the frames; a field out of its range answers BAD_FIELD and changes no entry. -/
def Obligations.MapCommandsWriteEntries : Prop :=
  ∀ s : State, EngineReady s → Settled s →
    let P := s.engine.params
    let first := P[0].toNat % 65536
    let frame := P[1].toNat
    let count := P[1].toNat
    let start := P[2].toNat
    let mark := P[2].toNat % 256
    let fills (c : Instr) (command : Byte) (pm : Vector MapEntry 2048) : Prop :=
      exec c s = .next { s.engineAnswers command .ok Results.zero with pm := pm }
    let fails (c : Instr) (command : Byte) : Prop :=
      exec c s = .next (s.engineAnswers command .badField Results.zero)
    (2047 < first ∨ 131071 < frame ∨ 1 < mark → fails .mapWrite 0x10) ∧
    (∀ e : Fin 2048, e.val = first → frame ≤ 131071 → mark ≤ 1 →
      fills .mapWrite 0x10 (s.pm.set e ⟨mark == 1, frame⟩)) ∧
    (2047 < first ∨ count = 0 ∨ 2048 < first + count ∨ 131072 < start + count → fails .mapFill 0x11) ∧
    (1 ≤ count → first + count ≤ 2048 → start + count ≤ 131072 →
      fills .mapFill 0x11 (Vector.ofFn fun e =>
        if first ≤ e.val ∧ e.val < first + count then ⟨true, start + (e.val - first)⟩ else s.pm[e])) ∧
    (2047 < first ∨ count = 0 ∨ 2048 < first + count → fails .mapClear 0x12) ∧
    (1 ≤ count → first + count ≤ 2048 →
      fills .mapClear 0x12 (Vector.ofFn fun e =>
        if first ≤ e.val ∧ e.val < first + count then { s.pm[e] with valid := false } else s.pm[e]))

/-- FILTER_SET replaces one filter, READMIT sets the score to 0 and the standing to GOOD, and REQUESTER_SET the enabled mark
and the level; a slot so disabled that was enabled holds nothing after. A field out of its range answers BAD_FIELD. A
REQUESTER_SET that disables an enabled slot tears it down: its backups are emptied, its running lists end OWNER_GONE, at
once or at their boundary, and the other slots' entries, interlocks, marks, lists and queued requests stay. It answers
DISABLED to the slot's queued requests: held behind its request in service, at once without one. The request in service is
to be answered DISABLED too, unless its reply is discarded, or BARRED, or kept for its own violation, also where the slot
was readmitted in between (the model's choice: log entry 22); before its deciding claim it ends at once, before its slot
claim a START fills no slot, and one that has reached BAD_REQUEST or LIMITED or the end of its search goes on to its end
(the model's choice: log entry 21). Which claim decides for a QUERY, CANCEL, CHANNEL_STATUS or unknown kind is the model's
choice too (log entry 24). -/
def Obligations.RequesterCommandsSetTheRecord : Prop :=
  (∀ s : State, EngineReady s → Settled s →
     let P := s.engine.params
     let low := P[0].toNat % 256
     let second := P[0].toNat / 256 % 256
     let third := P[0].toNat / 65536 % 256
     let fails (c : Instr) (command : Byte) : Prop :=
       exec c s = .next (s.engineAnswers command .badField Results.zero)
     let sets (c : Instr) (command : Byte) (slot : Slot) (r : Requester) : Prop :=
       exec c s = .next { s.engineAnswers command .ok Results.zero with su := s.su.set slot r }
     (15 < low ∨ 1 < second ∨ 3 < third → fails .requesterSet 0x18) ∧
     (15 < low ∨ 3 < second ∨ 1 < third → fails .filterSet 0x19) ∧
     (15 < low → fails .readmit 0x1B) ∧
     (∀ slot : Slot, slot.val = low →
       (∀ k : Fin 4, k.val = second → third ≤ 1 → sets .filterSet 0x19 slot { s.su[slot] with
         filters := s.su[slot].filters.set k
           ⟨third == 1, BitVec.ofNat 16 P[1].toNat, BitVec.ofNat 16 (P[1].toNat / 65536)⟩ }) ∧
       sets .readmit 0x1B slot { s.su[slot] with score := 0, standing := .good } ∧
       (∀ level : Fin 4, level.val = third → second ≤ 1 → (s.su[slot].enabled = false ∨ second = 1) →
         sets .requesterSet 0x18 slot { s.su[slot] with enabled := second == 1, level := level }) ∧
       (third ≤ 3 → second = 0 → s.su[slot].enabled = true → ∃ t,
         exec .requesterSet s = .next t ∧ HoldsNothing t slot ∧ t.su[slot].enabled = false ∧
         t.su[slot].level.val = third ∧ t.engine.state = .idle ∧ t.engine.lastCode = .ok ∧ SameBytes s t))) ∧
  (∀ (s : State) (slot : Slot), EngineReady s → slot.val = s.engine.params[0].toNat % 256 →
     s.engine.params[0].toNat / 256 % 256 = 0 → s.engine.params[0].toNat / 65536 % 256 ≤ 3 → s.su[slot].enabled = true →
     let disposition (r : InService) : Disposition := match r.disposition with
       | .discard => .discard
       | .barred => .barred
       | .send => if r.sendKept then .send else .disabled
       | .disabled => .disabled
     ∃ u, exec .requesterSet s = .next (settle u) ∧ u.su[slot].enabled = false ∧
       TeardownReaches s u slot disposition ((s.rq.filter fun q => q.slot == slot).map fun q => (q.tag, .disabled)) (·.held) ∧
       TornDown s u slot .ownerGone none)

/-- CHANNEL_ABORT empties the backup or marks the primary ABORTED or both, as its selector says; a primary that carries a
mark keeps it and ends with its code. The engine waits for the end of a primary; without one it completes at once. A channel
or selector out of range answers BAD_FIELD. CHANNEL_RESUME of a STOPPED channel completes and makes the channel check its
list again; of a channel that is not STOPPED it answers BAD_STATE, and of no channel BAD_FIELD. -/
def Obligations.ChannelCommandsAbortAndResume : Prop :=
  (∀ s : State, EngineReady s → Settled s →
     let P := s.engine.params
     let low := P[0].toNat % 256
     let selector := P[0].toNat / 256 % 256
     (3 < low ∨ selector = 0 ∨ 3 < selector →
       exec .channelAbort s = .next (s.engineAnswers 0x21 .badField Results.zero)) ∧
     ∀ c : Chan, c.val = low →
       let ch := s.chans[c]
       let emptied (sel : Nat) : Option Backup := if sel = 3 then none else ch.backup
       (selector = 2 ∨ selector = 3 ∧ ch.primary = none →
         exec .channelAbort s = .next { s.engineAnswers 0x21 .ok Results.zero with
           chans := s.chans.set c { ch with backup := none } }) ∧
       (selector = 1 → ch.primary = none → exec .channelAbort s = .next (s.engineAnswers 0x21 .ok Results.zero)) ∧
       (∀ p m, ch.primary = some p → selector = 1 ∨ selector = 3 → (p.mark <|> some ⟨.aborted, p.owner.getD 0⟩) = some m →
         let waits : State := { s with
           chans := s.chans.set c { ch with
             backup := emptied selector
             primary := some { p with mark := some m } }
           engine := { s.engine with state := .busy (.abort c), command := 0x21, copies := P } }
         ((∃ b, s.port.granted = some (Claimant.ch c, b)) → exec .channelAbort s = .next waits) ∧
         ((∀ b, s.port.granted ≠ some (Claimant.ch c, b)) →
           exec .channelAbort s = .next (settle (endList c m.result waits)) ∧
           (endList c m.result waits).engine = s.engine.completed 0x21 .ok Results.zero))) ∧
  (∀ s : State, EngineReady s → Settled s →
     let low := s.engine.params[0].toNat % 256
     (3 < low → exec .channelResume s = .next (s.engineAnswers 0x22 .badField Results.zero)) ∧
     ∀ c : Chan, c.val = low →
       (s.chans[c].state ≠ .stopped → exec .channelResume s = .next (s.engineAnswers 0x22 .badState Results.zero)) ∧
       (∀ p, s.chans[c].state = .stopped → s.chans[c].primary = some p →
         exec .channelResume s = .next (settle { s.engineAnswers 0x22 .ok Results.zero with
           chans := s.chans.set c { s.chans[c] with state := .fetch, primary := some { p with work := .resume } } })))

/-- FAULT_ACK empties the fault record; SET_LOCK_TIMEOUT sets the timeout of later takes, 16 to 65,535 µs, and answers the
setting it replaced. -/
def Obligations.FaultAckAndLockTimeoutSet : Prop :=
  ∀ s : State, EngineReady s → Settled s →
    let v := s.engine.params[0].toNat
    exec .faultAck s = .next { s.engineAnswers 0x28 .ok Results.zero with
      attn := { s.attn with fault := ⟨false, false, .ok, 0, none, ⟨0, 0⟩, 0⟩ } } ∧
    (v < 16 ∨ 65535 < v → exec .setLockTimeout s = .next (s.engineAnswers 0x29 .badField Results.zero)) ∧
    (16 ≤ v → v ≤ 65535 → exec .setLockTimeout s = .next { s with
      engine := { s.engine.completed 0x29 .ok #v[BitVec.ofNat 32 s.engine.timeout, 0, 0, 0] with timeout := v } })

/-! ### The register window -/

/-- A read of ENGINE_STATUS returns BUSY, the last result code and OVERRUN as they stand, and clears OVERRUN. A write of
ATTN_PENDING clears the bits written as one; a write of ATTN_ENABLE replaces the twelve enable bits; a write of PARAM0 to
PARAM3 stores the value; a write elsewhere has no effect. -/
def Obligations.RegistersAreReadAndWritten : Prop :=
  (∀ s : State, exec .engineStatus s = .next { s with
     engine := { s.engine with overrun := false }
     busRead := if s.lines.reset then 0 else BitVec.ofNat 32
       ((if s.engine.state = .idle then 0 else 1) + s.engine.lastCode.toNat * 256 +
         (if s.engine.overrun then 65536 else 0)) }) ∧
  (∀ (s : State) (v : Word), s.lines.reset = false →
     exec (.attnPending v) s = .next { s with
       attn := { s.attn with pending := s.attn.pending &&& ~~~(v.setWidth 12) } } ∧
     exec (.attnEnable v) s = .next { s with attn := { s.attn with enable := v.setWidth 12 } } ∧
     (∀ k : Fin 4, exec (.registerWrite (4 + 4 * k.val) v) s = .next { s with
       engine := { s.engine with params := s.engine.params.set k v } }) ∧
     (∀ offset, Instr.wellFormed (.registerWrite offset v) = true → (∀ k : Fin 4, offset ≠ 4 + 4 * k.val) →
       exec (.registerWrite offset v) s = .next s))

/-- The attention line is asserted exactly while some cause is pending and enabled, and ATTN_CODE reads the lowest number of
such a cause, 0 without one. -/
def Obligations.AttentionLineAndCodeFollowPendingAndEnabled : Prop :=
  ∀ a : Attention,
    let active (n : Nat) : Prop := 1 ≤ n ∧ n ≤ 12 ∧ a.pending.getLsbD (n - 1) = true ∧ a.enable.getLsbD (n - 1) = true
    (attentionLine a = true ↔ ∃ n, active n) ∧
    ((∀ n, ¬ active n) → attentionCode a = 0) ∧
    (∀ n, active n → (∀ m, active m → n ≤ m) → attentionCode a = n)

/-! ### Violations -/

/-- A violation notice raises its slot's score by 8, to at most 256, and its standing is the score's band; the fault record
takes the notice where it is empty, raising FAULT, and sets LOST where it is not; an upward entry raises STANDING. The
violation that brings a slot to 256 bars it, and in the same claim the slot is torn down: it holds nothing after. Its
backups are emptied and its running lists get the mark OWNER_BARRED: one without a granted burst ends at once with that
code, another slot's backup being promoted, but the list whose own violation it is ends in the claim that follows. Other
slots' entries, interlocks, marks, lists, queued requests and records stay. The teardown of a barring answers BARRED to the
slot's queued requests: held behind its request in service, at once without one. A request in service is then to be answered
BARRED, unless its reply is discarded; but one whose own violation bars the slot keeps its disposition and goes on to its
own reply. (One that has reached BAD_REQUEST or LIMITED or the end of its search goes on to its end, a DISCARD stays after a
readmission, and a QUERY, CANCEL, CHANNEL_STATUS or unknown kind is divided at its one claim, by the model's choice: log
entries 21, 22 and 24.) A request whose own violation bars its slot is answered with its own code, and after it the slot's
queued requests with BARRED; the slot is torn down and holds nothing then. (The null handle's generation: log entry 18;
START's handle and offset: log entry 13.) The same between a request's checks and its reply, where another claim has brought
its sender's score up: the claim that finds the violation bars the slot, the request goes on to its own code, and the BARRED
answers are held behind it. -/
def Obligations.ViolationsChargeAndBar : Prop :=
  (∀ (s : State) (reason : Code) (slot : Slot) (source : Option Chan) (h : Handle) (offset : Nat) (own : Bool),
     s.su[slot].score ≤ 247 →
     let score := s.su[slot].score + 8
     let standing : Standing := if score ≤ 95 then .good else if score ≤ 127 then .warned else .limited
     let up : Bool := s.su[slot].standing.toNat < standing.toNat
     let fault : FaultRecord := if s.attn.fault.valid then { s.attn.fault with lost := true }
       else ⟨true, false, reason, slot, source, h, offset⟩
     violation reason slot source h offset own s = { s with
       su := s.su.set slot { s.su[slot] with score := score, standing := standing }
       attn := { s.attn with
         pending := s.attn.pending ||| (if s.attn.fault.valid then 0 else 0x001) ||| (if up then 0x002 else 0)
         fault := fault
         standingLatch := if up then slot else s.attn.standingLatch } }) ∧
  (∀ (s : State) (reason : Code) (slot : Slot) (source : Option Chan) (h : Handle) (offset : Nat) (own : Bool),
     248 ≤ s.su[slot].score → s.su[slot].standing ≠ .barred →
     BarsItsSlot s (violation reason slot source h offset own s) ⟨true, false, reason, slot, source, h, offset⟩) ∧
  (∀ (s : State) (reason : Code) (slot : Slot) (source : Option Chan) (h : Handle) (offset : Nat),
     248 ≤ s.su[slot].score → s.su[slot].standing ≠ .barred →
     let answers : List (BitVec 3 × Code) := (s.rq.filter fun q => q.slot == slot).map fun q => (q.tag, .barred)
     let t := violation reason slot source h offset true s
     BarringReaches s (violation reason slot source h offset false s) slot ∧
     ∀ r, s.server = some r → r.request.slot = slot → r.detached = false →
       t.server = some { r with held := r.held ++ answers, sendKept := true } ∧ t.linkOut = s.linkOut) ∧
  (∀ (s : State) (slot : Slot) (tag : BitVec 3) (h : Handle) (offset : Nat) (rest : List Request) (code : Code)
     (touched : Option DIdx) (n channel kind wanted : Byte) (wtag : BitVec 16) (data : List Byte),
     248 ≤ s.su[slot].score → s.su[slot].standing ≠ .barred →
     let bars (i : Instr) (body : ReqBody) (code : Code) (h : Handle) (offset : Nat) : Prop :=
       AtHead s ⟨slot, tag, body⟩ rest → ∃ u, exec i s = .next (settle u) ∧ u.server = none ∧
         BarsItsSlot { s with rq := rest, server := some (InService.begin ⟨slot, tag, body⟩) } u
           ⟨true, false, code, slot, none, h, offset⟩ ∧
         u.linkOut = s.linkOut ++ .reply ⟨slot, tag, code, []⟩ ::
           (rest.filter fun q => q.slot == slot).map fun q => .reply ⟨slot, q.tag, .barred, []⟩
     let badAccess (m : Nat) : Prop := 8388607 < offset ∨ m = 0 ∨ 64 < m
     let fails (m : Nat) (needed : Rights) : Prop := code.isViolation = true ∧ ¬ badAccess m ∧
       resolve s slot h offset m needed false false = .error (code, touched)
     bars (.unknownKind none) (.unknown kind) .badRequest ⟨0, 0⟩ 0 ∧
     (checkHandle s slot h = .error code → bars (.closeWindow none) (.closeWindow h) code h 0) ∧
     (3 < channel.toNat → bars (.cancel none) (.cancel channel) .badRequest ⟨0, 0⟩ 0 ∧
       bars (.channelStatus none) (.channelStatus channel) .badRequest ⟨0, 0⟩ 0) ∧
     (3 < channel.toNat ∨ 8388607 < offset → bars (.start none) (.start channel h offset) .badRequest h offset) ∧
     (badAccess n.toNat → bars (.read none) (.read h offset n) .badRequest h offset ∧
       bars (.readLock none) (.readLock h offset n) .badRequest h offset) ∧
     (badAccess data.length → bars (.write none) (.write h offset data) .badRequest h offset ∧
       bars (.writeUnlock none) (.writeUnlock h offset data) .badRequest h offset) ∧
     (fails n.toNat Rights.R → bars (.read none) (.read h offset n) code h offset) ∧
     (s.su[slot].standing ≠ .limited →
       (16 ≤ wanted.toNat → bars (.openWindow none) (.openWindow wtag wanted) .badRequest ⟨0, 0⟩ 0) ∧
       (fails n.toNat (Rights.R ||| Rights.K) → bars (.readLock none) (.readLock h offset n) code h offset) ∧
       (fails data.length Rights.W → bars (.write none) (.write h offset data) code h offset) ∧
       (fails data.length (Rights.W ||| Rights.K) → bars (.writeUnlock none) (.writeUnlock h offset data) code h offset) ∧
       (code.isViolation = true → channel.toNat ≤ 3 → offset ≤ 8388607 →
         resolve s slot h offset 1 Rights.F true true = .error (code, touched) →
         bars (.start none) (.start channel h offset) code h offset))) ∧
  (∀ (s : State) (r : InService) (h : Handle) (offset : Nat) (code : Code) (touched : Option DIdx) (k : Search)
     (n channel wanted : Byte) (wtag : BitVec 16) (data : List Byte),
     s.server = some r → r.detached = false → 248 ≤ s.su[r.request.slot].score →
     s.su[r.request.slot].standing ≠ .barred →
     let slot := r.request.slot
     let answers : List (BitVec 3 × Code) := (s.rq.filter fun q => q.slot == slot).map fun q => (q.tag, .barred)
     let bars (s' : State) (r : InService) (i : Instr) (code : Code) (h : Handle) (offset : Nat) : Prop :=
       ∃ u, exec i s = .next (settle u) ∧ BarsItsSlot s' u ⟨true, false, code, slot, none, h, offset⟩ ∧
         u.linkOut = s.linkOut ∧
         u.server = some { r with stage := .ending code [], held := r.held ++ answers, sendKept := true }
     let fails (m : Nat) (needed : Rights) (list : Bool) : Prop := code.isViolation = true ∧
       resolve s slot h offset m needed list list = .error (code, touched)
     (r.stage = .checked →
       (r.request.body = .openWindow wtag wanted → 16 ≤ wanted.toNat →
         bars s r (.openWindow (some 1)) .badRequest ⟨0, 0⟩ 0) ∧
       (r.request.body = .read h offset n → fails n.toNat Rights.R false → bars s r (.read (some 1)) code h offset) ∧
       (r.request.body = .write h offset data → fails data.length Rights.W false →
         bars s r (.write (some 1)) code h offset) ∧
       (r.request.body = .readLock h offset n → fails n.toNat (Rights.R ||| Rights.K) false →
         bars s r (.readLock (some 1)) code h offset) ∧
       (r.request.body = .writeUnlock h offset data → fails data.length (Rights.W ||| Rights.K) false →
         bars s r (.writeUnlock (some 1)) code h offset) ∧
       (∀ w, r.request.body = .writeUnlock h offset data →
         resolve s slot h offset data.length (Rights.W ||| Rights.K) false false = .ok w →
         s.wt[h.index].holder ≠ some slot → s.wt[h.index].holder ≠ none ∨ s.wt[h.index].expiredHolder ≠ some slot →
         let r' : InService := { r with resolved := some w, pins := r.pins ++ w.pinned }
         bars { s with wt := withPins s.wt w.pinned, server := some r' } r' (.writeUnlock (some 1)) .notHolder h offset) ∧
       (r.request.body = .start channel h offset → fails 1 Rights.F true → bars s r (.start (some 1)) code h offset)) ∧
     (r.request.body = .openWindow wtag wanted → r.stage = .search k → k.next = 255 → s.wt[k.next].state = .free →
       (k.verdict = .level → bars s r (.openWindow (some 1)) .level ⟨0, 0⟩ k.tag.toNat) ∧
       (k.verdict = .rights → bars s r (.openWindow (some 1)) .rights ⟨0, 0⟩ k.tag.toNat)))

/-! ### Laws that every step keeps -/

/-- The state after a device reset satisfies every law and is settled, with no turns to come (the model's: log entry 20). -/
def Obligations.EveryLawHoldsAtReset : Prop :=
  ScoreLaw State.reset ∧ InterlockLaw State.reset ∧ LifecycleLaw State.reset ∧ PlacementLaw State.reset ∧
  FrameLaw State.reset ∧ CanonicalMemory State.reset ∧ CreditLaw State.reset ∧ ChannelLaw State.reset ∧
  PinLaw State.reset ∧ HoldLaw State.reset ∧ HeldInReset State.reset ∧ TornDownLaw State.reset ∧
  DetachedLaw State.reset ∧ TimeoutLaw State.reset ∧ Settled State.reset ∧ State.reset.turns = []

/-- Every step keeps scores in 0 to 256 with the standing their band, descriptors' fields and placements and map frames in
their ranges, the interlock timeout in its range, and the memories in their canonical forms. -/
def Obligations.EveryStepKeepsRangesAndForms : Prop :=
  (∀ s t : State, ScoreLaw s → step s = .next t → ScoreLaw t) ∧
  (∀ s t : State, PlacementLaw s → step s = .next t → PlacementLaw t) ∧
  (∀ s t : State, FrameLaw s → step s = .next t → FrameLaw t) ∧
  (∀ s t : State, TimeoutLaw s → step s = .next t → TimeoutLaw t) ∧
  (∀ s t : State, CanonicalMemory s → step s = .next t → CanonicalMemory t)

/-- Every step keeps an interlock's holder an opener with LOCK, its expiry beside it, and an expired holder an opener. Every
step keeps FREE descriptors empty, RETIRING ones pinned and unlocked, and index 0 at its reset values. -/
def Obligations.EveryStepKeepsInterlocksAndLifecycles : Prop :=
  (∀ s t : State, InterlockLaw s → step s = .next t → InterlockLaw t) ∧
  (∀ s t : State, LifecycleLaw s → step s = .next t → LifecycleLaw t)

/-- Every step keeps each slot's count equal to its queued requests and the one in service, at most four, and the queue
within its 32 places; and every channel's state in agreement with its primary, its backup and its work. What there is to do
at a step's end is taken up in pieces, one `advance` each: by the channel whose turn it is, if it has ready work, else by
the lowest that has, until none has any or a turn of none leaves the rest to a later step (log entry 20); then a free DRAM
is granted. With no turns to come the part is settled. Every step leaves no free DRAM before a waiting burst, where the step
before left none; with no turns to come it leaves no channel with work it could take up either, and no turns. -/
def Obligations.EveryStepKeepsCreditsAndChannels : Prop :=
  ((∀ s t : State, CreditLaw s → step s = .next t → CreditLaw t) ∧
   (∀ s t : State, ChannelLaw s → step s = .next t → ChannelLaw t)) ∧
  (∀ s : State,
     let ready (c : Chan) : Prop := ∃ p, s.chans[c].primary = some p ∧
       (p.work = .promote ∨ p.work = .fetch ∨ p.work = .resume ∨ p.work = .resolve ∨ p.work = .unit ∨ p.work = .record)
     ((∀ c, ¬ ready c) → settle s = grantBurst s) ∧
     (∀ c, ready c → (∀ d, d < c → ¬ ready d) →
       (s.turns = [] → settle s = settle (advance c s)) ∧
       (∀ later, s.turns = none :: later → settle s = grantBurst { s with turns := later }) ∧
       (∀ d later, s.turns = some d :: later →
         (ready d → settle s = settle (advance d { s with turns := later })) ∧
         (¬ ready d → settle s = settle (advance c { s with turns := later })))) ∧
     (s.turns = [] → Settled (settle s))) ∧
  (let granted (s : State) : Prop := s.port.granted = none → ∀ cl : Claimant, s.port.waiting[cl] = none
   (∀ s t : State, granted s → step s = .next t → granted t) ∧
   (∀ s t : State, s.turns = [] → Settled s → step s = .next t → t.turns = [] ∧ Settled t))

/-- Every step keeps every pin count equal to the holds that the Request Server and the channels keep, and those holds
within what each of them may keep: so no pin count exceeds 22. -/
def Obligations.EveryStepKeepsPinCounts : Prop :=
  (∀ s t : State, PinLaw s → step s = .next t → PinLaw t) ∧
  (∀ s t : State, HoldLaw s → step s = .next t → HoldLaw t) ∧
  ∀ s : State, PinLaw s → HoldLaw s → ∀ i : DIdx, s.wt[i].pins ≤ 22

/-- Every step keeps the blocks at their reset values while the RESET pin is asserted, and a slot that is disabled, not
present or BARRED without any hold on the part; a request of it in service, like a detached one, has nothing more to gain
(of a QUERY, CANCEL, CHANNEL_STATUS or unknown kind the model's choice: log entry 24), and a detached one sends nothing. -/
def Obligations.EveryStepKeepsSlotsTornDown : Prop :=
  (∀ s t : State, HeldInReset s → step s = .next t → HeldInReset t) ∧
  (∀ s t : State, ScoreLaw s → HeldInReset s → TornDownLaw s → step s = .next t → TornDownLaw t) ∧
  (∀ s t : State, DetachedLaw s → step s = .next t → DetachedLaw t)
end

