-- ==== Sys2Proof/Laws/Tables.lean ====
section
/-! SUPPORT. Reading tables after a write, and after a change of every entry. -/

namespace Sys2Proof.Machine

variable {α β : Type} {n : Nat}

/-- Reading a table whose every entry f has changed. -/
@[simp] theorem mapTable_get (f : α → β) (v : Vector α n) (i : Nat) (h : i < n) : (mapTable f v)[i] = f v[i] := by
  simp [mapTable, Vector.getElem_mk]

/-- A table whose every entry f has changed, entry by entry. -/
theorem mapTable_eq_ofFn (f : α → β) (v : Vector α n) : mapTable f v = Vector.ofFn fun i : Fin n => f v[i] := by
  ext i hi; simp

/-- An entry of a list that mapFrom has changed. -/
theorem mapFrom_get (f : Nat → α → α) (l : List α) :
    ∀ (k i : Nat) (h : i < (mapFrom f k l).length), (mapFrom f k l)[i] = f (k + i) (l[i]'(by simpa using h)) := by
  induction l with
  | nil => intro k i h; simp [mapFrom] at h
  | cons x xs ih =>
    intro k i h
    cases i with
    | zero => rfl
    | succ i => simp only [mapFrom, List.getElem_cons_succ]; rw [ih (k + 1) i]; congr 1; omega

/-- Reading a table whose every entry f has changed, told its index. -/
@[simp] theorem mapTableIdx_get (f : Nat → α → α) (v : Vector α n) (i : Nat) (h : i < n) :
    (mapTableIdx f v)[i] = f i v[i] := by
  simp [mapTableIdx, Vector.getElem_mk, mapFrom_get]

/-- Reading a table at one index after a write at another, or at the same. -/
theorem get_set (v : Vector α n) (i j : Fin n) (x : α) : (v.set i x)[j] = if i = j then x else v[j] := by
  simp only [Fin.getElem_fin, Vector.getElem_set, Fin.ext_iff]

/-- Reading a table where it was written. -/
@[simp] theorem get_set_self (v : Vector α n) (i : Fin n) (x : α) : (v.set i x)[i] = x := by simp

/-- Reading a table where it was not written. -/
theorem get_set_ne (v : Vector α n) {i j : Fin n} (h : i ≠ j) (x : α) : (v.set i x)[j] = v[j] := by
  rw [get_set, if_neg h]

/-- Writing twice at one index. -/
@[simp] theorem set_set_self (v : Vector α n) (i : Fin n) (x y : α) : (v.set i x).set i y = v.set i y := by
  ext j hj; simp [Vector.getElem_set]

/-- Writing what stands there. -/
@[simp] theorem set_get_self (v : Vector α n) (i : Fin n) : v.set i v[i] = v := by
  ext j hj; simp only [Vector.getElem_set, Fin.getElem_fin]; split
  · subst_vars; rfl
  · rfl

end Sys2Proof.Machine
end

