-- ==== Sys2Proof/Laws/Resolver.lean ====
section
/-! SUPPORT. The Resolver and the translation: what each of checks 1 to 3 needs, that verdicts and translations look at the
tables alone, and that pins do not matter to them. -/

namespace Sys2Proof.Machine

/-! ### Checks 1 to 3 -/

theorem checkHandle_null {s : State} {slot : Slot} {h : Handle} (h0 : h.index = 0) :
    checkHandle s slot h = .error .nullHandle := by simp [checkHandle, h0]

theorem checkHandle_stale {s : State} {slot : Slot} {h : Handle} (h0 : h.index ≠ 0)
    (h1 : s.wt[h.index].state = .free ∨ s.wt[h.index].gen ≠ h.gen) : checkHandle s slot h = .error .staleHandle := by
  unfold checkHandle; rw [if_neg h0]; exact if_pos h1

theorem checkHandle_live {s : State} {slot : Slot} {h : Handle} (h0 : h.index ≠ 0)
    (h1 : s.wt[h.index].state ≠ .free) (h2 : s.wt[h.index].gen = h.gen) :
    checkHandle s slot h = match s.wt[h.index].openers[slot] with
      | none => .error .notOpen
      | some granted => .ok granted := by
  unfold checkHandle; rw [if_neg h0]
  exact if_neg (by rintro (h | h); exacts [h1 h, h h2])

/-! ### What verdicts look at -/

/-- Two tables agree in everything but pins. -/
def AlikeButPins (v w : Vector Descriptor 256) : Prop := ∀ i : DIdx, { v[i] with pins := 0 } = { w[i] with pins := 0 }

theorem AlikeButPins.refl (v : Vector Descriptor 256) : AlikeButPins v v := fun _ => rfl

/-- A change of pins alone. -/
theorem AlikeButPins.set_pins (v : Vector Descriptor 256) (i : DIdx) (n : Nat) :
    AlikeButPins (v.set i { v[i] with pins := n }) v := by
  intro j; rw [get_set]; split <;> simp_all

theorem AlikeButPins.trans {u v w : Vector Descriptor 256} (h : AlikeButPins u v) (k : AlikeButPins v w) :
    AlikeButPins u w := fun i => (h i).trans (k i)

/-- The fields that agree. -/
theorem AlikeButPins.fields {v w : Vector Descriptor 256} (h : AlikeButPins v w) (i : DIdx) :
    v[i].state = w[i].state ∧
    v[i].gen = w[i].gen ∧
    v[i].dtype = w[i].dtype ∧
    v[i].tag = w[i].tag ∧
    v[i].level = w[i].level ∧
    v[i].rights = w[i].rights ∧
    v[i].mapStart = w[i].mapStart ∧
    v[i].firstOffset = w[i].firstOffset ∧
    v[i].length = w[i].length ∧
    v[i].targetIndex = w[i].targetIndex ∧
    v[i].targetGen = w[i].targetGen ∧
    v[i].gateOffset = w[i].gateOffset ∧
    v[i].gateLength = w[i].gateLength ∧
    v[i].openers = w[i].openers ∧
    v[i].holder = w[i].holder ∧
    v[i].expiry = w[i].expiry ∧
    v[i].expiredHolder = w[i].expiredHolder := by
  have := h i; simpa only [Descriptor.mk.injEq, true_and, and_true] using this

/-- A resolution does not look at pins. -/
theorem resolve_alike {s t : State} (h : AlikeButPins t.wt s.wt) (slot : Slot) (hd : Handle) (offset length : Nat)
    (needed : Rights) (needsList : NeedsList) (aligned : Bool) :
    resolve t slot hd offset length needed needsList aligned =
      resolve s slot hd offset length needed needsList aligned := by
  unfold resolve checkHandle checkStates effectiveRights targetIdentity Descriptor.windowLength
  simp only [fun i => (h.fields i).1, fun i => (h.fields i).2.1, fun i => (h.fields i).2.2.1,
    fun i => (h.fields i).2.2.2.2.2.1, fun i => (h.fields i).2.2.2.2.2.2.2.2.1, fun i => (h.fields i).2.2.2.2.2.2.2.2.2.1,
    fun i => (h.fields i).2.2.2.2.2.2.2.2.2.2.1, fun i => (h.fields i).2.2.2.2.2.2.2.2.2.2.2.1,
    fun i => (h.fields i).2.2.2.2.2.2.2.2.2.2.2.2.1, fun i => (h.fields i).2.2.2.2.2.2.2.2.2.2.2.2.2.1]

/-- A translation looks at the placements and the map. -/
theorem translate_alike {s t : State} (h : AlikeButPins t.wt s.wt) (hp : t.pm = s.pm) (base : DIdx) (offset n : Nat) :
    translate t base offset n = translate s base offset n := by
  unfold translate mapEntry placeOf
  simp only [hp, (h.fields base).2.2.2.2.2.2.1, (h.fields base).2.2.2.2.2.2.2.1]

/-- A translation looks at one placement and the map. -/
theorem translate_congr {s t : State} {base : DIdx} (h1 : t.wt[base].mapStart = s.wt[base].mapStart)
    (h2 : t.wt[base].firstOffset = s.wt[base].firstOffset) (hp : t.pm = s.pm) (offset n : Nat) :
    translate t base offset n = translate s base offset n := by
  unfold translate mapEntry placeOf; simp only [hp, h1, h2]

/-- The descriptor, and the gate's target, that a passing resolution names are VALID, and the handle's index is the one
named. -/
theorem resolve_ok {s : State} {slot : Slot} {h : Handle} {offset length : Nat} {needed : Rights} {needsList : NeedsList}
    {aligned : Bool} {w : Resolved} (hr : resolve s slot h offset length needed needsList aligned = .ok w) :
    w.index = h.index ∧ s.wt[w.index].state = .valid ∧ w.length = length ∧
    (∀ t, w.target = some t → t ≠ w.index ∧ s.wt[t].state = .valid) ∧
    (needsList = true → w.target = none ∧ s.wt[w.index].dtype = .list) := by
  unfold resolve at hr
  split at hr
  · simp at hr
  · rename_i g hg
    have hlive : s.wt[h.index].state ≠ .free := by
      unfold checkHandle at hg; dsimp only at hg
      intro hf; rw [if_pos (Or.inl hf)] at hg; split at hg <;> simp at hg
    split at hr
    · simp at hr
    · rename_i hcs
      unfold checkStates at hcs; dsimp only at hcs
      have hst : s.wt[h.index].state = .valid := by
        cases hh : s.wt[h.index].state <;> simp_all
      dsimp only at hr
      split at hr
      · simp at hr
      · rename_i hl
        split at hr
        · simp at hr
        · split at hr
          · simp at hr
          · split at hr
            · rename_i hg2
              split at hr
              · simp at hr
              · simp only [Except.ok.injEq] at hr; subst hr
                refine ⟨rfl, hst, rfl, ?_, ?_⟩
                · rintro t ht
                  simp only [Option.some.injEq] at ht; subst ht
                  simp only [hst, hg2, if_true, reduceCtorEq, if_false] at hcs
                  have hid : targetIdentity s s.wt[h.index] = true := by
                    by_contra hc; rw [eq_false_of_ne_true hc] at hcs; simp at hcs
                  simp only [hid, Bool.not_true, Bool.false_eq_true, if_false] at hcs
                  unfold targetIdentity at hid
                  simp only [Bool.and_eq_true, bne_iff_ne, beq_iff_eq] at hid
                  constructor
                  · intro he
                    have e := congrArg (fun k : DIdx => s.wt[k].dtype) he
                    dsimp only at e; rw [hid.2, hg2] at e; exact absurd e (by simp)
                  · cases hh : s.wt[s.wt[h.index].targetIndex].state <;> simp_all
                · intro hn; rw [hn, hg2] at hl; exact absurd rfl hl
            · simp only [Except.ok.injEq] at hr; subst hr
              refine ⟨rfl, hst, rfl, by simp, ?_⟩
              intro hn; subst hn; simp at hl; exact ⟨rfl, hl⟩

/-- No failing verdict has the code OK. -/
theorem resolve_error {s : State} {slot : Slot} {h : Handle} {offset length : Nat} {needed : Rights}
    {needsList : NeedsList} {aligned : Bool} {code : Code} {touched : Option DIdx}
    (hr : resolve s slot h offset length needed needsList aligned = .error (code, touched)) : code ≠ .ok := by
  rintro rfl
  unfold resolve checkHandle checkStates at hr; dsimp only at hr
  repeat' split at hr
  all_goals try simp at hr
  all_goals rename_i h1; repeat' split at h1
  all_goals simp_all

end Sys2Proof.Machine
end

