-- ==== Sys2Proof/Laws/State.lean ====
section
/-! SUPPORT. What each setter of State does to each field: one lemma a pair, true by definition, so that no proof unfolds a
record update. -/

namespace Sys2Proof.Machine.State

variable (s : State)

/-! updDesc -/
@[simp] theorem updDesc_wt (i : DIdx) (f : Descriptor → Descriptor) : (s.updDesc i f).wt = s.wt.set i (f s.wt[i]) := rfl
@[simp] theorem updDesc_pm (i : DIdx) (f : Descriptor → Descriptor) : (s.updDesc i f).pm = s.pm := rfl
@[simp] theorem updDesc_port (i : DIdx) (f : Descriptor → Descriptor) : (s.updDesc i f).port = s.port := rfl
@[simp] theorem updDesc_mem (i : DIdx) (f : Descriptor → Descriptor) : (s.updDesc i f).mem = s.mem := rfl
@[simp] theorem updDesc_ecc (i : DIdx) (f : Descriptor → Descriptor) : (s.updDesc i f).ecc = s.ecc := rfl
@[simp] theorem updDesc_su (i : DIdx) (f : Descriptor → Descriptor) : (s.updDesc i f).su = s.su := rfl
@[simp] theorem updDesc_rq (i : DIdx) (f : Descriptor → Descriptor) : (s.updDesc i f).rq = s.rq := rfl
@[simp] theorem updDesc_server (i : DIdx) (f : Descriptor → Descriptor) : (s.updDesc i f).server = s.server := rfl
@[simp] theorem updDesc_chans (i : DIdx) (f : Descriptor → Descriptor) : (s.updDesc i f).chans = s.chans := rfl
@[simp] theorem updDesc_engine (i : DIdx) (f : Descriptor → Descriptor) : (s.updDesc i f).engine = s.engine := rfl
@[simp] theorem updDesc_attn (i : DIdx) (f : Descriptor → Descriptor) : (s.updDesc i f).attn = s.attn := rfl
@[simp] theorem updDesc_linkOut (i : DIdx) (f : Descriptor → Descriptor) : (s.updDesc i f).linkOut = s.linkOut := rfl
@[simp] theorem updDesc_busRead (i : DIdx) (f : Descriptor → Descriptor) : (s.updDesc i f).busRead = s.busRead := rfl
@[simp] theorem updDesc_lines (i : DIdx) (f : Descriptor → Descriptor) : (s.updDesc i f).lines = s.lines := rfl
@[simp] theorem updDesc_now (i : DIdx) (f : Descriptor → Descriptor) : (s.updDesc i f).now = s.now := rfl
@[simp] theorem updDesc_cuts (i : DIdx) (f : Descriptor → Descriptor) : (s.updDesc i f).cuts = s.cuts := rfl
@[simp] theorem updDesc_turns (i : DIdx) (f : Descriptor → Descriptor) : (s.updDesc i f).turns = s.turns := rfl
@[simp] theorem updDesc_pending (i : DIdx) (f : Descriptor → Descriptor) : (s.updDesc i f).pending = s.pending := rfl

/-! setWt -/
@[simp] theorem setWt_wt (v : Vector Descriptor 256) : (s.setWt v).wt = v := rfl
@[simp] theorem setWt_pm (v : Vector Descriptor 256) : (s.setWt v).pm = s.pm := rfl
@[simp] theorem setWt_port (v : Vector Descriptor 256) : (s.setWt v).port = s.port := rfl
@[simp] theorem setWt_mem (v : Vector Descriptor 256) : (s.setWt v).mem = s.mem := rfl
@[simp] theorem setWt_ecc (v : Vector Descriptor 256) : (s.setWt v).ecc = s.ecc := rfl
@[simp] theorem setWt_su (v : Vector Descriptor 256) : (s.setWt v).su = s.su := rfl
@[simp] theorem setWt_rq (v : Vector Descriptor 256) : (s.setWt v).rq = s.rq := rfl
@[simp] theorem setWt_server (v : Vector Descriptor 256) : (s.setWt v).server = s.server := rfl
@[simp] theorem setWt_chans (v : Vector Descriptor 256) : (s.setWt v).chans = s.chans := rfl
@[simp] theorem setWt_engine (v : Vector Descriptor 256) : (s.setWt v).engine = s.engine := rfl
@[simp] theorem setWt_attn (v : Vector Descriptor 256) : (s.setWt v).attn = s.attn := rfl
@[simp] theorem setWt_linkOut (v : Vector Descriptor 256) : (s.setWt v).linkOut = s.linkOut := rfl
@[simp] theorem setWt_busRead (v : Vector Descriptor 256) : (s.setWt v).busRead = s.busRead := rfl
@[simp] theorem setWt_lines (v : Vector Descriptor 256) : (s.setWt v).lines = s.lines := rfl
@[simp] theorem setWt_now (v : Vector Descriptor 256) : (s.setWt v).now = s.now := rfl
@[simp] theorem setWt_cuts (v : Vector Descriptor 256) : (s.setWt v).cuts = s.cuts := rfl
@[simp] theorem setWt_turns (v : Vector Descriptor 256) : (s.setWt v).turns = s.turns := rfl
@[simp] theorem setWt_pending (v : Vector Descriptor 256) : (s.setWt v).pending = s.pending := rfl

/-! setPm -/
@[simp] theorem setPm_wt (v : Vector MapEntry 2048) : (s.setPm v).wt = s.wt := rfl
@[simp] theorem setPm_pm (v : Vector MapEntry 2048) : (s.setPm v).pm = v := rfl
@[simp] theorem setPm_port (v : Vector MapEntry 2048) : (s.setPm v).port = s.port := rfl
@[simp] theorem setPm_mem (v : Vector MapEntry 2048) : (s.setPm v).mem = s.mem := rfl
@[simp] theorem setPm_ecc (v : Vector MapEntry 2048) : (s.setPm v).ecc = s.ecc := rfl
@[simp] theorem setPm_su (v : Vector MapEntry 2048) : (s.setPm v).su = s.su := rfl
@[simp] theorem setPm_rq (v : Vector MapEntry 2048) : (s.setPm v).rq = s.rq := rfl
@[simp] theorem setPm_server (v : Vector MapEntry 2048) : (s.setPm v).server = s.server := rfl
@[simp] theorem setPm_chans (v : Vector MapEntry 2048) : (s.setPm v).chans = s.chans := rfl
@[simp] theorem setPm_engine (v : Vector MapEntry 2048) : (s.setPm v).engine = s.engine := rfl
@[simp] theorem setPm_attn (v : Vector MapEntry 2048) : (s.setPm v).attn = s.attn := rfl
@[simp] theorem setPm_linkOut (v : Vector MapEntry 2048) : (s.setPm v).linkOut = s.linkOut := rfl
@[simp] theorem setPm_busRead (v : Vector MapEntry 2048) : (s.setPm v).busRead = s.busRead := rfl
@[simp] theorem setPm_lines (v : Vector MapEntry 2048) : (s.setPm v).lines = s.lines := rfl
@[simp] theorem setPm_now (v : Vector MapEntry 2048) : (s.setPm v).now = s.now := rfl
@[simp] theorem setPm_cuts (v : Vector MapEntry 2048) : (s.setPm v).cuts = s.cuts := rfl
@[simp] theorem setPm_turns (v : Vector MapEntry 2048) : (s.setPm v).turns = s.turns := rfl
@[simp] theorem setPm_pending (v : Vector MapEntry 2048) : (s.setPm v).pending = s.pending := rfl

/-! setPort -/
@[simp] theorem setPort_wt (v : Port) : (s.setPort v).wt = s.wt := rfl
@[simp] theorem setPort_pm (v : Port) : (s.setPort v).pm = s.pm := rfl
@[simp] theorem setPort_port (v : Port) : (s.setPort v).port = v := rfl
@[simp] theorem setPort_mem (v : Port) : (s.setPort v).mem = s.mem := rfl
@[simp] theorem setPort_ecc (v : Port) : (s.setPort v).ecc = s.ecc := rfl
@[simp] theorem setPort_su (v : Port) : (s.setPort v).su = s.su := rfl
@[simp] theorem setPort_rq (v : Port) : (s.setPort v).rq = s.rq := rfl
@[simp] theorem setPort_server (v : Port) : (s.setPort v).server = s.server := rfl
@[simp] theorem setPort_chans (v : Port) : (s.setPort v).chans = s.chans := rfl
@[simp] theorem setPort_engine (v : Port) : (s.setPort v).engine = s.engine := rfl
@[simp] theorem setPort_attn (v : Port) : (s.setPort v).attn = s.attn := rfl
@[simp] theorem setPort_linkOut (v : Port) : (s.setPort v).linkOut = s.linkOut := rfl
@[simp] theorem setPort_busRead (v : Port) : (s.setPort v).busRead = s.busRead := rfl
@[simp] theorem setPort_lines (v : Port) : (s.setPort v).lines = s.lines := rfl
@[simp] theorem setPort_now (v : Port) : (s.setPort v).now = s.now := rfl
@[simp] theorem setPort_cuts (v : Port) : (s.setPort v).cuts = s.cuts := rfl
@[simp] theorem setPort_turns (v : Port) : (s.setPort v).turns = s.turns := rfl
@[simp] theorem setPort_pending (v : Port) : (s.setPort v).pending = s.pending := rfl

/-! setMem -/
@[simp] theorem setMem_wt (v : List Host.Cell) : (s.setMem v).wt = s.wt := rfl
@[simp] theorem setMem_pm (v : List Host.Cell) : (s.setMem v).pm = s.pm := rfl
@[simp] theorem setMem_port (v : List Host.Cell) : (s.setMem v).port = s.port := rfl
@[simp] theorem setMem_mem (v : List Host.Cell) : (s.setMem v).mem = v := rfl
@[simp] theorem setMem_ecc (v : List Host.Cell) : (s.setMem v).ecc = s.ecc := rfl
@[simp] theorem setMem_su (v : List Host.Cell) : (s.setMem v).su = s.su := rfl
@[simp] theorem setMem_rq (v : List Host.Cell) : (s.setMem v).rq = s.rq := rfl
@[simp] theorem setMem_server (v : List Host.Cell) : (s.setMem v).server = s.server := rfl
@[simp] theorem setMem_chans (v : List Host.Cell) : (s.setMem v).chans = s.chans := rfl
@[simp] theorem setMem_engine (v : List Host.Cell) : (s.setMem v).engine = s.engine := rfl
@[simp] theorem setMem_attn (v : List Host.Cell) : (s.setMem v).attn = s.attn := rfl
@[simp] theorem setMem_linkOut (v : List Host.Cell) : (s.setMem v).linkOut = s.linkOut := rfl
@[simp] theorem setMem_busRead (v : List Host.Cell) : (s.setMem v).busRead = s.busRead := rfl
@[simp] theorem setMem_lines (v : List Host.Cell) : (s.setMem v).lines = s.lines := rfl
@[simp] theorem setMem_now (v : List Host.Cell) : (s.setMem v).now = s.now := rfl
@[simp] theorem setMem_cuts (v : List Host.Cell) : (s.setMem v).cuts = s.cuts := rfl
@[simp] theorem setMem_turns (v : List Host.Cell) : (s.setMem v).turns = s.turns := rfl
@[simp] theorem setMem_pending (v : List Host.Cell) : (s.setMem v).pending = s.pending := rfl

/-! setEcc -/
@[simp] theorem setEcc_wt (v : List (Nat × WordErr)) : (s.setEcc v).wt = s.wt := rfl
@[simp] theorem setEcc_pm (v : List (Nat × WordErr)) : (s.setEcc v).pm = s.pm := rfl
@[simp] theorem setEcc_port (v : List (Nat × WordErr)) : (s.setEcc v).port = s.port := rfl
@[simp] theorem setEcc_mem (v : List (Nat × WordErr)) : (s.setEcc v).mem = s.mem := rfl
@[simp] theorem setEcc_ecc (v : List (Nat × WordErr)) : (s.setEcc v).ecc = v := rfl
@[simp] theorem setEcc_su (v : List (Nat × WordErr)) : (s.setEcc v).su = s.su := rfl
@[simp] theorem setEcc_rq (v : List (Nat × WordErr)) : (s.setEcc v).rq = s.rq := rfl
@[simp] theorem setEcc_server (v : List (Nat × WordErr)) : (s.setEcc v).server = s.server := rfl
@[simp] theorem setEcc_chans (v : List (Nat × WordErr)) : (s.setEcc v).chans = s.chans := rfl
@[simp] theorem setEcc_engine (v : List (Nat × WordErr)) : (s.setEcc v).engine = s.engine := rfl
@[simp] theorem setEcc_attn (v : List (Nat × WordErr)) : (s.setEcc v).attn = s.attn := rfl
@[simp] theorem setEcc_linkOut (v : List (Nat × WordErr)) : (s.setEcc v).linkOut = s.linkOut := rfl
@[simp] theorem setEcc_busRead (v : List (Nat × WordErr)) : (s.setEcc v).busRead = s.busRead := rfl
@[simp] theorem setEcc_lines (v : List (Nat × WordErr)) : (s.setEcc v).lines = s.lines := rfl
@[simp] theorem setEcc_now (v : List (Nat × WordErr)) : (s.setEcc v).now = s.now := rfl
@[simp] theorem setEcc_cuts (v : List (Nat × WordErr)) : (s.setEcc v).cuts = s.cuts := rfl
@[simp] theorem setEcc_turns (v : List (Nat × WordErr)) : (s.setEcc v).turns = s.turns := rfl
@[simp] theorem setEcc_pending (v : List (Nat × WordErr)) : (s.setEcc v).pending = s.pending := rfl

/-! updSlot -/
@[simp] theorem updSlot_wt (i : Slot) (f : Requester → Requester) : (s.updSlot i f).wt = s.wt := rfl
@[simp] theorem updSlot_pm (i : Slot) (f : Requester → Requester) : (s.updSlot i f).pm = s.pm := rfl
@[simp] theorem updSlot_port (i : Slot) (f : Requester → Requester) : (s.updSlot i f).port = s.port := rfl
@[simp] theorem updSlot_mem (i : Slot) (f : Requester → Requester) : (s.updSlot i f).mem = s.mem := rfl
@[simp] theorem updSlot_ecc (i : Slot) (f : Requester → Requester) : (s.updSlot i f).ecc = s.ecc := rfl
@[simp] theorem updSlot_su (i : Slot) (f : Requester → Requester) : (s.updSlot i f).su = s.su.set i (f s.su[i]) := rfl
@[simp] theorem updSlot_rq (i : Slot) (f : Requester → Requester) : (s.updSlot i f).rq = s.rq := rfl
@[simp] theorem updSlot_server (i : Slot) (f : Requester → Requester) : (s.updSlot i f).server = s.server := rfl
@[simp] theorem updSlot_chans (i : Slot) (f : Requester → Requester) : (s.updSlot i f).chans = s.chans := rfl
@[simp] theorem updSlot_engine (i : Slot) (f : Requester → Requester) : (s.updSlot i f).engine = s.engine := rfl
@[simp] theorem updSlot_attn (i : Slot) (f : Requester → Requester) : (s.updSlot i f).attn = s.attn := rfl
@[simp] theorem updSlot_linkOut (i : Slot) (f : Requester → Requester) : (s.updSlot i f).linkOut = s.linkOut := rfl
@[simp] theorem updSlot_busRead (i : Slot) (f : Requester → Requester) : (s.updSlot i f).busRead = s.busRead := rfl
@[simp] theorem updSlot_lines (i : Slot) (f : Requester → Requester) : (s.updSlot i f).lines = s.lines := rfl
@[simp] theorem updSlot_now (i : Slot) (f : Requester → Requester) : (s.updSlot i f).now = s.now := rfl
@[simp] theorem updSlot_cuts (i : Slot) (f : Requester → Requester) : (s.updSlot i f).cuts = s.cuts := rfl
@[simp] theorem updSlot_turns (i : Slot) (f : Requester → Requester) : (s.updSlot i f).turns = s.turns := rfl
@[simp] theorem updSlot_pending (i : Slot) (f : Requester → Requester) : (s.updSlot i f).pending = s.pending := rfl

/-! setSu -/
@[simp] theorem setSu_wt (v : Vector Requester 16) : (s.setSu v).wt = s.wt := rfl
@[simp] theorem setSu_pm (v : Vector Requester 16) : (s.setSu v).pm = s.pm := rfl
@[simp] theorem setSu_port (v : Vector Requester 16) : (s.setSu v).port = s.port := rfl
@[simp] theorem setSu_mem (v : Vector Requester 16) : (s.setSu v).mem = s.mem := rfl
@[simp] theorem setSu_ecc (v : Vector Requester 16) : (s.setSu v).ecc = s.ecc := rfl
@[simp] theorem setSu_su (v : Vector Requester 16) : (s.setSu v).su = v := rfl
@[simp] theorem setSu_rq (v : Vector Requester 16) : (s.setSu v).rq = s.rq := rfl
@[simp] theorem setSu_server (v : Vector Requester 16) : (s.setSu v).server = s.server := rfl
@[simp] theorem setSu_chans (v : Vector Requester 16) : (s.setSu v).chans = s.chans := rfl
@[simp] theorem setSu_engine (v : Vector Requester 16) : (s.setSu v).engine = s.engine := rfl
@[simp] theorem setSu_attn (v : Vector Requester 16) : (s.setSu v).attn = s.attn := rfl
@[simp] theorem setSu_linkOut (v : Vector Requester 16) : (s.setSu v).linkOut = s.linkOut := rfl
@[simp] theorem setSu_busRead (v : Vector Requester 16) : (s.setSu v).busRead = s.busRead := rfl
@[simp] theorem setSu_lines (v : Vector Requester 16) : (s.setSu v).lines = s.lines := rfl
@[simp] theorem setSu_now (v : Vector Requester 16) : (s.setSu v).now = s.now := rfl
@[simp] theorem setSu_cuts (v : Vector Requester 16) : (s.setSu v).cuts = s.cuts := rfl
@[simp] theorem setSu_turns (v : Vector Requester 16) : (s.setSu v).turns = s.turns := rfl
@[simp] theorem setSu_pending (v : Vector Requester 16) : (s.setSu v).pending = s.pending := rfl

/-! setRq -/
@[simp] theorem setRq_wt (v : List Request) : (s.setRq v).wt = s.wt := rfl
@[simp] theorem setRq_pm (v : List Request) : (s.setRq v).pm = s.pm := rfl
@[simp] theorem setRq_port (v : List Request) : (s.setRq v).port = s.port := rfl
@[simp] theorem setRq_mem (v : List Request) : (s.setRq v).mem = s.mem := rfl
@[simp] theorem setRq_ecc (v : List Request) : (s.setRq v).ecc = s.ecc := rfl
@[simp] theorem setRq_su (v : List Request) : (s.setRq v).su = s.su := rfl
@[simp] theorem setRq_rq (v : List Request) : (s.setRq v).rq = v := rfl
@[simp] theorem setRq_server (v : List Request) : (s.setRq v).server = s.server := rfl
@[simp] theorem setRq_chans (v : List Request) : (s.setRq v).chans = s.chans := rfl
@[simp] theorem setRq_engine (v : List Request) : (s.setRq v).engine = s.engine := rfl
@[simp] theorem setRq_attn (v : List Request) : (s.setRq v).attn = s.attn := rfl
@[simp] theorem setRq_linkOut (v : List Request) : (s.setRq v).linkOut = s.linkOut := rfl
@[simp] theorem setRq_busRead (v : List Request) : (s.setRq v).busRead = s.busRead := rfl
@[simp] theorem setRq_lines (v : List Request) : (s.setRq v).lines = s.lines := rfl
@[simp] theorem setRq_now (v : List Request) : (s.setRq v).now = s.now := rfl
@[simp] theorem setRq_cuts (v : List Request) : (s.setRq v).cuts = s.cuts := rfl
@[simp] theorem setRq_turns (v : List Request) : (s.setRq v).turns = s.turns := rfl
@[simp] theorem setRq_pending (v : List Request) : (s.setRq v).pending = s.pending := rfl

/-! setServer -/
@[simp] theorem setServer_wt (v : Option InService) : (s.setServer v).wt = s.wt := rfl
@[simp] theorem setServer_pm (v : Option InService) : (s.setServer v).pm = s.pm := rfl
@[simp] theorem setServer_port (v : Option InService) : (s.setServer v).port = s.port := rfl
@[simp] theorem setServer_mem (v : Option InService) : (s.setServer v).mem = s.mem := rfl
@[simp] theorem setServer_ecc (v : Option InService) : (s.setServer v).ecc = s.ecc := rfl
@[simp] theorem setServer_su (v : Option InService) : (s.setServer v).su = s.su := rfl
@[simp] theorem setServer_rq (v : Option InService) : (s.setServer v).rq = s.rq := rfl
@[simp] theorem setServer_server (v : Option InService) : (s.setServer v).server = v := rfl
@[simp] theorem setServer_chans (v : Option InService) : (s.setServer v).chans = s.chans := rfl
@[simp] theorem setServer_engine (v : Option InService) : (s.setServer v).engine = s.engine := rfl
@[simp] theorem setServer_attn (v : Option InService) : (s.setServer v).attn = s.attn := rfl
@[simp] theorem setServer_linkOut (v : Option InService) : (s.setServer v).linkOut = s.linkOut := rfl
@[simp] theorem setServer_busRead (v : Option InService) : (s.setServer v).busRead = s.busRead := rfl
@[simp] theorem setServer_lines (v : Option InService) : (s.setServer v).lines = s.lines := rfl
@[simp] theorem setServer_now (v : Option InService) : (s.setServer v).now = s.now := rfl
@[simp] theorem setServer_cuts (v : Option InService) : (s.setServer v).cuts = s.cuts := rfl
@[simp] theorem setServer_turns (v : Option InService) : (s.setServer v).turns = s.turns := rfl
@[simp] theorem setServer_pending (v : Option InService) : (s.setServer v).pending = s.pending := rfl

/-! updChan -/
@[simp] theorem updChan_wt (i : Chan) (f : Channel → Channel) : (s.updChan i f).wt = s.wt := rfl
@[simp] theorem updChan_pm (i : Chan) (f : Channel → Channel) : (s.updChan i f).pm = s.pm := rfl
@[simp] theorem updChan_port (i : Chan) (f : Channel → Channel) : (s.updChan i f).port = s.port := rfl
@[simp] theorem updChan_mem (i : Chan) (f : Channel → Channel) : (s.updChan i f).mem = s.mem := rfl
@[simp] theorem updChan_ecc (i : Chan) (f : Channel → Channel) : (s.updChan i f).ecc = s.ecc := rfl
@[simp] theorem updChan_su (i : Chan) (f : Channel → Channel) : (s.updChan i f).su = s.su := rfl
@[simp] theorem updChan_rq (i : Chan) (f : Channel → Channel) : (s.updChan i f).rq = s.rq := rfl
@[simp] theorem updChan_server (i : Chan) (f : Channel → Channel) : (s.updChan i f).server = s.server := rfl
@[simp] theorem updChan_chans (i : Chan) (f : Channel → Channel) : (s.updChan i f).chans = s.chans.set i (f s.chans[i]) := rfl
@[simp] theorem updChan_engine (i : Chan) (f : Channel → Channel) : (s.updChan i f).engine = s.engine := rfl
@[simp] theorem updChan_attn (i : Chan) (f : Channel → Channel) : (s.updChan i f).attn = s.attn := rfl
@[simp] theorem updChan_linkOut (i : Chan) (f : Channel → Channel) : (s.updChan i f).linkOut = s.linkOut := rfl
@[simp] theorem updChan_busRead (i : Chan) (f : Channel → Channel) : (s.updChan i f).busRead = s.busRead := rfl
@[simp] theorem updChan_lines (i : Chan) (f : Channel → Channel) : (s.updChan i f).lines = s.lines := rfl
@[simp] theorem updChan_now (i : Chan) (f : Channel → Channel) : (s.updChan i f).now = s.now := rfl
@[simp] theorem updChan_cuts (i : Chan) (f : Channel → Channel) : (s.updChan i f).cuts = s.cuts := rfl
@[simp] theorem updChan_turns (i : Chan) (f : Channel → Channel) : (s.updChan i f).turns = s.turns := rfl
@[simp] theorem updChan_pending (i : Chan) (f : Channel → Channel) : (s.updChan i f).pending = s.pending := rfl

/-! setEngine -/
@[simp] theorem setEngine_wt (v : Engine) : (s.setEngine v).wt = s.wt := rfl
@[simp] theorem setEngine_pm (v : Engine) : (s.setEngine v).pm = s.pm := rfl
@[simp] theorem setEngine_port (v : Engine) : (s.setEngine v).port = s.port := rfl
@[simp] theorem setEngine_mem (v : Engine) : (s.setEngine v).mem = s.mem := rfl
@[simp] theorem setEngine_ecc (v : Engine) : (s.setEngine v).ecc = s.ecc := rfl
@[simp] theorem setEngine_su (v : Engine) : (s.setEngine v).su = s.su := rfl
@[simp] theorem setEngine_rq (v : Engine) : (s.setEngine v).rq = s.rq := rfl
@[simp] theorem setEngine_server (v : Engine) : (s.setEngine v).server = s.server := rfl
@[simp] theorem setEngine_chans (v : Engine) : (s.setEngine v).chans = s.chans := rfl
@[simp] theorem setEngine_engine (v : Engine) : (s.setEngine v).engine = v := rfl
@[simp] theorem setEngine_attn (v : Engine) : (s.setEngine v).attn = s.attn := rfl
@[simp] theorem setEngine_linkOut (v : Engine) : (s.setEngine v).linkOut = s.linkOut := rfl
@[simp] theorem setEngine_busRead (v : Engine) : (s.setEngine v).busRead = s.busRead := rfl
@[simp] theorem setEngine_lines (v : Engine) : (s.setEngine v).lines = s.lines := rfl
@[simp] theorem setEngine_now (v : Engine) : (s.setEngine v).now = s.now := rfl
@[simp] theorem setEngine_cuts (v : Engine) : (s.setEngine v).cuts = s.cuts := rfl
@[simp] theorem setEngine_turns (v : Engine) : (s.setEngine v).turns = s.turns := rfl
@[simp] theorem setEngine_pending (v : Engine) : (s.setEngine v).pending = s.pending := rfl

/-! setAttn -/
@[simp] theorem setAttn_wt (v : Attention) : (s.setAttn v).wt = s.wt := rfl
@[simp] theorem setAttn_pm (v : Attention) : (s.setAttn v).pm = s.pm := rfl
@[simp] theorem setAttn_port (v : Attention) : (s.setAttn v).port = s.port := rfl
@[simp] theorem setAttn_mem (v : Attention) : (s.setAttn v).mem = s.mem := rfl
@[simp] theorem setAttn_ecc (v : Attention) : (s.setAttn v).ecc = s.ecc := rfl
@[simp] theorem setAttn_su (v : Attention) : (s.setAttn v).su = s.su := rfl
@[simp] theorem setAttn_rq (v : Attention) : (s.setAttn v).rq = s.rq := rfl
@[simp] theorem setAttn_server (v : Attention) : (s.setAttn v).server = s.server := rfl
@[simp] theorem setAttn_chans (v : Attention) : (s.setAttn v).chans = s.chans := rfl
@[simp] theorem setAttn_engine (v : Attention) : (s.setAttn v).engine = s.engine := rfl
@[simp] theorem setAttn_attn (v : Attention) : (s.setAttn v).attn = v := rfl
@[simp] theorem setAttn_linkOut (v : Attention) : (s.setAttn v).linkOut = s.linkOut := rfl
@[simp] theorem setAttn_busRead (v : Attention) : (s.setAttn v).busRead = s.busRead := rfl
@[simp] theorem setAttn_lines (v : Attention) : (s.setAttn v).lines = s.lines := rfl
@[simp] theorem setAttn_now (v : Attention) : (s.setAttn v).now = s.now := rfl
@[simp] theorem setAttn_cuts (v : Attention) : (s.setAttn v).cuts = s.cuts := rfl
@[simp] theorem setAttn_turns (v : Attention) : (s.setAttn v).turns = s.turns := rfl
@[simp] theorem setAttn_pending (v : Attention) : (s.setAttn v).pending = s.pending := rfl

/-! send -/
@[simp] theorem send_wt (v : LinkMsg) : (s.send v).wt = s.wt := rfl
@[simp] theorem send_pm (v : LinkMsg) : (s.send v).pm = s.pm := rfl
@[simp] theorem send_port (v : LinkMsg) : (s.send v).port = s.port := rfl
@[simp] theorem send_mem (v : LinkMsg) : (s.send v).mem = s.mem := rfl
@[simp] theorem send_ecc (v : LinkMsg) : (s.send v).ecc = s.ecc := rfl
@[simp] theorem send_su (v : LinkMsg) : (s.send v).su = s.su := rfl
@[simp] theorem send_rq (v : LinkMsg) : (s.send v).rq = s.rq := rfl
@[simp] theorem send_server (v : LinkMsg) : (s.send v).server = s.server := rfl
@[simp] theorem send_chans (v : LinkMsg) : (s.send v).chans = s.chans := rfl
@[simp] theorem send_engine (v : LinkMsg) : (s.send v).engine = s.engine := rfl
@[simp] theorem send_attn (v : LinkMsg) : (s.send v).attn = s.attn := rfl
@[simp] theorem send_linkOut (v : LinkMsg) : (s.send v).linkOut = s.linkOut ++ [v] := rfl
@[simp] theorem send_busRead (v : LinkMsg) : (s.send v).busRead = s.busRead := rfl
@[simp] theorem send_lines (v : LinkMsg) : (s.send v).lines = s.lines := rfl
@[simp] theorem send_now (v : LinkMsg) : (s.send v).now = s.now := rfl
@[simp] theorem send_cuts (v : LinkMsg) : (s.send v).cuts = s.cuts := rfl
@[simp] theorem send_turns (v : LinkMsg) : (s.send v).turns = s.turns := rfl
@[simp] theorem send_pending (v : LinkMsg) : (s.send v).pending = s.pending := rfl

/-! setBusRead -/
@[simp] theorem setBusRead_wt (v : Word) : (s.setBusRead v).wt = s.wt := rfl
@[simp] theorem setBusRead_pm (v : Word) : (s.setBusRead v).pm = s.pm := rfl
@[simp] theorem setBusRead_port (v : Word) : (s.setBusRead v).port = s.port := rfl
@[simp] theorem setBusRead_mem (v : Word) : (s.setBusRead v).mem = s.mem := rfl
@[simp] theorem setBusRead_ecc (v : Word) : (s.setBusRead v).ecc = s.ecc := rfl
@[simp] theorem setBusRead_su (v : Word) : (s.setBusRead v).su = s.su := rfl
@[simp] theorem setBusRead_rq (v : Word) : (s.setBusRead v).rq = s.rq := rfl
@[simp] theorem setBusRead_server (v : Word) : (s.setBusRead v).server = s.server := rfl
@[simp] theorem setBusRead_chans (v : Word) : (s.setBusRead v).chans = s.chans := rfl
@[simp] theorem setBusRead_engine (v : Word) : (s.setBusRead v).engine = s.engine := rfl
@[simp] theorem setBusRead_attn (v : Word) : (s.setBusRead v).attn = s.attn := rfl
@[simp] theorem setBusRead_linkOut (v : Word) : (s.setBusRead v).linkOut = s.linkOut := rfl
@[simp] theorem setBusRead_busRead (v : Word) : (s.setBusRead v).busRead = v := rfl
@[simp] theorem setBusRead_lines (v : Word) : (s.setBusRead v).lines = s.lines := rfl
@[simp] theorem setBusRead_now (v : Word) : (s.setBusRead v).now = s.now := rfl
@[simp] theorem setBusRead_cuts (v : Word) : (s.setBusRead v).cuts = s.cuts := rfl
@[simp] theorem setBusRead_turns (v : Word) : (s.setBusRead v).turns = s.turns := rfl
@[simp] theorem setBusRead_pending (v : Word) : (s.setBusRead v).pending = s.pending := rfl

/-! setLines -/
@[simp] theorem setLines_wt (v : Lines) : (s.setLines v).wt = s.wt := rfl
@[simp] theorem setLines_pm (v : Lines) : (s.setLines v).pm = s.pm := rfl
@[simp] theorem setLines_port (v : Lines) : (s.setLines v).port = s.port := rfl
@[simp] theorem setLines_mem (v : Lines) : (s.setLines v).mem = s.mem := rfl
@[simp] theorem setLines_ecc (v : Lines) : (s.setLines v).ecc = s.ecc := rfl
@[simp] theorem setLines_su (v : Lines) : (s.setLines v).su = s.su := rfl
@[simp] theorem setLines_rq (v : Lines) : (s.setLines v).rq = s.rq := rfl
@[simp] theorem setLines_server (v : Lines) : (s.setLines v).server = s.server := rfl
@[simp] theorem setLines_chans (v : Lines) : (s.setLines v).chans = s.chans := rfl
@[simp] theorem setLines_engine (v : Lines) : (s.setLines v).engine = s.engine := rfl
@[simp] theorem setLines_attn (v : Lines) : (s.setLines v).attn = s.attn := rfl
@[simp] theorem setLines_linkOut (v : Lines) : (s.setLines v).linkOut = s.linkOut := rfl
@[simp] theorem setLines_busRead (v : Lines) : (s.setLines v).busRead = s.busRead := rfl
@[simp] theorem setLines_lines (v : Lines) : (s.setLines v).lines = v := rfl
@[simp] theorem setLines_now (v : Lines) : (s.setLines v).now = s.now := rfl
@[simp] theorem setLines_cuts (v : Lines) : (s.setLines v).cuts = s.cuts := rfl
@[simp] theorem setLines_turns (v : Lines) : (s.setLines v).turns = s.turns := rfl
@[simp] theorem setLines_pending (v : Lines) : (s.setLines v).pending = s.pending := rfl

/-! setNow -/
@[simp] theorem setNow_wt (v : Nat) : (s.setNow v).wt = s.wt := rfl
@[simp] theorem setNow_pm (v : Nat) : (s.setNow v).pm = s.pm := rfl
@[simp] theorem setNow_port (v : Nat) : (s.setNow v).port = s.port := rfl
@[simp] theorem setNow_mem (v : Nat) : (s.setNow v).mem = s.mem := rfl
@[simp] theorem setNow_ecc (v : Nat) : (s.setNow v).ecc = s.ecc := rfl
@[simp] theorem setNow_su (v : Nat) : (s.setNow v).su = s.su := rfl
@[simp] theorem setNow_rq (v : Nat) : (s.setNow v).rq = s.rq := rfl
@[simp] theorem setNow_server (v : Nat) : (s.setNow v).server = s.server := rfl
@[simp] theorem setNow_chans (v : Nat) : (s.setNow v).chans = s.chans := rfl
@[simp] theorem setNow_engine (v : Nat) : (s.setNow v).engine = s.engine := rfl
@[simp] theorem setNow_attn (v : Nat) : (s.setNow v).attn = s.attn := rfl
@[simp] theorem setNow_linkOut (v : Nat) : (s.setNow v).linkOut = s.linkOut := rfl
@[simp] theorem setNow_busRead (v : Nat) : (s.setNow v).busRead = s.busRead := rfl
@[simp] theorem setNow_lines (v : Nat) : (s.setNow v).lines = s.lines := rfl
@[simp] theorem setNow_now (v : Nat) : (s.setNow v).now = v := rfl
@[simp] theorem setNow_cuts (v : Nat) : (s.setNow v).cuts = s.cuts := rfl
@[simp] theorem setNow_turns (v : Nat) : (s.setNow v).turns = s.turns := rfl
@[simp] theorem setNow_pending (v : Nat) : (s.setNow v).pending = s.pending := rfl

/-! setTurns -/
@[simp] theorem setTurns_wt (v : List (Option Chan)) : (s.setTurns v).wt = s.wt := rfl
@[simp] theorem setTurns_pm (v : List (Option Chan)) : (s.setTurns v).pm = s.pm := rfl
@[simp] theorem setTurns_port (v : List (Option Chan)) : (s.setTurns v).port = s.port := rfl
@[simp] theorem setTurns_mem (v : List (Option Chan)) : (s.setTurns v).mem = s.mem := rfl
@[simp] theorem setTurns_ecc (v : List (Option Chan)) : (s.setTurns v).ecc = s.ecc := rfl
@[simp] theorem setTurns_su (v : List (Option Chan)) : (s.setTurns v).su = s.su := rfl
@[simp] theorem setTurns_rq (v : List (Option Chan)) : (s.setTurns v).rq = s.rq := rfl
@[simp] theorem setTurns_server (v : List (Option Chan)) : (s.setTurns v).server = s.server := rfl
@[simp] theorem setTurns_chans (v : List (Option Chan)) : (s.setTurns v).chans = s.chans := rfl
@[simp] theorem setTurns_engine (v : List (Option Chan)) : (s.setTurns v).engine = s.engine := rfl
@[simp] theorem setTurns_attn (v : List (Option Chan)) : (s.setTurns v).attn = s.attn := rfl
@[simp] theorem setTurns_linkOut (v : List (Option Chan)) : (s.setTurns v).linkOut = s.linkOut := rfl
@[simp] theorem setTurns_busRead (v : List (Option Chan)) : (s.setTurns v).busRead = s.busRead := rfl
@[simp] theorem setTurns_lines (v : List (Option Chan)) : (s.setTurns v).lines = s.lines := rfl
@[simp] theorem setTurns_now (v : List (Option Chan)) : (s.setTurns v).now = s.now := rfl
@[simp] theorem setTurns_cuts (v : List (Option Chan)) : (s.setTurns v).cuts = s.cuts := rfl
@[simp] theorem setTurns_turns (v : List (Option Chan)) : (s.setTurns v).turns = v := rfl
@[simp] theorem setTurns_pending (v : List (Option Chan)) : (s.setTurns v).pending = s.pending := rfl

/-! setPending -/
@[simp] theorem setPending_wt (v : List Instr) : (s.setPending v).wt = s.wt := rfl
@[simp] theorem setPending_pm (v : List Instr) : (s.setPending v).pm = s.pm := rfl
@[simp] theorem setPending_port (v : List Instr) : (s.setPending v).port = s.port := rfl
@[simp] theorem setPending_mem (v : List Instr) : (s.setPending v).mem = s.mem := rfl
@[simp] theorem setPending_ecc (v : List Instr) : (s.setPending v).ecc = s.ecc := rfl
@[simp] theorem setPending_su (v : List Instr) : (s.setPending v).su = s.su := rfl
@[simp] theorem setPending_rq (v : List Instr) : (s.setPending v).rq = s.rq := rfl
@[simp] theorem setPending_server (v : List Instr) : (s.setPending v).server = s.server := rfl
@[simp] theorem setPending_chans (v : List Instr) : (s.setPending v).chans = s.chans := rfl
@[simp] theorem setPending_engine (v : List Instr) : (s.setPending v).engine = s.engine := rfl
@[simp] theorem setPending_attn (v : List Instr) : (s.setPending v).attn = s.attn := rfl
@[simp] theorem setPending_linkOut (v : List Instr) : (s.setPending v).linkOut = s.linkOut := rfl
@[simp] theorem setPending_busRead (v : List Instr) : (s.setPending v).busRead = s.busRead := rfl
@[simp] theorem setPending_lines (v : List Instr) : (s.setPending v).lines = s.lines := rfl
@[simp] theorem setPending_now (v : List Instr) : (s.setPending v).now = s.now := rfl
@[simp] theorem setPending_cuts (v : List Instr) : (s.setPending v).cuts = s.cuts := rfl
@[simp] theorem setPending_turns (v : List Instr) : (s.setPending v).turns = s.turns := rfl
@[simp] theorem setPending_pending (v : List Instr) : (s.setPending v).pending = v := rfl

end Sys2Proof.Machine.State
end

