-- ==== Sys2Proof/Laws/Pins.lean ====
section
/-! SUPPORT. Pins: placing them changes the counts alone; a pin that falls changes its count alone, unless it is the last on a
RETIRING descriptor. -/

namespace Sys2Proof.Machine

/-- The Window Table with one pin less for each entry of the list. -/
def withoutPins (wt : Vector Descriptor 256) (is : List DIdx) : Vector Descriptor 256 :=
  is.foldl (fun v (i : DIdx) => v.set i { v[i] with pins := v[i].pins - 1 }) wt

/-- Placing pins changes the counts alone. -/
theorem placePins_eq (is : List DIdx) (s : State) : placePins is s = { s with wt := withPins s.wt is } := by
  unfold placePins withPins
  induction is generalizing s with
  | nil => rfl
  | cons i is ih => simp only [List.foldl_cons]; rw [ih]; rfl

theorem withPins_alike (is : List DIdx) (v : Vector Descriptor 256) : AlikeButPins (withPins v is) v := by
  unfold withPins
  induction is generalizing v with
  | nil => exact .refl v
  | cons i is ih => exact (ih _).trans (.set_pins v i _)

theorem withoutPins_alike (is : List DIdx) (v : Vector Descriptor 256) : AlikeButPins (withoutPins v is) v := by
  unfold withoutPins
  induction is generalizing v with
  | nil => exact .refl v
  | cons i is ih => exact (ih _).trans (.set_pins v i _)

/-- A pin that is not the last on a RETIRING descriptor only lowers the count. -/
theorem removePin_of {i : DIdx} {s : State} (h : s.wt[i].state ≠ .retiring ∨ 2 ≤ s.wt[i].pins) :
    removePin i s = { s with wt := withoutPins s.wt [i] } := by
  unfold removePin
  rw [if_neg]
  · rfl
  · simp only [State.updDesc, get_set_self]
    rintro ⟨h1, h2⟩
    rcases h with h | h
    · exact h h1
    · omega

/-- The last pin on a RETIRING descriptor frees it. -/
theorem removePin_last {i : DIdx} {s : State} (h : s.wt[i].state = .retiring) (hp : s.wt[i].pins ≤ 1) :
    removePin i s = enterFree i (s.updDesc i fun d => { d with pins := d.pins - 1 }) := by
  unfold removePin
  rw [if_pos]
  simp only [State.updDesc, get_set_self]
  exact ⟨h, by omega⟩

/-- Pins that fall from descriptors none of which is RETIRING only lower the counts. -/
theorem removePins_of {is : List DIdx} {s : State} (h : ∀ i ∈ is, s.wt[i].state ≠ .retiring) :
    removePins is s = { s with wt := withoutPins s.wt is } := by
  unfold removePins
  induction is generalizing s with
  | nil => rfl
  | cons i is ih =>
    simp only [List.foldl_cons]
    rw [removePin_of (.inl (h i (by simp))), ih]
    · rfl
    · intro j hj
      have e := ((withoutPins_alike [i] s.wt).fields j).1
      change (withoutPins s.wt [i])[j].state ≠ _
      rw [e]; exact h j (List.mem_cons_of_mem _ hj)

theorem withPins_append (is js : List DIdx) (v : Vector Descriptor 256) :
    withPins v (is ++ js) = withPins (withPins v is) js := by simp [withPins]

theorem withoutPins_append (is js : List DIdx) (v : Vector Descriptor 256) :
    withoutPins v (is ++ js) = withoutPins (withoutPins v is) js := by simp [withoutPins]

/-- The count after pins are placed. -/
theorem withPins_pins (is : List DIdx) (v : Vector Descriptor 256) (j : DIdx) :
    (withPins v is)[j].pins = v[j].pins + is.count j := by
  unfold withPins
  induction is generalizing v with
  | nil => simp
  | cons i is ih =>
    simp only [List.foldl_cons]; rw [ih, get_set, List.count_cons]
    by_cases h : i = j
    · subst h; simp; omega
    · simp [h]

/-- The count after pins have fallen. -/
theorem withoutPins_pins (is : List DIdx) (v : Vector Descriptor 256) (j : DIdx) :
    (withoutPins v is)[j].pins = v[j].pins - is.count j := by
  unfold withoutPins
  induction is generalizing v with
  | nil => simp
  | cons i is ih =>
    simp only [List.foldl_cons]; rw [ih, get_set, List.count_cons]
    by_cases h : i = j
    · subst h; simp; omega
    · simp [h]

/-- Tables that agree but for pins and agree in the pins are equal. -/
theorem AlikeButPins.eq {v w : Vector Descriptor 256} (h : AlikeButPins v w) (hp : ∀ i : DIdx, v[i].pins = w[i].pins) :
    v = w := by
  ext j hj
  have a := h ⟨j, hj⟩
  have b := hp ⟨j, hj⟩
  simp only [Fin.getElem_fin] at a b
  simp only [Descriptor.mk.injEq, true_and] at a
  cases e1 : v[j]; cases e2 : w[j]; simp_all

/-- Pins placed and taken away again leave the table as it was. -/
theorem withoutPins_withPins (is : List DIdx) (v : Vector Descriptor 256) : withoutPins (withPins v is) is = v :=
  ((withoutPins_alike is _).trans (withPins_alike is v)).eq fun i => by rw [withoutPins_pins, withPins_pins]; omega

/-! ### Pins that fall from a descriptor in any state -/

/-- No pin falls. -/
@[simp] theorem Descriptor.unpinned_zero (d : Descriptor) : d.unpinned 0 = d := by
  unfold Descriptor.unpinned; rw [if_neg (by omega)]; rfl

/-- Pins fall one lot after another. -/
theorem Descriptor.unpinned_unpinned (d : Descriptor) (m n : Nat) : (d.unpinned m).unpinned n = d.unpinned (m + n) := by
  by_cases hm : d.state = .retiring ∧ 0 < m ∧ d.pins ≤ m
  · rw [show d.unpinned m = _ from if_pos hm, show d.unpinned (m + n) = _ from if_pos ⟨hm.1, by omega, by omega⟩]
    exact (if_neg fun h => by cases h.1).trans (by simp)
  · by_cases hn : d.state = .retiring ∧ 0 < m + n ∧ d.pins ≤ m + n
    · have : (d.unpinned m) = { d with pins := d.pins - m } := if_neg hm
      rw [this]
      have e : d.unpinned (m + n) = _ := if_pos hn
      rw [e]
      by_cases h0 : 0 < n
      · exact if_pos ⟨hn.1, h0, by show d.pins - m ≤ n; omega⟩
      · obtain rfl : n = 0 := by omega
        exact absurd hn hm
    · have : (d.unpinned m) = { d with pins := d.pins - m } := if_neg hm
      rw [this, show d.unpinned (m + n) = _ from if_neg hn]
      refine (if_neg ?_).trans ?_
      · rintro ⟨a, b, c⟩; exact hn ⟨a, by omega, by change d.pins - m ≤ n at c; omega⟩
      · simp [Nat.sub_sub]

/-- What a pin that falls does to the table. -/
theorem removePin_wt (i j : DIdx) (s : State) :
    (removePin i s).wt[j] = s.wt[j].unpinned (if i = j then 1 else 0) := by
  by_cases h : s.wt[i].state = .retiring ∧ s.wt[i].pins ≤ 1
  · rw [removePin_last h.1 h.2]
    have e0 (t : State) : (engineOnFree i t).wt = t.wt := by
      unfold engineOnFree; split
      · split <;> rfl
      · rfl
    have e : (enterFree i (s.updDesc i fun d => { d with pins := d.pins - 1 })).wt =
        s.wt.set i (s.wt[i].unpinned 1) := by
      rw [show s.wt[i].unpinned 1 = _ from if_pos ⟨h.1, by omega, h.2⟩]
      have hz := Nat.sub_eq_zero_of_le h.2
      simp only [Fin.getElem_fin] at hz
      unfold enterFree; rw [e0]
      simp [raiseRetireDone, Descriptor.clearOpeners, hz]
    rw [e, get_set]
    split
    · rename_i a; subst a; rfl
    · rw [Descriptor.unpinned_zero]
  · rw [removePin_of (by rcases Nat.lt_or_ge s.wt[i].pins 2 with a | a
                         · exact .inl fun b => h ⟨b, by omega⟩
                         · exact .inr a)]
    simp only [withoutPins, List.foldl_cons, List.foldl_nil, get_set]
    split
    · rename_i a; subst a; unfold Descriptor.unpinned; rw [if_neg]
      rintro ⟨a, _, b⟩; exact h ⟨a, b⟩
    · rw [Descriptor.unpinned_zero]

/-- What pins that fall do to the table. -/
theorem removePins_wt (is : List DIdx) (j : DIdx) (s : State) :
    (removePins is s).wt[j] = s.wt[j].unpinned (is.count j) := by
  unfold removePins
  induction is generalizing s with
  | nil => simp
  | cons i is ih =>
    simp only [List.foldl_cons]
    rw [ih, removePin_wt, Descriptor.unpinned_unpinned, List.count_cons]
    congr 1
    by_cases h : i = j
    · subst h; simp; omega
    · simp [h]

/-! ### Pins that a resolution places -/

/-- None of the descriptors that a passing resolution pins is RETIRING. -/
theorem resolve_pinned {s : State} {slot : Slot} {h : Handle} {offset length : Nat} {needed : Rights}
    {needsList : NeedsList} {aligned : Bool} {w : Resolved}
    (hr : resolve s slot h offset length needed needsList aligned = .ok w) :
    ∀ i ∈ w.pinned, s.wt[i].state = .valid := by
  obtain ⟨_, h2, _, h4, _⟩ := resolve_ok hr
  intro i hi
  simp only [Resolved.pinned, List.mem_cons, Option.mem_toList] at hi
  rcases hi with rfl | hi
  · exact h2
  · exact (h4 i hi).2

end Sys2Proof.Machine
end

