-- ==== Sys2Proof/Laws/Settle.lean ====
section
/-! SUPPORT. The end of a step: settling a state that nothing is left to do in changes nothing, and what a request of a
claimant does to a settled port. -/

namespace Sys2Proof.Machine

/-- What channels could take up depends on the channels alone. -/
theorem readyChannel_congr {s t : State} (h : t.chans = s.chans) : readyChannel t = readyChannel s := by
  unfold readyChannel isReady; rw [h]

/-- A channel is ready exactly when its primary has work of a kind that waits for nothing. -/
theorem isReady_iff {s : State} {c : Chan} : isReady s c = true ↔ ∃ p, s.chans[c].primary = some p ∧ p.work.ready = true := by
  unfold isReady; cases s.chans[c].primary <;> simp

/-- No channel is ready exactly when none is found. -/
theorem readyChannel_eq_none {s : State} : readyChannel s = none ↔ ∀ c, isReady s c = false := by
  unfold readyChannel
  simp only [List.find?_eq_none, Bool.not_eq_true]
  refine ⟨fun h c => h c ?_, fun h c _ => h c⟩
  revert c; decide

/-- The channel found is the lowest ready one. -/
theorem readyChannel_eq_some {s : State} {c : Chan} (h : isReady s c = true) (hb : ∀ d, d < c → isReady s d = false) :
    readyChannel s = some c := by
  have skip : ∀ (d : Chan) (l : List Chan), isReady s d = false → (d :: l).find? (isReady s) = l.find? (isReady s) :=
    fun d l hd => List.find?_cons_of_neg (by simp [hd])
  have take : ∀ l : List Chan, (c :: l).find? (isReady s) = some c := fun l => List.find?_cons_of_pos h
  unfold readyChannel
  have four : ∀ c : Chan, c = 0 ∨ c = 1 ∨ c = 2 ∨ c = 3 := by decide
  obtain rfl | rfl | rfl | rfl := four c
  · exact take _
  · rw [skip 0 _ (hb 0 (by decide))]; exact take _
  · rw [skip 0 _ (hb 0 (by decide)), skip 1 _ (hb 1 (by decide))]; exact take _
  · rw [skip 0 _ (hb 0 (by decide)), skip 1 _ (hb 1 (by decide)), skip 2 _ (hb 2 (by decide))]; exact take _

/-- Being settled depends on the channels and the port alone. -/
theorem Settled.congr {s t : State} (h : Settled s) (hc : t.chans = s.chans) (hp : t.port = s.port) : Settled t := by
  unfold Settled at *; rw [readyChannel_congr hc, hp]; exact h

/-- No ready channel, no work is run. -/
theorem runReady_of_none {s : State} (h : readyChannel s = none) : ∀ n, runReady n s = s
  | 0 => rfl
  | n + 1 => by simp [runReady, h]

/-- A turn of none leaves the work to later steps. -/
theorem runReady_pause {s : State} {later : List (Option Chan)} (ht : s.turns = none :: later) (h : readyChannel s ≠ none)
    (n : Nat) : runReady (n + 1) s = s.setTurns later := by
  unfold runReady; rw [ht]
  cases e : readyChannel s with
  | none => exact absurd e h
  | some c => rfl

/-- With no turns to come, the lowest ready channel takes up the next piece. -/
theorem runReady_lowest {s : State} {c : Chan} (ht : s.turns = []) (h : readyChannel s = some c) (n : Nat) :
    runReady (n + 1) s = runReady n (advance c s) := by
  rw [runReady, ht, h]

/-- A channel whose turn it is takes up the next piece, if it is ready, else the lowest ready one. -/
theorem runReady_turn {s : State} {c d : Chan} {later : List (Option Chan)} (ht : s.turns = some d :: later)
    (h : readyChannel s = some c) (n : Nat) :
    runReady (n + 1) s = runReady n (advance (if isReady s d then d else c) (s.setTurns later)) := by
  rw [runReady, ht, h]

/-- No grant is made while the DRAM is busy, or while no burst waits. -/
theorem grantBurst_of {s : State} (h : s.port.granted = none → nextClaimant s.port = none) : grantBurst s = s := by
  unfold grantBurst
  cases hg : s.port.granted with
  | none => simp [h hg]
  | some g => rfl

/-- Settling a settled state changes nothing. -/
theorem Settled.settle_eq {s : State} (h : Settled s) : settle s = s := by
  unfold settle; rw [runReady_of_none h.1]; exact grantBurst_of h.2

/-- Settling a state whose channels and port are those of a settled one changes nothing. -/
theorem settle_of_same {s t : State} (h : Settled s) (hc : t.chans = s.chans) (hp : t.port = s.port) : settle t = t :=
  (h.congr hc hp).settle_eq

/-- With no ready channel, settling is the grant alone. -/
theorem settle_of_ready_none {s : State} (h : readyChannel s = none) : settle s = grantBurst s := by
  unfold settle; rw [runReady_of_none h]

/-- No claimant is next exactly when none waits. -/
theorem nextClaimant_eq_none {p : Port} : nextClaimant p = none ↔ ∀ cl : Claimant, p.waiting[cl] = none := by
  unfold nextClaimant
  simp only [List.find?_eq_none, List.mem_map, forall_exists_index, and_imp]
  constructor
  · intro h cl
    have hk : ∀ (q cl : Fin 5), ∃ k ∈ [1, 2, 3, 4, 5], Fin.ofNat 5 (q.val + k) = cl := by decide
    obtain ⟨k, hk, e⟩ := hk p.pointer cl
    have := h cl k hk e
    simpa using this
  · intro h cl k _ _
    rw [h cl]; simp

/-- The first waiting claimant in ring order is next. -/
theorem nextClaimant_of {p : Port} {k : Nat} {cl : Claimant} (h1 : 1 ≤ k) (h5 : k ≤ 5)
    (hcl : cl.val = (p.pointer.val + k) % 5) (hw : (p.waiting[cl]).isSome)
    (hb : ∀ (j : Nat) (other : Claimant), 1 ≤ j → j < k → other.val = (p.pointer.val + j) % 5 → p.waiting[other] = none) :
    nextClaimant p = some cl := by
  have hc : Fin.ofNat 5 (p.pointer.val + k) = cl := Fin.ext hcl.symm
  unfold nextClaimant
  have no : ∀ j, 1 ≤ j → j < k → ¬ (p.waiting[(Fin.ofNat 5 (p.pointer.val + j) : Claimant)]).isSome = true := fun j a b => by
    rw [hb j _ a b rfl]; simp
  have skip : ∀ (x : Claimant) (l : List Claimant), ¬ (p.waiting[x]).isSome = true →
      List.find? (fun cl : Claimant => (p.waiting[cl]).isSome) (x :: l) =
        List.find? (fun cl : Claimant => (p.waiting[cl]).isSome) l :=
    fun x l h => List.find?_cons_of_neg h
  have take : ∀ (l : List Claimant),
      List.find? (fun cl : Claimant => (p.waiting[cl]).isSome) (Fin.ofNat 5 (p.pointer.val + k) :: l) = some cl :=
    fun l => by rw [hc]; exact List.find?_cons_of_pos hw
  obtain rfl | rfl | rfl | rfl | rfl : k = 1 ∨ k = 2 ∨ k = 3 ∨ k = 4 ∨ k = 5 := by omega
  all_goals simp only [List.map_cons, List.map_nil]
  · exact take _
  · rw [skip _ _ (no 1 (by omega) (by omega))]; exact take _
  · rw [skip _ _ (no 1 (by omega) (by omega)), skip _ _ (no 2 (by omega) (by omega))]; exact take _
  · rw [skip _ _ (no 1 (by omega) (by omega)), skip _ _ (no 2 (by omega) (by omega)),
      skip _ _ (no 3 (by omega) (by omega))]; exact take _
  · rw [skip _ _ (no 1 (by omega) (by omega)), skip _ _ (no 2 (by omega) (by omega)),
      skip _ _ (no 3 (by omega) (by omega)), skip _ _ (no 4 (by omega) (by omega))]; exact take _

/-- A busy DRAM is granted to nobody. -/
theorem grantBurst_busy {s : State} (h : s.port.granted.isSome = true) : grantBurst s = s :=
  grantBurst_of fun e => by rw [e] at h; simp at h

/-- A free DRAM is granted to the next claimant. -/
theorem grantBurst_free {s : State} {cl : Claimant} {b : Burst} (h : s.port.granted = none)
    (hn : nextClaimant s.port = some cl) (hb : s.port.waiting[cl] = some b) :
    grantBurst s = { s with
      port := { s.port with waiting := s.port.waiting.set cl none, granted := some (cl, b), pointer := cl } } := by
  unfold grantBurst; rw [hn]; split
  · rename_i cl' _ e
    simp only [Option.some.injEq] at e; subst e
    rw [hb]; rfl
  · rename_i e; exact (e cl h rfl).elim

/-- A request of a claimant at a settled port is granted where the DRAM is free, and waits where it is not. -/
theorem settle_request {s t : State} (h : Settled s) (hr : readyChannel t = none) (hp : t.port = s.port) (cl : Claimant)
    (b : Burst) : settle (requestBurst cl b t) = { t with port := s.port.requested cl b } := by
  rw [settle_of_ready_none (s := requestBurst cl b t) hr]
  unfold Port.requested
  cases hg : s.port.granted with
  | some g =>
    rw [grantBurst_busy (by simp [requestBurst, State.setPort, hp, hg])]
    simp [requestBurst, State.setPort, hp, hg]
  | none =>
    have hn := nextClaimant_eq_none.1 (h.2 hg)
    have hnext : nextClaimant (requestBurst cl b t).port = some cl := by
      obtain ⟨k, h1, h5, hk⟩ : ∃ k, 1 ≤ k ∧ k ≤ 5 ∧ cl.val = (s.port.pointer.val + k) % 5 := by
        have : ∀ q cl : Fin 5, ∃ k ∈ [1, 2, 3, 4, 5], cl.val = (q.val + k) % 5 := by decide
        obtain ⟨k, hk, e⟩ := this s.port.pointer cl
        exact ⟨k, by fin_cases hk <;> omega, by fin_cases hk <;> omega, e⟩
      simp only [requestBurst, State.setPort, hp]
      refine nextClaimant_of h1 h5 hk (by simp) ?_
      intro j other a b e
      change other.val = (s.port.pointer.val + j) % 5 at e
      show (s.port.waiting.set cl (some _))[other] = none
      rw [get_set, if_neg]
      · exact hn other
      · rintro rfl
        have := cl.isLt; omega
    rw [grantBurst_free (b := b) (by simp [requestBurst, State.setPort, hp, hg]) hnext
      (by simp [requestBurst, State.setPort])]
    have : s.port.waiting.set cl none = s.port.waiting := by
      conv_rhs => rw [← set_get_self s.port.waiting cl]
      rw [hn cl]
    simp only [requestBurst, State.setPort, hp, set_set_self, Option.isSome_none, Bool.false_eq_true, if_false, this]

end Sys2Proof.Machine
end

