-- ==== Sys2Proof/Laws/Service.lean ====
section
/-! SUPPORT. The service of a request from the queue's head to its reply: which request a row serves, what its claims
come to, how a service without pins ends, and what a violation notice that does not bar does. -/

namespace Sys2Proof.Machine

/-- The state in which the head request's service begins. -/
abbrev State.serving (s : State) (q : Request) (rest : List Request) : State :=
  { s with rq := rest, server := some (InService.begin q) }

@[simp] theorem State.serving_wt (s : State) (q : Request) (rest : List Request) : (s.serving q rest).wt = s.wt := rfl
@[simp] theorem State.serving_pm (s : State) (q : Request) (rest : List Request) : (s.serving q rest).pm = s.pm := rfl
@[simp] theorem State.serving_port (s : State) (q : Request) (rest : List Request) : (s.serving q rest).port = s.port := rfl
@[simp] theorem State.serving_mem (s : State) (q : Request) (rest : List Request) : (s.serving q rest).mem = s.mem := rfl
@[simp] theorem State.serving_ecc (s : State) (q : Request) (rest : List Request) : (s.serving q rest).ecc = s.ecc := rfl
@[simp] theorem State.serving_su (s : State) (q : Request) (rest : List Request) : (s.serving q rest).su = s.su := rfl
@[simp] theorem State.serving_chans (s : State) (q : Request) (rest : List Request) : (s.serving q rest).chans = s.chans := rfl
@[simp] theorem State.serving_engine (s : State) (q : Request) (rest : List Request) : (s.serving q rest).engine = s.engine := rfl
@[simp] theorem State.serving_attn (s : State) (q : Request) (rest : List Request) : (s.serving q rest).attn = s.attn := rfl
@[simp] theorem State.serving_linkOut (s : State) (q : Request) (rest : List Request) : (s.serving q rest).linkOut = s.linkOut := rfl
@[simp] theorem State.serving_busRead (s : State) (q : Request) (rest : List Request) : (s.serving q rest).busRead = s.busRead := rfl
@[simp] theorem State.serving_lines (s : State) (q : Request) (rest : List Request) : (s.serving q rest).lines = s.lines := rfl
@[simp] theorem State.serving_now (s : State) (q : Request) (rest : List Request) : (s.serving q rest).now = s.now := rfl
@[simp] theorem State.serving_cuts (s : State) (q : Request) (rest : List Request) : (s.serving q rest).cuts = s.cuts := rfl
@[simp] theorem State.serving_pending (s : State) (q : Request) (rest : List Request) : (s.serving q rest).pending = s.pending := rfl
@[simp] theorem State.serving_rq (s : State) (q : Request) (rest : List Request) : (s.serving q rest).rq = rest := rfl
@[simp] theorem State.serving_server (s : State) (q : Request) (rest : List Request) :
    (s.serving q rest).server = some (InService.begin q) := rfl

/-- The head request's service at a stage. -/
abbrev State.servingAt (s : State) (q : Request) (rest : List Request) (g : Stage) : State :=
  { s with rq := rest, server := some { InService.begin q with stage := g } }

/-! ### Which request a row serves -/

/-- The head request is taken into service. -/
theorem inHand_atHead {s : State} {q : Request} {rest : List Request} (hq : AtHead s q rest) :
    inHand s = some (q, s.serving q rest) := by
  unfold inHand; rw [hq.1, hq.2]; rfl

/-- The request in service is gone on with. -/
theorem inHand_inService {s : State} {r : InService} (h : s.server = some r) (hg : r.stage ≠ .bursts) :
    inHand s = some (r.request, s) := by
  unfold inHand; simp only [h, if_neg hg]

/-- Claims are carried out on the request in hand, and the step settles. -/
theorem serveRow_of {s t : State} {q : Request} {kind : Request → Option (Stage → State → State)}
    {claim : Stage → State → State} {claims : Option Nat} (h : inHand s = some (q, t)) (hk : kind q = some claim) :
    serveRow kind claims s = settle (carryOn claim (claims.getD serviceBound) t) := by
  unfold serveRow; rw [h]; simp only [hk]

/-- Claims are carried out, and nothing is left to settle. -/
theorem serveRow_settled {s t u : State} {q : Request} {kind : Request → Option (Stage → State → State)}
    {claim : Stage → State → State} {claims : Option Nat} (hs : Settled s) (h : inHand s = some (q, t))
    (hk : kind q = some claim) (hu : carryOn claim (claims.getD serviceBound) t = u) (hc : u.chans = s.chans)
    (hp : u.port = s.port) : serveRow kind claims s = u := by
  rw [serveRow_of h hk, hu, settle_of_same hs hc hp]

/-- The whole service of the head request, where nothing is left to settle. -/
theorem serveRow_whole {s u : State} {q : Request} {rest : List Request}
    {kind : Request → Option (Stage → State → State)} {claim : Stage → State → State} (hs : Settled s)
    (hq : AtHead s q rest) (hk : kind q = some claim) (hu : carryOn claim serviceBound (s.serving q rest) = u)
    (hc : u.chans = s.chans) (hp : u.port = s.port) : serveRow kind none s = u :=
  serveRow_settled hs (inHand_atHead hq) hk hu hc hp

/-! ### Claim by claim -/

/-- A server that is IDLE again has no further claim. -/
theorem carryOn_idle {claim : Stage → State → State} {s : State} (h : s.server = none) : ∀ n, carryOn claim n s = s
  | 0 => rfl
  | n + 1 => by unfold carryOn; rw [h]

/-- A service whose burst is out has no further claim. -/
theorem carryOn_bursts {claim : Stage → State → State} {s : State} {r : InService} (h : s.server = some r)
    (hg : r.stage = .bursts) : ∀ n, carryOn claim n s = s
  | 0 => rfl
  | n + 1 => by unfold carryOn; rw [h]; simp only [hg]

/-- A service that has reached its result ends. -/
theorem carryOn_ending {claim : Stage → State → State} {s : State} {r : InService} {code : Code} {payload : List Byte}
    (h : s.server = some r) (hg : r.stage = .ending code payload) (n : Nat) :
    carryOn claim (n + 1) s = endService code payload s := by
  unfold carryOn; rw [h]; simp only [hg]

/-- Another service takes the claim of its stage. -/
theorem carryOn_claim {claim : Stage → State → State} {s : State} {r : InService} (h : s.server = some r)
    (hb : r.stage ≠ .bursts) (he : ∀ code payload, r.stage ≠ .ending code payload) (n : Nat) :
    carryOn claim (n + 1) s = carryOn claim n (claim r.stage s) := by
  conv_lhs => unfold carryOn
  rw [h]; dsimp only
  split
  · rename_i e; exact absurd e hb
  · rename_i c p e; exact absurd e (he c p)
  · rfl

/-- The first claim of the head request's service. -/
theorem carryOn_serving {claim : Stage → State → State} (s : State) (q : Request) (rest : List Request) (n : Nat) :
    carryOn claim (n + 1) (s.serving q rest) = carryOn claim n (claim .begun (s.serving q rest)) :=
  carryOn_claim (s := s.serving q rest) (r := InService.begin q) rfl (by simp [InService.begin])
    (by simp [InService.begin]) n

/-- The claim after the checks. -/
theorem carryOn_checked {claim : Stage → State → State} (s : State) (q : Request) (rest : List Request) (n : Nat) :
    carryOn claim (n + 1) (s.servingAt q rest .checked) = carryOn claim n (claim .checked (s.servingAt q rest .checked)) :=
  carryOn_claim (s := s.servingAt q rest .checked) (r := { InService.begin q with stage := .checked }) rfl (by simp)
    (by simp) n

/-! ### Reaching a result -/

/-- The result is noted in the in-service record. -/
theorem reach_of {s : State} {r : InService} {code : Code} {payload : List Byte} (h : s.server = some r) :
    reach code payload s = { s with server := some { r with stage := .ending code payload } } := by
  unfold reach toStage State.setServer; rw [h]; rfl

/-- A stage is noted in the in-service record. -/
theorem toStage_of {s : State} {r : InService} {g : Stage} (h : s.server = some r) :
    toStage g s = { s with server := some { r with stage := g } } := by
  unfold toStage State.setServer; rw [h]; rfl

/-- The end of a service does not look at its stage. -/
theorem endService_toStage (code : Code) (payload : List Byte) (g : Stage) (s : State) :
    endService code payload (toStage g s) = endService code payload s := by
  have up (r : InService) (x : Option InService) (t : State) :
      (giveUpLock r code (t.setServer x)).setServer none = (giveUpLock r code t).setServer none := by
    unfold giveUpLock; split
    · cases r.resolved <;> rfl
    · rfl
  cases h : s.server with
  | none =>
    have e : toStage g s = s := by
      unfold toStage; rw [h, Option.map_none, ← h]; rfl
    rw [e]
  | some r =>
    have e : (toStage g s).server = some { r with stage := g } := by rw [toStage_of h]
    unfold endService; rw [e, h]
    have := up r (some { r with stage := g }) s
    simp only [State.setServer] at this ⊢
    rw [toStage_of h, ← this]; rfl

/-- A service that reaches its result ends in its next claim. -/
theorem carryOn_reach {claim : Stage → State → State} {s : State} (h : s.server.isSome) (code : Code)
    (payload : List Byte) (n : Nat) :
    carryOn claim (n + 1) (reach code payload s) = endService code payload s := by
  obtain ⟨r, hr⟩ := Option.isSome_iff_exists.1 h
  rw [carryOn_ending (s := reach code payload s) (r := { r with stage := .ending code payload })
    (by rw [reach_of hr]) rfl, reach, endService_toStage]

/-! ### The end of a service -/

/-- The end of a service that holds no pin, no answers and no interlock, under SEND. -/
theorem endService_plain {t : State} {r : InService} {code : Code} {payload : List Byte} (h : t.server = some r)
    (hp : r.pins = []) (hd : r.disposition = .send) (hh : r.held = []) (hdet : r.detached = false)
    (hl : r.lockTaken = false) :
    endService code payload t =
      State.updSlot
        (if code = .ok ∧ r.request.body.isQuery = false then
          cleanCompletion r.request.slot (sendReply r.request.slot r.request.tag code payload (t.setServer none))
        else sendReply r.request.slot r.request.tag code payload (t.setServer none)) r.request.slot
        fun q => { q with outstanding := q.outstanding - 1 } := by
  simp [endService, h, hp, hd, hh, hdet, hl, removePins, sendAnswers, giveUpLock, leaveService, disposeReply]

/-- The end of the head request's service with OK, the slot being credited. -/
theorem endService_ok {t : State} {q : Request} {payload : List Byte} (hb : q.body.isQuery = false)
    (ht : t.server = some (InService.begin q)) :
    endService .ok payload t =
      { t with server := none
               su := t.su.set q.slot { t.su[q.slot].credited with outstanding := t.su[q.slot].outstanding - 1 }
               linkOut := t.linkOut ++ [.reply ⟨q.slot, q.tag, .ok, payload⟩] } := by
  rw [endService_plain ht rfl rfl rfl rfl rfl, if_pos ⟨rfl, hb⟩]
  simp only [InService.begin, sendReply, cleanCompletion, State.send, State.updSlot, State.setServer, Requester.withScore,
    scoreDown, Requester.credited, get_set_self, set_set_self]
  rfl

/-- The end of the head request's service with a code that credits nobody. -/
theorem endService_uncredited {t : State} {q : Request} {code : Code} {payload : List Byte}
    (hb : code ≠ .ok ∨ q.body.isQuery = true) (ht : t.server = some (InService.begin q)) :
    endService code payload t =
      { t with server := none
               su := t.su.set q.slot { t.su[q.slot] with outstanding := t.su[q.slot].outstanding - 1 }
               linkOut := t.linkOut ++ [.reply ⟨q.slot, q.tag, code, payload⟩] } := by
  rw [endService_plain ht rfl rfl rfl rfl rfl, if_neg]
  · rfl
  · rintro ⟨h1, h2⟩
    rcases hb with h | h
    · exact h h1
    · exact absurd (h.symm.trans h2) (by simp)

/-- A violation notice that does not bring its slot to 256 charges the slot and offers the notice, and no more. -/
theorem violation_of_low {s : State} {reason : Code} {slot : Slot} {source : Option Chan} {h : Handle} {offset : Nat}
    {own : Bool} (hs : s.su[slot].score ≤ 247) :
    violation reason slot source h offset own s = s.charged reason slot source h offset := by
  have hst : s.su[slot].charged.standing ≠ .barred := by
    simp only [Requester.charged, standingOf]; repeat' split
    all_goals first | (exfalso; omega) | simp
  have hc : chargeScore slot (offerFault reason slot source h offset s) = s.charged reason slot source h offset := by
    have e : (offerFault reason slot source h offset s).su = s.su := by
      unfold offerFault; split <;> rfl
    unfold chargeScore
    simp only [e, Requester.withScore, scoreUp, State.charged, Requester.charged]
    unfold offerFault Attention.notified
    split <;> split <;> simp_all [State.updSlot, State.setAttn, raiseStanding, Attention.raise, causeBit]
  unfold violation
  rw [hc]
  rw [if_neg]
  rintro ⟨h1, _⟩
  simp [State.charged] at h1
  exact hst h1

/-- A violation that does not bar its slot is charged, and the code is the service's result. -/
theorem failRequest_violation {t : State} {r : InService} {code : Code} {h : Handle} {offset : Nat}
    (hv : code.isViolation = true) (ht : t.server = some r) (hs : t.su[r.request.slot].score ≤ 247) :
    failRequest code h offset t = reach code [] (t.charged code r.request.slot none h offset) := by
  unfold failRequest; rw [ht]; simp only [hv, if_true]; rw [violation_of_low hs]

/-- A neutral code is the service's result. -/
theorem failRequest_neutral {t : State} {r : InService} {code : Code} {h : Handle} {offset : Nat}
    (hv : code.isViolation = false) (ht : t.server = some r) : failRequest code h offset t = reach code [] t := by
  unfold failRequest; rw [ht]; simp [hv]

/-- The head request of an otherwise idle server is answered with a code that credits nobody. -/
theorem endService_serving {s : State} {q : Request} {rest : List Request} {code : Code} {payload : List Byte}
    (hq : AtHead s q rest) (hb : code ≠ .ok ∨ q.body.isQuery = true) (g : Stage) :
    endService code payload (s.servingAt q rest g) = s.answered q rest code payload := by
  rw [show s.servingAt q rest g = toStage g (s.serving q rest) from rfl, endService_toStage, endService_uncredited hb rfl]
  apply State.ext <;> first | rfl | exact hq.1.symm

/-- The head request of an otherwise idle server is answered OK and credited. -/
theorem endService_ok_serving {s : State} {q : Request} {rest : List Request} {payload : List Byte}
    (hq : AtHead s q rest) (hb : q.body.isQuery = false) (g : Stage) :
    endService .ok payload (s.servingAt q rest g) = (s.credited q.slot).answered q rest .ok payload := by
  rw [show s.servingAt q rest g = toStage g (s.serving q rest) from rfl, endService_toStage, endService_ok hb rfl]
  apply State.ext <;> first | rfl | exact hq.1.symm | skip
  simp only [State.answered, State.credited, get_set_self, set_set_self]; rfl

/-- The head request reaches a code that credits nobody, and its service ends. -/
theorem carryOn_reach_serving {claim : Stage → State → State} {s : State} {q : Request} {rest : List Request}
    {code : Code} {payload : List Byte} (hq : AtHead s q rest) (hb : code ≠ .ok ∨ q.body.isQuery = true) (g : Stage)
    (n : Nat) : carryOn claim (n + 1) (reach code payload (s.servingAt q rest g)) = s.answered q rest code payload := by
  rw [carryOn_reach rfl, endService_serving hq hb]

/-- The head request reaches OK, and its service ends. -/
theorem carryOn_reach_ok_serving {claim : Stage → State → State} {s : State} {q : Request} {rest : List Request}
    {payload : List Byte} (hq : AtHead s q rest) (hb : q.body.isQuery = false) (g : Stage) (n : Nat) :
    carryOn claim (n + 1) (reach .ok payload (s.servingAt q rest g)) =
      (s.credited q.slot).answered q rest .ok payload := by
  rw [carryOn_reach rfl, endService_ok_serving hq hb]

/-- The head request fails with a neutral code, and its service ends. -/
theorem failRequest_serving_neutral {claim : Stage → State → State} {s : State} {q : Request} {rest : List Request}
    {code : Code} {h : Handle} {offset : Nat} (hq : AtHead s q rest) (hv : code.isViolation = false) (hc : code ≠ .ok)
    (g : Stage) (n : Nat) :
    carryOn claim (n + 1) (failRequest code h offset (s.servingAt q rest g)) = s.answered q rest code [] := by
  rw [failRequest_neutral (t := s.servingAt q rest g) hv rfl, carryOn_reach_serving hq (.inl hc)]

/-- The head request fails with a violation that does not bar its slot, and its service ends. -/
theorem failRequest_serving_violation {claim : Stage → State → State} {s : State} {q : Request} {rest : List Request}
    {code : Code} {h : Handle} {offset : Nat} (hq : AtHead s q rest) (hv : code.isViolation = true)
    (hs : s.su[q.slot].score ≤ 247) (g : Stage) (n : Nat) :
    carryOn claim (n + 1) (failRequest code h offset (s.servingAt q rest g)) =
      (s.charged code q.slot none h offset).answered q rest code [] := by
  have hc : code ≠ .ok := by rintro rfl; simp [Code.isViolation] at hv
  rw [failRequest_violation (t := s.servingAt q rest g) (r := { InService.begin q with stage := g }) hv rfl hs]
  exact carryOn_reach_serving (s := s.charged code q.slot none h offset) hq (.inl hc) g n

/-- A failing verdict leaves the channels and the port as they are. -/
theorem State.failing_frame (s : State) (code : Code) (touched : Option DIdx) (slot : Slot) (source : Option Chan)
    (h : Handle) (offset : Nat) :
    (s.failing code touched slot source h offset).chans = s.chans ∧
      (s.failing code touched slot source h offset).port = s.port ∧
      (s.failing code touched slot source h offset).wt = s.wt ∧
      (s.failing code touched slot source h offset).server = s.server := by
  unfold State.failing; dsimp only; split <;> exact ⟨rfl, rfl, rfl, rfl⟩

/-- The head request fails a resolution, and its service ends. -/
theorem failRequest_serving {claim : Stage → State → State} {s : State} {q : Request} {rest : List Request} {code : Code}
    {touched : Option DIdx} {h : Handle} {offset : Nat} (hq : AtHead s q rest) (hc : code ≠ .ok)
    (hs : s.su[q.slot].score ≤ 247) (g : Stage) (n : Nat) :
    carryOn claim (n + 1) (failRequest code h offset (touchAbsent touched (s.servingAt q rest g))) =
      (s.failing code touched q.slot none h offset).answered q rest code [] := by
  let u : State := { s with attn := touched.elim s.attn fun i =>
    { s.attn with pending := s.attn.pending ||| 0x040, absentLatch := i } }
  have e : touchAbsent touched (s.servingAt q rest g) = u.servingAt q rest g := by cases touched <;> rfl
  have hu : AtHead u q rest := hq
  rw [e]
  by_cases hv : code.isViolation = true
  · rw [failRequest_serving_violation hu hv hs g n]; unfold State.failing; rw [if_pos hv]
  · rw [failRequest_serving_neutral hu (eq_false_of_ne_true hv) hc g n]; unfold State.failing; rw [if_neg hv]

end Sys2Proof.Machine
end

