-- ==== Sys2Proof/Laws/Access.lean ====
section
/-! SUPPORT. A direct access between its resolution and its reply: what a passing resolution notes, how the first burst is
requested, and how a service that holds pins ends. -/

namespace Sys2Proof.Machine

/-- The head request has passed its resolution: its pins are placed, the window is kept. -/
abbrev State.resolvedAt (s : State) (q : Request) (rest : List Request) (w : Resolved) (g : Stage) : State :=
  { s with
    rq := rest
    server := some { InService.begin q with stage := g, resolved := some w, pins := w.pinned }
    wt := withPins s.wt w.pinned }

theorem noteResolved_serving (s : State) (q : Request) (rest : List Request) (w : Resolved) (g : Stage) :
    noteResolved w (s.servingAt q rest g) = s.resolvedAt q rest w g := by
  unfold noteResolved; rw [placePins_eq]; rfl

/-- Resolution passes: the window is noted and the claim goes on. -/
theorem resolveThen_ok {s : State} {q : Request} {rest : List Request} {g : Stage} {slot : Slot} {h : Handle}
    {offset n : Nat} {needed : Rights} {go : State → State} {w : Resolved}
    (hr : resolve s slot h offset n needed false false = .ok w) :
    resolveThen slot h offset n needed go (s.servingAt q rest g) = go (s.resolvedAt q rest w g) := by
  unfold resolveThen
  have : resolve (s.servingAt q rest g) slot h offset n needed false false = .ok w := hr
  rw [this, ← noteResolved_serving]

/-- Resolution fails. -/
theorem resolveThen_error {s : State} {q : Request} {rest : List Request} {g : Stage} {slot : Slot} {h : Handle}
    {offset n : Nat} {needed : Rights} {go : State → State} {code : Code} {touched : Option DIdx}
    (hr : resolve s slot h offset n needed false false = .error (code, touched)) :
    resolveThen slot h offset n needed go (s.servingAt q rest g) =
      failRequest code h offset (touchAbsent touched (s.servingAt q rest g)) := by
  unfold resolveThen
  have : resolve (s.servingAt q rest g) slot h offset n needed false false = .error (code, touched) := hr
  rw [this]

/-- The first two claims of a direct access whose fields and standing pass: it goes on with its resolution. -/
theorem carryOn_accessChecks {s : State} {q : Request} {rest : List Request} {slot : Slot} {h : Handle} {offset len : Nat}
    {limited resolution translation : State → State} (hf : accessFieldsOk offset len = true)
    (hl : s.su[slot].standing ≠ .limited ∨ limited = toStage .checked) (n : Nat) :
    carryOn (accessClaims (accessChecks slot h offset len limited) resolution translation) (n + 2) (s.serving q rest) =
      carryOn (accessClaims (accessChecks slot h offset len limited) resolution translation) n
        (resolution (s.servingAt q rest .checked)) := by
  rw [carryOn_serving]
  have : accessClaims (accessChecks slot h offset len limited) resolution translation .begun (s.serving q rest) =
      s.servingAt q rest .checked := by
    simp only [accessClaims, accessChecks, hf, Bool.not_true, Bool.false_eq_true, if_false]
    rcases hl with h | h
    · rw [if_neg (show (s.serving q rest).su[slot].standing ≠ .limited from h)]; rfl
    · rw [h]; split <;> rfl
  rw [this, carryOn_checked]; rfl

/-- The claim of a translation that is next. -/
theorem carryOn_translation {checks resolution translation : State → State} {t : State} {r : InService}
    (hr : t.server = some r) (hg : r.stage = .translation) (n : Nat) :
    carryOn (accessClaims checks resolution translation) (n + 1) t =
      carryOn (accessClaims checks resolution translation) n (translation t) := by
  rw [carryOn_claim hr (by simp [hg]) (by simp [hg]), hg]; rfl

/-- A translation passes: the first burst is requested, the rest noted. -/
theorem translateAndBurst_ok {t : State} {w : Resolved} {f : List (Nat × Nat) → List Burst} {pieces : List (Nat × Nat)}
    {first : Burst} {more : List Burst} {r : InService} (ht : translate t w.base w.baseOffset w.length = .ok pieces)
    (hf : f pieces = first :: more) (hr : t.server = some r) (hw : r.resolved = some w) :
    translateAndBurst f t =
      requestBurst Claimant.rs first (t.setServer (some { r with stage := .bursts, rest := more })) := by
  unfold translateAndBurst; rw [hr]; simp only [Option.bind_some, hw, ht, hf, serverBursts, hr]

/-- A translation that passes ends the row with the first burst requested at a settled port. -/
theorem settle_translateAndBurst {s t : State} {w : Resolved} {f : List (Nat × Nat) → List Burst}
    {claim : Stage → State → State} {pieces : List (Nat × Nat)} {first : Burst} {more : List Burst} {r : InService}
    (hs : Settled s) (hc : t.chans = s.chans) (hp : t.port = s.port) (hr : t.server = some r) (hw : r.resolved = some w)
    (ht : Machine.translate t w.base w.baseOffset w.length = .ok pieces) (hf : f pieces = first :: more) (n : Nat) :
    settle (carryOn claim n (translateAndBurst f t)) =
      { t with server := some { r with stage := .bursts, rest := more }, port := s.port.requested Claimant.rs first } := by
  rw [translateAndBurst_ok ht hf hr hw]
  rw [carryOn_bursts (r := { r with stage := .bursts, rest := more }) rfl rfl]
  exact settle_request (t := t.setServer (some { r with stage := .bursts, rest := more })) hs
    ((readyChannel_congr hc).trans hs.1) hp _ _

/-- A translation meets a hole. -/
theorem translateAndBurst_hole {t : State} {w : Resolved} {f : List (Nat × Nat) → List Burst} {entry : Nat}
    {r : InService} (hr : t.server = some r) (hw : r.resolved = some w)
    (ht : translate t w.base w.baseOffset w.length = .error entry) :
    translateAndBurst f t = reach .mapHole [] (raiseMapHole entry t) := by
  unfold translateAndBurst; rw [hr]; simp only [Option.bind_some, hw, ht]

/-- The end under SEND of a service whose pins are all on descriptors that are not RETIRING, with a code that credits nobody. -/
theorem endService_pins {t : State} {r : InService} {code : Code} (hc : code ≠ .ok) (hs : t.server = some r)
    (hd : r.disposition = .send) (hh : r.held = []) (hdet : r.detached = false) (hl : r.lockTaken = false)
    (hp : ∀ i ∈ r.pins, t.wt[i].state ≠ .retiring) :
    endService code [] t =
      { t with
        server := none
        wt := withoutPins t.wt r.pins
        su := t.su.set r.request.slot { t.su[r.request.slot] with
          outstanding := t.su[r.request.slot].outstanding - 1 }
        linkOut := t.linkOut ++ [.reply ⟨r.request.slot, r.request.tag, code, []⟩] } := by
  have hg : giveUpLock r code t = t := by unfold giveUpLock; simp [hl]
  unfold endService; rw [hs]; dsimp only
  rw [hg, removePins_of (s := t.setServer none) hp]
  simp only [disposeReply, hd, hh, hdet, leaveService, sendAnswers, List.foldl_nil, Bool.false_eq_true, if_false]
  rw [if_neg (fun h => hc h.1)]
  rfl

/-- An interlock that a READ_LOCK took is given up first, where it ends with a code other than OK. -/
theorem endService_locked {t : State} {r : InService} {w : Resolved} {code : Code} (hc : code ≠ .ok)
    (hs : t.server = some r) (hl : r.lockTaken = true) (hw : r.resolved = some w) :
    endService code [] t = endService code [] ((t.setServer (some { r with lockTaken := false })).updDesc w.index
      (·.releaseIfHolder r.request.slot)) := by
  have hg : giveUpLock r code t = t.updDesc w.index (·.releaseIfHolder r.request.slot) := by
    unfold giveUpLock; rw [if_pos ⟨hl, .inl hc⟩, hw]; rfl
  have e : giveUpLock { r with lockTaken := false } code ((t.setServer (some { r with lockTaken := false })).updDesc w.index
      (·.releaseIfHolder r.request.slot)) = _ := if_neg (by simp)
  conv_rhs => unfold endService
  unfold endService; rw [hs]; dsimp only [State.updDesc, State.setServer] at e ⊢
  rw [e, hg]; rfl

/-- The end of the head request after its resolution has passed: its pins are gone again. -/
theorem endService_resolved {s t : State} {q : Request} {rest : List Request} {w : Resolved} {code : Code} {g : Stage}
    (hq : AtHead s q rest) (hc : code ≠ .ok) (hv : ∀ i ∈ w.pinned, s.wt[i].state = .valid)
    (ht : t = { s.resolvedAt q rest w g with attn := t.attn, su := t.su }) :
    endService code [] t = State.answered { s with attn := t.attn, su := t.su } q rest code [] := by
  have hw : t.wt = withPins s.wt w.pinned := by rw [ht]
  have hs : t.server = some { InService.begin q with stage := g, resolved := some w, pins := w.pinned } := by rw [ht]
  have hp : ∀ i ∈ w.pinned, t.wt[i].state ≠ .retiring := fun i hi => by
    rw [hw, ((withPins_alike w.pinned s.wt).fields i).1, hv i hi]; simp
  rw [endService_pins (r := { InService.begin q with stage := g, resolved := some w, pins := w.pinned }) hc hs
    rfl rfl rfl rfl hp]
  rw [ht]
  apply State.ext <;> first | rfl | exact hq.1.symm | skip
  exact withoutPins_withPins _ _

end Sys2Proof.Machine
end

