-- ==== Sys2Proof/Laws/Memory.lean ====
section
/-! SUPPORT. The sparse lists: reading after writing, the canonical form that every write keeps, and what a burst that corrects
words raises. -/

namespace Sys2Proof.Machine

variable {α : Type}

/-- Nothing is listed below the lowest key. -/
theorem Sparse.find_of_lt {skip : α → Bool} :
    ∀ {l : List (Nat × α)} {lo k : Nat}, Sparse.wfFrom skip lo l = true → k < lo → Sparse.find l k = none
  | [], _, _, _, _ => rfl
  | (b, x) :: l, lo, k, h, hk => by
    simp only [Sparse.wfFrom, Bool.and_eq_true, decide_eq_true_eq] at h
    have hb : ¬ k = b := by omega
    simp only [Sparse.find, if_neg hb]
    exact Sparse.find_of_lt h.2 (by omega)

/-- A canonical form from a low bound is one from a lower bound. -/
theorem Sparse.wfFrom_mono {skip : α → Bool} : ∀ {l : List (Nat × α)} {lo lo' : Nat},
    Sparse.wfFrom skip lo l = true → lo' ≤ lo → Sparse.wfFrom skip lo' l = true
  | [], _, _, _, _ => rfl
  | (b, x) :: l, lo, lo', h, hl => by
    simp only [Sparse.wfFrom, Bool.and_eq_true, decide_eq_true_eq] at h ⊢
    exact ⟨⟨by omega, h.1.2⟩, h.2⟩

/-- A put keeps the canonical form, if what it puts may be listed. -/
theorem Sparse.wfFrom_put {skip : α → Bool} : ∀ {l : List (Nat × α)} {lo k : Nat} {o : Option α},
    Sparse.wfFrom skip lo l = true → lo ≤ k → (∀ x, o = some x → skip x = false) →
    Sparse.wfFrom skip lo (Sparse.put l k o) = true
  | [], lo, k, none, _, _, _ => rfl
  | [], lo, k, some v, _, hk, ho => by simp [Sparse.put, Sparse.wfFrom, hk, ho v rfl]
  | (b, x) :: l, lo, k, o, h, hk, ho => by
    have h' := h
    simp only [Sparse.wfFrom, Bool.and_eq_true, decide_eq_true_eq, Bool.not_eq_true'] at h'
    simp only [Sparse.put]
    split
    · cases o with
      | none => exact h
      | some v =>
        simp only [Sparse.wfFrom, Bool.and_eq_true, decide_eq_true_eq, Bool.not_eq_true']
        exact ⟨⟨hk, ho v rfl⟩, ⟨by omega, h'.1.2⟩, h'.2⟩
    · split
      · cases o with
        | none => exact Sparse.wfFrom_mono h'.2 (by omega)
        | some v =>
          simp only [Sparse.wfFrom, Bool.and_eq_true, decide_eq_true_eq, Bool.not_eq_true']
          subst_vars
          exact ⟨⟨hk, ho v rfl⟩, h'.2⟩
      · simp only [Sparse.wfFrom, Bool.and_eq_true, decide_eq_true_eq, Bool.not_eq_true']
        exact ⟨h'.1, Sparse.wfFrom_put h'.2 (by omega) ho⟩

/-- Reading after a put where the list is canonical. -/
theorem Sparse.find_put {skip : α → Bool} : ∀ {l : List (Nat × α)} {lo k : Nat} {o : Option α},
    Sparse.wfFrom skip lo l = true → ∀ j, Sparse.find (Sparse.put l k o) j = if j = k then o else Sparse.find l j
  | [], lo, k, none, _, j => by simp [Sparse.put, Sparse.find]
  | [], lo, k, some v, _, j => by simp [Sparse.put, Sparse.find]
  | (b, x) :: l, lo, k, o, h, j => by
    have h' := h
    simp only [Sparse.wfFrom, Bool.and_eq_true, decide_eq_true_eq, Bool.not_eq_true'] at h'
    simp only [Sparse.put]
    split
    · next hkb =>
      cases o with
      | none =>
        by_cases hj : j = k
        · have hn : ¬ j = b := by omega
          simp only [hj, if_true, Sparse.find]
          rw [if_neg (by omega)]
          exact Sparse.find_of_lt h'.2 (by omega)
        · simp [hj]
      | some v => simp [Sparse.find]
    · split
      · next hkb =>
        subst hkb
        cases o with
        | none =>
          by_cases hj : j = k
          · simp only [hj, if_true]; exact Sparse.find_of_lt h'.2 (by omega)
          · simp [hj, Sparse.find]
        | some v => by_cases hj : j = k <;> simp [hj, Sparse.find]
      · next h1 h2 =>
        simp only [Sparse.find]
        by_cases hj : j = b
        · simp [hj]; intro hbk; omega
        · simp only [if_neg hj]; exact Sparse.find_put h'.2 j

/-- A write of one byte keeps the canonical form. -/
theorem Memory.wf_write {m : List Host.Cell} (h : Memory.wf m = true) (a : Nat) (v : Byte) :
    Memory.wf (Memory.write m a v) = true := by
  apply Sparse.wfFrom_put h (Nat.zero_le a)
  intro x hx
  split at hx
  · exact absurd hx (by simp)
  · next hv => cases hx; simp [hv]

/-- Reading after a write of one byte. -/
theorem Memory.read_write {m : List Host.Cell} (h : Memory.wf m = true) (a : Nat) (v : Byte) (x : Nat) :
    Memory.read (Memory.write m a v) x = if x = a then v else Memory.read m x := by
  unfold Memory.read Memory.write
  rw [Sparse.find_put h]
  by_cases hx : x = a
  · simp only [hx, if_true]; split
    · next hv => simp [hv]
    · rfl
  · simp [hx]

/-- Writing bytes keeps the canonical form. -/
theorem Memory.wf_writeAll : ∀ (bytes : List Byte) {m : List Host.Cell} (a : Nat),
    Memory.wf m = true → Memory.wf (Memory.writeAll m a bytes) = true
  | [], _, _, h => h
  | v :: vs, _, a, h => Memory.wf_writeAll vs (a + 1) (Memory.wf_write h a v)

/-- Reading after writing bytes at consecutive addresses. -/
theorem Memory.read_writeAll : ∀ (bytes : List Byte) {m : List Host.Cell} (a x : Nat), Memory.wf m = true →
    Memory.read (Memory.writeAll m a bytes) x =
      if a ≤ x ∧ x < a + bytes.length then bytes.getD (x - a) 0 else Memory.read m x
  | [], _, a, x, _ => by
    rw [if_neg (by simp only [List.length_nil]; omega)]; rfl
  | v :: vs, _, a, x, h => by
    simp only [Memory.writeAll]
    rw [Memory.read_writeAll vs (a + 1) x (Memory.wf_write h a v), Memory.read_write h]
    simp only [List.length_cons]
    by_cases h1 : a + 1 ≤ x ∧ x < a + 1 + vs.length
    · rw [if_pos h1, if_pos (by omega)]
      obtain ⟨k, rfl⟩ : ∃ k, x = a + 1 + k := ⟨x - (a + 1), by omega⟩
      rw [show a + 1 + k - (a + 1) = k by omega, show a + 1 + k - a = k + 1 by omega, List.getD_cons_succ]
    · rw [if_neg h1]
      by_cases h2 : x = a
      · rw [if_pos h2, if_pos (by omega), h2, Nat.sub_self]; rfl
      · rw [if_neg h2, if_neg (by omega)]

/-- A put keeps the canonical form of the list of words in error. -/
theorem Ecc.wf_put {e : List (Nat × WordErr)} (h : Ecc.wf e = true) (w : Nat) (o : Option WordErr) :
    Ecc.wf (Sparse.put e w o) = true := Sparse.wfFrom_put h (Nat.zero_le w) fun _ _ => rfl

/-- What is wrong with a word after a put. -/
theorem Ecc.find_put {e : List (Nat × WordErr)} (h : Ecc.wf e = true) (w : Nat) (o : Option WordErr) (j : Nat) :
    Sparse.find (Sparse.put e w o) j = if j = w then o else Sparse.find e j := Sparse.find_put h j

/-- A burst that corrects no word it reads raises nothing (R72). -/
theorem noteCorrected_of_none : ∀ {ws : List Nat} {s : State},
    (∀ w ∈ ws, Sparse.find s.ecc w = none ∨ Sparse.find s.ecc w = some .multi) → noteCorrected s ws = s
  | [], _, _ => rfl
  | w :: ws, s, h => by
    have rest : noteCorrected s ws = s := noteCorrected_of_none fun x hx => h x (List.mem_cons_of_mem w hx)
    unfold noteCorrected
    rw [List.foldl_cons]
    rcases h w List.mem_cons_self with e | e <;> simp only [e] <;> exact rest

/-- A burst within a frame that corrects some word it reads raises MEM_CORRECTED with the frame (R72). -/
theorem noteCorrected_of_some (f : Nat) : ∀ {ws : List Nat} {s : State}, (∀ w ∈ ws, w / 512 = f) →
    (∃ w ∈ ws, Sparse.find s.ecc w ≠ none ∧ Sparse.find s.ecc w ≠ some .multi) → noteCorrected s ws = raiseMemCorrected f s
  | [], _, _, ⟨_, h, _⟩ => absurd h List.not_mem_nil
  | w :: ws, s, hf, ⟨x, hx, h⟩ => by
    have hf' : ∀ y ∈ ws, y / 512 = f := fun y hy => hf y (List.mem_cons_of_mem w hy)
    have later : x ∈ ws → noteCorrected s ws = raiseMemCorrected f s := fun hx => noteCorrected_of_some f hf' ⟨x, hx, h⟩
    have twice : raiseMemCorrected f (raiseMemCorrected f s) = raiseMemCorrected f s := by
      simp [raiseMemCorrected, Attention.raise, State.setAttn, State.setPort, BitVec.or_assoc]
    have rest : noteCorrected (raiseMemCorrected f s) ws = raiseMemCorrected f s := by
      by_cases hh : ∃ y ∈ ws, Sparse.find s.ecc y ≠ none ∧ Sparse.find s.ecc y ≠ some .multi
      · exact (noteCorrected_of_some f (s := raiseMemCorrected f s) hf' hh).trans twice
      · refine noteCorrected_of_none fun y hy => ?_
        by_contra hc
        exact hh ⟨y, hy, not_or.1 hc⟩
    have skip : ∀ e, Sparse.find s.ecc w = e → (e = none ∨ e = some .multi) → x ∈ ws := fun e he hn => by
      rcases List.mem_cons.1 hx with rfl | hx
      · rcases hn with rfl | rfl
        · exact absurd he h.1
        · exact absurd he h.2
      · exact hx
    unfold noteCorrected
    rw [List.foldl_cons]
    cases e : Sparse.find s.ecc w with
    | none => exact later (skip _ e (.inl rfl))
    | some v =>
      cases v with
      | multi => exact later (skip _ e (.inr rfl))
      | dataBit b => simp only [hf w List.mem_cons_self]; exact rest
      | checkBit => simp only [hf w List.mem_cons_self]; exact rest

end Sys2Proof.Machine
end

