-- ==== Sys2Proof/Laws/Canonical.lean ====
section
/-! SUPPORT. Every operation over shared DRAM keeps the canonical forms of the memory and of the list of words in error. -/

namespace Sys2Proof.Machine

/-- The reset state's memories are in canonical form. -/
theorem canonical_reset : CanonicalMemory State.reset := ⟨rfl, rfl⟩

/-- Canonical forms depend on the two lists alone. -/
theorem CanonicalMemory.congr {s t : State} (h : CanonicalMemory s) (hm : t.mem = s.mem) (he : t.ecc = s.ecc) :
    CanonicalMemory t := by unfold CanonicalMemory; rw [hm, he]; exact h

/-- Writing a word back as its read corrected it. -/
theorem canonical_healWord {s : State} (h : CanonicalMemory s) (w : Nat) : CanonicalMemory (healWord s w) := by
  have he := Ecc.wf_put h.2 w none
  unfold healWord
  split
  · exact ⟨Memory.wf_write h.1 _ _, he⟩
  · exact ⟨h.1, he⟩

/-- Writing several words back. -/
theorem canonical_healWords {s : State} (h : CanonicalMemory s) (ws : List Nat) :
    CanonicalMemory (ws.foldl healWord s) := by
  induction ws generalizing s with
  | nil => exact h
  | cons w ws ih => exact ih (canonical_healWord h w)

/-- Noting the correctable words leaves the memories as they are. -/
theorem noteCorrected_mem (ws : List Nat) (s : State) :
    (noteCorrected s ws).mem = s.mem ∧ (noteCorrected s ws).ecc = s.ecc := by
  unfold noteCorrected
  induction ws generalizing s with
  | nil => exact ⟨rfl, rfl⟩
  | cons w ws ih =>
    simp only [List.foldl_cons]
    refine ⟨(ih _).1.trans ?_, (ih _).2.trans ?_⟩ <;> (split <;> rfl)

/-- A burst that is carried out. -/
theorem canonical_performBurst {s : State} (h : CanonicalMemory s) (b : Burst) :
    CanonicalMemory (performBurst b s).2.2 := by
  have hn (ws : List Nat) : CanonicalMemory (noteCorrected s ws) :=
    h.congr (noteCorrected_mem ws s).1 (noteCorrected_mem ws s).2
  unfold performBurst
  cases b with
  | read a n =>
    dsimp only
    split
    · split <;> exact hn _
    · exact h
  | write a bytes =>
    dsimp only
    split
    · split
      · exact hn _
      · have hh := canonical_healWords (hn (partialWords a bytes.length)) (wordsOf a bytes.length)
        exact ⟨Memory.wf_writeAll bytes a hh.1, hh.2⟩
    · exact h

/-- A bit error that comes about. -/
theorem canonical_applyUpset {s : State} (h : CanonicalMemory s) (u : Upset) : CanonicalMemory (applyUpset s u) := by
  unfold applyUpset
  split
  · dsimp only
    split <;> first
      | exact ⟨Memory.wf_write h.1 _ _, Ecc.wf_put h.2 _ _⟩
      | exact ⟨h.1, Ecc.wf_put h.2 _ _⟩
  · exact h

/-- A write burst that a device reset cuts, whatever the free values. -/
theorem canonical_cutBurst {s : State} (h : CanonicalMemory s) (b : Burst) : CanonicalMemory (cutBurst b s) := by
  have hm : ∀ (l : List (Byte × Nat)) (m : List Host.Cell), Memory.wf m = true →
      Memory.wf (l.foldl (fun m (v, x) => if Config.cutTakesNew s.cuts x then Memory.write m x v else m) m) = true := by
    intro l
    induction l with
    | nil => exact fun _ h => h
    | cons p l ih =>
      intro m hm
      simp only [List.foldl_cons]
      refine ih _ ?_
      split
      · exact Memory.wf_write hm _ _
      · exact hm
  have he : ∀ (ws : List Nat) (e : List (Nat × WordErr)), Ecc.wf e = true →
      Ecc.wf (ws.foldl (fun e w => Sparse.put e w (Config.cutWordError s.cuts w)) e) = true := by
    intro ws
    induction ws with
    | nil => exact fun _ h => h
    | cons w ws ih => exact fun e he => ih _ (Ecc.wf_put he w _)
  unfold cutBurst
  split
  · exact h
  · split
    · exact ⟨hm _ _ h.1, he _ _ h.2⟩
    · exact h

end Sys2Proof.Machine
end

