-- ==== Sys2Proof/Laws/Ending.lean ====
section
/-! SUPPORT. What the claim that ends a service does, in one equation for every disposition, detached or not, and what the ends
of lists and of a detached request do to an engine that waits for them. -/

namespace Sys2Proof.Machine

/-! ### The engine that waits -/

/-- An engine that waits for a link reset completes when nothing is left to wait for. -/
theorem engineLinkCheck_link {s : State} {e : Engine} {lists : Vector Bool 4} {detached : Bool}
    (he : e.state = .busy (.link lists detached)) :
    engineLinkCheck { s with engine := e } = { s with engine := e.waitsFor lists detached } := by
  unfold engineLinkCheck Engine.waitsFor
  simp only [he]
  have hall : (lists.toList.all (!·)) = true ↔ lists = Vector.replicate 4 false := by
    constructor
    · intro h
      rw [List.all_eq_true] at h
      apply Vector.ext; intro i hi
      simpa using h lists[i] (by rw [Vector.mem_toList_iff]; exact Vector.getElem_mem _)
    · rintro rfl; decide
  by_cases h : lists = Vector.replicate 4 false ∧ detached = false
  · rw [if_pos h, if_pos (by rw [h.2]; simp only [Bool.not_false, Bool.true_and]; exact hall.2 h.1)]; rfl
  · rw [if_neg h, if_neg]
    · rw [← he]
    · intro h'; rw [Bool.and_eq_true] at h'; exact h ⟨hall.1 h'.2, by simpa using h'.1⟩

/-- The end of a detached request reaches the engine. -/
theorem engineOnDetachedEnd_eq (s : State) : engineOnDetachedEnd s = { s with engine := s.engine.detachedEnded } := by
  unfold engineOnDetachedEnd Engine.detachedEnded
  cases he : s.engine.state with
  | idle => rfl
  | busy w =>
    cases w with
    | link lists d => exact engineLinkCheck_link (e := { s.engine with state := .busy (.link lists false) }) rfl
    | claim | retire _ | abort _ => rfl

/-- The end of a list reaches the engine. -/
theorem engineOnListEnd_eq (c : Chan) (s : State) : engineOnListEnd c s = { s with engine := s.engine.listEnded c } := by
  unfold engineOnListEnd Engine.listEnded
  cases he : s.engine.state with
  | idle => rfl
  | busy w =>
    cases w with
    | link lists d => exact engineLinkCheck_link (e := { s.engine with state := .busy (.link (lists.set c false) d) }) rfl
    | abort d =>
      by_cases h : c = d
      · subst h; simp only [if_true]; rfl
      · simp only [if_neg h, if_neg (Ne.symm h)]
    | claim | retire _ => rfl

/-! ### What the parts of the claim do -/

/-- The interlock is given up where it cannot be kept. -/
theorem giveUpLock_eq (r : InService) (code : Code) (s : State) :
    (giveUpLock r code s).setServer none = { s.lockGivenUp r code with server := none } := by
  unfold giveUpLock State.lockGivenUp
  cases r.resolved with
  | none => simp only [Option.elim]; split <;> rfl
  | some w =>
    by_cases h : r.lockTaken = true ∧ (code ≠ .ok ∨ r.disposition ≠ .send)
    · rw [if_pos h]; simp only [Option.elim]
      by_cases h2 : s.wt[w.index].holder = some r.request.slot
      · rw [if_pos ⟨h.1, h.2, h2⟩]; simp only [State.updDesc, Descriptor.releaseIfHolder, h2, if_true]; rfl
      · rw [if_neg (fun a => h2 a.2.2)]
        simp only [State.updDesc, Descriptor.releaseIfHolder, h2, if_false, set_get_self]; rfl
    · rw [if_neg h]; dsimp only; rw [if_neg (fun a => h ⟨a.1, a.2.1⟩)]; rfl

/-- The answers go out in their order. -/
theorem sendAnswers_eq (slot : Slot) : ∀ (answers : List (BitVec 3 × Code)) (s : State), sendAnswers slot answers s =
    { s with linkOut := s.linkOut ++ answers.map fun (tag, code) => .reply ⟨slot, tag, code, []⟩ }
  | [], s => by simp [sendAnswers]
  | x :: answers, s => by
    have := sendAnswers_eq slot answers (sendReply slot x.1 x.2 [] s)
    simp only [sendAnswers, List.foldl_cons] at this ⊢
    rw [this]; simp [sendReply, State.send]

/-- The reply goes out as the disposition says, an OK that is sent being credited. -/
theorem disposeReply_eq (r : InService) (code : Code) (payload : List Byte) (s : State) :
    disposeReply r code payload s = { s with
      su := s.su.set r.request.slot
        (if r.disposition = .send ∧ code = .ok ∧ r.request.body.isQuery = false then s.su[r.request.slot].credited
          else s.su[r.request.slot])
      linkOut := s.linkOut ++ ({ r with held := [] } : InService).replies code payload } := by
  unfold disposeReply InService.replies
  cases hd : r.disposition with
  | send =>
    by_cases h : code = .ok ∧ r.request.body.isQuery = false
    · simp only [if_pos h, true_and]
      simp [sendReply, State.send, cleanCompletion, State.updSlot, Requester.withScore, scoreDown, Requester.credited]
      rfl
    · simp only [if_neg h, true_and, set_get_self]
      simp [sendReply, State.send]
  | discard | disabled | barred => simp [sendReply, State.send]

/-- A pin that falls touches the table, the attentions and an engine that waits for the entry into FREE, and no more. -/
theorem removePin_frame (i : DIdx) (s : State) : removePin i s =
    { s with wt := (removePin i s).wt, attn := (removePin i s).attn, engine := (removePin i s).engine } := by
  unfold removePin; dsimp only; split
  · unfold enterFree engineOnFree raiseRetireDone; dsimp only; split
    · split <;> rfl
    · rfl
  · rfl

/-- Pins that fall touch the table, the attentions and an engine that waits for an entry into FREE, and no more. -/
theorem removePins_frame : ∀ (is : List DIdx) (s : State), removePins is s =
    { s with wt := (removePins is s).wt, attn := (removePins is s).attn, engine := (removePins is s).engine }
  | [], _ => rfl
  | i :: is, s => by
    have h := removePins_frame is (removePin i s)
    simp only [removePins, List.foldl_cons] at h ⊢
    rw [removePin_frame i s] at h ⊢
    exact h

/-! ### The end of a service -/

/-- The end of the service in progress. -/
theorem endService_eq {s : State} {r : InService} (code : Code) (payload : List Byte) (h : s.server = some r) :
    endService code payload s = (s.lockGivenUp r code).ended r code payload := by
  unfold endService; rw [h]; dsimp only
  rw [giveUpLock_eq, disposeReply_eq, sendAnswers_eq]
  unfold State.ended
  dsimp only
  rw [removePins_frame]
  unfold leaveService InService.leaves
  cases hd : r.detached with
  | true =>
    simp only [if_true]
    rw [engineOnDetachedEnd_eq]
    simp [InService.replies]
  | false =>
    simp only [Bool.false_eq_true, if_false, State.updSlot, get_set_self, set_set_self]
    simp [InService.replies]

end Sys2Proof.Machine
end

