-- ==== Sys2Proof/Laws/Engine.lean ====
section
/-! SUPPORT. The Command Engine: what a written command word does in each of the engine's conditions, and how a command that
completes at once leaves the state. -/

namespace Sys2Proof.Machine

/-- The state in which a command's claim begins. -/
abbrev State.commanded (s : State) (code : Byte) : State :=
  { s with engine := { s.engine with state := .busy .claim, command := code, copies := s.engine.params } }

/-- The RESET pin holds the window. -/
theorem takeCommand_reset {s : State} {code : Byte} {body : Vector Word 4 → State → State} (h : s.lines.reset = true) :
    takeCommand code body s = s := by simp [takeCommand, h]

/-- A BUSY engine drops the word. -/
theorem takeCommand_busy {s : State} {code : Byte} {body : Vector Word 4 → State → State} {w : Wait}
    (h : s.lines.reset = false) (hb : s.engine.state = .busy w) :
    takeCommand code body s = { s with engine := { s.engine with overrun := true } } := by
  simp only [takeCommand, h, hb, Bool.false_eq_true, if_false]; rfl

/-- An IDLE engine takes the word. -/
theorem takeCommand_idle {s : State} {code : Byte} {body : Vector Word 4 → State → State} (h : EngineReady s) :
    takeCommand code body s = settle (body s.engine.params (s.commanded code)) := by
  simp only [takeCommand, h.1, h.2, Bool.false_eq_true, if_false]; rfl

/-- An IDLE engine takes the word, and nothing is left to settle. -/
theorem takeCommand_settled {s t : State} {code : Byte} {body : Vector Word 4 → State → State} (h : EngineReady s)
    (hs : Settled s) (ht : body s.engine.params (s.commanded code) = t) (hc : t.chans = s.chans)
    (hp : t.port = s.port) : takeCommand code body s = t := by
  rw [takeCommand_idle h, ht, settle_of_same hs hc hp]

/-- A command that completes with results. -/
theorem complete_ok (s : State) (code : Byte) (results : Results) :
    complete .ok results (s.commanded code) = s.engineAnswers code .ok results := rfl

/-- A command that completes with OK and zeros. -/
theorem completeOk_commanded (s : State) (code : Byte) :
    completeOk (s.commanded code) = s.engineAnswers code .ok Results.zero := rfl

/-- A command that completes with a failing check's code. -/
theorem completeWith_commanded {s : State} {code : Byte} {c : Code} (h : c ≠ .ok) :
    completeWith c (s.commanded code) = s.engineAnswers code c Results.zero := by
  unfold completeWith complete; rw [if_neg h]; rfl

/-- A command word whose claim fails a check answers the check's code and changes the engine alone. -/
theorem takeCommand_fails {s : State} {code : Byte} {body : Vector Word 4 → State → State} {c : Code} (h : EngineReady s)
    (hs : Settled s) (hc : c ≠ .ok) (hb : body s.engine.params (s.commanded code) = completeWith c (s.commanded code)) :
    takeCommand code body s = s.engineAnswers code c Results.zero :=
  takeCommand_settled h hs (hb.trans (completeWith_commanded hc)) rfl rfl

end Sys2Proof.Machine
end

