-- ==== Sys2Proof/Laws/Frames.lean ====
section
/-! SUPPORT. What the work inside a command never reaches: the Page Map, shared DRAM, the lines, the time and the manager's
words. One lemma an operation, each an equation that the next one rewrites with. -/

namespace Sys2Proof.Machine

/-- The part of the state that requests, lists, teardowns, violations and link resets leave alone: the Page Map, shared DRAM
with its words in error, the size of the bank, the granted burst's place in it, the lines, the time, the manager's parameter
words, timeout and last read, and the turns to come, which only the end of a step takes from. -/
structure Outside where
  pm        : Vector MapEntry 2048
  mem       : List Host.Cell
  ecc       : List (Nat × WordErr)
  installed : Nat
  lines     : Lines
  now       : Nat
  cuts      : Nat
  params    : Vector Word 4
  timeout   : Nat
  busRead   : Word
  turns     : List (Option Chan)
  pending   : List Instr

/-- That part of a state. -/
def State.outside (s : State) : Outside :=
  ⟨s.pm, s.mem, s.ecc, s.port.installedFrames, s.lines, s.now, s.cuts, s.engine.params, s.engine.timeout, s.busRead,
    s.turns, s.pending⟩

/-- The outside parts are equal but for the turns to come: what a step that settles leaves alone. -/
def SameOutside (s t : State) : Prop := t.outside = { s.outside with turns := t.turns }

/-- Equal outside parts. -/
theorem SameOutside.of_eq {s t : State} (h : t.outside = s.outside) : SameOutside s t := by
  unfold SameOutside; rw [← h]; rfl

/-- Step by step. -/
theorem SameOutside.trans {s t u : State} (h : SameOutside s t) (k : SameOutside t u) : SameOutside s u := by
  unfold SameOutside at *; rw [k, h]

/-- Shared DRAM reads alike where the outside parts are equal. -/
theorem SameBytes.of_outside {s t : State} (h : SameOutside s t) : SameBytes s t := fun a => by
  rw [show t.mem = s.mem from congrArg Outside.mem h]

/-- A property of the outside part carries over. -/
theorem CanonicalMemory.of_outside {s t : State} (h : SameOutside s t) (hs : CanonicalMemory s) :
    CanonicalMemory t := by
  unfold CanonicalMemory
  rw [show t.mem = s.mem from congrArg Outside.mem h, show t.ecc = s.ecc from congrArg Outside.ecc h]; exact hs

/-- The Page Map is the outside part's. -/
theorem FrameLaw.of_outside {s t : State} (h : SameOutside s t) (hs : FrameLaw s) : FrameLaw t := by
  unfold FrameLaw; rw [show t.pm = s.pm from congrArg Outside.pm h]; exact hs

/-- The interlock timeout is the outside part's. -/
theorem TimeoutLaw.of_outside {s t : State} (h : SameOutside s t) (hs : TimeoutLaw s) : TimeoutLaw t := by
  unfold TimeoutLaw; rw [show t.engine.timeout = s.engine.timeout from congrArg Outside.timeout h]; exact hs

variable (s : State)

@[simp] theorem updDesc_outside (i : DIdx) (f : Descriptor → Descriptor) : (s.updDesc i f).outside = s.outside := rfl
@[simp] theorem setWt_outside (v : Vector Descriptor 256) : (s.setWt v).outside = s.outside := rfl
@[simp] theorem updSlot_outside (i : Slot) (f : Requester → Requester) : (s.updSlot i f).outside = s.outside := rfl
@[simp] theorem setSu_outside (v : Vector Requester 16) : (s.setSu v).outside = s.outside := rfl
@[simp] theorem setRq_outside (q : List Request) : (s.setRq q).outside = s.outside := rfl
@[simp] theorem setServer_outside (r : Option InService) : (s.setServer r).outside = s.outside := rfl
@[simp] theorem updChan_outside (c : Chan) (f : Channel → Channel) : (s.updChan c f).outside = s.outside := rfl
@[simp] theorem setAttn_outside (a : Attention) : (s.setAttn a).outside = s.outside := rfl
@[simp] theorem send_outside (m : LinkMsg) : (s.send m).outside = s.outside := rfl
@[simp] theorem requestBurst_outside (cl : Claimant) (b : Burst) : (requestBurst cl b s).outside = s.outside := rfl
@[simp] theorem withdrawBurst_outside (cl : Claimant) : (withdrawBurst cl s).outside = s.outside := rfl
@[simp] theorem complete_outside (code : Code) (results : Results) : (complete code results s).outside = s.outside := rfl
@[simp] theorem completeOk_outside : (completeOk s).outside = s.outside := rfl
@[simp] theorem completeWith_outside (code : Code) : (completeWith code s).outside = s.outside := rfl
@[simp] theorem raiseStanding_outside (slot : Slot) : (raiseStanding slot s).outside = s.outside := rfl
@[simp] theorem raiseAbsentTouch_outside (i : DIdx) : (raiseAbsentTouch i s).outside = s.outside := rfl
@[simp] theorem raiseMapHole_outside (entry : Nat) : (raiseMapHole entry s).outside = s.outside := rfl
@[simp] theorem cleanCompletion_outside (slot : Slot) : (cleanCompletion slot s).outside = s.outside := rfl
@[simp] theorem channelEvent_outside (c : Chan) (k : EventKind) : (channelEvent c k s).outside = s.outside := rfl
@[simp] theorem updPrimary_outside (c : Chan) (f : Primary → Primary) : (updPrimary c f s).outside = s.outside := rfl
@[simp] theorem emptyBackup_outside (c : Chan) : (emptyBackup c s).outside = s.outside := rfl
@[simp] theorem stopChannel_outside (c : Chan) : (stopChannel c s).outside = s.outside := rfl
@[simp] theorem sendReply_outside (slot : Slot) (tag : BitVec 3) (code : Code) (payload : List Byte) :
    (sendReply slot tag code payload s).outside = s.outside := rfl
@[simp] theorem takeLock_outside (i : DIdx) (slot : Slot) : (takeLock i slot s).outside = s.outside := rfl
@[simp] theorem teardownTable_outside (slot : Slot) : (teardownTable slot s).outside = s.outside := rfl

@[simp] theorem grantBurst_outside : (grantBurst s).outside = s.outside := by unfold grantBurst; split <;> rfl

@[simp] theorem engineOnFree_outside (i : DIdx) : (engineOnFree i s).outside = s.outside := by
  unfold engineOnFree; split
  · split <;> rfl
  · rfl

@[simp] theorem engineLinkCheck_outside : (engineLinkCheck s).outside = s.outside := by
  unfold engineLinkCheck; split
  · split <;> rfl
  · rfl

@[simp] theorem engineOnListEnd_outside (c : Chan) : (engineOnListEnd c s).outside = s.outside := by
  unfold engineOnListEnd; split
  · split <;> rfl
  · rw [engineLinkCheck_outside]; rfl
  · rfl

@[simp] theorem engineOnDetachedEnd_outside : (engineOnDetachedEnd s).outside = s.outside := by
  unfold engineOnDetachedEnd; split
  · rw [engineLinkCheck_outside]; rfl
  · rfl

@[simp] theorem enterFree_outside (i : DIdx) : (enterFree i s).outside = s.outside := by
  unfold enterFree; rw [engineOnFree_outside]; rfl

@[simp] theorem removePin_outside (i : DIdx) : (removePin i s).outside = s.outside := by
  unfold removePin; dsimp only; split
  · rw [enterFree_outside]; rfl
  · rfl

/-- A fold of operations that leave the outside part alone leaves it alone. -/
theorem foldl_outside {α : Type} (f : State → α → State) (h : ∀ t a, (f t a).outside = t.outside) (l : List α) :
    (l.foldl f s).outside = s.outside := by
  induction l generalizing s with
  | nil => rfl
  | cons a l ih => exact (ih _).trans (h s a)

@[simp] theorem removePins_outside (is : List DIdx) : (removePins is s).outside = s.outside :=
  foldl_outside s _ (fun t i => removePin_outside t i) is

@[simp] theorem placePins_outside (is : List DIdx) : (placePins is s).outside = s.outside :=
  foldl_outside s _ (fun t i => updDesc_outside t i fun d => { d with pins := d.pins + 1 }) is

@[simp] theorem sendAnswers_outside (slot : Slot) (answers : List (BitVec 3 × Code)) :
    (sendAnswers slot answers s).outside = s.outside :=
  foldl_outside s (fun t (a : BitVec 3 × Code) => sendReply slot a.1 a.2 [] t)
    (fun t a => sendReply_outside t slot a.1 a.2 []) answers

@[simp] theorem touchAbsent_outside (o : Option DIdx) : (touchAbsent o s).outside = s.outside := by cases o <;> rfl

@[simp] theorem offerFault_outside (reason : Code) (slot : Slot) (source : Option Chan) (h : Handle) (offset : Nat) :
    (offerFault reason slot source h offset s).outside = s.outside := by unfold offerFault; split <;> rfl

@[simp] theorem chargeScore_outside (slot : Slot) : (chargeScore slot s).outside = s.outside := by
  unfold chargeScore; dsimp only; split <;> rfl

@[simp] theorem giveUpLock_outside (r : InService) (result : Code) : (giveUpLock r result s).outside = s.outside := by
  unfold giveUpLock; split
  · cases r.resolved <;> rfl
  · rfl

@[simp] theorem disposeReply_outside (r : InService) (result : Code) (payload : List Byte) :
    (disposeReply r result payload s).outside = s.outside := by
  unfold disposeReply; split
  · dsimp only; split <;> rfl
  all_goals rfl

@[simp] theorem leaveService_outside (r : InService) : (leaveService r s).outside = s.outside := by
  unfold leaveService; split
  · exact engineOnDetachedEnd_outside s
  · rfl

@[simp] theorem endService_outside (result : Code) (payload : List Byte) :
    (endService result payload s).outside = s.outside := by
  unfold endService; split
  · rfl
  · simp

@[simp] theorem endList_outside (c : Chan) (code : Code) : (endList c code s).outside = s.outside := by
  unfold endList; split
  · rfl
  · rename_i p hp
    dsimp only
    rw [engineOnListEnd_outside, withdrawBurst_outside, updChan_outside, removePins_outside]
    split
    · cases p.owner <;> rfl
    · rfl

@[simp] theorem endAtBoundary_outside (c : Chan) : (endAtBoundary c s).outside = s.outside := by
  unfold endAtBoundary; split
  · split
    · rfl
    · exact endList_outside s _ _
  · rfl

@[simp] theorem abortPrimary_outside (c : Chan) (code : MarkCode) : (abortPrimary c code s).outside = s.outside := by
  simp [abortPrimary]

@[simp] theorem teardownChannel_outside (cause : TeardownCause) (slot : Slot) (ownList : Option Chan) (c : Chan) :
    (teardownChannel cause slot ownList c s).outside = s.outside := by
  unfold teardownChannel; dsimp only; split
  · split
    · split <;> simp
    · rfl
  · rfl

@[simp] theorem toStage_outside (g : Stage) : (toStage g s).outside = s.outside := rfl
@[simp] theorem reach_outside (code : Code) (payload : List Byte) : (reach code payload s).outside = s.outside := rfl

@[simp] theorem cutService_outside : (cutService s).outside = s.outside := by
  unfold cutService; split
  · split
    · exact endService_outside s _ _
    · exact endService_outside s _ _
    · exact endService_outside s _ _
    · rfl
    all_goals rfl
  · rfl

@[simp] theorem teardownServer_outside (cause : TeardownCause) (slot : Slot) (own : Bool)
    (answers : List (BitVec 3 × Code)) : (teardownServer cause slot own answers s).outside = s.outside := by
  unfold teardownServer; split
  · split
    · dsimp only; split <;> simp
    · simp
  · simp

@[simp] theorem teardown_outside (cause : TeardownCause) (slot : Slot) (own : Bool) (ownList : Option Chan) :
    (teardown cause slot own ownList s).outside = s.outside := by
  simp [teardown, teardownQueue]

/-- A violation, whether it bars the slot or not. -/
@[simp] theorem violation_outside (reason : Code) (slot : Slot) (source : Option Chan) (h : Handle) (offset : Nat)
    (own : Bool) : (violation reason slot source h offset own s).outside = s.outside := by
  unfold violation; dsimp only; split <;> simp

@[simp] theorem failRequest_outside (code : Code) (h : Handle) (offset : Nat) :
    (failRequest code h offset s).outside = s.outside := by
  unfold failRequest; split
  · rfl
  · rw [reach_outside]; split <;> simp

@[simp] theorem failList_outside (c : Chan) (code : Code) (owner : Slot) (h : Handle) (offset : Nat) :
    (failList c code owner h offset s).outside = s.outside := by
  unfold failList; rw [endList_outside]; split <;> simp

@[simp] theorem verdictFails_outside (c : Chan) (f : Code × Option DIdx) (owner : Slot) (h : Handle) (offset : Nat) :
    (verdictFails c f owner h offset s).outside = s.outside := by
  unfold verdictFails; split <;> simp

@[simp] theorem holeStops_outside (c : Chan) (entry : Nat) : (holeStops c entry s).outside = s.outside := by
  unfold holeStops; rw [stopChannel_outside, raiseMapHole_outside]

@[simp] theorem channelBurst_outside (c : Chan) (b : Burst) (w : Work) : (channelBurst c b w s).outside = s.outside := by
  unfold channelBurst; rw [requestBurst_outside, updPrimary_outside]

@[simp] theorem channelBursts_outside (c : Chan) (bs : List Burst) (w : List Burst → Work) :
    (channelBursts c bs w s).outside = s.outside := by
  cases bs
  · rfl
  · exact channelBurst_outside s _ _ _

@[simp] theorem notePass_outside (c : Chan) (p : Primary) (r : Resolved) (named target : Purpose)
    (f : Primary → Primary) : (notePass c p r named target f s).outside = s.outside := by
  unfold notePass; split <;> simp

@[simp] theorem resolveDest_outside (c : Chan) (p : Primary) (owner : Slot) (dst : Handle) (dstOff count : Nat) :
    (resolveDest c p owner dst dstOff count s).outside = s.outside := by
  unfold resolveDest; split <;> simp

theorem advancePromote_outside (c : Chan) (p : Primary) (owner : Slot) :
    (advancePromote c p owner s).outside = s.outside := by
  unfold advancePromote; split
  · simp
  · split <;> simp

theorem advanceFetch_outside (c : Chan) (p : Primary) (owner : Slot) :
    (advanceFetch c p owner s).outside = s.outside := by
  unfold advanceFetch; split
  · exact verdictFails_outside s _ _ _ _ _
  · split
    · exact holeStops_outside s _ _
    · exact channelBursts_outside s _ _ _

theorem advanceResume_outside (c : Chan) (p : Primary) (owner : Slot) :
    (advanceResume c p owner s).outside = s.outside := by
  unfold advanceResume; split <;> simp

theorem advanceResolve_outside (c : Chan) (p : Primary) (owner : Slot) :
    (advanceResolve c p owner s).outside = s.outside := by
  unfold advanceResolve; split
  · split
    · simp
    · split <;> simp
  · split
    · simp
    · split <;> simp
  all_goals exact updPrimary_outside s _ _

theorem advanceUnit_outside (c : Chan) (p : Primary) : (advanceUnit c p s).outside = s.outside := by
  unfold advanceUnit; split
  · dsimp only; split
    · split
      · exact holeStops_outside s _ _
      · exact holeStops_outside s _ _
      · exact channelBurst_outside s _ _ _
    · split
      · exact holeStops_outside s _ _
      · exact channelBurst_outside s _ _ _
  · exact updPrimary_outside s _ _

theorem advanceRecord_outside (c : Chan) (p : Primary) (owner : Slot) :
    (advanceRecord c p owner s).outside = s.outside := by
  unfold advanceRecord; split
  · split
    · exact holeStops_outside s _ _
    · exact channelBursts_outside s _ _ _
  · exact updPrimary_outside s _ _

/-- A piece of a channel's ready work. -/
@[simp] theorem advance_outside (c : Chan) : (advance c s).outside = s.outside := by
  unfold advance; split
  · rfl
  split
  · exact endList_outside s _ _
  · exact endList_outside s _ _
  split
  · exact advancePromote_outside s _ _ _
  · exact advanceFetch_outside s _ _ _
  · exact advanceResume_outside s _ _ _
  · exact advanceResolve_outside s _ _ _
  · exact advanceUnit_outside s _ _
  · exact advanceRecord_outside s _ _ _
  all_goals rfl

/-- A piece of a channel's work takes no turn. -/
@[simp] theorem advance_turns (c : Chan) : (advance c s).turns = s.turns := congrArg Outside.turns (advance_outside s c)

theorem runReady_outside (n : Nat) : SameOutside s (runReady n s) := by
  induction n generalizing s with
  | zero => rfl
  | succ n ih =>
    cases e : readyChannel s with
    | none => rw [runReady_of_none e]; rfl
    | some c =>
      match ht : s.turns with
      | [] => rw [runReady_lowest ht e]; exact (SameOutside.of_eq (advance_outside s _)).trans (ih _)
      | none :: later => rw [runReady_pause ht (by simp [e])]; rfl
      | some d :: later =>
        rw [runReady_turn ht e]
        exact SameOutside.trans (t := s.setTurns later) rfl ((SameOutside.of_eq (advance_outside _ _)).trans (ih _))

/-- The end of a step takes turns, and nothing else of the outside part. -/
theorem settle_outside : SameOutside s (settle s) :=
  (runReady_outside s readyBound).trans (.of_eq (grantBurst_outside (s := _)))

@[simp] theorem detachServer_outside : (detachServer s).outside = s.outside := by
  unfold detachServer; split <;> simp

@[simp] theorem linkReset_outside : (linkReset s).outside = s.outside := by
  have hb : (engineLinkBegin s).outside = s.outside := by unfold engineLinkBegin; split <;> rfl
  simp [linkReset, linkResetChannel, hb]

/-- Claims of a service leave the outside part alone, where each of its kind's claims does. -/
theorem carryOn_outside {claim : Stage → State → State} (h : ∀ g t, (claim g t).outside = t.outside) (n : Nat) :
    (carryOn claim n s).outside = s.outside := by
  induction n generalizing s with
  | zero => rfl
  | succ n ih =>
    unfold carryOn; split
    · rfl
    · split
      · rfl
      · exact endService_outside s _ _
      · rw [ih, h]

/-- A request row of the table, where the claims of its kind leave the outside part alone. -/
theorem serveRow_outside {kind : Request → Option (Stage → State → State)} {claims : Option Nat}
    (h : ∀ q claim g t, kind q = some claim → (claim g t).outside = t.outside) :
    SameOutside s (serveRow kind claims s) := by
  unfold serveRow; split
  · rfl
  · rename_i q t ht
    have e : t.outside = s.outside := by
      unfold inHand at ht; split at ht
      · split at ht <;> cases ht; rfl
      · cases ht; rfl
      · cases ht
    split
    · rename_i hk
      exact (SameOutside.of_eq ((carryOn_outside t (fun g u => h _ _ g u hk) _).trans e)).trans (settle_outside _)
    · rfl

end Sys2Proof.Machine
end

