-- ==== Sys2Proof/Laws/Rows.lean ====
section
/-! SUPPORT. The request rows of the table leave the Page Map, shared DRAM, the lines, the time and the manager's words
alone: their bytes move when a burst completes. -/

namespace Sys2Proof.Machine

theorem serverBursts_outside (bs : List Burst) (s : State) : (serverBursts bs s).outside = s.outside := by
  unfold serverBursts; split <;> rfl

theorem translateAndBurst_outside (bursts : List (Nat × Nat) → List Burst) (s : State) :
    (translateAndBurst bursts s).outside = s.outside := by
  unfold translateAndBurst; split
  · rfl
  · split
    · rw [reach_outside, raiseMapHole_outside]
    · exact serverBursts_outside _ _

theorem noteResolved_outside (w : Resolved) (s : State) : (noteResolved w s).outside = s.outside := by
  unfold noteResolved; rw [setServer_outside, placePins_outside]

theorem resolveThen_outside {slot : Slot} {h : Handle} {offset length : Nat} {needed : Rights}
    {go : State → State} (hgo : ∀ t, (go t).outside = t.outside) (s : State) :
    (resolveThen slot h offset length needed go s).outside = s.outside := by
  unfold resolveThen; split
  · rw [failRequest_outside, touchAbsent_outside]
  · rw [hgo, noteResolved_outside]

theorem lockStep_outside (slot : Slot) (h : Handle) (offset : Nat) (s : State) :
    (lockStep slot h offset s).outside = s.outside := by
  unfold lockStep; dsimp only; split
  · rw [setServer_outside, takeLock_outside]
  · exact failRequest_outside s _ _ _

theorem unlockStep_outside (slot : Slot) (h : Handle) (offset : Nat) (s : State) :
    (unlockStep slot h offset s).outside = s.outside := by
  unfold unlockStep; dsimp only; split
  · rw [toStage_outside, updDesc_outside]
  · split
    · rw [failRequest_outside, updDesc_outside]
    · exact failRequest_outside s _ _ _

theorem limitedRelease_outside (slot : Slot) (h : Handle) (s : State) :
    (limitedRelease slot h s).outside = s.outside := by
  unfold limitedRelease; dsimp only; split <;> rfl

theorem accessChecks_outside {slot : Slot} {h : Handle} {offset n : Nat} {limited : State → State}
    (hl : ∀ t, (limited t).outside = t.outside) (s : State) :
    (accessChecks slot h offset n limited s).outside = s.outside := by
  unfold accessChecks; split
  · exact failRequest_outside s _ _ _
  · split
    · exact hl s
    · rfl

theorem accessClaims_outside {checks resolution translation : State → State} (hc : ∀ t, (checks t).outside = t.outside)
    (hr : ∀ t, (resolution t).outside = t.outside) (ht : ∀ t, (translation t).outside = t.outside) (g : Stage)
    (s : State) : (accessClaims checks resolution translation g s).outside = s.outside := by
  cases g <;> first | exact hc s | exact hr s | exact ht s | rfl

theorem onlyClaim_outside {claim : State → State} (h : ∀ t, (claim t).outside = t.outside) (g : Stage) (s : State) :
    (onlyClaim claim g s).outside = s.outside := by
  cases g <;> first | exact h s | rfl

theorem searchOn_outside (k : Search) (s : State) : (searchOn k s).outside = s.outside := by
  unfold searchOn; split
  · exact failRequest_outside s _ _ _
  · rfl

theorem examine_outside (slot : Slot) (k : Search) (s : State) : (examine slot k s).outside = s.outside := by
  unfold examine; dsimp only; split
  · exact searchOn_outside _ _
  · split
    · exact searchOn_outside _ _
    · split
      · exact searchOn_outside _ _
      · rw [reach_outside, updDesc_outside]

theorem openClaim_outside (slot : Slot) (tag : BitVec 16) (wanted : Byte) (g : Stage) (s : State) :
    (openClaim slot tag wanted g s).outside = s.outside := by
  cases g
  case begun =>
    simp only [openClaim]; split
    · exact failRequest_outside s _ _ _
    · rfl
  case checked =>
    simp only [openClaim]; split
    · exact failRequest_outside s _ _ _
    · unfold beginSearch; dsimp only; split
      · rfl
      · exact failRequest_outside s _ _ _
  case search k => exact examine_outside _ _ _
  all_goals rfl

theorem slotClaim_outside (c : Chan) (slot : Slot) (h : Handle) (offset : Nat) (s : State) :
    (slotClaim c slot h offset s).outside = s.outside := by
  unfold slotClaim; split <;> rfl

theorem startClaims_outside (slot : Slot) (channel : Byte) (h : Handle) (offset : Nat) (g : Stage) (s : State) :
    (startClaims slot channel h offset g s).outside = s.outside := by
  cases g
  case begun =>
    simp only [startClaims, startChecks]; split
    · exact failRequest_outside s _ _ _
    · split
      · exact failRequest_outside s _ _ _
      · rfl
  case checked =>
    simp only [startClaims, startResolution]; split
    · rw [failRequest_outside, touchAbsent_outside]
    · rw [toStage_outside, noteResolved_outside]
  case slotClaim =>
    simp only [startClaims]
    cases chanOf channel.toNat with
    | none => rfl
    | some c => exact slotClaim_outside c slot h offset s
  all_goals rfl

theorem cancelClaim_outside (c : Chan) (slot : Slot) (s : State) : (cancelClaim c slot s).2.outside = s.outside := by
  unfold cancelClaim; dsimp only; split <;> split <;> simp

/-- The rows that serve requests. -/
def requestRows (claims : Option Nat) : List Instr :=
  [.openWindow claims, .closeWindow claims, .read claims, .write claims, .readLock claims, .writeUnlock claims,
   .query claims, .start claims, .cancel claims, .channelStatus claims, .unknownKind claims]

/-- A request row leaves the outside part alone, but for the turns that its end takes. -/
theorem exec_request_outside {i : Instr} {claims : Option Nat} (hi : i ∈ requestRows claims) {s t : State}
    (h : exec i s = .next t) : SameOutside s t := by
  have done {kind : Request → Option (Stage → State → State)} (he : (.next (serveRow kind claims s) : Answer) = .next t)
      (hs : ∀ q claim g u, kind q = some claim → (claim g u).outside = u.outside) : SameOutside s t := by
    cases he; exact serveRow_outside s hs
  simp only [requestRows, List.mem_cons, List.not_mem_nil, or_false] at hi
  rcases hi with rfl | rfl | rfl | rfl | rfl | rfl | rfl | rfl | rfl | rfl | rfl
  all_goals
    refine done h fun q claim g u hq => ?_
    split at hq <;> cases hq
  · exact openClaim_outside _ _ _ g u
  · refine onlyClaim_outside (fun t => ?_) g u
    unfold closeClaim; split
    · exact failRequest_outside t _ _ _
    · rw [reach_outside, updDesc_outside]
  · exact accessClaims_outside (accessChecks_outside fun t => toStage_outside t _)
      (resolveThen_outside fun t => toStage_outside t _) (translateAndBurst_outside _) g u
  · exact accessClaims_outside (accessChecks_outside fun t => failRequest_outside t _ _ _)
      (resolveThen_outside fun t => toStage_outside t _) (translateAndBurst_outside _) g u
  · exact accessClaims_outside (accessChecks_outside fun t => failRequest_outside t _ _ _)
      (resolveThen_outside (lockStep_outside _ _ _)) (translateAndBurst_outside _) g u
  · exact accessClaims_outside
      (accessChecks_outside fun t => (failRequest_outside _ _ _ _).trans (limitedRelease_outside _ _ t))
      (resolveThen_outside (unlockStep_outside _ _ _)) (translateAndBurst_outside _) g u
  · refine onlyClaim_outside (fun t => ?_) g u
    unfold queryClaim; split <;> rfl
  · exact startClaims_outside _ _ _ _ g u
  · refine onlyClaim_outside (fun t => ?_) g u
    unfold serveCancel; split
    · exact failRequest_outside t _ _ _
    · rw [reach_outside, cancelClaim_outside]
  · refine onlyClaim_outside (fun t => ?_) g u
    unfold serveChannelStatus; split
    · exact failRequest_outside t _ _ _
    · rfl
  · exact onlyClaim_outside (fun t => failRequest_outside t _ _ _) g u

end Sys2Proof.Machine
end

