-- ==== Sys2Proof/Laws/Search.lean ====
section
/-! SUPPORT. The OPEN search: one examination, claim by claim, and what a search over a table that nobody changes meanwhile
comes to. -/

namespace Sys2Proof.Machine

/-- The state with an OPEN in service between two examinations. -/
abbrev State.searching (s : State) (r : InService) (k : Search) : State :=
  { s with server := some { r with stage := .search k } }

/-- The descriptor is a candidate of the search (R79). -/
def Candidate (k : Search) (d : Descriptor) : Prop := d.state ≠ .free ∧ d.state ≠ .retiring ∧ d.tag = k.tag

/-- A candidate that admits the slot's level (R79). -/
def Admits (k : Search) (d : Descriptor) : Prop := Candidate k d ∧ k.level ≤ d.level

/-- A candidate that passes both tests (R79). -/
def Passes (k : Search) (d : Descriptor) : Prop := Admits k d ∧ Rights.within k.wanted d.rights = true

variable {s : State} {r : InService} {k : Search} {slot : Slot}

/-- A descriptor that is no candidate is skipped. -/
theorem examine_skip (h : ¬ Candidate k s.wt[k.next]) : examine slot k (s.searching r k) = searchOn k (s.searching r k) := by
  unfold examine; dsimp only
  rw [if_pos]
  unfold Candidate at h
  by_cases h1 : s.wt[k.next].state = .free
  · exact .inl h1
  · by_cases h2 : s.wt[k.next].state = .retiring
    · exact .inr (.inl h2)
    · exact .inr (.inr fun h3 => h ⟨h1, h2, h3⟩)

/-- A candidate of a higher level fails the level test. -/
theorem examine_level (h : Candidate k s.wt[k.next]) (hl : ¬ k.level ≤ s.wt[k.next].level) :
    examine slot k (s.searching r k) =
      searchOn { k with verdict := k.verdict.failsLevel } (s.searching r k) := by
  unfold examine; dsimp only
  rw [if_neg, if_pos (not_le.1 hl)]
  rintro (e | e | e)
  · exact h.1 e
  · exact h.2.1 e
  · exact e h.2.2

/-- An admitting candidate without the wanted rights fails the rights test. -/
theorem examine_rights (h : Admits k s.wt[k.next]) (hr : Rights.within k.wanted s.wt[k.next].rights = false) :
    examine slot k (s.searching r k) = searchOn { k with verdict := .rights } (s.searching r k) := by
  unfold examine; dsimp only
  rw [if_neg, if_neg (not_lt.2 h.2), if_pos (by rw [hr]; rfl)]
  rintro (e | e | e)
  · exact h.1.1 e
  · exact h.1.2.1 e
  · exact e h.1.2.2

/-- A candidate that passes is chosen. -/
theorem examine_chosen (h : Passes k s.wt[k.next]) :
    examine slot k (s.searching r k) = { s with
      wt := s.wt.set k.next (Descriptor.addOpener slot k.wanted s.wt[k.next])
      server := some { r with stage := .ending .ok (handleBytes ⟨s.wt[k.next].gen, k.next⟩) } } := by
  unfold examine; dsimp only
  rw [if_neg, if_neg (not_lt.2 h.1.2), if_neg (by rw [h.2]; decide)]
  · rfl
  · rintro (e | e | e)
    · exact h.1.1.1 e
    · exact h.1.1.2.1 e
    · exact e h.1.1.2.2

/-- The search goes on to the next index. -/
theorem searchOn_next {k' : Search} (h : k'.next ≠ 255) :
    searchOn k' (s.searching r k) = s.searching r { k' with next := k'.next + 1 } := by
  unfold searchOn; rw [if_neg h]; rfl

/-- The search ends after index 255. -/
theorem searchOn_last {k' : Search} (h : k'.next = 255) :
    searchOn k' (s.searching r k) = failRequest k'.verdict.toCode Handle.null k'.tag.toNat (s.searching r k) := by
  unfold searchOn; rw [if_pos h]

/-- The running verdict that an examination without a choice leaves (R79). -/
theorem examine_verdict (h : ¬ Passes k s.wt[k.next]) : ∃ v : RunningVerdict,
    examine slot k (s.searching r k) = searchOn { k with verdict := v } (s.searching r k) ∧
    (v = .rights ↔ k.verdict = .rights ∨ Admits k s.wt[k.next]) ∧
    (v = .notFound ↔ k.verdict = .notFound ∧ ¬ Candidate k s.wt[k.next]) := by
  by_cases hc : Candidate k s.wt[k.next]
  · by_cases hl : k.level ≤ s.wt[k.next].level
    · have hr : Rights.within k.wanted s.wt[k.next].rights = false := by
        by_contra e; exact h ⟨⟨hc, hl⟩, by simpa using e⟩
      exact ⟨.rights, examine_rights ⟨hc, hl⟩ hr, iff_of_true rfl (.inr ⟨hc, hl⟩),
        iff_of_false (by decide) fun e => e.2 hc⟩
    · refine ⟨k.verdict.failsLevel, examine_level hc hl, ?_, ?_⟩
      · rw [or_iff_left fun e : Admits k s.wt[k.next] => hl e.2]
        cases k.verdict <;> decide
      · refine iff_of_false ?_ fun e => e.2 hc
        cases k.verdict <;> decide
  · refine ⟨k.verdict, examine_skip hc, ?_, ?_⟩
    · rw [or_iff_left fun e : Admits k s.wt[k.next] => hc e.1]
    · rw [and_iff_left hc]

/-- The claim of an OPEN search. -/
theorem carryOn_search {tag : BitVec 16} {wanted : Byte} (n : Nat) :
    carryOn (openClaim slot tag wanted) (n + 1) (s.searching r k) =
      carryOn (openClaim slot tag wanted) n (examine slot k (s.searching r k)) :=
  carryOn_claim (s := s.searching r k) (r := { r with stage := .search k }) rfl (by simp) (by simp) n

/-- The search chooses the lowest descriptor from its next index on that passes. -/
theorem search_chooses {tag : BitVec 16} {wanted : Byte} (n : Nat) {i : DIdx} : ∀ (m : Nat) (k : Search),
    k.next.val + m = i.val → Passes k s.wt[i] → (∀ j : DIdx, k.next ≤ j → j < i → ¬ Passes k s.wt[j]) →
    carryOn (openClaim slot tag wanted) (n + (m + 1)) (s.searching r k) =
      carryOn (openClaim slot tag wanted) n { s with
        wt := s.wt.set i (Descriptor.addOpener slot k.wanted s.wt[i])
        server := some { r with stage := .ending .ok (handleBytes ⟨s.wt[i].gen, i⟩) } }
  | 0, k, hi, hp, _ => by
    have e : k.next = i := Fin.ext hi
    subst e
    rw [show n + (0 + 1) = n + 1 from rfl, carryOn_search, examine_chosen hp]
  | m + 1, k, hi, hp, hn => by
    have h1 : k.next.val < i.val := by omega
    obtain ⟨v, he, _⟩ := examine_verdict (s := s) (r := r) (slot := slot) (hn k.next le_rfl h1)
    have h255 : k.next ≠ 255 := by
      intro e; rw [e] at h1; have := i.isLt; simp at h1; omega
    have hv : (k.next + 1).val = k.next.val + 1 := by
      rw [Fin.val_add_one_of_lt]; have := i.isLt; rw [Fin.lt_def, Fin.val_last]; omega
    rw [show n + (m + 1 + 1) = (n + (m + 1)) + 1 from rfl, carryOn_search, he, searchOn_next (k' := { k with verdict := v }) h255]
    exact search_chooses n m { k with verdict := v, next := k.next + 1 } (by simp only [hv]; omega) hp
      fun j hj hji => hn j (by rw [Fin.le_def] at hj ⊢; simp only [hv] at hj; omega) hji

/-- The search that nothing passes ends after index 255 with the furthest test that a candidate reached. -/
theorem search_fails {tag : BitVec 16} {wanted : Byte} (n : Nat) : ∀ (m : Nat) (k : Search),
    k.next.val + m = 255 → (∀ j : DIdx, k.next ≤ j → ¬ Passes k s.wt[j]) → ∃ (last : Search) (v : RunningVerdict),
      carryOn (openClaim slot tag wanted) (n + (m + 1)) (s.searching r k) =
        carryOn (openClaim slot tag wanted) n
          (failRequest v.toCode Handle.null k.tag.toNat (s.searching r last)) ∧
      (v = .rights ↔ k.verdict = .rights ∨ ∃ j : DIdx, k.next ≤ j ∧ Admits k s.wt[j]) ∧
      (v = .notFound ↔ k.verdict = .notFound ∧ ∀ j : DIdx, k.next ≤ j → ¬ Candidate k s.wt[j])
  | 0, k, hi, hn => by
    have e : k.next = 255 := Fin.ext hi
    obtain ⟨v, he, h1, h2⟩ := examine_verdict (s := s) (r := r) (slot := slot) (hn k.next le_rfl)
    have only (P : Descriptor → Prop) : (∃ j : DIdx, k.next ≤ j ∧ P s.wt[j]) ↔ P s.wt[k.next] := by
      constructor
      · rintro ⟨j, hj, hp⟩
        have : j = k.next := by
          apply Fin.ext; rw [Fin.le_def] at hj; have := j.isLt; omega
        rwa [this] at hp
      · exact fun h => ⟨_, le_rfl, h⟩
    refine ⟨k, v, ?_, ?_, ?_⟩
    · rw [show n + (0 + 1) = n + 1 from rfl, carryOn_search, he, searchOn_last (k' := { k with verdict := v }) e]
    · rw [h1, only]
    · rw [h2]
      have := only (Candidate k)
      constructor
      · exact fun h => ⟨h.1, fun j hj hc => h.2 (this.1 ⟨j, hj, hc⟩)⟩
      · exact fun h => ⟨h.1, h.2 _ le_rfl⟩
  | m + 1, k, hi, hn => by
    have h255 : k.next ≠ 255 := by intro e; rw [e] at hi; simp at hi
    obtain ⟨v, he, h1, h2⟩ := examine_verdict (s := s) (r := r) (slot := slot) (hn k.next le_rfl)
    have hv : (k.next + 1).val = k.next.val + 1 := by
      rw [Fin.val_add_one_of_lt]; rw [Fin.lt_def, Fin.val_last]; omega
    obtain ⟨last, u, e2, e3, e4⟩ := search_fails n m { k with verdict := v, next := k.next + 1 }
      (by simp only [hv]; omega) fun j hj => hn j (by rw [Fin.le_def] at hj ⊢; simp only [hv] at hj; omega)
    have split' (P : Descriptor → Prop) : (∃ j : DIdx, k.next ≤ j ∧ P s.wt[j]) ↔
        P s.wt[k.next] ∨ ∃ j : DIdx, k.next + 1 ≤ j ∧ P s.wt[j] := by
      constructor
      · rintro ⟨j, hj, hp⟩
        by_cases e : j = k.next
        · exact .inl (e ▸ hp)
        · refine .inr ⟨j, ?_, hp⟩
          rw [Fin.le_def] at hj ⊢; rw [hv]; have : j.val ≠ k.next.val := fun h => e (Fin.ext h); omega
      · rintro (hp | ⟨j, hj, hp⟩)
        · exact ⟨_, le_rfl, hp⟩
        · refine ⟨j, ?_, hp⟩
          rw [Fin.le_def] at hj ⊢; rw [hv] at hj; omega
    refine ⟨last, u, ?_, ?_, ?_⟩
    · rw [show n + (m + 1 + 1) = (n + (m + 1)) + 1 from rfl, carryOn_search, he, searchOn_next (k' := { k with verdict := v }) h255]
      exact e2
    · rw [e3, split' (Admits k), ← or_assoc, ← h1]; rfl
    · rw [e4]
      have := split' (Candidate k)
      constructor
      · rintro ⟨a, b⟩
        obtain ⟨c, d⟩ := h2.1 a
        refine ⟨c, fun j hj hc => ?_⟩
        rcases this.1 ⟨j, hj, hc⟩ with h | ⟨i, hi, h⟩
        · exact d h
        · exact b i hi h
      · rintro ⟨a, b⟩
        exact ⟨h2.2 ⟨a, b _ le_rfl⟩, fun j hj hc => b j (by rw [Fin.le_def] at hj ⊢; simp only [hv] at hj; omega) hc⟩

end Sys2Proof.Machine
end

