-- ==== Sys2Proof/Laws/Teardown.lean ====
section
/-! SUPPORT. What the ends of lists and the teardown of a slot leave alone, what they do to the request in service, and what a
teardown leaves of every channel, descriptor and queue entry. -/

namespace Sys2Proof.Machine

/-! ### The end of a list -/

/-- The end of a list touches the table, the port, a score, the channels, the engine and the attentions, and no more. -/
theorem endList_frame (c : Chan) (code : Code) (s : State) : endList c code s = { s with
    wt := (endList c code s).wt, port := (endList c code s).port, su := (endList c code s).su
    chans := (endList c code s).chans, engine := (endList c code s).engine, attn := (endList c code s).attn } := by
  unfold endList
  cases s.chans[c].primary with
  | none => rfl
  | some p =>
    dsimp only
    rw [engineOnListEnd_eq, removePins_frame]
    split <;> [cases p.owner; skip] <;> rfl

/-- A boundary that ends a list, or does not, touches no more. -/
theorem endAtBoundary_frame (c : Chan) (s : State) : endAtBoundary c s = { s with
    wt := (endAtBoundary c s).wt, port := (endAtBoundary c s).port, su := (endAtBoundary c s).su
    chans := (endAtBoundary c s).chans, engine := (endAtBoundary c s).engine, attn := (endAtBoundary c s).attn } := by
  unfold endAtBoundary; split
  · split
    · rfl
    · exact endList_frame _ _ _
  · rfl

/-- A channel's part of a teardown touches no more. -/
theorem teardownChannel_frame (cause : TeardownCause) (slot : Slot) (ownList : Option Chan) (c : Chan) (s : State) :
    teardownChannel cause slot ownList c s = { s with
      wt := (teardownChannel cause slot ownList c s).wt, port := (teardownChannel cause slot ownList c s).port
      su := (teardownChannel cause slot ownList c s).su, chans := (teardownChannel cause slot ownList c s).chans
      engine := (teardownChannel cause slot ownList c s).engine
      attn := (teardownChannel cause slot ownList c s).attn } := by
  unfold teardownChannel; dsimp only
  split
  · split
    · split
      · rfl
      · rw [endAtBoundary_frame]; rfl
    · rfl
  · rfl

/-- The parts of all four channels touch no more. -/
theorem teardownChannels_frame (cause : TeardownCause) (slot : Slot) (ownList : Option Chan) : ∀ (l : List Chan) (s : State),
    ∃ (wt : _) (port : _) (su : _) (chans : _) (engine : _) (attn : _),
      l.foldl (fun t c => teardownChannel cause slot ownList c t) s =
        { s with wt := wt, port := port, su := su, chans := chans, engine := engine, attn := attn }
  | [], s => ⟨s.wt, s.port, s.su, s.chans, s.engine, s.attn, rfl⟩
  | c :: l, s => by
    obtain ⟨wt, port, su, chans, engine, attn, h⟩ :=
      teardownChannels_frame cause slot ownList l (teardownChannel cause slot ownList c s)
    refine ⟨wt, port, su, chans, engine, attn, ?_⟩
    rw [List.foldl_cons, h, teardownChannel_frame]

/-! ### The request in service -/

/-- A service that is cut ends before its deciding claim, and goes on after it. -/
theorem cutService_eq {s : State} {r : InService} (h : s.server = some r) : cutService s =
    if r.stage.early = true then (s.lockGivenUp r .ok).ended r .ok []
    else { s with server := some { r with stage := if r.stage = .slotClaim then .ending .ok [] else r.stage } } := by
  unfold cutService; rw [h]; dsimp only
  cases hg : r.stage <;> dsimp only [Stage.early] <;>
    simp only [Bool.false_eq_true, if_false, if_true, reduceCtorEq] <;>
    first
    | exact endService_eq _ _ h
    | exact reach_of h
    | (apply State.ext <;> first | rfl | (rw [h]; cases r; simp_all))

/-- What the end of a service leaves of the server and sends. -/
theorem State.ended_facts (s : State) (r : InService) (code : Code) (payload : List Byte) :
    ((s.lockGivenUp r code).ended r code payload).server = none ∧
    ((s.lockGivenUp r code).ended r code payload).linkOut = s.linkOut ++ r.replies code payload ∧
    ((s.lockGivenUp r code).ended r code payload).chans = s.chans ∧
    ((s.lockGivenUp r code).ended r code payload).port = s.port := by
  have h : (s.lockGivenUp r code).linkOut = s.linkOut ∧ (s.lockGivenUp r code).chans = s.chans ∧
      (s.lockGivenUp r code).port = s.port := by
    unfold State.lockGivenUp; split
    · split <;> exact ⟨rfl, rfl, rfl⟩
    · exact ⟨rfl, rfl, rfl⟩
  unfold State.ended; dsimp only
  rw [removePins_frame]
  exact ⟨rfl, by rw [h.1], h.2⟩

/-- What the end of a service leaves of the records. -/
theorem State.ended_su (s : State) (r : InService) (code : Code) (payload : List Byte) :
    ((s.lockGivenUp r code).ended r code payload).su =
      s.su.set r.request.slot (r.leaves code s.su[r.request.slot]) := by
  have h : (s.lockGivenUp r code).su = s.su := by
    unfold State.lockGivenUp; split
    · split <;> rfl
    · rfl
  unfold State.ended; dsimp only; rw [h]

/-- What a teardown does to the request in service depends on the server and the messages sent. -/
theorem TeardownReaches.congr {s t u : State} {slot : Slot} {disposition : InService → Disposition}
    {answers : List (BitVec 3 × Code)} {kept : InService → List (BitVec 3 × Code)} (hs : t.server = s.server)
    (hl : t.linkOut = s.linkOut) (h : TeardownReaches s u slot disposition answers kept) :
    TeardownReaches t u slot disposition answers kept := by
  unfold TeardownReaches at *; rw [hs, hl]; exact h

/-- The Request Server's part of a teardown that is not for the request's own violation. -/
theorem teardownServer_reaches (cause : TeardownCause) (slot : Slot) (answers : List (BitVec 3 × Code)) (s : State)
    (ha : cause = .departure → answers = []) :
    TeardownReaches s (teardownServer cause slot false answers s) slot (nextDisposition · cause false) answers
      (fun r => if cause = .departure then [] else r.held) := by
  constructor
  · intro r hr hs hd
    have e : teardownServer cause slot false answers s = cutService (s.setServer (some { r with
        disposition := nextDisposition r cause false
        held := (if cause = .departure then [] else r.held) ++ answers })) := by
      unfold teardownServer; rw [hr]
      simp only [hs, hd, Bool.not_false, and_true, if_true, Bool.or_false, Bool.false_eq_true, if_false]
      split
      · rename_i hc; rw [ha hc]; rfl
      · rfl
    dsimp only
    rw [e, cutService_eq (s := s.setServer _) rfl]
    dsimp only
    cases he : r.stage.early with
    | true =>
      simp only [if_true]
      obtain ⟨h1, h2, _⟩ := State.ended_facts (s.setServer (some { r with
        disposition := nextDisposition r cause false
        held := (if cause = .departure then [] else r.held) ++ answers })) { r with
        disposition := nextDisposition r cause false
        held := (if cause = .departure then [] else r.held) ++ answers } .ok []
      exact ⟨h1, h2⟩
    | false =>
      rw [if_neg (by decide), if_neg (by decide)]
      exact ⟨rfl, rfl⟩
  · intro h
    have e : teardownServer cause slot false answers s = sendAnswers slot answers s := by
      unfold teardownServer
      cases hr : s.server with
      | none => rfl
      | some r =>
        dsimp only; rw [if_neg]
        rintro ⟨a, b⟩
        rcases h r hr with c | c
        · exact c a
        · rw [c] at b; exact absurd b (by decide)
    rw [e, sendAnswers_eq]; exact ⟨rfl, rfl⟩

/-- A teardown that is not for a request's own violation, as the request in service sees it. -/
theorem teardown_reaches (cause : TeardownCause) (slot : Slot) (ownList : Option Chan) (s : State) :
    TeardownReaches s (teardown cause slot false ownList s) slot (nextDisposition · cause false)
      (teardownAnswers cause (s.rq.filter fun q => q.slot == slot))
      (fun r => if cause = .departure then [] else r.held) := by
  have key (u : State) (hs : u.server = s.server) (hl : u.linkOut = s.linkOut) :
      TeardownReaches s (teardownServer cause slot false (teardownAnswers cause (s.rq.filter fun q => q.slot == slot)) u) slot
        (nextDisposition · cause false) (teardownAnswers cause (s.rq.filter fun q => q.slot == slot))
        (fun r => if cause = .departure then [] else r.held) :=
    .congr hs.symm hl.symm (teardownServer_reaches cause slot _ u fun h => by rw [h]; rfl)
  unfold teardown; dsimp only
  obtain ⟨wt, port, su, chans, engine, attn, h⟩ := teardownChannels_frame cause slot ownList [0, 1, 2, 3] (teardownTable slot s)
  rw [h]
  exact key _ rfl rfl

/-- A teardown for the own violation of the request in service, which goes on. -/
theorem teardown_own {s : State} {r : InService} {slot : Slot} (ownList : Option Chan) (hr : s.server = some r)
    (hs : r.request.slot = slot) (hd : r.detached = false) :
    (teardown .barring slot true ownList s).server = some { r with
      held := r.held ++ (s.rq.filter fun q => q.slot == slot).map fun q => (q.tag, .barred), sendKept := true } ∧
    (teardown .barring slot true ownList s).linkOut = s.linkOut := by
  have key (answers : List (BitVec 3 × Code)) (u : State) (hu : u.server = s.server) (hl : u.linkOut = s.linkOut) :
      (teardownServer .barring slot true answers u).server =
        some { r with held := r.held ++ answers, sendKept := true } ∧
      (teardownServer .barring slot true answers u).linkOut = s.linkOut := by
    have hn : nextDisposition r .barring true = r.disposition := by
      unfold nextDisposition; cases r.disposition <;> rfl
    unfold teardownServer; rw [hu, hr]
    simp only [hs, hd, Bool.not_false, and_true, if_true, Bool.or_true, reduceCtorEq, if_false, hn]
    exact ⟨rfl, hl⟩
  unfold teardown; dsimp only
  obtain ⟨wt, port, su, chans, engine, attn, h⟩ :=
    teardownChannels_frame .barring slot ownList [0, 1, 2, 3] (teardownTable slot s)
  rw [h]
  unfold teardownQueue; dsimp only
  refine key ((s.rq.filter fun q => q.slot == slot).map fun q => (q.tag, .barred)) _ ?_ ?_ <;> rfl

/-! ### What a teardown leaves (7.4) -/

/-- More causes are pending, and of the latches RETIRE_LATCH alone may have moved: what the ends of lists do. -/
def Attention.Grows (a b : Attention) : Prop :=
  b = { a with pending := b.pending, retireLatch := b.retireLatch } ∧
  ∀ n, a.pending.getLsbD n = true → b.pending.getLsbD n = true

theorem Attention.Grows.refl (a : Attention) : a.Grows a := ⟨rfl, fun _ h => h⟩

theorem Attention.Grows.trans {a b c : Attention} (h : a.Grows b) (k : b.Grows c) : a.Grows c :=
  ⟨by rw [k.1, h.1], fun n x => k.2 n (h.2 n x)⟩

/-- A pin that falls raises RETIRE_DONE at the most. -/
theorem removePin_attn (i : DIdx) (s : State) : s.attn.Grows (removePin i s).attn := by
  have e0 (t : State) : (engineOnFree i t).attn = t.attn := by
    unfold engineOnFree; split
    · split <;> rfl
    · rfl
  unfold removePin; dsimp only; split
  · unfold enterFree; rw [e0]
    refine ⟨rfl, fun n h => ?_⟩
    show (s.attn.pending ||| _).getLsbD n = true
    simp [h]
  · exact .refl _

/-- Pins that fall raise RETIRE_DONE at the most. -/
theorem removePins_attn (is : List DIdx) (s : State) : s.attn.Grows (removePins is s).attn := by
  unfold removePins
  induction is generalizing s with
  | nil => exact .refl _
  | cons i is ih => exact (removePin_attn i s).trans (ih _)

/-- The end of a list with a code other than OK. -/
theorem endList_neutral {s : State} {c : Chan} {p : Primary} {code : Code} (hp : s.chans[c].primary = some p)
    (hc : code ≠ .ok) :
    (endList c code s).chans = s.chans.set c {
      state := if s.chans[c].backup.isSome then .fetch else .idle
      primary := s.chans[c].backup.map Backup.promoted
      backup := none
      outcome := p.outcome code
      event := some (endEvent code) } ∧
    (endList c code s).su = s.su ∧
    (endList c code s).port = { s.port with waiting := s.port.waiting.set (Claimant.ch c) none } ∧
    (∀ i : DIdx, (endList c code s).wt[i] = s.wt[i].unpinned (channelPins s c i)) ∧
    s.attn.Grows (endList c code s).attn ∧ (endList c code s).attn.pending.getLsbD (c.val + 2) = true := by
  let s1 : State := channelEvent c (endEvent code) (s.updChan c fun ch => { ch with outcome := p.outcome code })
  have e : endList c code s = { withdrawBurst (Claimant.ch c) ((removePins (p.pins.map (·.index)) s1).updChan c
      Channel.promote) with
      engine := (removePins (p.pins.map (·.index)) s1).engine.listEnded c } := by
    unfold endList; rw [hp]; dsimp only
    rw [if_neg hc, engineOnListEnd_eq]; rfl
  have f := removePins_frame (p.pins.map (·.index)) s1
  have hw : s1.wt = s.wt := rfl
  have ha := removePins_attn (p.pins.map (·.index)) s1
  have hch : (removePins (p.pins.map (·.index)) s1).chans = s1.chans := by rw [f]
  have hpo : (removePins (p.pins.map (·.index)) s1).port = s1.port := by rw [f]
  have hsu : (removePins (p.pins.map (·.index)) s1).su = s1.su := by rw [f]
  rw [e]
  refine ⟨?_, hsu, ?_, fun i => ?_, ?_, ?_⟩
  · simp only [withdrawBurst, State.setPort, State.updChan, hch]
    simp only [s1, channelEvent, raiseChan, State.updChan, State.setAttn, get_set_self, set_set_self]
    congr 1
    unfold Channel.promote
    cases s.chans[c].backup <;> rfl
  · simp only [withdrawBurst, State.setPort, State.updChan, hpo]; rfl
  · refine (removePins_wt _ i s1).trans ?_
    unfold channelPins; rw [hp]; rfl
  · exact Attention.Grows.trans ⟨rfl, fun n h => by
      show (s.attn.pending ||| _).getLsbD n = true
      simp [h]⟩ ha
  · refine ha.2 _ ?_
    show (s.attn.pending ||| causeBit (cChan c)).getLsbD (c.val + 2) = true
    fin_cases c <;> simp [causeBit, cChan]


/-- A channel's part of a teardown depends on the channel and its place at the port. -/
theorem TornDownChannel.congr {s s' u u' : State} {slot : Slot} {code : MarkCode} {own : Option Chan} {c : Chan}
    (hs : s'.chans[c] = s.chans[c]) (hg : s'.port.granted = s.port.granted)
    (hw : s'.port.waiting[Claimant.ch c] = s.port.waiting[Claimant.ch c]) (hu : u'.chans[c] = u.chans[c])
    (hv : u'.port.waiting[Claimant.ch c] = u.port.waiting[Claimant.ch c]) (ha : u.attn.Grows u'.attn)
    (h : TornDownChannel s u slot code own c) : TornDownChannel s' u' slot code own c := by
  unfold TornDownChannel at *; dsimp only at *
  rw [hs, hg, hw, hu, hv]
  refine ⟨h.1, fun p m hp ho hm => ?_⟩
  obtain ⟨a, b⟩ := h.2 p m hp ho hm
  exact ⟨a, fun x => ⟨(b x).1, (b x).2.1, ha.2 _ (b x).2.2⟩⟩

/-- The result code of a mark. -/
theorem Mark.toCode_code (m : Mark) : m.code.toCode = m.result := by unfold Mark.result; cases m.code <;> rfl

/-- No ending mark's code is OK. -/
theorem MarkCode.toCode_ne_ok (m : MarkCode) : m.toCode ≠ .ok := by cases m <;> decide

/-- The channel has the DRAM exactly when a burst of it is granted. -/
theorem hasGrant_iff {cl : Claimant} {s : State} : hasGrant cl s = true ↔ ∃ b, s.port.granted = some (cl, b) := by
  unfold hasGrant
  cases s.port.granted with
  | none => simp
  | some g =>
    obtain ⟨g, b⟩ := g
    simp only [beq_iff_eq, Option.some.injEq, Prod.mk.injEq]
    exact ⟨fun h => ⟨b, h, rfl⟩, fun ⟨_, h, _⟩ => h⟩

/-- What the parts of these channels in a teardown do: their channels are torn down, pins fall with the lists that end, and the
rest stays. -/
structure ChannelsTorn (slot : Slot) (code : MarkCode) (own : Option Chan) (l : List Chan) (s t : State) : Prop where
  torn    : ∀ c ∈ l, TornDownChannel s t slot code own c
  chans   : ∀ d : Chan, d ∉ l → t.chans[d] = s.chans[d]
  waiting : ∀ cl : Claimant, (∀ c ∈ l, cl ≠ Claimant.ch c) → t.port.waiting[cl] = s.port.waiting[cl]
  granted : t.port.granted = s.port.granted
  su      : t.su = s.su
  fewer   : ∀ (c : Chan) (i : DIdx), channelPins t c i ≤ channelPins s c i
  pins    : ∀ i : DIdx, t.wt[i] = s.wt[i].unpinned (l.map fun c => channelPins s c i - channelPins t c i).sum
  attn    : s.attn.Grows t.attn

/-- The pins of a channel depend on the channel. -/
theorem channelPins_congr {s t : State} {c : Chan} (h : t.chans[c] = s.chans[c]) (i : DIdx) :
    channelPins t c i = channelPins s c i := by unfold channelPins; rw [h]

/-- A channel's part. -/
theorem teardownChannel_torn (cause : TeardownCause) (slot : Slot) (own : Option Chan) (c : Chan) (s : State) :
    ChannelsTorn slot (teardownMark cause) own [c] s (teardownChannel cause slot own c s) := by
  let s1 : State := s.updChan c fun ch => { ch with backup := ch.backup.filter fun b => b.owner != slot }
  have h1 : s1.chans[c] = { s.chans[c] with backup := s.chans[c].backup.filter fun b => b.owner != slot } :=
    get_set_self _ _ _
  have h1o (d : Chan) (hd : d ≠ c) : s1.chans[d] = s.chans[d] := get_set_ne _ hd.symm _
  have ht : teardownChannel cause slot own c s = match s1.chans[c].primary with
      | some p => if p.owner = some slot then
          if own = some c then updPrimary c (fun p => { p.setMark (teardownMark cause) with owner := none }) s1
          else endAtBoundary c (updPrimary c (fun p => { p.setMark (teardownMark cause) with owner := none }) s1)
        else s1
      | none => s1 := rfl
  rw [show s1.chans[c].primary = s.chans[c].primary by rw [h1]] at ht
  have still {t : State} (ho : ∀ d : Chan, d ≠ c → t.chans[d] = s.chans[d]) (hp : t.port = s.port) (hs : t.su = s.su)
      (hw : t.wt = s.wt) (ha : t.attn = s.attn) (hpin : ∀ i, channelPins t c i = channelPins s c i)
      (htorn : TornDownChannel s t slot (teardownMark cause) own c) :
      ChannelsTorn slot (teardownMark cause) own [c] s t := {
    torn := fun d hd => by rw [List.mem_singleton] at hd; subst hd; exact htorn
    chans := fun d hd => ho d (by simpa using hd)
    waiting := fun cl _ => by rw [hp]
    granted := by rw [hp]
    su := hs
    fewer := fun d i => by
      by_cases e : d = c
      · subst e; rw [hpin]
      · rw [channelPins_congr (ho d e)]
    pins := fun i => by simp [hpin, hw]
    attn := by rw [ha]; exact .refl _ }
  have unowned (h : ∀ p, s.chans[c].primary = some p → p.owner ≠ some slot) :
      ChannelsTorn slot (teardownMark cause) own [c] s s1 :=
    still h1o rfl rfl rfl rfl (fun i => by unfold channelPins; rw [h1])
      ⟨fun _ => ⟨h1, rfl⟩, fun p m hp ho => absurd ho (h p hp)⟩
  cases hp : s.chans[c].primary with
  | none =>
    rw [hp] at ht; rw [ht]
    exact unowned fun p h => by rw [hp] at h; cases h
  | some p =>
    rw [hp] at ht; dsimp only at ht
    by_cases ho : p.owner = some slot
    · rw [if_pos ho] at ht
      obtain ⟨m, hm⟩ : ∃ m, (p.mark <|> some ⟨teardownMark cause, slot⟩) = some m := by cases p.mark <;> simp
      let p2 : Primary := { p with mark := some m, owner := none }
      let s2 : State := updPrimary c (fun p => { p.setMark (teardownMark cause) with owner := none }) s1
      have h2 : s2.chans[c] = { s.chans[c] with
          backup := s.chans[c].backup.filter fun b => b.owner != slot, primary := some p2 } := by
        show (s1.chans.set c _)[c] = _
        rw [get_set_self, h1]; dsimp only; rw [hp]
        simp only [Option.map_some, Primary.setMark, ho, Option.getD_some, hm]; rfl
      have h2o (d : Chan) (hd : d ≠ c) : s2.chans[d] = s.chans[d] := (get_set_ne _ hd.symm _).trans (h1o d hd)
      have e2 (i : DIdx) : channelPins s2 c i = channelPins s c i := by
        unfold channelPins; rw [h2, hp]; rfl
      by_cases hw : (∃ b, s.port.granted = some (Claimant.ch c, b)) ∨ own = some c
      · have e : teardownChannel cause slot own c s = s2 := by
          rw [ht]; split
          · rfl
          · rename_i hown
            show endAtBoundary c s2 = s2
            unfold endAtBoundary; rw [h2]; dsimp only
            exact if_pos (hasGrant_iff.2 (hw.resolve_right hown))
        rw [e]
        refine still h2o rfl rfl rfl rfl e2 ⟨fun h => absurd ho (h p hp), fun p' m' hp' _ hm' => ?_⟩
        rw [hp] at hp'; cases hp'
        rw [hm] at hm'; cases hm'
        exact ⟨fun _ => ⟨h2, rfl⟩, fun h => absurd hw h⟩
      · have e : teardownChannel cause slot own c s = endList c m.code.toCode s2 := by
          rw [ht, if_neg fun h => hw (.inr h)]
          show endAtBoundary c s2 = _
          unfold endAtBoundary; rw [h2]; dsimp only
          exact if_neg fun h => hw (.inl (hasGrant_iff.1 h))
        rw [e]
        obtain ⟨a1, a2, a3, a4, a5, a6⟩ := endList_neutral (s := s2) (c := c) (p := p2) (by rw [h2]) m.code.toCode_ne_ok
        have hc := (congrArg (fun v : Vector Channel 4 => v[c]) a1).trans (get_set_self _ _ _)
        have ho' (d : Chan) (hd : d ≠ c) : (endList c m.code.toCode s2).chans[d] = s.chans[d] := by
          rw [a1, get_set_ne _ hd.symm]; exact h2o d hd
        have e0 (i : DIdx) : channelPins (endList c m.code.toCode s2) c i = 0 := by
          unfold channelPins; rw [hc]; dsimp only
          cases s2.chans[c].backup <;> rfl
        exact {
          torn := fun d hd => by
            rw [List.mem_singleton] at hd; subst hd
            refine ⟨fun h => absurd ho (h p hp), fun p' m' hp' _ hm' => ?_⟩
            rw [hp] at hp'; cases hp'
            rw [hm] at hm'; cases hm'
            refine ⟨fun h => absurd h hw, fun _ => ⟨?_, by rw [a3]; exact get_set_self _ _ _, a6⟩⟩
            rw [hc, h2]; dsimp only
            have h5 : endEvent m.code.toCode = .aborted := by cases m.code <;> rfl
            rw [h5, show p2.outcome m.code.toCode = ⟨true, m.owner, p.handle.index, m.result, p.total, p.offset⟩ by
              rw [← Mark.toCode_code]; rfl]
          chans := fun d hd => ho' d (by simpa using hd)
          waiting := fun cl h => by
            rw [a3]; exact get_set_ne _ (Ne.symm (h c (by simp))) _
          granted := by rw [a3]; rfl
          su := a2
          fewer := fun d i => by
            by_cases e : d = c
            · subst e; rw [e0]; exact Nat.zero_le _
            · rw [channelPins_congr (ho' d e)]
          pins := fun i => by rw [a4, e2]; simp [e0]; rfl
          attn := a5 }
    · rw [if_neg ho] at ht; rw [ht]
      exact unowned fun p' h => by rw [hp] at h; cases h; exact ho

/-- The parts of channels one after another. -/
theorem ChannelsTorn.append {slot : Slot} {code : MarkCode} {own : Option Chan} {c : Chan} {l : List Chan} {s t u : State}
    (hc : c ∉ l) (h : ChannelsTorn slot code own [c] s t) (k : ChannelsTorn slot code own l t u) :
    ChannelsTorn slot code own (c :: l) s u where
  torn d hd := by
    rcases List.mem_cons.1 hd with rfl | hd
    · refine .congr rfl rfl rfl (k.chans _ hc) (k.waiting _ fun x hx e => hc ?_) k.attn (h.torn _ (by simp))
      rw [Fin.succ_injective _ e]; exact hx
    · have hdc : d ≠ c := fun e => hc (e ▸ hd)
      refine .congr (h.chans d (by simpa using hdc)).symm h.granted.symm (h.waiting _ fun x hx e => hdc ?_).symm rfl rfl
        (.refl _) (k.torn d hd)
      rw [List.mem_singleton] at hx; subst hx; exact Fin.succ_injective _ e
  chans d hd := by
    rw [List.mem_cons, not_or] at hd
    rw [k.chans d hd.2, h.chans d (by simpa using hd.1)]
  waiting cl hcl := by
    rw [k.waiting cl fun x hx => hcl x (List.mem_cons_of_mem _ hx), h.waiting cl fun x hx => hcl x (by simp_all)]
  granted := by rw [k.granted, h.granted]
  su := by rw [k.su, h.su]
  fewer d i := (k.fewer d i).trans (h.fewer d i)
  pins i := by
    rw [k.pins, h.pins, Descriptor.unpinned_unpinned]
    have e1 : channelPins u c i = channelPins t c i := channelPins_congr (k.chans c hc) i
    have e2 : (l.map fun d => channelPins t d i - channelPins u d i) = l.map fun d => channelPins s d i - channelPins u d i :=
      List.map_congr_left fun d hd => by
        rw [channelPins_congr (h.chans d (by rw [List.mem_singleton]; rintro rfl; exact hc hd)) i]
    simp only [List.map_cons, List.map_nil, List.sum_cons, List.sum_nil, Nat.add_zero]
    rw [e2, e1]
  attn := h.attn.trans k.attn

/-- The parts of all these channels. -/
theorem teardownChannels_torn (cause : TeardownCause) (slot : Slot) (own : Option Chan) : ∀ (l : List Chan) (s : State),
    l.Nodup → ChannelsTorn slot (teardownMark cause) own l s (l.foldl (fun t c => teardownChannel cause slot own c t) s)
  | [], s, _ => ⟨fun _ h => absurd h List.not_mem_nil, fun _ _ => rfl, fun _ _ => rfl, rfl, rfl, fun _ _ => le_refl _,
      fun i => (Descriptor.unpinned_zero _).symm, .refl _⟩
  | c :: l, s, h => by
    rw [List.nodup_cons] at h
    exact .append h.1 (teardownChannel_torn cause slot own c s) (teardownChannels_torn cause slot own l _ h.2)

/-- What the Request Server's part of a teardown does: pins fall with a request that ends, the slot's count with it, and the
rest of what a teardown reaches stays. -/
structure ServerTorn (slot : Slot) (s t : State) : Prop where
  chans       : t.chans = s.chans
  port        : t.port = s.port
  rq          : t.rq = s.rq
  others      : ∀ other : Slot, other ≠ slot → t.su[other] = s.su[other]
  outstanding : t.su[slot].outstanding = s.su[slot].outstanding - (inServiceOf s slot - inServiceOf t slot)
  fewer       : ∀ i, serverPins t i ≤ serverPins s i
  pins        : ∀ i : DIdx, t.wt[i] = s.wt[i].unpinned (serverPins s i - serverPins t i)
  attn        : s.attn.Grows t.attn

/-- A change of the request in service that keeps its pins and its slot. -/
theorem ServerTorn.of_kept {slot : Slot} {s : State} {r r' : InService} (hr : s.server = some r) (hp : r'.pins = r.pins)
    (hq : r'.request = r.request) (hd : r'.detached = r.detached) :
    ServerTorn slot s { s with server := some r' } := by
  have e1 (i : DIdx) : serverPins { s with server := some r' } i = serverPins s i := by
    unfold serverPins; rw [hr]; dsimp only [Option.elim]; rw [hp]
  have e2 : inServiceOf { s with server := some r' } slot = inServiceOf s slot := by
    unfold inServiceOf; rw [hr]; dsimp only [Option.elim]; rw [hq, hd]
  exact ⟨rfl, rfl, rfl, fun _ _ => rfl, by rw [e2]; simp, fun i => by rw [e1], fun i => by rw [e1]; simp, .refl _⟩

/-- The Request Server's part of a teardown, of a slot that holds no interlock any more. -/
theorem teardownServer_torn (cause : TeardownCause) (slot : Slot) (own : Bool) (answers : List (BitVec 3 × Code)) (s : State)
    (hl : ∀ i : DIdx, s.wt[i].holder ≠ some slot) : ServerTorn slot s (teardownServer cause slot own answers s) := by
  have sends : ServerTorn slot s (sendAnswers slot answers s) := by
    rw [sendAnswers_eq]
    exact ⟨rfl, rfl, rfl, fun _ _ => rfl, by simp [inServiceOf], fun i => le_refl _, fun i => by simp [serverPins], .refl _⟩
  unfold teardownServer
  cases hr : s.server with
  | none => exact sends
  | some r =>
    dsimp only
    by_cases h : r.request.slot = slot ∧ (!r.detached) = true
    · obtain ⟨rfl, hd'⟩ := h
      have hd : r.detached = false := by simpa using hd'
      rw [if_pos ⟨rfl, hd'⟩]
      set r' : InService := { r with
        disposition := nextDisposition r cause own
        held := if cause = .departure then [] else r.held ++ answers
        sendKept := r.sendKept || own } with hr'
      cases own with
      | true => exact .of_kept hr rfl rfl rfl
      | false =>
        rw [if_neg (by decide)]
        rw [cutService_eq (s := s.setServer (some r')) rfl]
        by_cases he : r'.stage.early = true
        · rw [if_pos he]
          have hk : (s.setServer (some r')).lockGivenUp r' .ok = s.setServer (some r') := by
            unfold State.lockGivenUp
            split
            · rename_i w _
              rw [if_neg]
              rintro ⟨_, _, hh⟩
              exact hl w.index hh
            · rfl
          rw [hk]
          have e1 (i : DIdx) : serverPins s i = r.pins.count i := by unfold serverPins; rw [hr]; rfl
          have e2 : inServiceOf s r.request.slot = 1 := by
            unfold inServiceOf; rw [hr]; dsimp only [Option.elim]; rw [if_pos ⟨rfl, hd⟩]
          have f := removePins_frame r.pins { s.setServer (some r') with server := none }
          have hsu : ((s.setServer (some r')).ended r' .ok []).su =
              s.su.set r.request.slot (r'.leaves .ok s.su[r.request.slot]) := rfl
          exact {
            chans := by unfold State.ended; dsimp only; rw [f]; rfl
            port := by unfold State.ended; dsimp only; rw [f]; rfl
            rq := by unfold State.ended; dsimp only; rw [f]; rfl
            others := fun o ho => by rw [hsu, get_set_ne _ ho.symm]
            outstanding := by
              rw [hsu, get_set_self, e2]
              have : inServiceOf ((s.setServer (some r')).ended r' .ok []) r.request.slot = 0 := by
                unfold inServiceOf State.ended; dsimp only; rw [f]; rfl
              rw [this]
              unfold InService.leaves; dsimp only
              rw [if_neg (by rw [hd]; decide)]
              split <;> rfl
            fewer := fun i => by
              have : serverPins ((s.setServer (some r')).ended r' .ok []) i = 0 := by
                unfold serverPins State.ended; dsimp only; rw [f]; rfl
              rw [this]; exact Nat.zero_le _
            pins := fun i => by
              have : serverPins ((s.setServer (some r')).ended r' .ok []) i = 0 := by
                unfold serverPins State.ended; dsimp only; rw [f]; rfl
              rw [this, e1]
              exact removePins_wt r.pins i { s.setServer (some r') with server := none }
            attn := removePins_attn r.pins { s.setServer (some r') with server := none } }
        · rw [if_neg he]
          exact .of_kept hr rfl rfl rfl
    · rw [if_neg h]; exact sends

/-- The table's part of a teardown. -/
theorem teardownTable_wt (slot : Slot) (s : State) (i : DIdx) : (teardownTable slot s).wt[i] = s.wt[i].without slot := by
  show (mapTable (Descriptor.removeOpener slot) s.wt)[i] = _
  rw [Fin.getElem_fin, mapTable_get]
  unfold Descriptor.removeOpener Descriptor.releaseIfHolder Descriptor.without
  by_cases h : s.wt[i.val].holder = some slot
  · simp only [Fin.getElem_fin, if_pos h]; rfl
  · simp only [Fin.getElem_fin, if_neg h]

/-- A descriptor without a slot is not held by it, and pins that fall do not change that. -/
theorem Descriptor.without_holder (d : Descriptor) (slot : Slot) (n : Nat) :
    ((d.without slot).unpinned n).holder ≠ some slot := by
  unfold Descriptor.unpinned; split
  · simp
  · show (if d.holder = some slot then none else d.holder) ≠ some slot
    split
    · simp
    · assumption

/-- The parts of a teardown one after another: the table, the channels, the queue and the Request Server. -/
theorem TornDown.of_parts {s s1 s2 u : State} {slot : Slot} {code : MarkCode} {own : Option Chan}
    (hC : ChannelsTorn slot code own [0, 1, 2, 3] (teardownTable slot s) s1)
    (h2 : s2.wt = s1.wt ∧ s2.chans = s1.chans ∧ s2.port = s1.port ∧ s2.server = s.server ∧ s2.attn = s1.attn)
    (hrq : s2.rq = s.rq.filter fun q => q.slot != slot)
    (hsu : s2.su = s.su.set slot { s.su[slot] with outstanding := s.su[slot].outstanding - queuedOf s slot })
    (hS : ServerTorn slot s2 u) (ho : u.outside = s.outside) :
    TornDown s u slot code own ∧ s.attn.Grows u.attn := by
  obtain ⟨hwt, hch, hpo, hsv, hat⟩ := h2
  have inS : inServiceOf s2 slot = inServiceOf s slot := by unfold inServiceOf; rw [hsv]
  have srv (i : DIdx) : serverPins s2 i = serverPins s i := by unfold serverPins; rw [hsv]
  have ch (c : Chan) (i : DIdx) : channelPins u c i = channelPins s1 c i :=
    channelPins_congr (by rw [hS.chans, hch]) i
  refine ⟨⟨fun c => ?_, fun i => ?_, by rw [hS.rq, hrq], ?_, fun o ho => ?_, by rw [hS.port, hpo]; exact hC.granted, ?_,
    congrArg Outside.pm ho, congrArg Outside.mem ho, congrArg Outside.ecc ho, congrArg Outside.now ho,
    congrArg Outside.turns ho⟩,
    hC.attn.trans (hat ▸ hS.attn)⟩
  · exact .congr (s := teardownTable slot s) (u := s1) rfl rfl rfl (by rw [hS.chans, hch]) (by rw [hS.port, hpo])
      (hat ▸ hS.attn) (hC.torn c (by fin_cases c <;> decide))
  · rw [hS.pins, hwt, hC.pins, teardownTable_wt, Descriptor.unpinned_unpinned]
    congr 1
    have a (c : Chan) := hC.fewer c i
    have b := hS.fewer i
    have e (c : Chan) : channelPins (teardownTable slot s) c i = channelPins s c i := rfl
    unfold holdsOn
    rw [ch, ch, ch, ch]
    rw [srv] at b ⊢
    simp only [List.map_cons, List.map_nil, List.sum_cons, List.sum_nil, e] at *
    have a0 := a 0
    have a1 := a 1
    have a2 := a 2
    have a3 := a 3
    omega
  · rw [hS.outstanding, inS, hsu, get_set_self]
  · rw [hS.others o ho, hsu, get_set_ne _ ho.symm]
  · rw [hS.port, hpo]; exact hC.waiting _ fun c _ => by fin_cases c <;> decide

/-- What a teardown leaves. -/
theorem teardown_tornDown (cause : TeardownCause) (slot : Slot) (own : Bool) (ownList : Option Chan) (s : State) :
    TornDown s (teardown cause slot own ownList s) slot (teardownMark cause) ownList ∧
    s.attn.Grows (teardown cause slot own ownList s).attn := by
  have hC := teardownChannels_torn cause slot ownList [0, 1, 2, 3] (teardownTable slot s) (by decide)
  have hout := teardown_outside s cause slot own ownList
  obtain ⟨_, _, _, _, _, _, f⟩ := teardownChannels_frame cause slot ownList [0, 1, 2, 3] (teardownTable slot s)
  unfold teardown at *; dsimp only at *
  generalize hs1 : [0, 1, 2, 3].foldl (fun t c => teardownChannel cause slot ownList c t) (teardownTable slot s) = s1 at *
  have rq1 : s1.rq = s.rq := by rw [f]; rfl
  have sv1 : s1.server = s.server := by rw [f]; rfl
  have su1 : s1.su = s.su := hC.su
  unfold teardownQueue at *; dsimp only at *
  generalize hs2 : (s1.setRq (s1.rq.filter fun q => q.slot != slot)).updSlot slot (fun r =>
    { r with outstanding := r.outstanding - (s1.rq.filter fun q => q.slot == slot).length }) = s2 at *
  have e2 : s2.wt = s1.wt ∧ s2.chans = s1.chans ∧ s2.port = s1.port ∧ s2.server = s.server ∧ s2.attn = s1.attn := by
    subst hs2; exact ⟨rfl, rfl, rfl, sv1, rfl⟩
  refine TornDown.of_parts hC e2 (by subst hs2; show s1.rq.filter _ = _; rw [rq1]) ?_ (teardownServer_torn _ _ _ _ _ fun i => ?_) hout
  · rw [show queuedOf s slot = (s.rq.filter fun q => q.slot == slot).length from List.countP_eq_length_filter, ← rq1]
    subst hs2
    exact congrArg (fun v : Vector Requester 16 => v.set slot { v[slot] with
      outstanding := v[slot].outstanding - (s1.rq.filter fun q => q.slot == slot).length }) su1
  · rw [e2.1, hC.pins, teardownTable_wt]; exact Descriptor.without_holder _ _ _

/-- A slot that is torn down holds nothing (R148). -/
theorem TornDown.holdsNothing {s u : State} {slot : Slot} {code : MarkCode} {own : Option Chan}
    (h : TornDown s u slot code own) : HoldsNothing u slot := by
  obtain ⟨hc, hw, hq, -⟩ := h
  refine ⟨fun i => ?_, fun c => ?_, fun q hm => ?_⟩
  · rw [hw]
    have e : ((s.wt[i].without slot).openers[slot] = none) := by simp [Descriptor.without]
    unfold Descriptor.unpinned; split
    · simp
    · refine ⟨e, ?_, ?_⟩ <;> (dsimp only [Descriptor.without]; split <;> simp_all)
  · obtain ⟨h1, h2⟩ := hc c
    have hb : ∀ b, s.chans[c].backup.filter (fun b => b.owner != slot) = some b → b.owner ≠ slot := fun b e => by
      rw [Option.filter_eq_some_iff] at e; simpa using e.2
    by_cases ho : ∃ p, s.chans[c].primary = some p ∧ p.owner = some slot
    · obtain ⟨p, hp, ho⟩ := ho
      obtain ⟨m, hm⟩ : ∃ m, (p.mark <|> some ⟨code, slot⟩) = some m := by cases p.mark <;> simp
      obtain ⟨a, b⟩ := h2 p m hp ho hm
      by_cases hw : (∃ b, s.port.granted = some (Claimant.ch c, b)) ∨ own = some c
      · rw [(a hw).1]
        exact ⟨fun p' e => by cases e; simp, hb⟩
      · rw [(b hw).1]
        refine ⟨fun p' e => ?_, fun _ e => by cases e⟩
        rw [Option.map_eq_some_iff] at e
        obtain ⟨x, hx, rfl⟩ := e
        exact fun e => hb x hx (Option.some.inj e)
    · have := h1 fun p hp e => ho ⟨p, hp, e⟩
      rw [this.1]
      exact ⟨fun p hp e => ho ⟨p, hp, e⟩, hb⟩
  · rw [hq, List.mem_filter] at hm; simpa using hm.2

/-- Of the slot's own record a departure's and a barring's Request Server's part changes the count alone. -/
theorem teardownServer_record {cause : TeardownCause} (hc : cause ≠ .disable) (slot : Slot) (own : Bool)
    (answers : List (BitVec 3 × Code)) (s : State) : (teardownServer cause slot own answers s).su[slot] =
      { s.su[slot] with outstanding := (teardownServer cause slot own answers s).su[slot].outstanding } := by
  have hs : (sendAnswers slot answers s).su = s.su := by rw [sendAnswers_eq]
  unfold teardownServer
  cases hr : s.server with
  | none => dsimp only; rw [hs]
  | some r =>
    dsimp only
    by_cases h : r.request.slot = slot ∧ (!r.detached) = true
    · obtain ⟨rfl, hd⟩ := h
      rw [if_pos ⟨rfl, hd⟩]
      cases own with
      | true => rfl
      | false =>
        rw [if_neg (by decide)]
        generalize hr' : ({ r with
          disposition := nextDisposition r cause false
          held := if cause = .departure then [] else r.held ++ answers
          sendKept := r.sendKept || false } : InService) = r'
        have hn : r'.disposition ≠ .send := by
          subst hr'; show nextDisposition r cause false ≠ .send
          unfold nextDisposition; cases cause <;> cases r.disposition <;> first | exact absurd rfl hc | simp
        rw [show r.request = r'.request by subst hr'; rfl, cutService_eq (s := s.setServer (some r')) rfl]
        by_cases he : r'.stage.early = true
        · rw [if_pos he, State.ended_su]
          rw [get_set_self]; unfold InService.leaves
          simp only [hn, false_and, if_false]
          split <;> rfl
        · rw [if_neg he]; rfl
    · rw [if_neg h, hs]

/-- Of the slot's own record a teardown for departure or barring changes the count alone. -/
theorem teardown_record {cause : TeardownCause} (hc : cause ≠ .disable) (slot : Slot) (own : Bool) (ownList : Option Chan)
    (s : State) : (teardown cause slot own ownList s).su[slot] =
      { s.su[slot] with outstanding := (teardown cause slot own ownList s).su[slot].outstanding } := by
  have su1 := (teardownChannels_torn cause slot ownList [0, 1, 2, 3] (teardownTable slot s) (by decide)).su
  unfold teardown; dsimp only
  generalize [0, 1, 2, 3].foldl (fun t c => teardownChannel cause slot ownList c t) (teardownTable slot s) = s1 at *
  unfold teardownQueue; dsimp only
  rw [teardownServer_record hc]
  have e : s1.su[slot] = s.su[slot] := by rw [su1]; rfl
  simp only [State.updSlot, get_set_self, State.setRq_su, e]

/-! ### The violation that bars -/

/-- A slot's score rises, and its record with it. -/
theorem chargeScore_offerFault (reason : Code) (slot : Slot) (source : Option Chan) (h : Handle) (offset : Nat) (s : State) :
    chargeScore slot (offerFault reason slot source h offset s) = { s with
      su := s.su.set slot s.su[slot].charged
      attn := (chargeScore slot (offerFault reason slot source h offset s)).attn } := by
  have e : (offerFault reason slot source h offset s).su = s.su := by unfold offerFault; split <;> rfl
  unfold chargeScore
  simp only [e, Requester.withScore, scoreUp, Requester.charged]
  unfold offerFault
  split <;> split <;> simp_all [State.updSlot, State.setAttn, raiseStanding]

/-- The violation that brings a slot to 256 takes its teardown. -/
theorem violation_bars {s : State} {reason : Code} {slot : Slot} {source : Option Chan} {h : Handle} {offset : Nat}
    {own : Bool} (hs : 248 ≤ s.su[slot].score) (hb : s.su[slot].standing ≠ .barred) :
    violation reason slot source h offset own s =
      teardown .barring slot own source (chargeScore slot (offerFault reason slot source h offset s)) := by
  have e := chargeScore_offerFault reason slot source h offset s
  have h256 : (chargeScore slot (offerFault reason slot source h offset s)).su[slot].standing = .barred := by
    rw [e]; simp only [get_set_self, Requester.charged]
    rw [show min (s.su[slot].score + 8) 256 = 256 by omega]; rfl
  unfold violation; dsimp only
  rw [if_pos ⟨h256, hb⟩]

end Sys2Proof.Machine
end

