-- ==== Sys2Proof/Tests/Slice0.lean ====
section
/-! SUPPORT. The writer's own tests: the checks of WellFormed on ill-formed terms, one or two steps of each command on a small
bench, and for each statement a state and operands that meet its hypotheses. -/

namespace Sys2Proof.Tests

set_option Elab.async false

open Sys2Proof.Machine

/-! ### The checks of WellFormed -/

theorem test_upset_beyond_the_address_space_is_ill_formed :
    Instr.wellFormed (.burstComplete [⟨67108864, .multi⟩]) = false ∧
    Instr.wellFormed (.burstComplete [⟨67108863, .multi⟩]) = true := by decide
theorem test_expiry_of_the_null_index_is_ill_formed :
    Instr.wellFormed (.interlockExpiry 0) = false ∧ Instr.wellFormed (.interlockExpiry 255) = true := by decide
theorem test_known_code_is_no_unknown_command :
    Instr.wellFormed (.unknownCommand 0x31) = false ∧ Instr.wellFormed (.unknownCommand 0x32) = true := by decide
theorem test_register_with_its_own_row_is_no_register_write :
    Instr.wellFormed (.registerWrite 0x2C 0) = false ∧ Instr.wellFormed (.registerWrite 0x30 0) = true := by decide

/-! ### The bench -/

/-- A valid window of one page length 8192 at map entry 0, opened by slot 6 with all rights. -/
def window (ty : DType) : Descriptor :=
  { Descriptor.reset with
    state := .valid, dtype := ty, tag := 0x0500, level := 3, rights := 0xF, length := 8192
    openers := (Vector.replicate 16 none).set 6 (some 0xF) }

/-- A gate on descriptor 1 that shows 64 bytes from offset 16. -/
def gate : Descriptor :=
  { window .gate with length := 0, targetIndex := 1, gateOffset := 16, gateLength := 64 }

/-- Slot 6, enabled, present, seeing tag 0x0500. -/
def guest : Requester :=
  { Requester.reset true with
    enabled := true, level := 2, filters := (Vector.replicate 4 ⟨false, 0, 0⟩).set 0 ⟨true, 0x0500, 0xFFFF⟩ }

/-- Descriptors 1 DATA, 2 LIST, 3 GATE; map entry 0 valid at frame 5 and entry 1 a hole; slot 6 on the link. -/
def bench : State :=
  { State.reset with
    wt := ((State.reset.wt.set 1 (window .data)).set 2 (window .list)).set 3 gate
    pm := State.reset.pm.set 0 ⟨true, 5⟩
    su := State.reset.su.set 6 guest
    lines := { State.reset.lines with present := State.reset.lines.present.set 6 true } }

/-- A request of slot 6 with tag 1 at the head of the queue. -/
def asked (body : ReqBody) : Request := ⟨6, 1, body⟩

/-- The bench with that request waiting. -/
def queued (body : ReqBody) : State :=
  { bench with rq := [asked body], su := bench.su.set 6 { guest with outstanding := 1 } }

/-- The state that a command answers. -/
def after (i : Instr) (s : State) : State :=
  match exec i s with
  | .next t => t
  | _ => State.reset

/-- The code and the payload of the reply that ends the link's messages. -/
def lastReply (s : State) : Option (Code × List Byte) :=
  match s.linkOut.getLast? with
  | some (.reply r) => some (r.code, r.payload)
  | _ => none

/-- The bench with these parameter words. -/
def paramd (p0 p1 p2 p3 : Word) : State := { bench with engine := { bench.engine with params := #v[p0, p1, p2, p3] } }

/-- A handle of generation 0. -/
def h0 (i : DIdx) : Handle := ⟨0, i⟩

/-- The bench with a list of slot 6 in channel 0's primary, in this state and with this step and work. -/
def listed (st : ChanState) (step : Option Step) (w : Work) : State :=
  { bench with
    wt := bench.wt.set 2 { window .list with pins := 1 }
    chans := bench.chans.set 0 { Channel.reset with
      state := st
      primary := some { Primary.fresh 6 (h0 2) 0 [⟨2, .list⟩] w with step := step } } }

/-- The same with this burst of the channel granted. -/
def bursting (st : ChanState) (step : Option Step) (w : Work) (b : Burst) : State :=
  { listed st step w with port := { bench.port with granted := some (Claimant.ch 0, b), pointer := Claimant.ch 0 } }

/-- The same with channel 0's list carrying this ending mark. -/
def remarked (m : Option Mark) (s : State) : State :=
  s.updChan 0 fun ch => { ch with primary := ch.primary.map fun p => { p with mark := m } }

/-- The same with slot 5's list in channel 0's backup. -/
def backed (s : State) : State := s.updChan 0 fun ch => { ch with backup := some ⟨5, h0 2, 0⟩ }

/-- A READ of slot 6 in service with its burst granted. -/
def reading (r : InService → InService) : State :=
  { bench with
    wt := bench.wt.set 1 { window .data with pins := 1 }
    su := bench.su.set 6 { guest with outstanding := 1 }
    server := some (r { InService.begin (asked (.read (h0 1) 0 2)) with
      stage := .bursts, resolved := some ⟨1, none, 0xF, 1, 0, 2⟩, pins := [1] })
    port := { bench.port with granted := some (Claimant.rs, .read 20480 2) } }

/-! ### The link and the lines -/

theorem test_open_message_is_accepted :
    (after (.confirmation 6 [0x01, 0x09, 0x05, 0x00, 0x0F, 0x02]) bench).rq = [⟨6, 1, .openWindow 0x0500 0x0F⟩] := by
  decide +kernel
theorem test_bad_parity_is_refused :
    (after (.confirmation 6 [0x01, 0x09, 0x05, 0x00, 0x0F, 0x03]) bench).linkOut = [.confirmation 6 .refuse] := by
  decide +kernel
theorem test_present_rise :
    (after (.presentRise 4) bench).su[(4 : Slot)].present = true := by decide +kernel
theorem test_present_fall_removes_the_entry :
    (after (.presentFall 6) bench).wt[(1 : DIdx)].openers[(6 : Slot)] = none ∧
    (after (.presentFall 6) bench).attn.pending = 0x400 := by decide +kernel
theorem test_init_empties_the_queue :
    (after .init (queued (.query (h0 1)))).rq = [] ∧ (after .init bench).lines.init = true := by decide +kernel
theorem test_init_release : (after .initRelease (after .init bench)).lines.init = false := by decide +kernel
theorem test_reset_frees_the_table :
    (after .reset bench).wt[(1 : DIdx)].state = .free ∧ (after .reset bench).su[(6 : Slot)].present = true := by
  decide +kernel
theorem test_reset_release : (after .resetRelease (after .reset bench)).lines.reset = false := by decide +kernel

/-! ### Requests -/

theorem test_open_chooses_the_lowest :
    lastReply (after (.openWindow none) (queued (.openWindow 0x0500 0x0F))) = some (.ok, [0, 1]) := by decide +kernel
theorem test_open_of_an_unseen_tag :
    lastReply (after (.openWindow none) (queued (.openWindow 0x0501 0x01))) = some (.notFound, []) := by decide +kernel
theorem test_close_removes_the_entry :
    (after (.closeWindow none) (queued (.closeWindow (h0 1)))).wt[(1 : DIdx)].openers[(6 : Slot)] = none := by decide +kernel
theorem test_close_of_a_stale_handle :
    lastReply (after (.closeWindow none) (queued (.closeWindow ⟨1, 1⟩))) = some (.staleHandle, []) := by decide +kernel
theorem test_read_through_a_gate :
    (after (.read none) (queued (.read (h0 3) 4 8))).port.granted = some (Claimant.rs, .read 20500 8) := by decide +kernel
theorem test_read_of_a_hole :
    lastReply (after (.read none) (queued (.read (h0 1) 4096 1))) = some (.mapHole, []) := by decide +kernel
theorem test_write_takes_the_dram :
    (after (.write none) (queued (.write (h0 1) 5 [7, 8]))).port.granted = some (Claimant.rs, .write 20485 [7, 8]) := by
  decide +kernel
theorem test_write_beyond_the_window :
    lastReply (after (.write none) (queued (.write (h0 1) 8191 [7, 8]))) = some (.range, []) := by decide +kernel
theorem test_read_lock_takes_the_interlock :
    (after (.readLock none) (queued (.readLock (h0 1) 0 4))).wt[(1 : DIdx)].holder = some 6 := by decide +kernel
theorem test_write_unlock_without_the_interlock :
    lastReply (after (.writeUnlock none) (queued (.writeUnlock (h0 1) 0 [1]))) = some (.notHolder, []) := by decide +kernel
theorem test_query_of_a_gate :
    lastReply (after (.query none) (queued (.query (h0 3)))) = some (.ok, [1, 2, 0, 15, 0, 0, 64, 3]) := by decide +kernel
theorem test_start_fetches_the_first_step :
    (after (.start none) (queued (.start 0 (h0 2) 16))).port.granted = some (Claimant.ch 0, .read 20496 16) := by
  decide +kernel
theorem test_start_of_a_data_window :
    lastReply (after (.start none) (queued (.start 0 (h0 1) 16))) = some (.wrongType, []) := by decide +kernel
theorem test_cancel_ends_a_stopped_list :
    (after (.cancel none) { listed .stopped none .stopped with rq := [asked (.cancel 0)] }).chans[(0 : Chan)].outcome =
      ⟨true, 6, 2, .aborted, 0, 0⟩ := by decide +kernel
theorem test_cancel_of_an_idle_channel :
    lastReply (after (.cancel none) (queued (.cancel 3))) = some (.notFound, []) := by decide +kernel
theorem test_channel_status_of_an_idle_channel :
    (lastReply (after (.channelStatus none) (queued (.channelStatus 3)))).map (fun r => r.2.take 3) = some [0, 255, 0] := by
  decide +kernel
theorem test_unknown_kind_is_charged :
    (after (.unknownKind none) (queued (.unknown 0x7F))).su[(6 : Slot)].score = 8 := by decide +kernel

/-! ### Requests left between two claims -/

/-- An OPEN that examines index 1 after another claim has taken it away chooses the next one. -/
theorem test_open_examines_the_table_as_it_stands :
    lastReply (after (.openWindow none) ((after (.openWindow (some 2)) (queued (.openWindow 0x0500 0x0F))).updDesc 1
      fun d => { d with state := .retiring })) = some (.ok, [0, 2]) := by decide +kernel
theorem test_departure_ends_an_open_in_its_search :
    (after (.presentFall 6) (after (.openWindow (some 2)) (queued (.openWindow 0x0500 0x0F)))).server = none ∧
    (after (.presentFall 6) (after (.openWindow (some 2)) (queued (.openWindow 0x0500 0x0F)))).linkOut = [] := by
  decide +kernel
theorem test_link_reset_discards_the_reply_of_a_taken_close :
    (after (.closeWindow none) (after .init (after (.closeWindow (some 1)) (queued (.closeWindow (h0 1)))))).linkOut = [] := by
  decide +kernel
/-- A START fills the backup of a channel whose promoted list has not been checked; the check at the step's end then ends that
list, its window being absent, and promotes the START's, whose check fails in its turn. -/
theorem test_start_fills_the_backup_before_the_promotion_checks :
    let s : State := { listed .fetch none .promote with
      wt := bench.wt.set 2 { window .list with state := .absent }
      su := bench.su.set 6 { guest with outstanding := 1 }
      server := some { InService.begin (asked (.start 0 (h0 2) 32)) with stage := .slotClaim } }
    ((after (.start (some 1)) { s with turns := [some 0, none] }).chans[(0 : Chan)].primary.map fun p => (p.offset, p.work)) =
      some (32, .promote) ∧
    (after (.start (some 1)) s).chans[(0 : Chan)].outcome = ⟨true, 6, 2, .absent, 0, 32⟩ := by decide +kernel
/-- A marked list ends at its burst's completion; with a turn of none the checks of the promoted backup are left to a later
step, an idle one among them. -/
theorem test_turn_of_none_leaves_the_promotion_checks :
    let s : State := { backed (remarked (some ⟨.aborted, 6⟩) (bursting .move none (.unitWrite 1) (.write 20480 [1]))) with
      turns := [none] }
    let left : State := after (.burstComplete []) s
    ((left.chans[(0 : Chan)].primary.map fun p => (p.owner, p.work)) = some (some 5, .promote) ∧ left.turns = []) ∧
    (match step left with
      | .next t => some t.chans[(0 : Chan)].outcome
      | _ => none) = some ⟨true, 5, 2, .notOpen, 0, 0⟩ := by decide +kernel
/-- A ready channel whose turn it is goes before the lowest. -/
theorem test_channels_go_by_turns :
    let s : State := (listed .fetch none .fetch).updChan 3 fun _ => (listed .fetch none .fetch).chans[(0 : Chan)]
    (settle { s with turns := [some 3] }).port.granted = (settle s).port.granted ∧
    (settle { s with turns := [some 3, none] }).port.granted = some (Claimant.ch 3, .read 20480 16) ∧
    (settle s).port.granted = some (Claimant.ch 0, .read 20480 16) := by decide +kernel
theorem test_start_waits_for_its_slot_claim :
    (after (.start (some 2)) (queued (.start 0 (h0 2) 16))).chans[(0 : Chan)].primary = none ∧
    (after (.start (some 2)) (queued (.start 0 (h0 2) 16))).wt[(2 : DIdx)].pins = 1 := by decide +kernel

/-! ### Bursts, abort claims, expiries -/

theorem test_burst_ends_a_read :
    lastReply (after (.burstComplete []) (reading id)) = some (.ok, [0, 0]) ∧
    (after (.burstComplete []) (reading id)).wt[(1 : DIdx)].pins = 0 := by decide +kernel
theorem test_upset_is_corrected :
    lastReply (after (.burstComplete [⟨2560, .dataBit 3⟩]) (reading id)) = some (.ok, [0, 0]) ∧
    (after (.burstComplete [⟨2560, .dataBit 3⟩]) (reading id)).attn.pending = 0x800 := by decide +kernel
theorem test_force_abort_claim_ends_a_noted_list :
    (after (.forceAbortClaim 0) { listed .stopped none .stopped with
      chans := bench.chans.set 0 { Channel.reset with
        state := .stopped
        primary := some { Primary.fresh 6 (h0 2) 0 [⟨2, .list⟩] .stopped with noted := true } } }).chans[(0 : Chan)].state =
      .idle := by decide +kernel
theorem test_interlock_expiry_charges :
    (after (.interlockExpiry 1) { bench with wt := bench.wt.set 1 { window .data with
      holder := some 6, expiry := some 1000 } }).su[(6 : Slot)].score = 8 := by decide +kernel

/-! ### The manager's commands -/

theorem test_create_takes_the_lowest_free_index :
    (after .create (paramd 0x00010000 0x0B000500 0 65536)).engine.results = #v[4, 0, 0, 0] := by decide +kernel
theorem test_create_of_a_long_window :
    (after .create (paramd 0x00010000 0x0B000500 0 8388609)).engine.lastCode = .badField := by decide +kernel
theorem test_modify_replaces_the_tag :
    (after .modify (paramd 0x00010001 0x00001234 0 0)).wt[(1 : DIdx)].tag = 0x1234 := by decide +kernel
theorem test_set_absent : (after .setAbsent (paramd 1 0 0 0)).wt[(1 : DIdx)].state = .absent := by decide +kernel
theorem test_set_valid_of_a_valid_descriptor :
    (after .setValid (paramd 1 0 0 0)).engine.lastCode = .badState := by decide +kernel
theorem test_retire_frees :
    (after .retire (paramd 0x00010001 0 0 0)).wt[(1 : DIdx)].state = .free ∧
    (after .retire (paramd 0x00010001 0 0 0)).wt[(1 : DIdx)].gen = 1 := by decide +kernel
theorem test_read_descriptor :
    (after .readDescriptor (paramd 1 0 0 0)).engine.results = #v[0xF1000500, 0x00600040, 0, 8192] := by decide +kernel
theorem test_read_opener : (after .readOpener (paramd 1 6 0 0)).engine.results[0] = 0x10F := by decide +kernel
theorem test_probe_of_a_stranger : (after .probe (paramd 1 5 0 0)).engine.results[0] = 0x04 := by decide +kernel
theorem test_map_write :
    (after .mapWrite (paramd 2047 131071 1 0)).pm[(2047 : Fin 2048)] = ⟨true, 131071⟩ := by decide +kernel
theorem test_map_fill :
    (after .mapFill (paramd 100 4 300 0)).pm[(103 : Fin 2048)] = ⟨true, 303⟩ := by decide +kernel
theorem test_map_clear_keeps_the_frame :
    (after .mapClear (paramd 0 1 0 0)).pm[(0 : Fin 2048)] = ⟨false, 5⟩ := by decide +kernel
theorem test_map_read : (after .mapRead (paramd 0 0 0 0)).engine.results[0] = 0x01000005 := by decide +kernel
theorem test_requester_set_disables :
    (after .requesterSet (paramd 6 0 0 0)).wt[(2 : DIdx)].openers[(6 : Slot)] = none := by decide +kernel
theorem test_filter_set :
    (after .filterSet (paramd 0x00010306 0xFFFF0510 0 0)).su[(6 : Slot)].filters[3] = ⟨true, 0x0510, 0xFFFF⟩ := by
  decide +kernel
theorem test_requester_read :
    (after .requesterRead (paramd 6 0 0 0)).engine.results = #v[0x0200000B, 0xFFFF0500, 0, 0] := by decide +kernel
theorem test_readmit :
    (after .readmit { paramd 6 0 0 0 with su := bench.su.set 6 { guest with score := 256, standing := .barred } }).su[(6 : Slot)] =
      guest := by decide +kernel
theorem test_channel_read_of_an_idle_channel :
    (after .channelRead (paramd 3 0 0 0)).engine.results[0] = 0x1F000000 := by decide +kernel
theorem test_channel_abort_completes_on_an_idle_channel :
    (after .channelAbort (paramd 0x100 0 0 0)).engine.state = .idle := by decide +kernel
theorem test_channel_resume_fetches_again :
    (after .channelResume (listed .stopped none .stopped)).port.granted = some (Claimant.ch 0, .read 20480 16) := by
  decide +kernel
theorem test_fault_ack :
    (after .faultAck { bench with attn := { bench.attn with fault := ⟨true, true, .range, 6, none, h0 1, 3⟩ } }).attn.fault.valid =
      false := by decide +kernel
theorem test_set_lock_timeout :
    (after .setLockTimeout (paramd 16 0 0 0)).engine.timeout = 16 ∧
    (after .setLockTimeout (paramd 15 0 0 0)).engine.lastCode = .badField := by decide +kernel
theorem test_link_reset_completes : (after .linkReset bench).engine.state = .idle := by decide +kernel
theorem test_device_reset : (after .deviceReset bench).engine = Engine.reset := by decide +kernel
theorem test_unknown_command : (after (.unknownCommand 0x7F) bench).engine.lastCode = .badField := by decide +kernel
theorem test_engine_status_clears_overrun :
    (after .engineStatus { bench with engine := { bench.engine with overrun := true } }).busRead = 0x00010000 := by
  decide +kernel
theorem test_attn_pending_clears :
    (after (.attnPending 0x800) { bench with attn := { bench.attn with pending := 0xC00 } }).attn.pending = 0x400 := by
  decide +kernel
theorem test_attn_enable : (after (.attnEnable 0xFFFFF7BF) bench).attn.enable = 0x7BF := by decide +kernel
theorem test_register_write_stores_a_parameter :
    (after (.registerWrite 0x10 9) bench).engine.params = #v[0, 0, 0, 9] := by decide +kernel

/-! ### States and operands that meet the statements' hypotheses

Each theorem shows, for the statement it is named after, a state and operands for every clause; a burst's own outcome stands
there as the parts of what performBurst answers. -/

/-- Slot 6 with this score and standing. -/
def judged (score : Nat) (standing : Standing) (s : State) : State :=
  s.updSlot 6 fun r => { r with score := score, standing := standing }

/-- Descriptors 1 to 3 changed. -/
def tuned (f : Descriptor → Descriptor) (s : State) : State := ((s.updDesc 1 f).updDesc 2 f).updDesc 3 f

/-- The interlock of descriptor 1 held by a slot. -/
def locked (slot : Slot) (s : State) : State := s.updDesc 1 fun d => { d with holder := some slot, expiry := some 1000 }

/-- Sixty-four bytes. -/
def bytes64 : List Byte := List.replicate 64 1

/-- A window of descriptor 1 as a passing resolution of slot 6 returns it. -/
def seen (offset length : Nat) : Resolved := ⟨1, none, 0xF, 1, offset, length⟩

/-- The bench with a request of slot 6 in service at this stage. -/
def serving (stage : Stage) (body : ReqBody) : State :=
  { bench with
    su := bench.su.set 6 { guest with outstanding := 1 }
    server := some { InService.begin (asked body) with stage := stage } }

/-- The same with the list of its last claims changed: what a resolution of the window `seen` has left. -/
def resolvedAs (w : Resolved) (s : State) : State :=
  { s with wt := withPins s.wt w.pinned, server := s.server.map fun r => { r with resolved := some w, pins := w.pinned } }

/-- An OPEN search of slot 6 for tag 0x0500 with all rights that examines this index next. -/
def searching (next : DIdx) (verdict : RunningVerdict) : Search := ⟨0x0500, 0xF, 2, guest.filters, next, verdict⟩

theorem witness_StepCarriesOutTheFrontCommand :
    { bench with pending := [.init, .initRelease] }.pending = .init :: [.initRelease] := rfl

theorem witness_EveryStepAnswersANextState :
    State.reset.pending = [] ∧ (State.reset.server = none ∧ State.reset.rq = []) ∧
    (let q := queued (.query (h0 1));
      Settled q ∧ AtHead q (asked (.query (h0 1))) [] ∧
      ReqBody.row (.query (h0 1)) none ≠ ReqBody.row (.cancel 0) none) ∧
    ((∃ r, (reading id).server = some r ∧ r.stage = .bursts) ∧
      ∃ r, (serving .begun (.query (h0 1))).server = some r ∧
        r.request.body.row none ≠ ReqBody.row (.cancel 0) none) ∧
    ∀ body ∈ [ReqBody.closeWindow (h0 1), .query (h0 0), .cancel 3, .channelStatus 4, .unknown 0x0B],
      AtHead (queued body) (asked body) [] := by
  unfold Settled AtHead
  exact ⟨by decide +kernel, by decide +kernel, by decide +kernel, ⟨⟨_, rfl, rfl⟩, _, rfl, by decide⟩, by decide +kernel⟩

/-- No burst granted, a read, and a write; each time the engine ready. -/
theorem witness_DeviceResetGivesEveryBlockItsResetValues :
    let writes := bursting .move none (.unitWrite 1) (.write 20480 [1])
    (bench.port.granted = none ∧ bench.lines.reset = false ∧ EngineReady bench) ∧
    ((reading id).port.granted = some (Claimant.rs, .read 20480 2) ∧ EngineReady (reading id)) ∧
    CanonicalMemory writes ∧ writes.port.granted = some (Claimant.ch 0, .write 20480 [1]) ∧
    writes.lines.reset = false ∧ EngineReady writes := by
  unfold EngineReady CanonicalMemory; decide +kernel

theorem witness_AssertedResetPinHoldsThePart :
    (after .reset bench).lines.reset = true ∧ (after .reset bench).lines.present[(6 : Slot)] = true := by decide +kernel

/-- The bench, the bench with a full queue, and the bench with slot 6 at its credit; slot 0 is disabled. -/
theorem witness_ReadableMessageIsConfirmed :
    parseMessage [0x01, 0x09, 0x05, 0x00, 0x0F, 0x02] = some (1, .openWindow 0x0500 0x0F) ∧
    ∀ s ∈ [bench, { bench with rq := List.replicate 32 (asked (.query (h0 1))) },
        { bench with su := bench.su.set 6 { guest with outstanding := 4 } }],
      s.lines.init = false ∧ s.lines.reset = false ∧ s.rq.length ≤ 32 ∧ s.su[(6 : Slot)].outstanding ≤ 4 ∧
      s.su[(0 : Slot)].outstanding ≤ 4 := by decide +kernel

theorem witness_UnreadableMessageIsRefused :
    bench.lines.init = false ∧ bench.lines.reset = false ∧ parseMessage [0x0B, 0x00] = none ∧
    (after .init bench).lines.init = true := by decide +kernel

theorem witness_MessageFieldsAreRead :
    (∀ bytes ∈ ([[0x01, 1, 5, 0, 15, 10], [0x02, 1, 0, 1, 2], [0x03, 1, 0, 1, 0, 0, 0, 1, 2], [0x04, 1, 0, 1, 0, 0, 0, 1, 7, 2],
        [0x05, 1, 0, 1, 0, 0, 0, 1, 4], [0x06, 1, 0, 1, 0, 0, 0, 1, 7, 0], [0x07, 1, 0, 1, 7], [0x08, 1, 3, 0, 1, 0, 0, 0, 11],
        [0x09, 1, 3, 11], [0x0A, 1, 3, 8], [0x0B, 1, 10]] : List (List Byte)), bytes.foldl (fun x b => x ^^^ b) 0 = 0) ∧
    (0xFF : Byte).toNat = (List.replicate 255 (0 : Byte)).length ∧ (0 : Byte).toNat = ([] : List Byte).length ∧
    0x0B ≤ (0x0B : Byte).toNat := by decide +kernel

/-- A search about to read, with a visible and an invisible tag; each examination at the first index and the last; a search with
a passing descriptor, one without, and one at the highest score without a candidate. -/
theorem witness_OpenSearchChoosesTheLowestPassingDescriptor :
    let body := ReqBody.openWindow 0x0500 0x0F
    let of (k : Search) : State := judged 247 .limited (serving (.search k) body)
    let last (s : State) : State := s.updDesc 255 fun _ => window .data
    (∀ s ∈ [serving .checked body, serving .checked (.openWindow 0x0501 0x0F), of (searching 1 .notFound),
        of (searching 255 .level), of (searching 255 .rights)], Settled s ∧ s.su[(6 : Slot)].score ≤ 247) ∧
    ((0x0F : Byte).toNat < 16 ∧ visible guest.filters 0x0500 = true ∧ visible guest.filters 0x0501 = false) ∧
    (∀ i ∈ [1, 255], ((last bench).wt[(Fin.ofNat 256 i : DIdx)].state = .valid ∧
      (last bench).wt[(Fin.ofNat 256 i : DIdx)].tag = 0x0500)) ∧
    bench.wt[(255 : DIdx)].state = .free ∧
    (let low := tuned (fun d => { d with level := 1 }) bench;
      low.wt[(1 : DIdx)].level < (2 : Fin 4) ∧ (2 : Fin 4) ≤ bench.wt[(1 : DIdx)].level) ∧
    (let few := tuned (fun d => { d with rights := 7 }) bench;
      (0xF : Rights) &&& few.wt[(1 : DIdx)].rights ≠ 0xF ∧ (0xF : Rights) &&& bench.wt[(1 : DIdx)].rights = 0xF) ∧
    (let s := judged 255 .limited (serving (.search ⟨0x0501, 0xF, 2, guest.filters, 1, .notFound⟩) (.openWindow 0x0501 0x0F));
      Settled s ∧ 247 < s.su[(6 : Slot)].score ∧
      ∀ i : DIdx, ¬ (1 ≤ i ∧ (s.wt[i].state = .valid ∨ s.wt[i].state = .absent) ∧ s.wt[i].tag = 0x0501)) := by
  unfold Settled
  exact ⟨by decide +kernel, by decide +kernel, by decide +kernel, by decide +kernel, by decide +kernel, by decide +kernel,
    by decide +kernel⟩

/-- A window that passes, and the lowest; LIMITED slots at both ends of the scores; a byte of no rights; an invisible tag; and tables in which no
descriptor is a candidate, none admits the level, none has the rights. -/
theorem witness_OpenIsAnswered :
    let body := ReqBody.openWindow 0x0500 0x0F
    let candidate (s : State) (i : DIdx) : Prop :=
      i ≠ 0 ∧ (s.wt[i].state = .valid ∨ s.wt[i].state = .absent) ∧ s.wt[i].tag = 0x0500
    let admits (s : State) (i : DIdx) : Prop := candidate s i ∧ s.su[(6 : Slot)].level ≤ s.wt[i].level
    let passes (s : State) (i : DIdx) : Prop := admits s i ∧ (0xF : Rights) &&& s.wt[i].rights = 0xF
    (∀ b ∈ [body, .openWindow 0x0500 0x10, .openWindow 0x0501 0x0F],
      (Settled (queued b) ∧ AtHead (queued b) (asked b) [] ∧ (queued b).su[(6 : Slot)].standing ≠ .limited) ∧
      (∀ n ∈ [128, 247, 255], Settled (judged n .limited (queued b)) ∧ AtHead (judged n .limited (queued b)) (asked b) [] ∧
        (judged n .limited (queued b)).su[(6 : Slot)].standing = .limited) ∧
      (queued b).su[(6 : Slot)].score ≤ 247) ∧
    ((0x0F : Byte).toNat < 16 ∧ 16 ≤ (0x10 : Byte).toNat ∧ visible guest.filters 0x0500 = true ∧
      visible guest.filters 0x0501 = false) ∧
    (passes bench 1 ∧ ∀ j : DIdx, j < 1 → ¬ passes bench j) ∧
    (let s := tuned (fun d => { d with rights := 7 }) bench;
      (∀ i, ¬ passes s i) ∧ admits s 1) ∧
    (let s := tuned (fun d => { d with level := 1 }) bench;
      (∀ i, ¬ admits s i) ∧ candidate s 1) ∧
    (let s := tuned (fun d => { d with state := .retiring }) bench;
      ∀ i, ¬ candidate s i) := by
  unfold Settled AtHead
  exact ⟨by decide +kernel, by decide +kernel, by decide +kernel, by decide +kernel, by decide +kernel, by decide +kernel⟩

theorem witness_CloseIsAnswered :
    let s := queued (.closeWindow (h0 1))
    let shut := tuned (fun d => { d with openers := Vector.replicate 16 none }) s
    (Settled s ∧ AtHead s (asked (.closeWindow (h0 1))) [] ∧ s.su[(6 : Slot)].score ≤ 247 ∧
      (h0 1).index ≠ 0 ∧ s.wt[(1 : DIdx)].state ≠ .free ∧ s.wt[(1 : DIdx)].gen = 0 ∧
      s.wt[(1 : DIdx)].openers[(6 : Slot)] ≠ none) ∧
    AtHead (queued (.closeWindow (h0 0))) (asked (.closeWindow (h0 0))) [] ∧
    (AtHead (queued (.closeWindow (h0 4))) (asked (.closeWindow (h0 4))) [] ∧ s.wt[(4 : DIdx)].state = .free) ∧
    (AtHead (queued (.closeWindow ⟨1, 1⟩)) (asked (.closeWindow ⟨1, 1⟩)) [] ∧ s.wt[(1 : DIdx)].gen ≠ 1) ∧
    (Settled shut ∧ AtHead shut (asked (.closeWindow (h0 1))) [] ∧ shut.wt[(1 : DIdx)].openers[(6 : Slot)] = none ∧
      shut.wt[(1 : DIdx)].state ≠ .free) := by
  unfold Settled AtHead; decide +kernel

theorem witness_QueryDescribesTheWindow :
    let s := queued (.query (h0 3))
    let shut := tuned (fun d => { d with openers := Vector.replicate 16 none }) s
    Settled s ∧ AtHead s (asked (.query (h0 3))) [] ∧ s.wt[(3 : DIdx)].openers[(6 : Slot)] = some 0xF ∧
    AtHead (queued (.query (h0 0))) (asked (.query (h0 0))) [] ∧
    (AtHead (queued (.query ⟨1, 3⟩)) (asked (.query ⟨1, 3⟩)) [] ∧ s.wt[(3 : DIdx)].gen ≠ 1) ∧
    (Settled shut ∧ AtHead shut (asked (.query (h0 3))) [] ∧ shut.wt[(3 : DIdx)].openers[(6 : Slot)] = none ∧
      shut.wt[(3 : DIdx)].state ≠ .free) := by
  unfold Settled AtHead; decide +kernel

theorem witness_ChannelStatusAndUnknownKindsAreAnswered :
    (∀ channel ∈ ([0, 3, 4] : List Byte), Settled (judged 247 .limited (queued (.channelStatus channel))) ∧
      AtHead (judged 247 .limited (queued (.channelStatus channel))) (asked (.channelStatus channel)) []) ∧
    (3 : Byte).toNat = (3 : Chan).val ∧ 3 < (4 : Byte).toNat ∧
    (judged 247 .limited bench).su[(6 : Slot)].score ≤ 247 ∧
    Settled (queued (.unknown 0x0B)) ∧ AtHead (queued (.unknown 0x0B)) (asked (.unknown 0x0B)) [] := by
  unfold Settled AtHead; decide +kernel

/-- One byte, 64 bytes in one page, 64 bytes that reach the hole at map entry 1, and the last byte of the map. -/
theorem witness_TranslationFollowsThePageMap :
    Machine.translate bench 1 0 1 = .ok [(20480, 1)] ∧ Machine.translate bench 1 4032 64 = .ok [(24512, 64)] ∧
    Machine.translate bench 1 4033 64 = .error 1 ∧
    (let d := (tuned (fun d => { d with mapStart := 2047, length := 4096 }) bench).wt[(1 : DIdx)];
      d.mapStart + (d.firstOffset + 4095) / 4096 < 2048) := by decide +kernel

/-- A READ and a WRITE of one byte and of 64; a direct access of each kind at each of its stages, its resolution passing and
failing, its translation passing and meeting a hole; a LIMITED slot at the highest score, its window held and not. -/
theorem witness_ReadAndWriteRequestTheirFirstBurst :
    let s := queued (.read (h0 1) 0 1)
    let long := queued (.write (h0 1) 4032 bytes64)
    let bodies := [ReqBody.read (h0 1) 0 1, .write (h0 1) 0 [1], .readLock (h0 1) 0 1, .writeUnlock (h0 1) 0 [1]]
    (Settled s ∧ AtHead s (asked (.read (h0 1) 0 1)) [] ∧ resolve s 6 (h0 1) 0 1 Rights.R false false = .ok (seen 0 1) ∧
      Machine.translate s 1 0 1 = .ok [(20480, 1)] ∧ readBursts [(20480, 1)] = .read 20480 1 :: []) ∧
    (Settled long ∧ AtHead long (asked (.write (h0 1) 4032 bytes64)) [] ∧ bytes64.length = 64 ∧
      long.su[(6 : Slot)].standing ≠ .limited ∧
      resolve long 6 (h0 1) 4032 64 Rights.W false false = .ok (seen 4032 64) ∧
      Machine.translate long 1 4032 64 = .ok [(24512, 64)] ∧
      writeBursts [(24512, 64)] bytes64 = .write 24512 bytes64 :: []) ∧
    (∀ body ∈ bodies, ∀ stage ∈ [Stage.begun, .checked, .translation], Settled (serving stage body)) ∧
    (serving .begun (.write (h0 1) 0 [1])).su[(6 : Slot)].standing ≠ .limited ∧
    (∀ body ∈ bodies, let s := judged 255 .limited (serving .begun body);
      Settled s ∧ Settled (locked 6 s) ∧ s.su[(6 : Slot)].standing = .limited ∧ s.wt[(1 : DIdx)].holder ≠ some 6 ∧
      (locked 6 s).wt[(1 : DIdx)].holder = some 6) ∧
    (let s := judged 255 .limited (tuned (fun d => { d with state := .absent }) (serving .checked (.read (h0 1) 0 1)));
      Settled s ∧ Code.absent.isViolation = false ∧
      resolve s 6 (h0 1) 0 1 Rights.R false false = .error (.absent, some 1)) ∧
    (resolve bench 6 (h0 1) 0 1 Rights.W false false = .ok (seen 0 1) ∧
      resolve bench 6 (h0 1) 8192 1 Rights.R false false = .error (.range, none) ∧ bench.su[(6 : Slot)].score ≤ 247) ∧
    (let t := resolvedAs (seen 0 1) (serving .translation (.read (h0 1) 0 1));
      (∃ r, t.server = some r ∧ r.resolved = some (seen 0 1)) ∧ Machine.translate t 1 0 1 = .ok [(20480, 1)] ∧
      writeBursts [(20480, 1)] [1] = .write 20480 [1] :: [] ∧ Machine.translate t 1 4096 1 = .error 1) := by
  unfold Settled AtHead
  exact ⟨by decide +kernel, by decide +kernel, by decide +kernel, by decide +kernel, by decide +kernel, by decide +kernel,
    by decide +kernel, ⟨⟨_, rfl, rfl⟩, by decide +kernel, by decide +kernel, by decide +kernel⟩⟩

theorem witness_LockedAccessesTakeAndReleaseTheInterlock :
    let locks := ReqBody.readLock (h0 1) 0 64
    let unlocks := ReqBody.writeUnlock (h0 1) 0 [1]
    (∀ s ∈ [queued locks, locked 6 (queued locks)],
      Settled s ∧ AtHead s (asked locks) [] ∧ s.su[(6 : Slot)].standing ≠ .limited ∧
      resolve s 6 (h0 1) 0 64 (Rights.R ||| Rights.K) false false = .ok (seen 0 64) ∧
      Machine.translate s 1 0 64 = .ok [(20480, 64)] ∧
      (s.wt[(1 : DIdx)].holder = none ∨ s.wt[(1 : DIdx)].holder = some 6)) ∧
    (let s := locked 6 (queued unlocks);
      Settled s ∧ AtHead s (asked unlocks) [] ∧ s.wt[(1 : DIdx)].holder = some 6 ∧
      resolve s 6 (h0 1) 0 1 (Rights.W ||| Rights.K) false false = .ok (seen 0 1) ∧
      Machine.translate s 1 0 1 = .ok [(20480, 1)] ∧ writeBursts [(20480, 1)] [1] = .write 20480 [1] :: []) ∧
    (∀ s ∈ [serving .checked locks, locked 5 (serving .checked locks)], Settled s ∧
      resolve s 6 (h0 1) 0 64 (Rights.R ||| Rights.K) false false = .ok (seen 0 64)) ∧
    (let s := serving .checked unlocks;
      let marked := s.updDesc 1 fun d => { d with expiredHolder := some 6 };
      (∀ t ∈ [s, marked, locked 5 s, locked 6 s], Settled t ∧ t.su[(6 : Slot)].score ≤ 247 ∧
        resolve t 6 (h0 1) 0 1 (Rights.W ||| Rights.K) false false = .ok (seen 0 1)) ∧
      (marked.wt[(1 : DIdx)].holder = none ∧ marked.wt[(1 : DIdx)].expiredHolder = some 6) ∧
      s.wt[(1 : DIdx)].expiredHolder ≠ some 6 ∧ (locked 5 s).wt[(1 : DIdx)].holder = some 5) := by
  unfold Settled AtHead
  exact ⟨by decide +kernel, by decide +kernel, by decide +kernel, by decide +kernel, by decide +kernel, by decide +kernel,
    by decide +kernel⟩

theorem witness_LockedAccessesAreRefusedByOthersInterlocks :
    (let s := locked 5 (queued (.readLock (h0 1) 0 1));
      Settled s ∧ AtHead s (asked (.readLock (h0 1) 0 1)) [] ∧ s.su[(6 : Slot)].standing ≠ .limited ∧
      resolve s 6 (h0 1) 0 1 (Rights.R ||| Rights.K) false false = .ok (seen 0 1) ∧
      s.wt[(1 : DIdx)].holder ≠ none ∧ s.wt[(1 : DIdx)].holder ≠ some 6) ∧
    let s := queued (.writeUnlock (h0 1) 0 [1])
    let marked := s.updDesc 1 fun d => { d with expiredHolder := some 6 }
    (∀ t ∈ [s, marked, locked 5 s], Settled t ∧ AtHead t (asked (.writeUnlock (h0 1) 0 [1])) [] ∧
      t.su[(6 : Slot)].score ≤ 247 ∧ resolve t 6 (h0 1) 0 1 (Rights.W ||| Rights.K) false false = .ok (seen 0 1) ∧
      t.wt[(1 : DIdx)].holder ≠ some 6) ∧
    (marked.wt[(1 : DIdx)].holder = none ∧ marked.wt[(1 : DIdx)].expiredHolder = some 6) ∧
    s.wt[(1 : DIdx)].expiredHolder ≠ some 6 ∧ (locked 5 s).wt[(1 : DIdx)].holder ≠ none := by
  unfold Settled AtHead; decide +kernel

/-- An offset one too far, no bytes, 65 bytes, LIMITED slots at both ends of the scores, and two failing verdicts, the neutral
one at the highest score too. -/
theorem witness_DirectAccessIsTurnedAway :
    (∀ body ∈ [ReqBody.read (h0 1) 8388608 1, .readLock (h0 1) 0 0, .write (h0 1) 0 [], .writeUnlock (h0 1) 0 (1 :: bytes64),
        .readLock (h0 1) 0 1, .write (h0 1) 0 bytes64, .writeUnlock (h0 1) 0 [1]],
      (∀ n ∈ [128, 247, 255], Settled (judged n .limited (queued body)) ∧
        AtHead (judged n .limited (queued body)) (asked body) [] ∧
        (judged n .limited (queued body)).su[(6 : Slot)].standing = .limited) ∧
      (judged 247 .limited (queued body)).su[(6 : Slot)].score ≤ 247) ∧
    (let s := judged 255 .limited (tuned (fun d => { d with state := .absent }) (queued (.read (h0 1) 0 1)));
      Settled s ∧ AtHead s (asked (.read (h0 1) 0 1)) [] ∧ Code.absent.isViolation = false ∧
      resolve s 6 (h0 1) 0 1 Rights.R false false = .error (.absent, some 1)) ∧
    (∀ body ∈ [ReqBody.read (h0 1) 8388607 1, .write (h0 1) 8388607 [1], .readLock (h0 1) 8388607 1,
        .writeUnlock (h0 1) 8388607 [1]],
      Settled (queued body) ∧ AtHead (queued body) (asked body) [] ∧ (queued body).su[(6 : Slot)].standing ≠ .limited ∧
      (∀ needed ∈ [Rights.R, .W, .R ||| .K, .W ||| .K],
        resolve (queued body) 6 (h0 1) 8388607 1 needed false false = .error (.range, none) ∧
        resolve (tuned (fun d => { d with state := .absent }) (queued body)) 6 (h0 1) 8388607 1 needed false false =
          .error (.absent, some 1))) := by
  unfold Settled AtHead; decide +kernel

theorem witness_HoleEndsADirectAccess :
    (∀ body ∈ [ReqBody.read (h0 1) 4096 1, .write (h0 1) 4096 [1], .readLock (h0 1) 4096 1],
      Settled (queued body) ∧ AtHead (queued body) (asked body) [] ∧ (queued body).su[(6 : Slot)].standing ≠ .limited ∧
      (queued body).wt[(1 : DIdx)].holder = none ∧ Machine.translate (queued body) 1 4096 1 = .error 1 ∧
      ∀ needed ∈ [Rights.R, .W, .R ||| .K],
        resolve (queued body) 6 (h0 1) 4096 1 needed false false = .ok (seen 4096 1)) ∧
    let s := locked 6 (queued (.writeUnlock (h0 1) 4096 [1]))
    Settled s ∧ AtHead s (asked (.writeUnlock (h0 1) 4096 [1])) [] ∧ s.wt[(1 : DIdx)].holder = some 6 ∧
    Machine.translate s 1 4096 1 = .error 1 ∧
    resolve s 6 (h0 1) 4096 1 (Rights.W ||| Rights.K) false false = .ok (seen 4096 1) := by
  unfold Settled AtHead
  exact ⟨by decide +kernel, by decide +kernel⟩

/-- Sound words, and with the bank's reach at frame 5 a burst beyond it; a body of each kind, and more bursts to come. A service
at its end under each disposition, and a detached one that a LINK_RESET waits for alone, or beside a list. -/
theorem witness_BurstCompletionAdvancesADirectAccess :
    let far (s : State) : State := s.setPort { s.port with installedFrames := 5 }
    let of (body : ReqBody) : State := reading fun r => { r with request := asked body }
    let ending (f : InService → InService) (code : Code) : State :=
      reading fun r => f { r with stage := .ending code [], held := [(2, .disabled)] }
    (∀ s ∈ [reading id, of (.readLock (h0 1) 0 2), of (.write (h0 1) 0 [1, 2]), of (.writeUnlock (h0 1) 0 [1, 2]),
        reading (fun r => { r with rest := [.read 24576 1] }), far (reading id)],
      s.port.granted = some (Claimant.rs, .read 20480 2) ∧ s.server.isSome = true) ∧
    (performBurst (.read 20480 2) (reading id)).1 ≠ .uncorrectable ∧
    (performBurst (.read 20480 2) (far (reading id))).1 = .uncorrectable ∧
    (∀ d ∈ [Disposition.send, .discard, .disabled, .barred], ∀ code ∈ [Code.ok, .memoryError],
      Settled (ending (fun r => { r with disposition := d }) code) ∧
      (ending (fun r => { r with disposition := d }) code).server.any (fun r =>
        r.disposition == d && r.stage == .ending code []) = true) ∧
    (let s (lists : Vector Bool 4) : State :=
        { ending (fun r => { r with disposition := .discard, detached := true, held := [] }) .ok with
          engine := { bench.engine with state := .busy (.link lists true) } };
      ∀ lists ∈ [Vector.replicate 4 false, #v[false, false, false, true]], Settled (s lists) ∧
        (s lists).engine.state = .busy (.link lists true) ∧ (s lists).server.any (·.detached) = true) := by
  unfold Settled
  exact ⟨by decide +kernel, by decide +kernel, by decide +kernel, by decide +kernel, by decide +kernel⟩

/-- A write with no word to merge, one with a word to merge at its start or end, and one beyond the bank; an upset at the last
word and beyond it, of each kind, on a sound word and on one in error; a burst granted, and none. -/
theorem witness_WriteBurstStoresItsBytes :
    let bad (e : WordErr) : State := { bench with ecc := [(2560, e)] }
    (CanonicalMemory bench ∧ ([1] : List Byte) ≠ [] ∧ (performBurst (.write 20480 [1]) bench).1 ≠ .uncorrectable) ∧
    (∀ e ∈ [WordErr.dataBit 9, .checkBit], ∀ a ∈ [20480, 20473], CanonicalMemory (bad e) ∧
      (performBurst (.write a (List.replicate 8 1)) (bad e)).1 ≠ .uncorrectable) ∧
    (20473 / 8 ≤ 2560 ∧ 2560 ≤ (20473 + 8 - 1) / 8 ∧ ¬ (20473 ≤ 8 * 2560 ∧ 8 * 2560 + 8 ≤ 20473 + 8)) ∧
    (20480 / 8 ≤ 2560 ∧ 2560 ≤ (20480 + 8 - 1) / 8 ∧ (20480 ≤ 8 * 2560 ∧ 8 * 2560 + 8 ≤ 20480 + 8)) ∧
    (20481 / 4096 = (20481 + 8 - 1) / 4096 ∧ ¬ (20481 ≤ 8 * 2560 ∧ 8 * 2560 + 8 ≤ 20481 + 8) ∧
      (performBurst (.write 20481 (List.replicate 8 1)) (bad .checkBit)).1 ≠ .uncorrectable) ∧
    (bench.port.granted = none ∧ (reading id).port.granted ≠ none) ∧
    (∀ e ∈ [WordErr.dataBit 63, .checkBit, .multi], CanonicalMemory (bad e) ∧ Sparse.find (bad e).ecc 2560 = some e) ∧
    Sparse.find bench.ecc 67108863 = none ∧ (67108863 : Nat) < 67108864 := by
  unfold CanonicalMemory
  exact ⟨by decide +kernel, by decide +kernel, by decide +kernel, by decide +kernel, by decide +kernel, by decide +kernel,
    by decide +kernel, by decide +kernel⟩

/-- Bursts of one byte, of a whole page and of the bank's last byte; a word of each condition; a burst beyond the bank. -/
theorem witness_ReadBurstDeliversCorrectedBytes :
    let bad (e : WordErr) : State := { bench with ecc := [(2560, e)] }
    (20480 / 4096 = (20480 + 4096 - 1) / 4096 ∧ 536870911 / 4096 < bench.port.installedFrames) ∧
    (∀ w, Sparse.find bench.ecc w = none) ∧
    (2560 ≤ 20487 / 8 ∧ Sparse.find (bad (.dataBit 63)).ecc 2560 = some (.dataBit 63) ∧
      Sparse.find (bad .checkBit).ecc 2560 = some .checkBit) ∧
    (Sparse.find (bad .multi).ecc 2560 = some .multi ∧ ¬ (20481 ≤ 8 * 2560)) ∧
    ({ bench.port with installedFrames := 5 } : Port).installedFrames ≤ 20480 / 4096 ∧
    (∀ e, Sparse.find ({ bench with ecc := [(2560, .multi), (2561, e)] } : State).ecc 2561 = some e) ∧
    (∀ e, Sparse.find ({ bench with ecc := [(2560, .multi), (2561, e)] } : State).ecc 2560 = some .multi) ∧
    (¬ bench.port.installedFrames ≤ 20480 / 4096 ∧ 20481 / 8 = 2560 ∧ (20481 + 8 - 1) / 8 = 2561) := by
  refine ⟨by decide, fun _ => rfl, by decide, by decide, by decide, fun _ => rfl, fun _ => rfl, by decide⟩

theorem witness_FreeDramIsGrantedInRingOrder :
    let waits (cl : Claimant) : State := requestBurst cl (.read 0 1) bench
    (reading id).port.granted ≠ none ∧
    (bench.port.granted = none ∧ ∀ cl : Claimant, bench.port.waiting[cl] = none) ∧
    ∀ k : Nat, k ∈ [1, 5] → ∃ cl : Claimant, cl.val = (bench.port.pointer.val + k) % 5 ∧
      (waits cl).port.granted = none ∧ (waits cl).port.pointer = bench.port.pointer ∧
      (waits cl).port.waiting[cl] = some (.read 0 1) ∧
      ∀ j ∈ [1, 2, 3, 4], j < k → ∀ other : Claimant, other.val = (bench.port.pointer.val + j) % 5 →
        (waits cl).port.waiting[other] = none := by
  refine ⟨by decide, by decide, ?_⟩
  intro k hk
  simp only [List.mem_cons, List.not_mem_nil, or_false] at hk
  rcases hk with h | h <;> subst h
  · exact ⟨1, by decide⟩
  · exact ⟨0, by decide⟩

/-- An idle channel, a running one, one with both slots occupied, for the whole START and for its slot claim; its claims before
that; a channel whose promoted list has its checks to come, which fail; a bad channel byte or offset, LIMITED slots at both ends of the scores, two failing verdicts. -/
theorem witness_StartIsAnswered :
    let body := ReqBody.start 3 (h0 2) 16
    let running (s : State) : State := s.updChan 3 fun ch =>
      { ch with state := .stopped, primary := some (Primary.fresh 6 (h0 2) 0 [⟨2, .list⟩] .stopped) }
    let both (s : State) : State := (running s).updChan 3 fun ch => { ch with backup := some ⟨6, h0 2, 0⟩ }
    let claims (s : State) : State := resolvedAs ⟨2, none, 0xF, 2, 16, 1⟩ s
    (∀ s ∈ [queued body, running (queued body), both (queued body)],
      Settled s ∧ AtHead s (asked body) [] ∧ s.su[(6 : Slot)].standing ≠ .limited ∧
      resolve s 6 (h0 2) 16 1 Rights.F true true = .ok ⟨2, none, 0xF, 2, 16, 1⟩) ∧
    (∀ s ∈ [serving .begun body, serving .checked body, claims (serving .slotClaim body),
        running (claims (serving .slotClaim body)), both (claims (serving .slotClaim body))],
      Settled s ∧ s.su[(6 : Slot)].standing ≠ .limited ∧ s.su[(6 : Slot)].score ≤ 247 ∧
      resolve s 6 (h0 2) 16 1 Rights.F true true = .ok ⟨2, none, 0xF, 2, 16, 1⟩) ∧
    (∀ s ∈ [queued body, serving .slotClaim body], s.chans[(3 : Chan)].primary = none ∧
      (running s).chans[(3 : Chan)].primary ≠ none ∧ (running s).chans[(3 : Chan)].backup = none ∧
      (both s).chans[(3 : Chan)].backup ≠ none) ∧
    (∀ b ∈ [ReqBody.start 4 (h0 2) 0, .start 3 (h0 2) 8388608, .start 3 (h0 2) 8388607],
      (judged 247 .limited (queued b)).su[(6 : Slot)].score ≤ 247 ∧
      ∀ n ∈ [128, 247, 255], ∀ s ∈ [judged n .limited (queued b), judged n .limited (serving .begun b)],
        Settled s ∧ (s.server = none → AtHead s (asked b) []) ∧ s.su[(6 : Slot)].standing = .limited) ∧
    resolve (queued (.start 3 (h0 2) 8388607)) 6 (h0 2) 8388607 1 Rights.F true true = .error (.range, none) ∧
    resolve (tuned (fun d => { d with state := .absent }) (queued body)) 6 (h0 2) 16 1 Rights.F true true =
      .error (.absent, some 2) ∧
    (let promotes (s : State) : State := { listed .fetch none .promote with server := s.server, su := s.su }
      let filling : State := serving .slotClaim (.start 0 (h0 2) 16)
      (∀ s ∈ [filling, judged 128 .limited filling],
        (promotes s).chans[(0 : Chan)].primary = some (Primary.fresh 6 (h0 2) 0 [⟨2, .list⟩] .promote) ∧
        (promotes s).chans[(0 : Chan)].backup = none ∧ (promotes s).server = filling.server) ∧
      (promotes (judged 128 .limited filling)).su[(6 : Slot)].standing = .limited ∧
      resolve (tuned (fun d => { d with gen := 1 }) (promotes filling)) 6 (h0 2) 0 1 Rights.F true true =
        .error (.staleHandle, none) ∧ (promotes filling).su[(6 : Slot)].score ≤ 247) := by
  unfold Settled AtHead
  exact ⟨by decide +kernel, by decide +kernel, by decide +kernel, by decide +kernel, by decide +kernel, by decide +kernel,
    by decide +kernel⟩

/-- No slot of the channel is the sender's; the backup is; the primary is, its burst granted, or none of its bursts, carrying no
mark or one. -/
theorem witness_CancelAbortsTheSendersLists :
    let ask (s : State) : State := { s with rq := [asked (.cancel 0)] }
    let others : State := ask ((listed .stopped none .stopped).updChan 0 fun ch =>
      { ch with primary := ch.primary.map fun p => { p with owner := some 5 }, backup := some ⟨6, h0 2, 0⟩ })
    let mine : State := ask (listed .stopped none .stopped)
    let moving : State := ask (bursting .fetch none (.fetchBurst [] []) (.read 20480 16))
    (∀ s ∈ [queued (.cancel 0), others, mine, moving], Settled s ∧ AtHead s (asked (.cancel 0)) []) ∧
    ((queued (.cancel 0)).chans[(0 : Chan)].primary = none ∧ (queued (.cancel 0)).chans[(0 : Chan)].backup = none) ∧
    (others.chans[(0 : Chan)].primary.any (·.owner == some 6) = false ∧
      others.chans[(0 : Chan)].backup.any (·.owner == 6) = true) ∧
    (∀ s ∈ [mine, moving], ∀ m ∈ [none, some ⟨MarkCode.ownerGone, 5⟩],
      (remarked m s).chans[(0 : Chan)].primary.any (fun p => p.owner == some 6 && p.mark == m &&
        (p.mark <|> some ⟨.aborted, 6⟩).isSome) = true ∧
      Settled (remarked m s) ∧ AtHead (remarked m s) (asked (.cancel 0)) []) ∧
    (moving.port.granted = some (Claimant.ch 0, .read 20480 16) ∧ mine.port.granted = none) ∧
    (Settled (queued (.cancel 4)) ∧ AtHead (queued (.cancel 4)) (asked (.cancel 4)) [] ∧
      (queued (.cancel 4)).su[(6 : Slot)].score ≤ 247 ∧ 3 < (4 : Byte).toNat) := by
  unfold Settled AtHead
  exact ⟨by decide +kernel, by decide +kernel, by decide +kernel, by decide +kernel, by decide +kernel, by decide +kernel⟩

/-- A step fetch whose last burst brings the sixteenth byte, a 0: each kind of step, and none; an owner whom a violation charges,
and one whom it bars. -/
theorem witness_FetchedStepIsTakenUp :
    let fetched (got : List Byte) : State := bursting .fetch none (.fetchBurst [] got) (.read 20495 1)
    (∀ s ∈ [fetched [], judged 247 .limited (fetched []), judged 248 .limited (fetched []), judged 255 .limited (fetched [])],
      s.port.granted = some (Claimant.ch 0, .read 20495 1) ∧
      s.chans[(0 : Chan)].primary.any (fun p => p.work == .fetchBurst [] [] && p.mark == none && p.owner == some 6) = true ∧
      s.su[(6 : Slot)].standing ≠ .barred ∧ (performBurst (.read 20495 1) s).1 ≠ .uncorrectable ∧
      (performBurst (.read 20495 1) s).2.1 = [0]) ∧
    decodeStep ([] ++ [0]) = none ∧
    decodeStep ([2, 0, 127, 255, 240, 0, 0, 0, 0, 0, 0, 0, 0, 0, 0] ++ [0]) = some (.jump 8388592) ∧
    decodeStep ([1, 3, 0, 1, 0, 0, 0, 9, 0, 1, 127, 255, 255, 16, 0] ++ [0]) =
      some (.move (h0 1) 0 (h0 1) 8388607 1048576 9 true true) ∧
    decodeStep ([3, 0, 0, 1, 0, 0, 16, 0, 0, 0, 0, 0, 0, 0, 0] ++ [0]) = some (.halt (h0 1) 16) ∧
    ((judged 247 .limited bench).su[(6 : Slot)].score ≤ 247 ∧ 248 ≤ (judged 248 .limited bench).su[(6 : Slot)].score ∧
      Code.listFormat.isViolation = true ∧ Code.listLoop.isViolation = true) ∧
    (∀ n ∈ [7, 8], ((fetched []).updChan 0 fun ch => { ch with primary := ch.primary.map fun p =>
      { p with jumps := n } }).chans[(0 : Chan)].primary.any (fun p => p.jumps == n) = true) := by
  refine ⟨by decide +kernel, by decide, by decide, by decide, by decide, by decide +kernel, by decide +kernel⟩

/-- Lists at each check, the verdicts that each may find, and owners whom a violation charges and whom it bars. -/
theorem witness_ListIsCheckedAtPromotionAndFetch :
    (∀ s ∈ [listed .fetch none .promote, listed .fetch none .fetch, listed .fetch none .resume,
        listed .fetch (some (.halt (h0 1) 0)) .resume],
      s.chans[(0 : Chan)].primary.any (fun p => p.mark == none && p.owner == some 6 && p.handle == h0 2) = true ∧
      (s.su[(6 : Slot)].standing ≠ .limited ∧ s.su[(6 : Slot)].score ≤ 247) ∧
      ∀ n ∈ [248, 255], 248 ≤ (judged n .warned s).su[(6 : Slot)].score ∧
        (judged n .warned s).su[(6 : Slot)].standing ≠ .limited ∧ (judged n .warned s).su[(6 : Slot)].standing ≠ .barred) ∧
    (Code.rights.isViolation = true ∧ Code.absent.isViolation = false) ∧
    (judged 128 .limited (listed .fetch none .promote)).su[(6 : Slot)].standing = .limited ∧
    (let s := listed .fetch none .promote;
      resolve s 6 (h0 2) 0 1 Rights.F true true = .ok ⟨2, none, 0xF, 2, 0, 1⟩ ∧
      resolve (tuned (fun d => { d with state := .absent }) s) 6 (h0 2) 0 1 Rights.F true true =
        .error (.absent, some 2) ∧
      resolve (tuned (fun d => { d with rights := 7 }) s) 6 (h0 2) 0 1 Rights.F true true = .ok ⟨2, none, 7, 2, 0, 1⟩ ∧
      resolve (tuned (fun d => { d with rights := 0 }) s) 6 (h0 2) 0 1 Rights.F true true = .error (.rights, none)) ∧
    (∀ w ∈ [Work.fetch, .resume], let s := listed .fetch none w
      resolve (tuned (fun d => { d with state := .absent }) s) 6 (h0 2) 0 16 Rights.F true false =
        .error (.absent, some 2) ∧
      resolve (tuned (fun d => { d with rights := 0 }) s) 6 (h0 2) 0 16 Rights.F true false = .error (.rights, none) ∧
      resolve s 6 (h0 2) 0 16 Rights.F true false = .ok ⟨2, none, 0xF, 2, 0, 16⟩ ∧
      Machine.translate s 2 0 16 = .ok [(20480, 16)] ∧ readBursts [(20480, 16)] = .read 20480 16 :: [] ∧
      Machine.translate (tuned (fun d => { d with mapStart := 1 }) s) 2 0 16 = .error 1) := by
  exact ⟨by decide +kernel, by decide +kernel, by decide +kernel, by decide +kernel, by decide +kernel⟩

/-- A MOVE with a null source and one with a source, each handle passing, ABSENT and failing; a HALT with the null handle, and
with another one that passes, is ABSENT, fails, and meets a hole; steps whose pins stand already. -/
theorem witness_StepResolvesItsHandles :
    let fill := Step.move (h0 0) 0 (h0 1) 0 8192 9 false false
    let copy := Step.move (h0 3) 0 (h0 1) 0 64 0 true false
    let halt := Step.halt (h0 1) 0
    let change (f : Primary → Primary) (s : State) : State := s.updChan 0 fun ch => { ch with primary := ch.primary.map f }
    let again (step : Step) : State := change
      (fun p => { p with pins := [⟨2, .list⟩, ⟨3, .source⟩, ⟨1, .sourceTarget⟩, ⟨1, .destination⟩, ⟨1, .completion⟩] })
      (listed .stopped (some step) .resolve)
    (∀ step ∈ [fill, copy, halt, Step.halt (h0 0) 0], ∀ s ∈ [listed .fetch (some step) .resolve, again step],
      s.chans[(0 : Chan)].primary.any (fun p => p.work == .resolve && p.mark == none && p.owner == some 6 &&
        p.step == some step) = true ∧ s.su[(6 : Slot)].score ≤ 247 ∧
      ∀ n ∈ [248, 255], 248 ≤ (judged n .limited s).su[(6 : Slot)].score ∧
        (judged n .limited s).su[(6 : Slot)].standing ≠ .barred) ∧
    ((listed .fetch (some fill) .resolve).chans[(0 : Chan)].primary.any (·.pins.all (·.purpose == .list)) = true ∧
      ∀ u ∈ [Purpose.source, .destination, .completion],
        (again copy).chans[(0 : Chan)].primary.any (·.pins.any (·.purpose == u)) = true) ∧
    resolve bench 6 (h0 1) 0 8192 Rights.W false false = .ok (seen 0 8192) ∧
    (resolve bench 6 (h0 3) 0 64 Rights.R false false = .ok ⟨3, some 1, 0xF, 1, 16, 64⟩ ∧
      resolve (tuned (fun d => { d with rights := 0 }) bench) 6 (h0 3) 0 64 Rights.R false false = .error (.rights, none) ∧
      resolve (tuned (fun d => { d with state := .absent }) bench) 6 (h0 3) 0 64 Rights.R false false =
        .error (.absent, some 3)) ∧
    (∀ n ∈ [64, 8192, 8], let first := bench.updDesc 1 fun d => { d with state := .absent }
      let poor := bench.updDesc 1 fun d => { d with rights := 0 }
      resolve first 6 (h0 2) 0 64 Rights.R false false = .ok ⟨2, none, 0xF, 2, 0, 64⟩ ∧
      resolve first 6 (h0 1) 0 n Rights.W false false = .error (.absent, some 1) ∧
      resolve poor 6 (h0 2) 0 64 Rights.R false false = .ok ⟨2, none, 0xF, 2, 0, 64⟩ ∧
      resolve poor 6 (h0 1) 0 n Rights.W false false = .error (.rights, none)) ∧
    (resolve bench 6 (h0 1) 0 8 Rights.W false false = .ok (seen 0 8) ∧
      Machine.translate bench 1 0 8 = .ok [(20480, 8)] ∧ Machine.translate bench 1 4096 8 = .error 1 ∧
      writeBursts [(20480, 8)] [0, 0, 0, 0, 0, 0, 0, 6] = .write 20480 [0, 0, 0, 0, 0, 0, 0, 6] :: []) ∧
    (∀ w ∈ [seen 0 8, seen 4096 8],
      (change (fun p => { p with completion := some w }) (listed .halting (some halt) .record)).chans[(0 : Chan)].primary.any
        (fun p => p.work == .record && p.completion == some w) = true) := by
  refine ⟨by decide +kernel, by decide +kernel, by decide +kernel, by decide +kernel, by decide +kernel, by decide +kernel,
    by decide +kernel⟩

/-- The last unit of the longest step; a unit with a source and one without, its source or its destination in a hole or not. -/
theorem witness_TransferUnitStaysInOnePageOnEachSide :
    let copy := Step.move (h0 2) 0 (h0 1) 0 64 0 true false
    let moving (source : Option Resolved) (dest : Resolved) : State :=
      (listed .move (some copy) .unit).updChan 0 fun ch =>
        { ch with primary := ch.primary.map fun p => { p with source := source, dest := some dest } }
    ((1048575 : Nat) < 1048576 ∧ (0 : Nat) < 1) ∧
    (∀ source ∈ [none, some (seen 0 64), some (seen 4096 64)], ∀ dest ∈ [seen 64 64, seen 4096 64],
      (moving source dest).chans[(0 : Chan)].primary.any (fun p => p.work == .unit && p.mark == none && p.owner == some 6 &&
        p.step == some copy && p.source == source && p.dest == some dest && p.bytesDone == 0) = true ∧
      unitSize (moving source dest) source dest 64 0 false = 64) ∧
    (∀ w ∈ [seen 0 64, seen 64 64, seen 4096 64], unitOffset w 64 0 64 false = w.baseOffset) ∧
    Machine.translate bench 1 0 64 = .ok [(20480, 64)] ∧ Machine.translate bench 1 64 64 = .ok [(20544, 64)] ∧
    Machine.translate bench 1 4096 64 = .error 1 := by
  refine ⟨by decide, by decide +kernel, by decide +kernel, by decide +kernel, by decide +kernel, by decide +kernel⟩

/-- A unit's read, a unit's write before the last, and the last one of a step without and with LAST. -/
theorem witness_UnitIsReadWrittenAndCounted :
    let step (last : Bool) := Step.move (h0 2) 0 (h0 1) 0 64 0 last false
    let reads := bursting .move (some (step false)) (.unitRead 64 24576) (.read 20480 64)
    let writes (n : Nat) (last : Bool) := bursting .move (some (step last)) (.unitWrite n) (.write 20480 (List.replicate n 1))
    (reads.port.granted = some (Claimant.ch 0, .read 20480 64) ∧
      (performBurst (.read 20480 64) reads).1 ≠ .uncorrectable ∧
      reads.chans[(0 : Chan)].primary.any (fun p => p.work == .unitRead 64 24576 && p.mark == none && p.owner == some 6 &&
        p.step == some (step false)) = true) ∧
    (∀ last ∈ [false, true], ∀ n ∈ [63, 64], (writes n last).port.granted =
        some (Claimant.ch 0, .write 20480 (List.replicate n 1)) ∧
      (performBurst (.write 20480 (List.replicate n 1)) (writes n last)).1 ≠ .uncorrectable ∧
      (writes n last).chans[(0 : Chan)].primary.any (fun p => p.work == .unitWrite n && p.mark == none &&
        p.owner == some 6 && p.step == some (step last) && p.bytesDone == 0) = true) ∧
    0 + 63 < 64 ∧ 64 ≤ 0 + 64 := by decide +kernel

/-- A marked list whose burst is a unit's write, or another, or uncorrectable; an unmarked one's uncorrectable burst; and a
fetch's and a record's bursts with another one to follow, and the record's last. -/
theorem witness_BurstBoundaryEndsMarkedAndFailedLists :
    let marked (s : State) : State := s.updChan 0 fun ch =>
      { ch with primary := ch.primary.map fun p => { p with mark := some ⟨.aborted, 6⟩ } }
    let writes := bursting .move none (.unitWrite 1) (.write 20480 [1])
    let fetches := bursting .fetch none (.fetchBurst [] []) (.read 20480 16)
    let far (s : State) : State := s.setPort { s.port with installedFrames := 5 }
    let next := Burst.read 24576 8
    (∀ s ∈ [marked writes, marked (far writes), far writes],
      s.port.granted = some (Claimant.ch 0, .write 20480 [1]) ∧ (s.chans[(0 : Chan)].primary).isSome = true) ∧
    ((marked fetches).port.granted = some (Claimant.ch 0, .read 20480 16) ∧
      (marked fetches).chans[(0 : Chan)].primary.any (fun p => p.mark.isSome && p.work == .fetchBurst [] []) = true) ∧
    (performBurst (.write 20480 [1]) (marked writes)).1 ≠ .uncorrectable ∧
    (performBurst (.write 20480 [1]) (marked (far writes))).1 = .uncorrectable ∧
    (performBurst (.write 20480 [1]) (far writes)).1 = .uncorrectable ∧
    ∀ w ∈ [Work.fetchBurst [next] [], .recordBurst [next], .recordBurst []],
      let s := bursting .halting none w (.read 20480 8)
      s.port.granted = some (Claimant.ch 0, .read 20480 8) ∧
      s.chans[(0 : Chan)].primary.any (fun p => p.mark == none && p.work == w) = true ∧
      (performBurst (.read 20480 8) s).1 ≠ .uncorrectable := by decide +kernel

/-- A list of slot 6 and one whose owner has been torn down; an engine that waits for it, for another, and for lists. -/
theorem witness_ListEndRecordsItsOutcome :
    let s := listed .move none .unit
    let orphan := s.updChan 0 fun ch => { ch with primary := ch.primary.map fun p =>
      { p with owner := none, mark := some ⟨.ownerGone, 6⟩ } }
    let waits (w : Wait) : State := { s with engine := { s.engine with state := .busy w } }
    (∀ t ∈ [s, waits (.abort 0), waits (.abort 3), waits (.link #v[true, false, false, false] false),
        waits (.link #v[true, false, false, true] true)],
      t.chans[(0 : Chan)].primary = some (Primary.fresh 6 (h0 2) 0 [⟨2, .list⟩] .unit) ∧
      t.wt[(2 : DIdx)].state ≠ .retiring) ∧
    orphan.chans[(0 : Chan)].primary.any (fun p => p.owner == none && p.mark == some ⟨.ownerGone, 6⟩ &&
      p.pins == [⟨2, .list⟩]) = true ∧ Code.ownerGone ≠ .ok := by decide +kernel

/-- A channel that is not noted, and a noted one between bursts and with its burst granted: without a mark, with one, and with
one and no owner. -/
theorem witness_NotedChannelTakesItsAbortClaim :
    let noted (owner : Option Slot) (m : Option Mark) (s : State) : State := s.updChan 0 fun ch =>
      { ch with primary := ch.primary.map fun p => { p with noted := true, owner := owner, mark := m } }
    let stopped := listed .stopped none .stopped
    let moving := bursting .fetch none (.fetchBurst [] []) (.read 20480 16)
    Settled bench ∧ bench.chans[(0 : Chan)].primary = none ∧
    (∀ s ∈ [stopped, moving], ∀ x ∈ [(some (6 : Slot), none), (some 6, some ⟨MarkCode.ownerBarred, 6⟩),
        (none, some ⟨MarkCode.ownerGone, 6⟩)], Settled (noted x.1 x.2 s) ∧
      (noted x.1 x.2 s).chans[(0 : Chan)].primary.any (fun p => p.noted && p.mark == x.2 && p.owner == x.1 &&
        (p.mark <|> some ⟨.aborted, p.owner.getD 0⟩).isSome) = true) ∧
    stopped.port.granted = none ∧ moving.port.granted = some (Claimant.ch 0, .read 20480 16) := by
  unfold Settled
  exact ⟨by decide +kernel, by decide +kernel, by decide +kernel, by decide +kernel, by decide +kernel⟩

/-- Whatever the parameter words, the bench with them is settled and its engine ready. -/
theorem paramd_ready (p0 p1 p2 p3 : Word) : EngineReady (paramd p0 p1 p2 p3) ∧ Settled (paramd p0 p1 p2 p3) := by
  refine ⟨⟨rfl, rfl⟩, ?_⟩
  show Settled bench
  unfold Settled; decide +kernel

theorem witness_LastPinFreesARetiringDescriptor :
    let retiring (n : Nat) : Descriptor := { window .data with state := .retiring, pins := n }
    (∀ st ∈ [EngineState.idle, .busy (.retire 1), .busy (.retire 2)], ∀ n ∈ [1, 2],
      ({ bench with wt := bench.wt.set 1 (retiring n), engine := { bench.engine with state := st } } : State).wt[(1 : DIdx)] =
        retiring n) ∧
    (retiring 1).state = .retiring ∧ 2 ≤ (retiring 2).pins ∧ bench.wt[(1 : DIdx)].state ≠ .retiring := by decide +kernel

/-- A window without an interlock, and one whose holder the expiry charges, and bars. -/
theorem witness_InterlockExpiryMarksAndChargesTheHolder :
    Settled bench ∧ bench.wt[(1 : DIdx)].holder = none ∧
    ∀ n ∈ [0, 247, 248, 255], let s := judged n .limited (locked 6 bench)
      Settled s ∧ s.wt[(1 : DIdx)].holder = some 6 ∧ s.wt[(1 : DIdx)].expiry = some 1000 ∧
      s.su[(6 : Slot)].score = n ∧ s.su[(6 : Slot)].standing ≠ .barred := by
  unfold Settled; decide +kernel

/-- A low line; the high line of a disabled slot, of a BARRED one and of an enabled one; a request of the slot in service at
each stage, one of another slot, and none; the slot's list between bursts and with its burst granted, another slot's backup
behind it. -/
theorem witness_PresentLinesComeAndGo :
    let high : State := { bench with lines := { bench.lines with present := bench.lines.present.set 5 true } }
    bench.lines.present[(5 : Slot)] = false ∧
    (Settled high ∧ high.lines.present[(5 : Slot)] = true ∧ high.lines.reset = false ∧
      high.su[(5 : Slot)].enabled = false ∧ inServiceOf high 5 = 0) ∧
    ((judged 256 .barred high).su[(6 : Slot)].standing = .barred ∧ inServiceOf (judged 256 .barred high) 6 = 0) ∧
    (Settled bench ∧ bench.lines.present[(6 : Slot)] = true ∧ bench.su[(6 : Slot)].enabled = true ∧
      bench.su[(6 : Slot)].standing ≠ .barred) ∧
    (∀ stage ∈ [Stage.begun, .checked, .search (searching 1 .notFound), .slotClaim, .translation, .bursts, .ending .ok []],
      (serving stage (.start 0 (h0 2) 0)).lines.present[(6 : Slot)] = true ∧
      (serving stage (.start 0 (h0 2) 0)).lines.reset = false ∧
      (serving stage (.start 0 (h0 2) 0)).server.any (fun r =>
        r.request.slot == 6 && r.request.slot != 5 && !r.detached && r.stage == stage) = true) ∧
    (let between := listed .stopped none .stopped;
      let moving := bursting .fetch none (.fetchBurst [] []) (.read 20480 16);
      (∀ s ∈ [between, moving], ∀ m ∈ [none, some ⟨MarkCode.aborted, 6⟩], let s := remarked m (backed s)
        s.lines.present[(6 : Slot)] = true ∧ s.lines.reset = false ∧ s.su[(6 : Slot)].enabled = true ∧
        s.su[(6 : Slot)].standing ≠ .barred ∧ s.chans[(0 : Chan)].backup = some ⟨5, h0 2, 0⟩ ∧
        s.chans[(0 : Chan)].primary.any (fun p => p.owner == some 6 && (p.mark <|> some ⟨.ownerGone, 6⟩).isSome) = true) ∧
      between.port.granted = none ∧ moving.port.granted = some (Claimant.ch 0, .read 20480 16)) := by
  unfold Settled
  exact ⟨by decide +kernel, by decide +kernel, by decide +kernel, by decide +kernel, by decide +kernel, by decide +kernel⟩

/-- INIT rising and INIT high; nothing running, and lists between bursts and with a burst granted, marked and not; a request in
service before and after its deciding claim; an engine that waits for lists. -/
theorem witness_LinkResetsEmptyTheLinkAndTheTable :
    let moving := bursting .fetch none (.fetchBurst [] []) (.read 20480 16)
    let marked := moving.updChan 0 fun ch => { ch with primary := ch.primary.map fun p => { p with mark := some ⟨.ownerGone, 5⟩ } }
    (bench.lines.reset = false ∧ bench.lines.init = false ∧ (after .init bench).lines.reset = false ∧
      (after .init bench).lines.init = true) ∧
    (EngineReady bench ∧ Settled bench ∧ bench.server = none ∧ ∀ c : Chan, bench.chans[c].primary = none) ∧
    (∀ s ∈ [listed .stopped none .stopped, moving, marked],
      s.chans[(0 : Chan)].primary.any (fun p => (p.mark <|> some ⟨.aborted, p.owner.getD 0⟩).isSome) = true) ∧
    (moving.port.granted = some (Claimant.ch 0, .read 20480 16) ∧ (listed .stopped none .stopped).port.granted = none) ∧
    ((∃ r, (serving .checked (.query (h0 1))).server = some r ∧ r.stage.early = true) ∧
      ∃ r, (serving .slotClaim (.start 0 (h0 2) 0)).server = some r ∧ r.stage.early = false) ∧
    (let waits (s : State) : State :=
        { s with engine := { s.engine with state := .busy (.link (Vector.replicate 4 false) false) } };
      ((linkReset (waits bench)).server = none ∧ ∀ c : Chan, (linkReset (waits bench)).chans[c].primary = none) ∧
      (linkReset (waits moving)).chans[(0 : Chan)].primary ≠ none ∧
      (linkReset (waits (serving .slotClaim (.start 0 (h0 2) 0)))).server ≠ none) := by
  unfold Settled EngineReady
  exact ⟨by decide +kernel, by decide +kernel, by decide +kernel, by decide +kernel, ⟨⟨_, rfl, rfl⟩, _, rfl, rfl⟩,
    by decide +kernel⟩

theorem witness_BusyOrUnknownCommandsTakeNoEffect :
    (let s : State := { bench with engine := { bench.engine with state := .busy (.abort 0) } };
      s.lines.reset = false ∧ s.engine.state = .busy (.abort 0)) ∧
    EngineReady bench ∧ Settled bench ∧ Instr.wellFormed (.unknownCommand 0x32) = true := by
  unfold Settled EngineReady; decide +kernel

/-- An index, the other fields and the target of a CREATE in and out of their ranges; a table without a FREE descriptor. -/
theorem witness_CreateMakesADescriptor :
    let full : State := tuned id { paramd 0x00010000 0x0B000500 0 1 with wt := Vector.replicate 256 (window .data) }
    (∀ p0 p1 p2 p3, EngineReady (paramd p0 p1 p2 p3) ∧ Settled (paramd p0 p1 p2 p3)) ∧
    (0x00010100 % 65536 > 255 ∧ 0x000100FF % 65536 = (255 : DIdx).val ∧ bench.wt[(255 : DIdx)].state = .free ∧
      bench.wt[(1 : DIdx)].state ≠ .free ∧ 2 < 0x00310000 / 1048576 % 16) ∧
    (0 + 65536 ≤ (2048 - 0) * 4096 ∧ (2048 - 2047) * 4096 < 4095 + 2) ∧
    (EngineReady full ∧ Settled full ∧ ∀ i : DIdx, i ≠ 0 → full.wt[i].state ≠ .free) ∧
    (∀ j : DIdx, j ≠ 0 → j < 4 → bench.wt[j].state ≠ .free) ∧ bench.wt[(4 : DIdx)].state = .free ∧
    (bench.wt[(1 : DIdx)].state = .valid ∧ bench.wt[(1 : DIdx)].dtype = .data ∧ bench.wt[(1 : DIdx)].length = 8192) := by
  refine ⟨paramd_ready, by decide +kernel, by decide +kernel, by unfold EngineReady Settled; decide +kernel,
    by decide +kernel, by decide +kernel, by decide +kernel⟩

/-- A bad index; a FREE descriptor; a bad mask; a gate whose target has gone; a pinned descriptor; and a change that is
made. -/
theorem witness_ModifyReplacesTheNamedGroups :
    let s := paramd 0x00040001 0 0 4096
    let gateMove := paramd 0x00040003 0 0 8193
    let pinned := s.updDesc 1 fun d => { d with pins := 1 }
    (∀ t ∈ [paramd 0x00040100 0 0 1, paramd 0x00040004 0 0 1, paramd 0x00080001 0 0 1, s, gateMove, pinned],
      EngineReady t ∧ Settled t) ∧
    (0x00040100 % 65536 > 255 ∧ 0x00080001 / 65536 % 256 > 7) ∧
    (bench.wt[(4 : DIdx)].state = .free ∧ s.wt[(1 : DIdx)].state = .valid ∧ s.wt[(1 : DIdx)].pins = 0 ∧
      pinned.wt[(1 : DIdx)].pins = 1) ∧
    (gateMove.wt[(3 : DIdx)].dtype = .gate ∧ gateMove.wt[gateMove.wt[(3 : DIdx)].targetIndex].length < 0 + 8193) := by
  unfold Settled EngineReady
  exact ⟨by decide +kernel, by decide +kernel, by decide +kernel, by decide +kernel⟩

theorem witness_AbsentAndValidMarksMove :
    let absent := tuned (fun d => { d with state := .absent }) (paramd 1 0 0 0)
    (∀ t ∈ [paramd 0 0 0 0, paramd 256 0 0 0, paramd 255 0 0 0, paramd 1 0 0 0, absent], EngineReady t ∧ Settled t) ∧
    (paramd 255 0 0 0).wt[(255 : DIdx)].state ≠ .valid ∧ (paramd 1 0 0 0).wt[(1 : DIdx)].state = .valid ∧
    absent.wt[(1 : DIdx)].state = .absent := by
  unfold Settled EngineReady
  exact ⟨by decide +kernel, by decide +kernel, by decide +kernel, by decide +kernel⟩

/-- A bad mode, a FREE descriptor, a RETIRING one, and each mode with and without a pin. -/
theorem witness_RetireEndsADescriptor :
    let of (mode : Nat) (f : Descriptor → Descriptor) : State := tuned f (paramd (BitVec.ofNat 32 (mode * 65536 + 1)) 0 0 0)
    (∀ mode ∈ [0, 1, 2, 3], ∀ pins ∈ [0, 1], EngineReady (of mode fun d => { d with pins := pins }) ∧
      Settled (of mode fun d => { d with pins := pins }) ∧
      (of mode fun d => { d with pins := pins }).wt[(1 : DIdx)].pins = pins ∧
      (of mode fun d => { d with pins := pins }).engine.params[0].toNat / 65536 % 256 = mode) ∧
    bench.wt[(1 : DIdx)].state = .valid ∧
    (of 1 fun d => { d with state := .retiring, pins := 1 }).wt[(1 : DIdx)].state = .retiring ∧
    (of 1 fun d => { d with state := .free }).wt[(1 : DIdx)].state = .free := by
  unfold Settled EngineReady
  exact ⟨by decide +kernel, by decide +kernel, by decide +kernel, by decide +kernel⟩

theorem witness_ReadingCommandsAnswerTheRecord :
    (∀ p0 p1, EngineReady (paramd p0 p1 0 0) ∧ Settled (paramd p0 p1 0 0)) ∧ 255 < 256 % 65536 ∧
    255 % 65536 = (255 : DIdx).val ∧ 2047 < 2048 % 65536 ∧ 0x10F % 256 = (15 : Slot).val ∧ 1 < 0x20F / 256 % 256 ∧
    15 < 16 % 256 ∧ 0x203 % 256 = (3 : Chan).val ∧ 2 < 0x303 / 256 % 256 ∧ 3 < 4 % 256 ∧
    bench.pm[(2047 : Fin 2048)].frame ≤ 131071 ∧ 0xF0F % 256 = (15 : Slot).val ∧ 0xF0F / 256 % 256 ≤ 15 ∧
    15 < 0x1000 / 256 % 256 := by
  refine ⟨fun p0 p1 => paramd_ready p0 p1 0 0, by decide +kernel⟩

theorem witness_ResultWordsLayOutTheRecords :
    (let d : Descriptor := { window .data with pins := 31, mapStart := 2047, firstOffset := 4095, length := 8388608 };
      d.pins < 32 ∧ d.mapStart < 2048 ∧ d.firstOffset < 4096 ∧ d.length < 16777216 ∧ d.gateOffset < 8388608 ∧
      d.gateLength < 16777216) ∧
    (let r : Requester := { guest with score := 256, outstanding := 4 };
      r.score ≤ 256 ∧ r.outstanding ≤ 4) ∧
    (let p : Primary := { Primary.fresh 6 (h0 2) 8388592 [] .unit with jumps := 8, bytesDone := 1048575 };
      p.offset < 8388608 ∧ p.jumps < 16 ∧ p.bytesDone < 2097152) ∧
    (⟨6, h0 2, 8388592⟩ : Backup).offset < 8388608 ∧ Channel.reset.outcome.offset < 8388608 := by decide

theorem witness_MapCommandsWriteEntries :
    (∀ p0 p1 p2, EngineReady (paramd p0 p1 p2 0) ∧ Settled (paramd p0 p1 p2 0)) ∧ 2047 % 65536 = (2047 : Fin 2048).val ∧
    2047 < 2048 % 65536 ∧
    (2047 + 1 ≤ 2048 ∧ 2048 < 2047 + 2 ∧ 0 + 2048 ≤ 2048 ∧ 129024 + 2048 ≤ 131072 ∧ 131072 < 131072 + 1) := by
  exact ⟨fun p0 p1 p2 => paramd_ready p0 p1 p2 0, by decide⟩

/-- Slots, levels and filters in and out of their ranges; slot 6 to be disabled with a request in service and one queued, and
with its list running before another slot's backup. -/
theorem witness_RequesterCommandsSetTheRecord :
    (∀ p0 p1, EngineReady (paramd p0 p1 0 0) ∧ Settled (paramd p0 p1 0 0)) ∧
    (paramd 6 0 0 0).su[(6 : Slot)].enabled = true ∧ (paramd 0 0 0 0).su[(0 : Slot)].enabled = false ∧
    0x0001030F % 256 = (15 : Slot).val ∧ 0x0001030F / 256 % 256 = (3 : Fin 4).val ∧ 0x0001030F / 65536 % 256 ≤ 1 ∧
    15 < 16 % 256 ∧ 0x00030006 / 65536 % 256 = (3 : Fin 4).val ∧ 3 < 0x00040006 / 65536 % 256 ∧
    (let s : State := { serving .translation (.read (h0 1) 0 1) with
        engine := { bench.engine with params := #v[0x00030006, 0, 0, 0] }, rq := [asked (.query (h0 1))] };
      EngineReady s ∧ (6 : Slot).val = s.engine.params[0].toNat % 256 ∧ s.engine.params[0].toNat / 256 % 256 = 0 ∧
      s.engine.params[0].toNat / 65536 % 256 ≤ 3 ∧ s.su[(6 : Slot)].enabled = true) ∧
    (let s : State := { backed (listed .stopped none .stopped) with
        engine := { bench.engine with params := #v[0x00030006, 0, 0, 0] } };
      EngineReady s ∧ s.su[(6 : Slot)].enabled = true ∧ s.port.granted = none ∧
      s.chans[(0 : Chan)].primary.any (fun p => p.owner == some 6 && p.mark == none) = true) := by
  refine ⟨fun p0 p1 => paramd_ready p0 p1 0 0, by decide +kernel, by decide +kernel, by decide, by decide, by decide,
    by decide, by decide, by decide, ?_, ?_⟩ <;> (unfold EngineReady; decide +kernel)

/-- Bad fields; each selector on an idle channel; a primary between bursts and one with its burst granted, with a mark and
without; a STOPPED channel. -/
theorem witness_ChannelCommandsAbortAndResume :
    let asking (p0 : Word) (s : State) : State := { s with engine := { s.engine with params := #v[p0, 0, 0, 0] } }
    let stopped (p0 : Word) := asking p0 (listed .stopped none .stopped)
    let moving (p0 : Word) := asking p0 (bursting .fetch none (.fetchBurst [] []) (.read 20480 16))
    (∀ p0, (EngineReady (paramd p0 0 0 0) ∧ Settled (paramd p0 0 0 0)) ∧ (EngineReady (stopped p0) ∧ Settled (stopped p0)) ∧
      EngineReady (moving p0) ∧ Settled (moving p0)) ∧
    (3 < 4 % 256 ∧ 0x303 % 256 = (3 : Chan).val ∧ 0x303 / 256 % 256 = 3 ∧ 3 < 0x400 / 256 % 256) ∧
    bench.chans[(3 : Chan)].primary = none ∧
    (∀ m ∈ [none, some ⟨MarkCode.ownerGone, 6⟩], ∀ s ∈ [stopped 0, moving 0],
      (remarked m s).chans[(0 : Chan)].primary.any (fun p => (p.mark <|> some ⟨.aborted, p.owner.getD 0⟩).isSome) = true ∧
      EngineReady (remarked m s) ∧ Settled (remarked m s)) ∧ (stopped 0).port.granted = none ∧
    (moving 0).port.granted = some (Claimant.ch 0, .read 20480 16) ∧ (stopped 0).chans[(0 : Chan)].state = .stopped ∧
    bench.chans[(0 : Chan)].state ≠ .stopped := by
  refine ⟨fun p0 => ⟨paramd_ready p0 0 0 0, ⟨⟨rfl, rfl⟩, ?_⟩, ⟨rfl, rfl⟩, ?_⟩, by decide, by decide +kernel,
    by unfold EngineReady Settled; decide +kernel, by decide +kernel⟩
  · show Settled (listed .stopped none .stopped)
    unfold Settled; decide +kernel
  · show Settled (bursting .fetch none (.fetchBurst [] []) (.read 20480 16))
    unfold Settled; decide +kernel

theorem witness_FaultAckAndLockTimeoutSet :
    (∀ p0, EngineReady (paramd p0 0 0 0) ∧ Settled (paramd p0 0 0 0)) ∧ (15 : Word).toNat < 16 ∧ 16 ≤ (16 : Word).toNat ∧
    (65535 : Word).toNat ≤ 65535 ∧ 65535 < (65536 : Word).toNat := by
  exact ⟨fun p0 => paramd_ready p0 0 0 0, by decide⟩

theorem witness_RegistersAreReadAndWritten :
    bench.lines.reset = false ∧ (∀ offset ∈ [0x14, 0x24, 0x30, 0x60], Instr.wellFormed (.registerWrite offset 0) = true ∧
      ∀ k : Fin 4, offset ≠ 4 + 4 * k.val) := by decide +kernel

theorem witness_AttentionLineAndCodeFollowPendingAndEnabled :
    (let a : Attention := { Attention.reset with pending := 0x801, enable := 0x800 };
      a.pending.getLsbD (12 - 1) = true ∧ a.enable.getLsbD (12 - 1) = true ∧
      ∀ m ∈ List.range' 1 11, a.enable.getLsbD (m - 1) = false) ∧
    (∀ n ∈ List.range' 1 12, Attention.reset.pending.getLsbD (n - 1) = false) := by decide

/-- A slot at 247, and one at 248 that a violation bars: with a request of each kind at the head or in service that finds one. -/
theorem witness_ViolationsChargeAndBar :
    let close (s : State) : State := judged 248 .limited s
    let warned (s : State) : State := s.updSlot 6 fun r => { r with score := 248, standing := .warned }
    ((judged 247 .limited bench).su[(6 : Slot)].score ≤ 247 ∧ 248 ≤ (close bench).su[(6 : Slot)].score ∧
      (close bench).su[(6 : Slot)].standing ≠ .barred) ∧
    (∀ body ∈ [ReqBody.unknown 0x0B, .closeWindow (h0 0), .cancel 4, .channelStatus 4, .start 4 (h0 2) 0,
        .start 0 (h0 2) 8388608, .read (h0 1) 0 0, .readLock (h0 1) 0 65, .write (h0 1) 0 [], .writeUnlock (h0 1) 8388608 [1],
        .read (h0 1) 8192 1, .openWindow 0x0500 0x10],
      AtHead (close (queued body)) (asked body) [] ∧ AtHead (warned (queued body)) (asked body) [] ∧
      (warned (queued body)).su[(6 : Slot)].standing ≠ .barred ∧
      (warned (queued body)).su[(6 : Slot)].standing ≠ .limited) ∧
    (checkHandle bench 6 (h0 0) = .error .nullHandle ∧ Code.range.isViolation = true ∧ 16 ≤ (0x10 : Byte).toNat ∧
      ∀ needed ∈ [Rights.R, .W, .R ||| .K, .W ||| .K],
        resolve bench 6 (h0 1) 8192 1 needed false false = .error (.range, none)) ∧
    resolve bench 6 (h0 2) 8192 1 Rights.F true true = .error (.range, none) ∧
    (∀ stage ∈ [Stage.checked, .search (searching 255 .level), .search (searching 255 .rights)],
      (close (serving stage (.openWindow 0x0500 0x10))).server.any (fun r =>
        !r.detached && r.request.slot == 6 && r.stage == stage) = true) ∧
    (248 ≤ (close (serving .checked (.query (h0 1)))).su[(6 : Slot)].score ∧ bench.wt[(255 : DIdx)].state = .free) ∧
    (∀ holder ∈ [none, some (5 : Slot)], let s := (close (serving .checked (.writeUnlock (h0 1) 0 [1]))).updDesc 1 fun d =>
        { d with holder := holder, expiry := holder.map fun _ => 1000 }
      s.wt[(1 : DIdx)].holder = holder ∧ s.wt[(1 : DIdx)].expiredHolder ≠ some 6 ∧ 248 ≤ s.su[(6 : Slot)].score ∧
      resolve s 6 (h0 1) 0 1 (Rights.W ||| Rights.K) false false = .ok (seen 0 1)) ∧
    (let s := backed (close (listed .stopped none .stopped));
      248 ≤ s.su[(6 : Slot)].score ∧ s.su[(6 : Slot)].standing ≠ .barred ∧ s.port.granted = none ∧
      s.chans[(0 : Chan)].primary.any (fun p => p.owner == some 6 && p.mark == none) = true) := by
  unfold AtHead
  exact ⟨by decide +kernel, by decide +kernel, by decide +kernel, by decide +kernel, by decide +kernel, by decide +kernel,
    by decide +kernel, by decide +kernel⟩

/-- The bench's descriptors: a gate, a list window, a data window, and reset values. -/
theorem bench_wt (i : DIdx) :
    bench.wt[i] = gate ∨ bench.wt[i] = window .list ∨ bench.wt[i] = window .data ∨
      bench.wt[i] = Descriptor.reset := by
  have h : bench.wt[i] = (((State.reset.wt.set 1 (window .data)).set 2 (window .list)).set 3 gate)[i.val] := rfl
  rw [h, Vector.getElem_set, Vector.getElem_set, Vector.getElem_set]
  split
  · exact .inl rfl
  · split
    · exact .inr (.inl rfl)
    · split
      · exact .inr (.inr (.inl rfl))
      · exact .inr (.inr (.inr (by simp [State.reset])))

/-- The bench, the part in reset, a request waiting and a STOPPED list satisfy the laws, and a step of each answers a next
state. -/
theorem witness_EveryStepKeepsRangesAndForms :
    let s : State := { bench with pending := [.resetRelease] }
    step s = .next bench ∧ ScoreLaw s ∧ PlacementLaw s ∧ FrameLaw s ∧ TimeoutLaw s ∧ CanonicalMemory s := by
  refine ⟨rfl, ?_, fun i => ?_, fun e => ?_, by unfold TimeoutLaw; decide, by unfold CanonicalMemory; decide⟩
  · unfold ScoreLaw; decide +kernel
  · show if bench.wt[i].dtype = .gate then _ else _
    rcases bench_wt i with h | h | h | h <;> (simp only [h]; decide)
  · show (State.reset.pm.set 0 ⟨true, 5⟩)[e.val].frame ≤ 131071
    rw [Vector.getElem_set]
    split
    · decide
    · simp [State.reset]

theorem witness_EveryStepKeepsInterlocksAndLifecycles :
    let s : State := { bench with pending := [.resetRelease] }
    step s = .next bench ∧ InterlockLaw s ∧ LifecycleLaw s := by
  refine ⟨rfl, fun i => ?_, by decide +kernel, fun i => ?_⟩
  · show (bench.wt[i].holder.isSome = bench.wt[i].expiry.isSome) ∧ _
    have h : bench.wt[i].holder = none ∧ bench.wt[i].expiry = none ∧ bench.wt[i].expiredHolder = none := by
      rcases bench_wt i with h | h | h | h <;> (rw [h]; exact ⟨rfl, rfl, rfl⟩)
    refine ⟨by rw [h.1, h.2.1]; rfl, fun x hx => ?_, fun x hx => ?_⟩
    · have := h.1.symm.trans hx; cases this
    · have := h.2.2.symm.trans hx; cases this
  · show (bench.wt[i].state = .free → _) ∧ (bench.wt[i].state = .retiring → _)
    rcases bench_wt i with h | h | h | h <;> (simp only [h]; decide)

/-- A step between settled states; a state with no work to take up, and one in which channel 0 is the lowest with some. -/
theorem witness_EveryStepKeepsCreditsAndChannels :
    (let s : State := { queued (.query (h0 1)) with pending := [.resetRelease] };
      step s = .next (queued (.query (h0 1))) ∧ CreditLaw s ∧ ChannelLaw s ∧ s.turns = [] ∧ Settled s) ∧
    (∀ c : Chan, bench.chans[c].primary = none) ∧
    ∀ w ∈ [Work.promote, .fetch, .resume, .resolve, .unit, .record],
      (listed .fetch none w).chans[(0 : Chan)].primary.any (·.work == w) = true ∧ (∀ d : Chan, ¬ d < 0) ∧
      (listed .fetch none w).turns = [] ∧
      ∀ turn ∈ [none, some 0, some 3], ∀ later ∈ [[], [some 2]],
        ({ listed .fetch none w with turns := turn :: later } : State).turns = turn :: later := by
  refine ⟨⟨rfl, ?_, fun c => ?_, rfl, ?_⟩, by decide +kernel, by decide +kernel⟩
  · unfold CreditLaw; decide +kernel
  · have h : ∀ c : Chan, bench.chans[c] = Channel.reset := by decide +kernel
    have hc : ({ queued (.query (h0 1)) with pending := [.resetRelease] } : State).chans[c] = Channel.reset := h c
    rw [hc]; simp [Channel.reset]
  · unfold Settled; decide +kernel

theorem witness_EveryStepKeepsPinCounts :
    let s : State := { listed .stopped none .stopped with pending := [.resetRelease] }
    step s = .next (listed .stopped none .stopped) ∧ PinLaw s ∧ HoldLaw s := by
  have hs : ∀ c : Chan, (listed .stopped none .stopped).chans[c].primary =
      if c = 0 then some (Primary.fresh 6 (h0 2) 0 [⟨2, .list⟩] .stopped) else none := by decide +kernel
  refine ⟨rfl, ⟨?_, fun c p hp hw => ?_⟩, fun c p hp => ?_, fun r hr => ?_⟩
  · unfold holdsOn serverPins channelPins; decide +kernel
  · have hp' := (hs c).symm.trans hp
    split at hp' <;> cases hp'
    cases hw
  · have hp' := (hs c).symm.trans hp
    split at hp' <;> cases hp'
    have idle : ∀ u ∈ [Purpose.source, .sourceTarget, .destination, .destinationTarget, .completion, .completionTarget],
        (Primary.fresh 6 (h0 2) 0 [⟨2, .list⟩] .stopped).pinsFor u = 0 := by decide
    exact ⟨by decide, idle, trivial⟩
  · cases hr

/-- The part in reset; and a slot that is shut out with a request of it in service, one that is detached, and a step of each. -/
theorem witness_EveryStepKeepsSlotsTornDown :
    (let s : State := { after .reset bench with pending := [.engineStatus] };
      (∃ t, step s = .next t) ∧ HeldInReset s ∧ ScoreLaw s ∧ TornDownLaw s) ∧
    (let s : State :=
        { reading (fun r => { r with detached := true, disposition := .discard }) with pending := [.engineStatus] };
      (∃ t, step s = .next t) ∧ DetachedLaw s ∧ ∃ r, s.server = some r ∧ r.detached = true ∧ r.stage.uncommitted = false) := by
  have hw (i : DIdx) : (after .reset bench).wt[i] = Descriptor.reset := by
    show (Vector.replicate 256 Descriptor.reset)[i.val] = _
    simp
  have hc : ∀ c : Chan, (after .reset bench).chans[c] = Channel.reset := by decide +kernel
  refine ⟨⟨⟨_, rfl⟩, fun _ => ⟨rfl, rfl, rfl, rfl, rfl, rfl, rfl, rfl, rfl, rfl, rfl, ?_⟩, ?_,
    fun slot _ => ⟨fun i => ?_, fun c => ?_, fun q hq => ?_⟩, fun r hr => ?_⟩, ⟨_, rfl⟩, fun r hr _ => ?_, _, rfl, rfl, rfl⟩
  · decide +kernel
  · unfold ScoreLaw; decide +kernel
  · show (after .reset bench).wt[i].openers[slot] = none ∧ _
    rw [hw i]; exact ⟨by simp [Descriptor.reset], by simp [Descriptor.reset], by simp [Descriptor.reset]⟩
  · show (∀ p, (after .reset bench).chans[c].primary = some p → _) ∧ _
    rw [hc c]; simp [Channel.reset]
  · have hq' : q ∈ ([] : List Request) := hq
    cases hq'
  · have hr' : (none : Option InService) = some r := hr
    cases hr'
  · have hr' : (reading (fun r => { r with detached := true, disposition := .discard })).server = some r := hr
    cases hr'
    exact ⟨rfl, rfl⟩

end Sys2Proof.Tests
end

/-! The Resolver's verdict, check by check (R39 to R47). Checks 1 to 3 read the handle's descriptor and its opener set,
checks 4 to 6 the states of the descriptor and of a gate's target, checks 7 to 10 what the use asks for; a verdict is the
first of these three groups that fails. -/

namespace Sys2Proof.Machine

section ResolverChecks

variable {s : State} {slot : Slot} {h : Handle} {offset length : Nat} {needed granted : Rights} {needsList : NeedsList}
  {aligned : Bool}

/-! ### Check 3 -/

theorem checkHandle_notOpen (h0 : h.index ≠ 0) (h1 : ¬(s.wt[h.index].state = .free ∨ s.wt[h.index].gen ≠ h.gen))
    (h2 : s.wt[h.index].openers[slot] = none) : checkHandle s slot h = .error .notOpen := by
  rw [not_or, not_not] at h1
  rw [checkHandle_live h0 h1.1 h1.2, h2]

theorem checkHandle_open (h0 : h.index ≠ 0) (h1 : ¬(s.wt[h.index].state = .free ∨ s.wt[h.index].gen ≠ h.gen))
    (h2 : s.wt[h.index].openers[slot] = some granted) : checkHandle s slot h = .ok granted := by
  rw [not_or, not_not] at h1
  rw [checkHandle_live h0 h1.1 h1.2, h2]

/-! ### Checks 4 to 6 -/

theorem targetIdentity_eq_false_iff (s : State) (d : Descriptor) :
    targetIdentity s d = false ↔
      s.wt[d.targetIndex].state = .free ∨ s.wt[d.targetIndex].gen ≠ d.targetGen ∨ s.wt[d.targetIndex].dtype ≠ .data := by
  simp only [targetIdentity, Bool.and_eq_false_iff, bne_eq_false_iff_eq, beq_eq_false_iff_ne, or_assoc]

variable {i : DIdx}

theorem checkStates_retiring (h4 : s.wt[i].state = .retiring) : checkStates s i = some (.retiring, none) := if_pos h4

theorem checkStates_absent (h5 : s.wt[i].state = .absent) : checkStates s i = some (.absent, some i) := by
  simp only [checkStates, h5, reduceCtorEq, if_false, if_true]

theorem checkStates_plain (h4 : s.wt[i].state ≠ .retiring) (h5 : s.wt[i].state ≠ .absent) (hg : s.wt[i].dtype ≠ .gate) :
    checkStates s i = none := by
  simp only [checkStates, h4, h5, hg, if_false]

/-- Check 6: a gate's target must be the DATA descriptor the gate was made for, and neither RETIRING nor ABSENT. -/
theorem checkStates_gate (h4 : s.wt[i].state ≠ .retiring) (h5 : s.wt[i].state ≠ .absent) (hg : s.wt[i].dtype = .gate) :
    checkStates s i =
      if s.wt[s.wt[i].targetIndex].state = .free ∨ s.wt[s.wt[i].targetIndex].gen ≠ s.wt[i].targetGen ∨
          s.wt[s.wt[i].targetIndex].dtype ≠ .data then some (.gateTarget, none)
      else if s.wt[s.wt[i].targetIndex].state = .retiring then some (.retiring, none)
      else if s.wt[s.wt[i].targetIndex].state = .absent then some (.absent, some s.wt[i].targetIndex)
      else none := by
  simp only [checkStates, h4, h5, hg, if_true, if_false, Bool.not_eq_true', targetIdentity_eq_false_iff]

/-! ### A verdict, group by group -/

theorem Rights.within_eq_false_iff (needed has : Rights) : Rights.within needed has = false ↔ needed &&& has ≠ needed :=
  beq_eq_false_iff_ne

theorem resolve_of_checkHandle_error {c : Code} (hc : checkHandle s slot h = .error c) :
    resolve s slot h offset length needed needsList aligned = .error (c, none) := by
  unfold resolve; rw [hc]

theorem resolve_of_checkStates_some {f : Code × Option DIdx} (hc : checkHandle s slot h = .ok granted)
    (hs : checkStates s h.index = some f) :
    resolve s slot h offset length needed needsList aligned = .error f := by
  unfold resolve; rw [hc]; dsimp only; rw [hs]

/-- Checks 7 to 9 of a descriptor that is no gate. -/
theorem resolve_plain (hc : checkHandle s slot h = .ok granted) (hs : checkStates s h.index = none)
    (hg : s.wt[h.index].dtype ≠ .gate) :
    resolve s slot h offset length needed needsList aligned =
      if needsList ∧ s.wt[h.index].dtype ≠ .list then .error (.wrongType, none)
      else if needed &&& (granted &&& s.wt[h.index].rights) ≠ needed then .error (.rights, none)
      else if s.wt[h.index].length < offset + length ∨ (aligned ∧ offset % 16 ≠ 0) then .error (.range, none)
      else .ok ⟨h.index, none, granted &&& s.wt[h.index].rights, h.index, offset, length⟩ := by
  unfold resolve; rw [hc]; dsimp only; rw [hs]
  simp only [effectiveRights, Descriptor.windowLength, hg, if_false, Bool.not_eq_true', Rights.within_eq_false_iff,
    Bool.and_eq_true, Bool.or_eq_true, bne_iff_ne, decide_eq_true_eq, gt_iff_lt]

/-- Checks 7 to 10 of a gate. -/
theorem resolve_gate (hc : checkHandle s slot h = .ok granted) (hs : checkStates s h.index = none)
    (hg : s.wt[h.index].dtype = .gate) :
    resolve s slot h offset length needed needsList aligned =
      if needsList ∧ s.wt[h.index].dtype ≠ .list then .error (.wrongType, none)
      else if needed &&& (granted &&& s.wt[h.index].rights &&& s.wt[s.wt[h.index].targetIndex].rights) ≠ needed then
        .error (.rights, none)
      else if s.wt[h.index].gateLength < offset + length ∨ (aligned ∧ offset % 16 ≠ 0) then .error (.range, none)
      else if s.wt[s.wt[h.index].targetIndex].length < s.wt[h.index].gateOffset + offset + length then
        .error (.gateTarget, none)
      else .ok ⟨h.index, some s.wt[h.index].targetIndex,
        granted &&& s.wt[h.index].rights &&& s.wt[s.wt[h.index].targetIndex].rights, s.wt[h.index].targetIndex,
        s.wt[h.index].gateOffset + offset, length⟩ := by
  unfold resolve; rw [hc]; dsimp only; rw [hs]
  simp only [effectiveRights, Descriptor.windowLength, hg, if_true, Bool.not_eq_true', Rights.within_eq_false_iff,
    Bool.and_eq_true, Bool.or_eq_true, bne_iff_ne, decide_eq_true_eq, gt_iff_lt]

end ResolverChecks

/-- Settles O15, check by check: the cases follow the order of the checks, and a gate and a plain descriptor part at
check 6. -/
theorem resolverAnswersTheFirstFailingCheck : Obligations.ResolverAnswersTheFirstFailingCheck := by
  unfold Obligations.ResolverAnswersTheFirstFailingCheck
  intro s slot h offset length needed needsList aligned
  dsimp only
  by_cases h1 : h.index = 0
  · rw [if_pos h1, resolve_of_checkHandle_error (checkHandle_null h1)]
  by_cases h2 : s.wt[h.index].state = .free ∨ s.wt[h.index].gen ≠ h.gen
  · rw [if_neg h1, if_pos h2, resolve_of_checkHandle_error (checkHandle_stale h1 h2)]
  rw [if_neg h1, if_neg h2]
  cases h3 : s.wt[h.index].openers[slot] with
  | none => rw [if_pos rfl, resolve_of_checkHandle_error (checkHandle_notOpen h1 h2 h3)]
  | some granted =>
    have hc := checkHandle_open h1 h2 h3
    rw [if_neg (Option.some_ne_none _), Option.getD_some]
    by_cases h4 : s.wt[h.index].state = .retiring
    · rw [if_pos h4, resolve_of_checkStates_some hc (checkStates_retiring h4)]
    by_cases h5 : s.wt[h.index].state = .absent
    · rw [if_neg h4, if_pos h5, resolve_of_checkStates_some hc (checkStates_absent h5)]
    rw [if_neg h4, if_neg h5]
    by_cases hg : s.wt[h.index].dtype = .gate
    · have hs := checkStates_gate h4 h5 hg
      simp only [hg, decide_true, true_and, if_true]
      by_cases h6 : s.wt[s.wt[h.index].targetIndex].state = .free ∨
          s.wt[s.wt[h.index].targetIndex].gen ≠ s.wt[h.index].targetGen ∨ s.wt[s.wt[h.index].targetIndex].dtype ≠ .data
      · rw [if_pos h6] at hs ⊢
        exact resolve_of_checkStates_some hc hs
      by_cases h6r : s.wt[s.wt[h.index].targetIndex].state = .retiring
      · rw [if_neg h6, if_pos h6r] at hs ⊢
        exact resolve_of_checkStates_some hc hs
      by_cases h6a : s.wt[s.wt[h.index].targetIndex].state = .absent
      · rw [if_neg h6, if_neg h6r, if_pos h6a] at hs ⊢
        exact resolve_of_checkStates_some hc hs
      rw [if_neg h6, if_neg h6r, if_neg h6a] at hs ⊢
      rw [resolve_gate hc hs hg]
      simp only [hg]
    · rw [resolve_plain hc (checkStates_plain h4 h5 hg) hg]
      simp only [hg, decide_false, Bool.false_eq_true, false_and, if_false]

end Sys2Proof.Machine

/-! The map commands of 3.5 (R64 to R66): which fields a claim takes, what it then stores, and how the engine answers. -/

namespace Sys2Proof.Machine

section MapCommands

/-! ### The fields of the parameter words -/

theorem field_15_0 (w : Word) : field w 15 0 = w.toNat % 65536 := by simp [field]

theorem field_7_0 (w : Word) : field w 7 0 = w.toNat % 256 := by simp [field]

theorem markOf_eq_some {n : Nat} (h : n ≤ 1) : markOf n = some (n == 1) := by
  obtain rfl | rfl := Nat.le_one_iff_eq_zero_or_eq_one.mp h <;> rfl

theorem markOf_eq_none {n : Nat} (h : 1 < n) : markOf n = none := by
  rw [markOf, if_neg (by omega), if_neg (by omega)]

/-- The last entry of a run bounds the first and the count. -/
theorem runOk_iff {first count : Nat} : runOk first count = true ↔ 1 ≤ count ∧ first + count ≤ 2048 := by
  simp only [runOk, Bool.and_eq_true, decide_eq_true_eq]
  omega

/-- Entry by entry, a change of a run is a choice between the changed entry and the old one. -/
theorem updEntries_eq_ofFn (first count : Nat) (f : Nat → MapEntry → MapEntry) (pm : Vector MapEntry 2048) :
    updEntries first count f pm = Vector.ofFn fun e =>
      if first ≤ e.val ∧ e.val < first + count then f (e.val - first) pm[e] else pm[e] := by
  ext e he
  rw [updEntries, mapTableIdx_get, Vector.getElem_ofFn]
  rfl

/-! ### The claims -/

variable {p : Vector Word 4} {s : State}

theorem mapWriteClaim_badField (h : 2047 < p[0].toNat % 65536 ∨ 131071 < p[1].toNat ∨ 1 < p[2].toNat % 256) :
    mapWriteClaim p s = completeWith .badField s := by
  rw [mapWriteClaim, field_7_0]
  by_cases hm : 1 < p[2].toNat % 256
  · rw [markOf_eq_none hm]
  rw [markOf_eq_some (Nat.le_of_not_lt hm)]
  dsimp only
  split
  next he =>
    rw [field_15_0] at he
    have hf : 131071 < p[1].toNat := by omega
    exact if_neg (Nat.not_lt_of_le hf)
  next => rfl

theorem mapWriteClaim_sets {e : Fin 2048} (he : e.val = p[0].toNat % 65536) (hf : p[1].toNat ≤ 131071)
    (hm : p[2].toNat % 256 ≤ 1) :
    mapWriteClaim p s = completeOk (s.setPm (s.pm.set e ⟨p[2].toNat % 256 == 1, p[1].toNat⟩)) := by
  have hentry : field p[0] 15 0 = e.val := (field_15_0 _).trans he.symm
  simp only [mapWriteClaim, field_7_0, markOf_eq_some hm, hentry, e.isLt, dif_pos, if_pos (Nat.lt_succ_of_le hf)]

/-- The frames of a run end at the map's last frame exactly where their count fits behind the first. -/
theorem mapFillClaim_eq_ite : mapFillClaim p s =
    if (1 ≤ p[1].toNat ∧ p[0].toNat % 65536 + p[1].toNat ≤ 2048) ∧ p[2].toNat + p[1].toNat ≤ 131072 then
      completeOk (s.setPm (updEntries (p[0].toNat % 65536) p[1].toNat (fun k _ => ⟨true, p[2].toNat + k⟩) s.pm))
    else completeWith .badField s := by
  simp only [mapFillClaim, field_15_0, runOk_iff]
  exact if_congr (by omega) rfl rfl

theorem mapClearClaim_eq_ite : mapClearClaim p s =
    if 1 ≤ p[1].toNat ∧ p[0].toNat % 65536 + p[1].toNat ≤ 2048 then
      completeOk (s.setPm (updEntries (p[0].toNat % 65536) p[1].toNat (fun _ x => { x with valid := false }) s.pm))
    else completeWith .badField s := by
  simp only [mapClearClaim, field_15_0, runOk_iff]

/-! ### The commands -/

theorem exec_mapWrite (s : State) : exec .mapWrite s = .next (takeCommand 0x10 mapWriteClaim s) := rfl

theorem exec_mapFill (s : State) : exec .mapFill s = .next (takeCommand 0x11 mapFillClaim s) := rfl

theorem exec_mapClear (s : State) : exec .mapClear s = .next (takeCommand 0x12 mapClearClaim s) := rfl

/-- A command whose claim replaces the Page Map answers OK and changes the map and the engine alone. -/
theorem takeCommand_setsPm {command : Byte} {body : Vector Word 4 → State → State} {pm : Vector MapEntry 2048}
    (h : EngineReady s) (hs : Settled s)
    (hb : body s.engine.params (s.commanded command) = completeOk ((s.commanded command).setPm pm)) :
    takeCommand command body s = { s.engineAnswers command .ok Results.zero with pm := pm } :=
  takeCommand_settled h hs hb rfl rfl

end MapCommands

/-- Settles O48, command by command: a field out of its range fails the claim's check, and fields in their ranges pass it. -/
theorem mapCommandsWriteEntries : Obligations.MapCommandsWriteEntries := by
  unfold Obligations.MapCommandsWriteEntries
  intro s h hs
  dsimp only
  rw [exec_mapWrite, exec_mapFill, exec_mapClear]
  refine ⟨fun hbad => ?_, fun e he hf hm => ?_, fun hbad => ?_, fun hc hr hf => ?_, fun hbad => ?_, fun hc hr => ?_⟩ <;>
    congr 1
  · exact takeCommand_fails h hs (by decide) (mapWriteClaim_badField hbad)
  · exact takeCommand_setsPm h hs (mapWriteClaim_sets he hf hm)
  · exact takeCommand_fails h hs (by decide) (mapFillClaim_eq_ite.trans (if_neg (by omega)))
  · rw [← updEntries_eq_ofFn _ _ (fun k _ => ⟨true, s.engine.params[2].toNat + k⟩)]
    exact takeCommand_setsPm h hs (mapFillClaim_eq_ite.trans (if_pos ⟨⟨hc, hr⟩, hf⟩))
  · exact takeCommand_fails h hs (by decide) (mapClearClaim_eq_ite.trans (if_neg (by omega)))
  · rw [← updEntries_eq_ofFn _ _ (fun _ x => { x with valid := false })]
    exact takeCommand_setsPm h hs (mapClearClaim_eq_ite.trans (if_pos ⟨hc, hr⟩))

end Sys2Proof.Machine

/-! The visibility filters of 4.1 (R76): what passing one filter means bit by bit, and that any of the four suffices. -/

namespace Sys2Proof.Machine

/-- A masked difference is zero exactly where the words agree under the mask, bit by bit. -/
theorem xor_and_eq_zero_iff {w : Nat} (x y m : BitVec w) :
    (x ^^^ y) &&& m = 0 ↔ ∀ b < w, m.getLsbD b = true → x.getLsbD b = y.getLsbD b := by
  have bit (b : Nat) : ((x ^^^ y) &&& m).getLsbD b = false ↔
      (m.getLsbD b = true → x.getLsbD b = y.getLsbD b) := by
    rw [BitVec.getLsbD_and, BitVec.getLsbD_xor]
    cases m.getLsbD b <;> simp
  constructor
  · intro h b _
    exact (bit b).mp (by simp [h])
  · intro h
    exact BitVec.eq_of_getLsbD_eq fun b hb => by simpa using (bit b).mpr (h b hb)

theorem Filter.passes_iff (f : Filter) (tag : BitVec 16) :
    f.passes tag = true ↔
      f.enabled = true ∧ ∀ b < 16, f.mask.getLsbD b = true → tag.getLsbD b = f.value.getLsbD b := by
  simp only [Filter.passes, Bool.and_eq_true, beq_iff_eq, xor_and_eq_zero_iff]

theorem visible_iff (filters : Vector Filter 4) (tag : BitVec 16) :
    visible filters tag = true ↔ ∃ k : Fin 4, filters[k].passes tag = true := by
  rw [visible, List.any_eq_true]
  constructor
  · rintro ⟨f, hf, hp⟩
    obtain ⟨k, hk, rfl⟩ := Vector.mem_iff_getElem.mp (Vector.mem_toList_iff.mp hf)
    exact ⟨⟨k, hk⟩, hp⟩
  · rintro ⟨k, hp⟩
    exact ⟨filters[k], Vector.mem_toList_iff.mpr (Vector.getElem_mem k.isLt), hp⟩

/-- Settles O9: some filter passes the tag, and a filter passes it where the masked difference is zero. -/
theorem tagIsVisibleThroughAFilter : Obligations.TagIsVisibleThroughAFilter := by
  unfold Obligations.TagIsVisibleThroughAFilter
  intro filters tag
  simp only [visible_iff, Filter.passes_iff]

end Sys2Proof.Machine

/-! The confirmation of a readable message (R157): which of the three the link gives, and what each leaves behind. -/

namespace Sys2Proof.Machine

section ReadableMessages

variable {s : State} {slot : Slot} {message : List Byte} {tag : BitVec 3} {body : ReqBody}

/-! ### Which confirmation -/

/-- R157's two conditions in their order, the queue's places and the slot's credit taken as bounds. -/
theorem confirmationOf_eq_ite (s : State) (slot : Slot) :
    confirmationOf s slot =
      if s.su[slot].enabled = false ∨ s.su[slot].present = false ∨ s.su[slot].standing = .barred then .refuse
      else if 32 ≤ s.rq.length ∨ 4 ≤ s.su[slot].outstanding then .busy
      else .accept := by
  simp only [confirmationOf, Bool.or_eq_true, Bool.not_eq_true', beq_iff_eq, decide_eq_true_eq, ge_iff_le, or_assoc]

/-- Where the queue and the slot's count keep their bounds (R159), BUSY is given exactly at a bound. -/
theorem confirmationOf_eq_ite_of_bounded (hq : s.rq.length ≤ 32) (ho : s.su[slot].outstanding ≤ 4) :
    confirmationOf s slot =
      if s.su[slot].enabled = false ∨ s.su[slot].present = false ∨ s.su[slot].standing = .barred then .refuse
      else if s.rq.length = 32 ∨ s.su[slot].outstanding = 4 then .busy
      else .accept := by
  simp only [confirmationOf_eq_ite, hq.ge_iff_eq, ho.ge_iff_eq]

/-! ### What it leaves behind -/

theorem confirm_of_accept (hm : parseMessage message = some (tag, body)) (hc : confirmationOf s slot = .accept) :
    confirm slot message s =
      ((s.setRq (s.rq ++ [⟨slot, tag, body⟩])).updSlot slot fun r => { r with outstanding := r.outstanding + 1 }).send
        (.confirmation slot .accept) := by
  simp only [confirm, hm, hc]

theorem confirm_of_not_accept {c : Confirmation} (hm : parseMessage message = some (tag, body))
    (hc : confirmationOf s slot = c) (hne : c ≠ .accept) :
    confirm slot message s = s.send (.confirmation slot c) := by
  cases c with
  | accept => exact absurd rfl hne
  | busy | refuse => simp only [confirm, hm, hc]

theorem exec_confirmation (slot : Slot) (message : List Byte) (s : State) :
    exec (.confirmation slot message) s = execConfirmation slot message s := rfl

/-- While neither INIT nor RESET is asserted, a message is confirmed. -/
theorem exec_confirmation_of_released (hi : s.lines.init = false) (hr : s.lines.reset = false) :
    exec (.confirmation slot message) s = .next (confirm slot message s) := by
  simp only [exec_confirmation, execConfirmation, hi, hr, Bool.or_self, Bool.false_eq_true, if_false]

end ReadableMessages

/-- Settles O6, by the cases of R157: condition 1 refuses, condition 2 gives BUSY, and with neither the request joins the
queue's tail. -/
theorem readableMessageIsConfirmed : Obligations.ReadableMessageIsConfirmed := by
  unfold Obligations.ReadableMessageIsConfirmed
  intro s slot message tag body hi hr hm hq ho
  dsimp only
  rw [exec_confirmation_of_released hi hr]
  congr 1
  have hc := confirmationOf_eq_ite_of_bounded hq ho
  by_cases h1 : s.su[slot].enabled = false ∨ s.su[slot].present = false ∨ s.su[slot].standing = .barred
  · rw [if_pos h1] at hc ⊢
    exact confirm_of_not_accept hm hc (by decide)
  by_cases h2 : s.rq.length = 32 ∨ s.su[slot].outstanding = 4
  · rw [if_neg h1, if_pos h2] at hc ⊢
    exact confirm_of_not_accept hm hc (by decide)
  · rw [if_neg h1, if_neg h2] at hc ⊢
    exact confirm_of_accept hm hc

end Sys2Proof.Machine

/-! FAULT_ACK (R182) and SET_LOCK_TIMEOUT (R174): what each claim leaves of the engine's and the Attention Unit's records. -/

namespace Sys2Proof.Machine

section FaultAndTimeout

variable {s : State}

theorem exec_faultAck (s : State) : exec .faultAck s = .next (takeCommand 0x28 faultAckClaim s) := rfl

theorem exec_setLockTimeout (s : State) : exec .setLockTimeout s = .next (takeCommand 0x29 setLockTimeoutClaim s) := rfl

theorem faultAckClaim_commanded (p : Vector Word 4) (command : Byte) :
    faultAckClaim p (s.commanded command) =
      { s.engineAnswers command .ok Results.zero with attn := { s.attn with fault := FaultRecord.empty } } := rfl

theorem setLockTimeoutClaim_badField {p : Vector Word 4} (h : p[0].toNat < 16 ∨ 65535 < p[0].toNat) :
    setLockTimeoutClaim p s = completeWith .badField s := by
  rw [setLockTimeoutClaim, if_neg (by omega)]

/-- RESULT0 holds the timeout that stood before the claim. -/
theorem setLockTimeoutClaim_commanded {p : Vector Word 4} (hlow : 16 ≤ p[0].toNat) (hhigh : p[0].toNat ≤ 65535)
    (command : Byte) :
    setLockTimeoutClaim p (s.commanded command) = { s with
      engine := { s.engine.completed command .ok (Results.one s.engine.timeout) with timeout := p[0].toNat } } := by
  rw [setLockTimeoutClaim, if_pos ⟨hlow, hhigh⟩]
  rfl

end FaultAndTimeout

/-- Settles O51: FAULT_ACK's claim has no check, and SET_LOCK_TIMEOUT's has the timeout's range for its one check. -/
theorem faultAckAndLockTimeoutSet : Obligations.FaultAckAndLockTimeoutSet := by
  unfold Obligations.FaultAckAndLockTimeoutSet
  intro s h hs
  dsimp only
  rw [exec_faultAck, exec_setLockTimeout]
  refine ⟨?_, fun hbad => ?_, fun hlow hhigh => ?_⟩ <;> congr 1
  · exact takeCommand_settled h hs (faultAckClaim_commanded _ _) rfl rfl
  · exact takeCommand_fails h hs (by decide) (setLockTimeoutClaim_badField hbad)
  · exact takeCommand_settled h hs (setLockTimeoutClaim_commanded hlow hhigh _) rfl rfl

end Sys2Proof.Machine

/-! The register window of 9.1 and 10.7: the word that ENGINE_STATUS reads as, and what a write at each offset stores. -/

namespace Sys2Proof.Machine

/-! ### The status word -/

theorem put_eq_of_lt {hi lo n : Nat} (h : n < 2 ^ (hi + 1 - lo)) : put hi lo n = n * 2 ^ lo := by
  rw [put, Nat.mod_eq_of_lt h]

theorem putBit_eq_ite (b : Nat) (v : Bool) : putBit b v = if v then 2 ^ b else 0 := by
  cases v <;> simp [putBit, put]

/-- A result code fits its byte. -/
theorem Code.toNat_lt (c : Code) : c.toNat < 2 ^ 8 := by
  cases c <;> decide

theorem engineStatusWord_eq (e : Engine) :
    engineStatusWord e = BitVec.ofNat 32
      ((if e.state = .idle then 0 else 1) + e.lastCode.toNat * 256 + (if e.overrun then 65536 else 0)) := by
  rw [engineStatusWord, putBit_eq_ite, putBit_eq_ite, put_eq_of_lt e.lastCode.toNat_lt]
  simp only [bne_iff_ne, ne_eq, ite_not]
  rfl

/-! ### The accesses -/

section RegisterAccess

variable {s : State} {v : Word} {offset : Nat}

theorem exec_engineStatus (s : State) :
    exec .engineStatus s = .next { s with
      engine := { s.engine with overrun := false }
      busRead := if s.lines.reset then 0 else engineStatusWord s.engine } := rfl

theorem exec_attnPending (v : Word) (s : State) : exec (.attnPending v) s = .next (writeAttnPending v s) := rfl

theorem exec_attnEnable (v : Word) (s : State) : exec (.attnEnable v) s = .next (writeAttnEnable v s) := rfl

theorem exec_registerWrite (offset : Nat) (v : Word) (s : State) :
    exec (.registerWrite offset v) s = .next (writeRegister offset v s) := rfl

theorem writeAttnPending_of_released (h : s.lines.reset = false) :
    writeAttnPending v s = { s with attn := { s.attn with pending := s.attn.pending &&& ~~~(v.setWidth 12) } } := by
  rw [writeAttnPending, h]
  rfl

theorem writeAttnEnable_of_released (h : s.lines.reset = false) :
    writeAttnEnable v s = { s with attn := { s.attn with enable := v.setWidth 12 } } := by
  rw [writeAttnEnable, h]
  rfl

theorem writeParam_of_released (h : s.lines.reset = false) (k : Fin 4) :
    writeParam k v s = { s with engine := { s.engine with params := s.engine.params.set k v } } := by
  rw [writeParam, h]
  rfl

/-- PARAM0 to PARAM3 stand at 0x04 to 0x10, a word each. -/
theorem writeRegister_param (k : Fin 4) : writeRegister (4 + 4 * k.val) v s = writeParam k v s := by
  match k with
  | 0 | 1 | 2 | 3 => rfl

/-- The registers that a write changes are the three with rows of their own and the parameter words. -/
theorem writeRegister_elsewhere (hrow : offset ∉ rowOffsets) (hparam : ∀ k : Fin 4, offset ≠ 4 + 4 * k.val) :
    writeRegister offset v s = s := by
  unfold writeRegister
  split
  · exact absurd (by decide) hrow
  · exact absurd rfl (hparam 0)
  · exact absurd rfl (hparam 1)
  · exact absurd rfl (hparam 2)
  · exact absurd rfl (hparam 3)
  · exact absurd (by decide) hrow
  · exact absurd (by decide) hrow
  · rfl

theorem wellFormed_registerWrite : Instr.wellFormed (.registerWrite offset v) = true ↔ offset ∉ rowOffsets := by
  simp only [Instr.wellFormed, Bool.not_eq_true', List.contains_eq_mem, decide_eq_false_iff_not]

end RegisterAccess

/-- Settles O52, register by register. -/
theorem registersAreReadAndWritten : Obligations.RegistersAreReadAndWritten := by
  unfold Obligations.RegistersAreReadAndWritten
  refine ⟨fun s => ?status, fun s v hr => ⟨?pending, ?enable, fun k => ?param, fun offset hw hk => ?elsewhere⟩⟩
  case status => rw [exec_engineStatus, engineStatusWord_eq]
  case pending => rw [exec_attnPending, writeAttnPending_of_released hr]
  case enable => rw [exec_attnEnable, writeAttnEnable_of_released hr]
  case param => rw [exec_registerWrite, writeRegister_param, writeParam_of_released hr]
  case elsewhere => rw [exec_registerWrite, writeRegister_elsewhere (wellFormed_registerWrite.mp hw) hk]

end Sys2Proof.Machine

/-! The attention line and ATTN_CODE (R178), both read off the causes that are pending and enabled. -/

namespace Sys2Proof.Machine

/-- Cause n of 9.3 is pending and enabled. -/
def Attention.Active (a : Attention) (n : Nat) : Prop :=
  1 ≤ n ∧ n ≤ 12 ∧ a.pending.getLsbD (n - 1) = true ∧ a.enable.getLsbD (n - 1) = true

namespace Attention

variable {a : Attention} {n : Nat}

/-- Cause n is bit n - 1 of what is pending and enabled. -/
theorem active_iff_getLsbD : a.Active n ↔ (1 ≤ n ∧ n ≤ 12) ∧ (a.pending &&& a.enable).getLsbD (n - 1) = true := by
  rw [Active, BitVec.getLsbD_and, Bool.and_eq_true, and_assoc]

/-- A word that is not zero has a one in one of its twelve bits. -/
theorem attentionLine_iff : attentionLine a = true ↔ ∃ n, a.Active n := by
  simp only [attentionLine, bne_iff_ne, active_iff_getLsbD]
  constructor
  · intro hne
    by_contra hnone
    push Not at hnone
    refine hne (BitVec.eq_of_getLsbD_eq fun b hb => ?_)
    have hbit : (a.pending &&& a.enable).getLsbD b ≠ true := hnone (b + 1) ⟨by omega, by omega⟩
    simpa only [Bool.not_eq_true, BitVec.ofNat_eq_ofNat, BitVec.getLsbD_zero] using hbit
  · rintro ⟨n, -, hbit⟩ hzero
    simp [hzero] at hbit

theorem attentionCode_of_none (h : ∀ n, ¬ a.Active n) : attentionCode a = 0 := by
  have hfind : (List.range' 1 12).find? (fun n => (a.pending &&& a.enable).getLsbD (n - 1)) = none := by
    rw [List.find?_eq_none]
    intro n hn hbit
    rw [List.mem_range'_1] at hn
    exact h n (active_iff_getLsbD.mpr ⟨by omega, hbit⟩)
  rw [attentionCode, hfind, Option.getD_none]

/-- The causes are searched from 1 upward, so the first one found is the lowest. -/
theorem attentionCode_of_least (h : a.Active n) (hleast : ∀ m, a.Active m → n ≤ m) : attentionCode a = n := by
  obtain ⟨hn, hbit⟩ := active_iff_getLsbD.mp h
  have hfind : (List.range' 1 12).find? (fun n => (a.pending &&& a.enable).getLsbD (n - 1)) = some n := by
    rw [List.find?_range'_eq_some]
    refine ⟨hbit, List.mem_range'_1.mpr (by omega), fun m hm hmn => ?_⟩
    rw [Bool.not_eq_true', ← Bool.not_eq_true]
    intro hmbit
    exact absurd (hleast m (active_iff_getLsbD.mpr ⟨by omega, hmbit⟩)) (by omega)
  rw [attentionCode, hfind, Option.getD_some]

end Attention

/-- Settles O53: the line by the word of active causes, the code by the search for the lowest. -/
theorem attentionLineAndCodeFollowPendingAndEnabled : Obligations.AttentionLineAndCodeFollowPendingAndEnabled := by
  unfold Obligations.AttentionLineAndCodeFollowPendingAndEnabled
  intro a
  exact ⟨Attention.attentionLine_iff, Attention.attentionCode_of_none, fun _ => Attention.attentionCode_of_least⟩

end Sys2Proof.Machine

/-! What one claim can do, said once (R2). A step is a chain of indivisible acts on the Window Table, the requester records, the
queue, the Request Server and the channels; each act carries the facts under which the part takes it, so that a law that every
act keeps is kept by every step. -/

namespace Sys2Proof.Machine

/-! ### The laws, entry by entry -/

/-- What ScoreLaw asks of one record (R144). -/
def Requester.Scored (r : Requester) : Prop := r.score ≤ 256 ∧ r.standing = standingOf r.score

/-- The record of a slot that is disabled, not present or BARRED. -/
def Requester.Shut (r : Requester) : Prop := r.enabled = false ∨ r.present = false ∨ r.standing = .barred

/-- What PlacementLaw asks of one descriptor (R3, R5). -/
def Descriptor.Placed (d : Descriptor) : Prop :=
  if d.dtype = .gate then
    d.mapStart = 0 ∧ d.firstOffset = 0 ∧ d.length = 0 ∧
    d.gateOffset ≤ 8388607 ∧ 1 ≤ d.gateLength ∧ d.gateLength ≤ 8388608
  else
    d.targetIndex = 0 ∧ d.targetGen = 0 ∧ d.gateOffset = 0 ∧ d.gateLength = 0 ∧
    d.mapStart ≤ 2047 ∧ d.firstOffset ≤ 4095 ∧ d.length ≤ 8388608 ∧
    (d.state ≠ .free → 1 ≤ d.length) ∧ d.firstOffset + d.length ≤ (2048 - d.mapStart) * 4096

/-- What InterlockLaw asks of one descriptor (R15, R97). -/
def Descriptor.Interlocked (d : Descriptor) : Prop :=
  d.holder.isSome = d.expiry.isSome ∧
  (∀ h, d.holder = some h → d.expiredHolder = none ∧ ∃ r, d.openers[h] = some r ∧ r &&& Rights.K = Rights.K) ∧
  ∀ x, d.expiredHolder = some x → (d.openers[x]).isSome

/-- What LifecycleLaw asks of the descriptor of an index (R1, R9, R10). -/
def Descriptor.Lives (i : DIdx) (d : Descriptor) : Prop :=
  (i = 0 → d = Descriptor.reset) ∧
  (d.state = .free → d.openers = Vector.replicate 16 none ∧ d.pins = 0 ∧ d.holder = none ∧ d.expiry = none ∧
    d.expiredHolder = none) ∧
  (d.state = .retiring → 1 ≤ d.pins ∧ d.holder = none)

/-- The slot has an entry, the interlock or the mark of one descriptor. -/
def Descriptor.Knows (d : Descriptor) (slot : Slot) : Prop :=
  d.openers[slot] ≠ none ∨ d.holder = some slot ∨ d.expiredHolder = some slot

/-- What ChannelLaw asks of one channel (R108 to R110, R134). -/
def Channel.Lawful (ch : Channel) : Prop :=
  (ch.state = .idle ↔ ch.primary = none) ∧ (ch.backup ≠ none → ch.primary ≠ none) ∧
  ∀ p, ch.primary = some p → (ch.state = .stopped ↔ p.work = .stopped) ∧ (p.owner = none → p.mark ≠ none)

/-- What HoldLaw asks of one channel (R16, R109). -/
def Channel.HoldsOk (ch : Channel) : Prop := ∀ p, ch.primary = some p → p.holdsOk

/-- A promotion whose checks have not been made holds no pin (R115). -/
def Channel.PromotesBare (ch : Channel) : Prop := ∀ p, ch.primary = some p → p.work = .promote → p.pins = []

/-- Pins that one channel holds on a descriptor (R16). -/
def Channel.pinsOn (ch : Channel) (i : DIdx) : Nat := ch.primary.elim 0 fun p => (p.pins.map (·.index)).count i

/-- The slot owns the primary or the backup of one channel. -/
def Channel.OwnedBy (ch : Channel) (slot : Slot) : Prop :=
  (∃ p, ch.primary = some p ∧ p.owner = some slot) ∨ ∃ b, ch.backup = some b ∧ b.owner = slot

/-- What HoldLaw asks of the request in service (R16). -/
def InService.HoldsOk (r : InService) : Prop :=
  r.pins.length ≤ 2 ∧ (r.stage.uncommitted = true → r.pins.length ≤ 1 ∧ (r.stage ≠ .slotClaim → r.pins = []))

/-! ### The parts of an act -/

/-- What an act can do to the descriptor of an index, its pins apart. `gains` tells which slots may get an entry. -/
inductive DescStep (gains : Slot → Prop) (i : DIdx) (d : Descriptor) : Descriptor → Prop
  /-- a slot's entry goes (R14, R87, R149) -/
  | leave (slot : Slot) : DescStep gains i d (d.removeOpener slot)
  /-- all entries go (R35) -/
  | clear : DescStep gains i d d.clearOpeners
  /-- a slot gets or replaces its entry (R81) -/
  | enroll (slot : Slot) (granted : Rights) (hg : gains slot) (hf : d.state ≠ .free) (hr : d.state ≠ .retiring) :
      DescStep gains i d (d.addOpener slot granted)
  /-- the interlock is released (R14) -/
  | release : DescStep gains i d d.releaseLock
  /-- an opener with LOCK takes or renews the interlock (R99) -/
  | lock (slot : Slot) (granted : Rights) (expiry : Nat) (hv : d.state = .valid) (ho : d.openers[slot] = some granted)
      (hk : granted &&& Rights.K = Rights.K) :
      DescStep gains i d { d with holder := some slot, expiry := some expiry, expiredHolder := none }
  /-- the mark is cleared (R102) -/
  | unmark : DescStep gains i d { d with expiredHolder := none }
  /-- the interlock expires (R101) -/
  | expire (holder : Slot) (hh : d.holder = some holder) :
      DescStep gains i d { d.releaseLock with expiredHolder := some holder }
  /-- the manager creates, modifies or marks the descriptor (R20, R22, R26, R27) -/
  | write (d' : Descriptor) (hi : i ≠ 0) (hr : d.state ≠ .retiring) (hv : d'.state = .valid ∨ d'.state = .absent)
      (hp : d.Placed → d'.Placed)
      (hk : d'.openers = d.openers ∧ d'.pins = d.pins ∧ d'.holder = d.holder ∧ d'.expiry = d.expiry ∧
        d'.expiredHolder = d.expiredHolder) : DescStep gains i d d'
  /-- a pinned descriptor begins to retire (R29) -/
  | retire (hf : d.state ≠ .free) (hp : 1 ≤ d.pins) : DescStep gains i d { d.releaseLock with state := .retiring }
  /-- an unpinned one is freed (R10, R29) -/
  | free (hf : d.state ≠ .free) (hp : d.pins = 0) :
      DescStep gains i d { d.clearOpeners with state := .free, gen := d.gen + 1 }

/-- What pins that are placed or fall do to a descriptor: they are placed on a VALID one (R17), or fall (R18). Where `counts`
holds, they are one holder's pins on it, which go from m to n. -/
inductive PinShift (counts : Prop) (d : Descriptor) (m : Nat) : Descriptor → Nat → Prop
  | placed (k n : Nat) (h : k = 0 ∨ d.state = .valid) (hn : counts → n = m + k) :
      PinShift counts d m { d with pins := d.pins + k } n
  | fallen (k n : Nat) (hn : counts → k ≤ m ∧ n = m - k) : PinShift counts d m (d.unpinned k) n

/-- What an act can do to a slot's record, its count apart. Only the slot x may be shut out by it. -/
structure RecordStep (x : Option Slot) (slot : Slot) (r q : Requester) : Prop where
  outstanding : q.outstanding = r.outstanding
  scored      : r.Scored → q.Scored
  shut        : r.Scored → q.Shut → r.Shut ∨ x = some slot

/-- What an act can do to the request in service while it stays. -/
structure ServiceStep (r r' : InService) : Prop where
  request  : r'.request = r.request
  detached : r'.detached = r.detached
  silent   : r.detached = true → r'.disposition = r.disposition ∧ r'.held = r.held
  stage    : r'.stage.uncommitted = true → r.stage.uncommitted = true
  holds    : r.HoldsOk → r'.HoldsOk

/-- What an act can do to a channel, the pins of its primary apart. `gains` tells which slots may get a slot of it. -/
structure ChanStep (gains : Slot → Prop) (ch ch' : Channel) : Prop where
  lawful : ch.Lawful → ch'.Lawful
  holds  : ch.HoldsOk → ch'.HoldsOk
  bare   : ch.PromotesBare → ch'.PromotesBare
  owns   : ∀ slot, ch'.OwnedBy slot → ch.OwnedBy slot ∨ gains slot

/-! ### The acts -/

/-- The part of the state that the laws on tables, requests and lists speak of. -/
structure Inside where
  wt     : Vector Descriptor 256
  su     : Vector Requester 16
  rq     : List Request
  server : Option InService
  chans  : Vector Channel 4

/-- That part of a state. -/
def State.inside (s : State) : Inside := ⟨s.wt, s.su, s.rq, s.server, s.chans⟩

/-- The slot's request in service has yet to take the claim that gives it an entry, a pin or a channel's slot. -/
def State.Gains (s : State) (slot : Slot) : Prop :=
  ∃ r, s.server = some r ∧ r.request.slot = slot ∧ r.stage.uncommitted = true

/-- One act. Only the slot x may be shut out by it. -/
inductive Act (x : Option Slot) (s t : State) : Prop
  /-- attentions, the engine, the port, shared DRAM, messages, lines, the time -/
  | still (h : t.inside = s.inside)
  /-- descriptors change, their pins apart -/
  | table (v : Vector Descriptor 256) (hv : ∀ i : DIdx, v[i] = s.wt[i] ∨ DescStep s.Gains i s.wt[i] v[i])
      (h : t.inside = { s.inside with wt := v })
  /-- a record changes, its count apart -/
  | record (slot : Slot) (q : Requester) (hq : RecordStep x slot s.su[slot] q)
      (h : t.inside = { s.inside with su := s.su.set slot q })
  /-- a message is accepted (R157) -/
  | accept (q : Request) (hq : ¬ s.su[q.slot].Shut) (hl : s.rq.length < 32) (ho : s.su[q.slot].outstanding < 4)
      (h : t.inside = { s.inside with
        rq := s.rq ++ [q]
        su := s.su.set q.slot { s.su[q.slot] with outstanding := s.su[q.slot].outstanding + 1 } })
  /-- a slot's queued requests are removed (R150) -/
  | dequeue (slot : Slot) (h : t.inside = { s.inside with
        rq := s.rq.filter fun q => q.slot != slot
        su := s.su.set slot { s.su[slot] with outstanding := s.su[slot].outstanding - queuedOf s slot } })
  /-- the request in service goes on -/
  | service (r r' : InService) (v : Vector Descriptor 256) (hr : s.server = some r) (hs : ServiceStep r r')
      (hp : ∀ i : DIdx, PinShift True s.wt[i] (r.pins.count i) v[i] (r'.pins.count i))
      (h : t.inside = { s.inside with wt := v, server := some r' })
  /-- the request in service ends (R90) -/
  | served (r : InService) (v : Vector Descriptor 256) (hr : s.server = some r)
      (hp : ∀ i : DIdx, PinShift True s.wt[i] (r.pins.count i) v[i] 0)
      (h : t.inside = { s.inside with
        wt := v
        server := none
        su := s.su.set r.request.slot { s.su[r.request.slot] with
          outstanding := if r.detached then s.su[r.request.slot].outstanding
            else s.su[r.request.slot].outstanding - 1 } })
  /-- a link reset empties the queue and detaches the request in service (R167) -/
  | unlink (server' : Option InService)
      (hs : s.server = none ∧ server' = none ∨ ∃ r r', s.server = some r ∧ server' = some r' ∧ r'.request = r.request ∧
        r'.pins = r.pins ∧ r'.detached = true ∧ r'.disposition = .discard ∧ r'.held = [] ∧ r'.stage.uncommitted = false)
      (h : t.inside = { s.inside with
        rq := [], su := mapTable (fun r => { r with outstanding := 0 }) s.su, server := server' })
  /-- a channel goes on -/
  | chan (c : Chan) (ch : Channel) (v : Vector Descriptor 256) (hc : ChanStep s.Gains s.chans[c] ch)
      (hp : ∀ i : DIdx, PinShift s.chans[c].PromotesBare s.wt[i] (s.chans[c].pinsOn i) v[i] (ch.pinsOn i))
      (h : t.inside = { s.inside with wt := v, chans := s.chans.set c ch })
  /-- a START fills a primary slot, to which its pin passes (R112) -/
  | handOver (c : Chan) (r : InService) (hd : Handle) (offset : Nat) (g : Stage) (hr : s.server = some r)
      (hs : r.stage.uncommitted = true) (hg : g.uncommitted = false) (hc : s.chans[c].primary = none)
      (h : t.inside = { s.inside with
        server := some { r with pins := [], stage := g }
        chans := s.chans.set c { s.chans[c] with
          state := .fetch
          primary := some (Primary.fresh r.request.slot hd offset (r.pins.map (⟨·, .list⟩)) .fetch) } })
  /-- a device reset (R183) -/
  | reset (present : Vector Bool 16) (h : t.inside = { State.reset.inside with su := mapTable Requester.reset present })

/-- A chain of acts. Only the slot x may be shut out by them. -/
abbrev Acts (x : Option Slot) : State → State → Prop := Relation.ReflTransGen (Act x)

theorem RecordStep.weaken {x : Option Slot} {slot : Slot} {r q : Requester} (h : RecordStep none slot r q) :
    RecordStep x slot r q :=
  ⟨h.outstanding, h.scored, fun hs hq => .inl ((h.shut hs hq).resolve_right (by simp))⟩

theorem Act.weaken {x : Option Slot} {s t : State} (h : Act none s t) : Act x s t := by
  cases h with
  | still h => exact .still h
  | table v hv h => exact .table v hv h
  | record slot q hq h => exact .record slot q hq.weaken h
  | accept q hq hl ho h => exact .accept q hq hl ho h
  | dequeue slot h => exact .dequeue slot h
  | service r r' v hr hs hp h => exact .service r r' v hr hs hp h
  | served r v hr hp h => exact .served r v hr hp h
  | unlink server' hs h => exact .unlink server' hs h
  | chan c ch v hc hp h => exact .chan c ch v hc hp h
  | handOver c r hd offset g hr hs hg hc h => exact .handOver c r hd offset g hr hs hg hc h
  | reset present h => exact .reset present h

/-- A property that every act keeps is kept by every chain of acts. -/
theorem Acts.keep {x : Option Slot} {P : State → Prop} (hP : ∀ s t, Act x s t → P s → P t) {s t : State}
    (h : Acts x s t) (hs : P s) : P t := by
  induction h with
  | refl => exact hs
  | tail _ h ih => exact hP _ _ h ih

theorem Acts.weaken {x : Option Slot} {s t : State} (h : Acts none s t) : Acts x s t :=
  Relation.ReflTransGen.mono (fun _ _ => Act.weaken) _ _ h

end Sys2Proof.Machine

/-! Every act keeps the laws: of the descriptors (R3, R5, R9, R15), the records (R144), the credit (R159), the channels (R108),
the pins (R16) and the request in service (R160). -/

namespace Sys2Proof.Machine

variable {x : Option Slot} {s t : State}

/-! ### Descriptors -/

/-- A pin that falls changes the count, or frees the descriptor. -/
theorem Descriptor.unpinned_cases (d : Descriptor) (n : Nat) :
    d.unpinned n = { d with pins := d.pins - n } ∨
      d.state = .retiring ∧ d.unpinned n = { d.clearOpeners with state := .free, gen := d.gen + 1, pins := 0 } := by
  unfold Descriptor.unpinned
  split
  next h => exact .inr ⟨h.1, rfl⟩
  next => exact .inl rfl

theorem Descriptor.unpinned_pins (d : Descriptor) (n : Nat) : (d.unpinned n).pins = d.pins - n := by
  unfold Descriptor.unpinned
  split
  next h => exact (Nat.sub_eq_zero_of_le h.2.2).symm
  next => rfl

theorem addOpener_cases (d : Descriptor) (slot : Slot) (granted : Rights) :
    d.addOpener slot granted = { d with openers := d.openers.set slot (some granted) } ∨
      d.addOpener slot granted = { d with openers := d.openers.set slot (some granted), holder := none, expiry := none } := by
  unfold Descriptor.addOpener Descriptor.releaseIfHolder
  dsimp only
  split
  · exact .inl rfl
  · split
    · exact .inr rfl
    · exact .inl rfl

theorem removeOpener_eq_without (d : Descriptor) (slot : Slot) : d.removeOpener slot = d.without slot := by
  unfold Descriptor.removeOpener Descriptor.releaseIfHolder Descriptor.without
  by_cases h : d.holder = some slot
  · simp only [if_pos h]; rfl
  · simp only [if_neg h]

section Descriptors

variable {counts : Prop} {gains : Slot → Prop} {i : DIdx} {d d' : Descriptor} {m n : Nat}

theorem DescStep.placed (h : DescStep gains i d d') (hd : d.Placed) : d'.Placed := by
  cases h with
  | leave slot => rw [removeOpener_eq_without]; exact hd
  | clear | release | lock | unmark | expire => exact hd
  | enroll slot granted =>
    rcases addOpener_cases d slot granted with e | e <;> rw [e] <;> exact hd
  | write _ hi hr hv hp => exact hp hd
  | retire hf =>
    unfold Descriptor.Placed at hd ⊢
    dsimp only [Descriptor.releaseLock]
    split at hd <;> simp_all
  | free =>
    unfold Descriptor.Placed at hd ⊢
    dsimp only [Descriptor.clearOpeners]
    split at hd <;> simp_all

theorem PinShift.placedLaw (h : PinShift counts d m d' n) (hd : d.Placed) : d'.Placed := by
  cases h with
  | placed => exact hd
  | fallen k =>
    rcases d.unpinned_cases k with e | ⟨_, e⟩ <;> rw [e]
    · exact hd
    · unfold Descriptor.Placed at hd ⊢
      dsimp only [Descriptor.clearOpeners]
      split at hd <;> simp_all

/-- A descriptor without openers, interlock and mark. -/
theorem Descriptor.clearOpeners_interlocked (d : Descriptor) : d.clearOpeners.Interlocked := by
  simp [Descriptor.Interlocked, Descriptor.clearOpeners]

theorem Descriptor.releaseLock_interlocked (hd : d.Interlocked) : d.releaseLock.Interlocked :=
  ⟨rfl, fun _ h => (by cases h), hd.2.2⟩

theorem Descriptor.without_interlocked (hd : d.Interlocked) (slot : Slot) : (d.without slot).Interlocked := by
  obtain ⟨hboth, hholder, hmark⟩ := hd
  unfold Descriptor.Interlocked Descriptor.without
  refine ⟨?_, fun h hh => ?_, fun y hy => ?_⟩
  · dsimp only; split <;> simp [hboth]
  · dsimp only at hh ⊢
    split at hh
    · cases hh
    next hne =>
      obtain ⟨h1, r, h2, h3⟩ := hholder h hh
      have hs : slot ≠ h := fun e => hne (e ▸ hh)
      exact ⟨by simp [h1], r, by rw [get_set_ne _ hs, h2], h3⟩
  · dsimp only at hy ⊢
    split at hy
    · cases hy
    next hne =>
      have hs : slot ≠ y := fun e => hne (e ▸ hy)
      rw [get_set_ne _ hs]; exact hmark y hy

theorem Descriptor.addOpener_interlocked (hd : d.Interlocked) (slot : Slot) (granted : Rights) :
    (d.addOpener slot granted).Interlocked := by
  obtain ⟨hboth, hholder, hmark⟩ := hd
  have marked (y : Slot) (hy : d.expiredHolder = some y) : ((d.openers.set slot (some granted))[y]).isSome := by
    rw [get_set]; split
    · rfl
    · exact hmark y hy
  have others (h : Slot) (hh : d.holder = some h) (hk : slot = h → granted &&& Rights.K = Rights.K) :
      d.expiredHolder = none ∧ ∃ r, (d.openers.set slot (some granted))[h] = some r ∧ r &&& Rights.K = Rights.K := by
    obtain ⟨h1, r, h2, h3⟩ := hholder h hh
    by_cases e : slot = h
    · exact ⟨h1, granted, by rw [get_set, if_pos e], hk e⟩
    · exact ⟨h1, r, by rw [get_set_ne _ e, h2], h3⟩
  unfold Descriptor.addOpener Descriptor.releaseIfHolder
  dsimp only
  split
  next hk => exact ⟨hboth, fun h hh => others h hh fun _ => hk, marked⟩
  next =>
    split
    · exact ⟨rfl, fun _ h => (by cases h), marked⟩
    next hne => exact ⟨hboth, fun h hh => others h hh fun e => absurd (e ▸ hh) hne, marked⟩

theorem DescStep.interlocked (h : DescStep gains i d d') (hd : d.Interlocked) : d'.Interlocked := by
  cases h with
  | leave slot => rw [removeOpener_eq_without]; exact Descriptor.without_interlocked hd slot
  | clear => exact d.clearOpeners_interlocked
  | enroll slot granted => exact Descriptor.addOpener_interlocked hd slot granted
  | release => exact Descriptor.releaseLock_interlocked hd
  | lock slot granted expiry hv ho hk =>
    refine ⟨rfl, fun h hh => ⟨rfl, granted, ?_, hk⟩, fun _ h => by cases h⟩
    cases hh; exact ho
  | unmark =>
    exact ⟨hd.1, fun h hh => ⟨rfl, (hd.2.1 h hh).2⟩, fun _ h => by cases h⟩
  | expire holder hh =>
    refine ⟨rfl, fun _ h => (by cases h), fun y hy => ?_⟩
    cases hy
    obtain ⟨_, r, h2, _⟩ := hd.2.1 holder hh
    show (d.openers[holder]).isSome = true
    rw [h2]; rfl
  | write _ hi hr hv hp hk =>
    obtain ⟨ho, -, hh, he, hx⟩ := hk
    unfold Descriptor.Interlocked at hd ⊢
    rw [ho, hh, he, hx]; exact hd
  | retire =>
    have h := Descriptor.releaseLock_interlocked hd
    exact h
  | free => exact d.clearOpeners_interlocked

theorem PinShift.interlocked (h : PinShift counts d m d' n) (hd : d.Interlocked) : d'.Interlocked := by
  cases h with
  | placed => exact hd
  | fallen k =>
    rcases d.unpinned_cases k with e | ⟨_, e⟩ <;> rw [e]
    · exact hd
    · exact d.clearOpeners_interlocked

/-- A change that leaves the reset values as they are and keeps a descriptor neither FREE nor RETIRING so, its pins aside. -/
theorem Descriptor.Lives.of_fields (hd : d.Lives i) (h0 : d = Descriptor.reset → d' = Descriptor.reset)
    (hs : d'.state = d.state) (hp : d'.pins = d.pins)
    (hfree : d.openers = Vector.replicate 16 none → d.holder = none → d.expiry = none → d.expiredHolder = none →
      d'.openers = Vector.replicate 16 none ∧ d'.holder = none ∧ d'.expiry = none ∧ d'.expiredHolder = none)
    (hret : d.state = .retiring → d.holder = none → d'.holder = none) : d'.Lives i := by
  obtain ⟨hzero, hf, hr⟩ := hd
  refine ⟨fun hi => h0 (hzero hi), fun h => ?_, fun h => ?_⟩
  · obtain ⟨h1, h2, h3, h4, h5⟩ := hf (hs ▸ h)
    obtain ⟨k1, k3, k4, k5⟩ := hfree h1 h3 h4 h5
    exact ⟨k1, hp.trans h2, k3, k4, k5⟩
  · obtain ⟨h1, h2⟩ := hr (hs ▸ h)
    exact ⟨hp ▸ h1, hret (hs ▸ h) h2⟩

/-- Index 0 stays FREE, so an act on a descriptor that is not FREE is on another. -/
theorem Descriptor.Lives.ne_zero (hd : d.Lives i) (hf : d.state ≠ .free) : i ≠ 0 := fun hi =>
  hf (by rw [hd.1 hi]; rfl)

theorem DescStep.lives (h : DescStep gains i d d') (hd : d.Lives i) : d'.Lives i := by
  have free_lives (he : d'.state = .free) (hz : d = Descriptor.reset → d' = Descriptor.reset)
      (hc : d'.openers = Vector.replicate 16 none ∧ d'.pins = 0 ∧ d'.holder = none ∧ d'.expiry = none ∧
        d'.expiredHolder = none) : d'.Lives i :=
    ⟨fun hi => hz (hd.1 hi), fun _ => hc, fun hr => by rw [he] at hr; cases hr⟩
  cases h with
  | leave slot =>
    rw [removeOpener_eq_without]
    refine hd.of_fields ?_ rfl rfl (fun h1 h3 h4 h5 => ?_) fun _ h => ?_
    · rintro rfl; simp [Descriptor.without, Descriptor.reset]
    · simp [Descriptor.without, h1, h3, h4, h5]
    · simp [Descriptor.without, h]
  | clear =>
    refine hd.of_fields ?_ rfl rfl (fun _ _ _ _ => ⟨rfl, rfl, rfl, rfl⟩) fun _ _ => rfl
    rintro rfl; rfl
  | enroll slot granted hg hf hr =>
    refine ⟨fun hi => absurd hi (hd.ne_zero hf), fun h => absurd ?_ hf, fun h => absurd ?_ hr⟩ <;>
    · rcases addOpener_cases d slot granted with e | e <;> rw [e] at h <;> exact h
  | release =>
    refine hd.of_fields ?_ rfl rfl (fun h1 _ _ h5 => ⟨h1, rfl, rfl, h5⟩) fun _ _ => rfl
    rintro rfl; rfl
  | lock slot granted expiry hv =>
    exact ⟨fun hi => absurd hi (hd.ne_zero (by rw [hv]; decide)), fun h => absurd (hv.symm.trans h) (by decide),
      fun h => absurd (hv.symm.trans h) (by decide)⟩
  | unmark =>
    refine hd.of_fields ?_ rfl rfl (fun h1 h3 h4 _ => ⟨h1, h3, h4, rfl⟩) fun _ h => h
    rintro rfl; rfl
  | expire holder hh =>
    refine hd.of_fields ?_ rfl rfl (fun _ h3 _ _ => absurd (hh.symm.trans h3) (by simp)) fun _ _ => rfl
    rintro rfl; cases hh
  | write _ hi hr hv =>
    have live (st : DState) (h : d'.state = st) (h1 : st ≠ .valid) (h2 : st ≠ .absent) : False := by
      rcases hv with e | e
      · exact h1 (h.symm.trans e)
      · exact h2 (h.symm.trans e)
    exact ⟨fun h => absurd h hi, fun h => (live _ h (by decide) (by decide)).elim,
      fun h => (live _ h (by decide) (by decide)).elim⟩
  | retire hf hp =>
    exact ⟨fun h => absurd h (hd.ne_zero hf), fun h => (by cases h), fun _ => ⟨hp, rfl⟩⟩
  | free hf hp =>
    refine free_lives rfl (fun h => absurd (by rw [h]; rfl) hf) ⟨rfl, hp, rfl, rfl, rfl⟩

theorem PinShift.lives (h : PinShift counts d m d' n) (hd : d.Lives i) : d'.Lives i := by
  cases h with
  | placed k _ hk =>
    rcases hk with rfl | hv
    · exact hd
    · exact ⟨fun hi => absurd hi (hd.ne_zero (by rw [hv]; decide)), fun h => absurd (hv.symm.trans h) (by decide),
        fun h => absurd (hv.symm.trans h) (by decide)⟩
  | fallen k =>
    obtain ⟨hzero, hf, hr⟩ := hd
    unfold Descriptor.unpinned
    split
    next h =>
      refine ⟨fun hi => ?_, fun _ => ⟨rfl, rfl, rfl, rfl, rfl⟩, fun h => by cases h⟩
      rw [hzero hi] at h; cases h.1
    next h =>
      refine ⟨fun hi => ?_, fun h' => ?_, fun h' => ?_⟩
      · rw [hzero hi]; simp [Descriptor.reset]
      · obtain ⟨h1, h2, h3, h4, h5⟩ := hf h'
        exact ⟨h1, by simp [h2], h3, h4, h5⟩
      · obtain ⟨h1, h2⟩ := hr h'
        refine ⟨?_, h2⟩
        have h'' : d.state = .retiring := h'
        have hlt : 0 < k → k < d.pins := fun hk => Nat.lt_of_not_le fun hle => h ⟨h'', hk, hle⟩
        show 1 ≤ d.pins - k
        omega

end Descriptors

/-- What acts keep of the descriptors, index by index. -/
theorem Act.descriptors {P : DIdx → Descriptor → Prop} (hreset : ∀ i, P i Descriptor.reset)
    (hdesc : ∀ {gains i d d'}, DescStep gains i d d' → P i d → P i d')
    (hpin : ∀ {counts : Prop} {i d m d' n}, PinShift counts d m d' n → P i d → P i d') (h : Act x s t) (hs : ∀ i : DIdx, P i s.wt[i]) (i : DIdx) :
    P i t.wt[i] := by
  have same (e : t.wt = s.wt) : P i t.wt[i] := by rw [e]; exact hs i
  cases h with
  | still h | record _ _ _ h | accept _ _ _ _ h | dequeue _ h | unlink _ _ h | handOver _ _ _ _ _ _ _ _ _ h =>
    exact same (congrArg Inside.wt h)
  | table v hv h =>
    rw [show t.wt = v from congrArg Inside.wt h]
    rcases hv i with e | e
    · rw [e]; exact hs i
    · exact hdesc e (hs i)
  | service _ _ v _ _ hp h | served _ v _ hp h | chan _ _ v _ hp h =>
    rw [show t.wt = v from congrArg Inside.wt h]
    exact hpin (hp i) (hs i)
  | reset _ h =>
    rw [show t.wt = Vector.replicate 256 Descriptor.reset from congrArg Inside.wt h]
    simpa using hreset i

theorem Act.placementLaw (h : Act x s t) (hs : PlacementLaw s) : PlacementLaw t := fun i =>
  h.descriptors (P := fun _ d => d.Placed) (fun _ => by simp [Descriptor.Placed, Descriptor.reset]) DescStep.placed
    PinShift.placedLaw hs i

theorem Act.interlockLaw (h : Act x s t) (hs : InterlockLaw s) : InterlockLaw t := fun i =>
  h.descriptors (P := fun _ d => d.Interlocked) (fun _ => Descriptor.reset.clearOpeners_interlocked) DescStep.interlocked
    PinShift.interlocked hs i

theorem lifecycleLaw_iff : LifecycleLaw s ↔ ∀ i : DIdx, s.wt[i].Lives i := by
  constructor
  · rintro ⟨h0, h⟩ i
    exact ⟨fun hi => by rw [hi]; exact h0, h i⟩
  · exact fun h => ⟨(h 0).1 rfl, fun i => (h i).2⟩

theorem Descriptor.reset_lives (i : DIdx) : Descriptor.reset.Lives i :=
  ⟨fun _ => rfl, fun _ => ⟨rfl, rfl, rfl, rfl, rfl⟩, fun h => by cases h⟩

theorem Act.lifecycleLaw (h : Act x s t) (hs : LifecycleLaw s) : LifecycleLaw t :=
  lifecycleLaw_iff.2 (h.descriptors Descriptor.reset_lives DescStep.lives PinShift.lives (lifecycleLaw_iff.1 hs))

/-! ### Records -/

theorem Requester.reset_scored (present : Bool) : (Requester.reset present).Scored := by
  simp [Requester.Scored, Requester.reset, standingOf]

theorem Act.scoreLaw (h : Act x s t) (hs : ScoreLaw s) : ScoreLaw t := fun slot => by
  have same (e : t.su = s.su) : t.su[slot].Scored := by rw [e]; exact hs slot
  have changed {y : Slot} {q : Requester} (hq : q.Scored) (e : t.su = s.su.set y q) : t.su[slot].Scored := by
    rw [e, get_set]; split
    · exact hq
    · exact hs slot
  have counted {y : Slot} {n : Nat} (e : t.su = s.su.set y { s.su[y] with outstanding := n }) : t.su[slot].Scored :=
    changed (q := { s.su[y] with outstanding := n }) (hs y) e
  cases h with
  | still h | table _ _ h | service _ _ _ _ _ _ h | chan _ _ _ _ _ h | handOver _ _ _ _ _ _ _ _ _ h =>
    exact same (congrArg Inside.su h)
  | record y q hq h => exact changed (hq.scored (hs y)) (congrArg Inside.su h)
  | accept _ _ _ _ h | dequeue _ h | served _ _ _ _ h => exact counted (congrArg Inside.su h)
  | unlink _ _ h =>
    rw [show t.su = mapTable (fun r => { r with outstanding := 0 }) s.su from congrArg Inside.su h, Fin.getElem_fin,
      mapTable_get]
    exact hs slot
  | reset present h =>
    rw [show t.su = mapTable Requester.reset present from congrArg Inside.su h, Fin.getElem_fin, mapTable_get]
    exact Requester.reset_scored _

/-! ### Credit -/

/-- The entry that a request in service, unless it is detached, has in its slot's count. -/
theorem inServiceOf_some {r : InService} (h : s.server = some r) (slot : Slot) :
    inServiceOf s slot = if r.request.slot = slot ∧ r.detached = false then 1 else 0 := by
  rw [inServiceOf, h]; rfl

theorem inServiceOf_none (h : s.server = none) (slot : Slot) : inServiceOf s slot = 0 := by
  rw [inServiceOf, h]; rfl

/-- The law on credit depends on the queue, the counts and what the request in service counts for. -/
theorem CreditLaw.congr (hs : CreditLaw s) (hq : t.rq = s.rq)
    (ho : ∀ slot : Slot, t.su[slot].outstanding = s.su[slot].outstanding)
    (hi : ∀ slot, inServiceOf t slot = inServiceOf s slot) : CreditLaw t := by
  refine ⟨by rw [hq]; exact hs.1, fun slot => ?_⟩
  unfold queuedOf
  rw [hq, ho, hi]
  exact hs.2 slot

theorem inServiceOf_congr (h : t.server = s.server) (slot : Slot) : inServiceOf t slot = inServiceOf s slot := by
  unfold inServiceOf; rw [h]

theorem queuedOf_filter_ne (l : List Request) (slot y : Slot) :
    (l.filter fun q => q.slot != slot).countP (fun q => q.slot == y) =
      if y = slot then 0 else l.countP fun q => q.slot == y := by
  rw [List.countP_filter]
  split
  next h =>
    rw [List.countP_eq_zero]
    rintro q - hq
    simp_all
  next h =>
    refine List.countP_congr fun q _ => ?_
    constructor
    · intro hq
      simp only [Bool.and_eq_true] at hq
      exact hq.1
    · intro hq
      have e : q.slot = y := by simpa using hq
      simp [e, h]

theorem Act.creditLaw (h : Act x s t) (hs : CreditLaw s) : CreditLaw t := by
  cases h with
  | still h | table _ _ h | chan _ _ _ _ _ h =>
    exact hs.congr (congrArg Inside.rq h) (fun slot => by rw [show t.su = s.su from congrArg Inside.su h])
      (inServiceOf_congr (congrArg Inside.server h))
  | record y q hq h =>
    refine hs.congr (congrArg Inside.rq h) (fun slot => ?_) (inServiceOf_congr (congrArg Inside.server h))
    rw [show t.su = s.su.set y q from congrArg Inside.su h, get_set]
    split
    next e => rw [← e]; exact hq.outstanding
    next => rfl
  | service r r' v hr hst _ h =>
    refine hs.congr (congrArg Inside.rq h) (fun slot => by rw [show t.su = s.su from congrArg Inside.su h]) fun slot => ?_
    rw [inServiceOf_some (show t.server = some r' from congrArg Inside.server h), inServiceOf_some hr, hst.request,
      hst.detached]
  | handOver c r hd offset g hr hst hg hc h =>
    refine hs.congr (congrArg Inside.rq h) (fun slot => by rw [show t.su = s.su from congrArg Inside.su h]) fun slot => ?_
    rw [inServiceOf_some (show t.server = some _ from congrArg Inside.server h), inServiceOf_some hr]
  | accept q hq hl ho h =>
    have hrq : t.rq = s.rq ++ [q] := congrArg Inside.rq h
    refine ⟨by rw [hrq, List.length_append]; exact hl, fun slot => ?_⟩
    obtain ⟨h1, h2⟩ := hs.2 slot
    rw [inServiceOf_congr (show t.server = s.server from congrArg Inside.server h), queuedOf, hrq, List.countP_append,
      show t.su = s.su.set q.slot _ from congrArg Inside.su h, get_set]
    unfold queuedOf at h1
    split
    next e => subst e; simp only [List.countP_singleton, beq_self_eq_true, if_true]; omega
    next e => simp only [List.countP_singleton, beq_iff_eq, if_neg e]; omega
  | dequeue y h =>
    have hrq : t.rq = s.rq.filter fun q => q.slot != y := congrArg Inside.rq h
    refine ⟨by rw [hrq]; exact (List.length_filter_le _ _).trans hs.1, fun slot => ?_⟩
    obtain ⟨h1, h2⟩ := hs.2 slot
    rw [inServiceOf_congr (show t.server = s.server from congrArg Inside.server h), queuedOf, hrq, queuedOf_filter_ne,
      show t.su = s.su.set y _ from congrArg Inside.su h, get_set]
    split
    next e => subst e; rw [if_pos rfl]; dsimp only; omega
    next e => rw [if_neg (Ne.symm e)]; exact ⟨h1, h2⟩
  | served r v hr _ h =>
    have hrq : t.rq = s.rq := congrArg Inside.rq h
    refine ⟨by rw [hrq]; exact hs.1, fun slot => ?_⟩
    obtain ⟨h1, h2⟩ := hs.2 slot
    rw [inServiceOf_none (show t.server = none from congrArg Inside.server h), queuedOf, hrq,
      show t.su = s.su.set r.request.slot _ from congrArg Inside.su h, get_set]
    rw [inServiceOf_some hr] at h1
    unfold queuedOf at h1
    split
    next e =>
      subst e
      cases hd : r.detached with
      | true =>
        simp only [hd, true_and, Bool.true_eq_false, if_false, if_true] at h1 ⊢
        omega
      | false =>
        simp only [hd, true_and, if_true, Bool.false_eq_true, if_false] at h1 ⊢
        omega
    next e => rw [if_neg fun a => e a.1] at h1; exact ⟨h1, h2⟩
  | unlink server' hsv h =>
    have hrq : t.rq = [] := congrArg Inside.rq h
    refine ⟨by rw [hrq]; simp, fun slot => ?_⟩
    have hin : inServiceOf t slot = 0 := by
      have hsv' : t.server = server' := congrArg Inside.server h
      rcases hsv with ⟨-, e⟩ | ⟨r, r', -, e, -, -, hd, -⟩
      · exact inServiceOf_none (hsv'.trans e) slot
      · rw [inServiceOf_some (hsv'.trans e), if_neg]
        rintro ⟨-, hf⟩
        rw [hd] at hf; cases hf
    rw [hin, queuedOf, hrq, show t.su = mapTable _ s.su from congrArg Inside.su h, Fin.getElem_fin, mapTable_get]
    simp
  | reset present h =>
    have hrq : t.rq = [] := congrArg Inside.rq h
    refine ⟨by rw [hrq]; simp, fun slot => ?_⟩
    rw [inServiceOf_none (show t.server = none from congrArg Inside.server h), queuedOf, hrq,
      show t.su = mapTable Requester.reset present from congrArg Inside.su h, Fin.getElem_fin, mapTable_get]
    simp [Requester.reset]

/-! ### Channels -/

/-- What acts keep of the channels. -/
theorem Act.channels {P : Channel → Prop} (hreset : P Channel.reset)
    (hchan : ∀ {gains ch ch'}, ChanStep gains ch ch' → P ch → P ch')
    (hfill : ∀ (ch : Channel) (r : InService) (hd : Handle) (offset : Nat), s.server = some r →
      r.stage.uncommitted = true → P ch → P { ch with
        state := .fetch
        primary := some (Primary.fresh r.request.slot hd offset (r.pins.map (⟨·, .list⟩)) .fetch) })
    (h : Act x s t) (hs : ∀ c : Chan, P s.chans[c]) (c : Chan) : P t.chans[c] := by
  have same (e : t.chans = s.chans) : P t.chans[c] := by rw [e]; exact hs c
  have changed {d : Chan} {ch : Channel} (hc : P ch) (e : t.chans = s.chans.set d ch) : P t.chans[c] := by
    rw [e, get_set]; split
    · exact hc
    · exact hs c
  cases h with
  | still h | table _ _ h | record _ _ _ h | accept _ _ _ _ h | dequeue _ h | service _ _ _ _ _ _ h | served _ _ _ _ h
  | unlink _ _ h => exact same (congrArg Inside.chans h)
  | chan d ch v hc _ h => exact changed (hchan hc (hs d)) (congrArg Inside.chans h)
  | handOver d r hd offset g hr hst hg hc h =>
    exact changed (hfill s.chans[d] r hd offset hr hst (hs d)) (congrArg Inside.chans h)
  | reset _ h =>
    rw [show t.chans = Vector.replicate 4 Channel.reset from congrArg Inside.chans h]
    simpa using hreset

theorem Channel.reset_lawful : Channel.reset.Lawful := by simp [Channel.Lawful, Channel.reset]

theorem Act.channelLaw (h : Act x s t) (hs : ChannelLaw s) : ChannelLaw t :=
  h.channels (P := Channel.Lawful) Channel.reset_lawful ChanStep.lawful
    (fun _ _ _ _ _ _ _ => ⟨by simp, by simp, fun p hp => by cases hp; simp [Primary.fresh]⟩) hs

/-! ### Pins -/

/-- One holder's pins change the count alike. -/
theorem PinShift.pins {counts : Prop} {d d' : Descriptor} {m n rest : Nat} (h : PinShift counts d m d' n) (hc : counts) (hd : d.pins = m + rest) :
    d'.pins = n + rest := by
  cases h with
  | placed k _ _ hn => rw [hn hc]; show d.pins + k = _; omega
  | fallen k _ hn => obtain ⟨hk, rfl⟩ := hn hc; rw [Descriptor.unpinned_pins]; omega

theorem channelPins_eq (c : Chan) (i : DIdx) : channelPins s c i = s.chans[c].pinsOn i := rfl

/-- The holds on a descriptor, one channel's apart. -/
theorem holdsOn_set_chan (c : Chan) (ch : Channel) (hs : ∀ i, serverPins t i = serverPins s i)
    (hc : t.chans = s.chans.set c ch) (i : DIdx) :
    ∃ rest, holdsOn s i = s.chans[c].pinsOn i + rest ∧ holdsOn t i = ch.pinsOn i + rest := by
  have hd (d : Chan) : channelPins t d i = if c = d then ch.pinsOn i else channelPins s d i := by
    rw [channelPins_eq, hc, get_set]; split <;> rfl
  refine ⟨holdsOn s i - s.chans[c].pinsOn i, ?_⟩
  unfold holdsOn
  rw [hs, hd, hd, hd, hd, ← channelPins_eq]
  fin_cases c <;> simp <;> omega

/-- An act on a descriptor is none on its pins. -/
theorem DescStep.pins {gains : Slot → Prop} {i : DIdx} {d d' : Descriptor} (h : DescStep gains i d d') :
    d'.pins = d.pins := by
  cases h with
  | leave slot => rw [removeOpener_eq_without]; rfl
  | enroll slot granted => rcases addOpener_cases d slot granted with e | e <;> rw [e]
  | write _ _ _ _ _ hk => exact hk.2.1
  | clear | release | lock | unmark | expire | retire | free => rfl

theorem serverPins_some {r : InService} (h : s.server = some r) (i : DIdx) : serverPins s i = r.pins.count i := by
  rw [serverPins, h]; rfl

theorem serverPins_none (h : s.server = none) (i : DIdx) : serverPins s i = 0 := by
  rw [serverPins, h]; rfl

theorem serverPins_congr (h : t.server = s.server) (i : DIdx) : serverPins t i = serverPins s i := by
  unfold serverPins; rw [h]

/-- The holds on a descriptor, the Request Server's apart. -/
theorem holdsOn_chans (hc : t.chans = s.chans) (i : DIdx) :
    ∃ rest, holdsOn s i = serverPins s i + rest ∧ holdsOn t i = serverPins t i + rest := by
  have hch (c : Chan) : channelPins t c i = channelPins s c i := by unfold channelPins; rw [hc]
  refine ⟨channelPins s 0 i + channelPins s 1 i + channelPins s 2 i + channelPins s 3 i, ?_, ?_⟩
  · unfold holdsOn; omega
  · unfold holdsOn; simp only [hch]; omega

theorem holdsOn_congr (hs : t.server = s.server) (hc : t.chans = s.chans) (i : DIdx) : holdsOn t i = holdsOn s i := by
  obtain ⟨rest, h1, h2⟩ := holdsOn_chans hc i
  rw [h1, h2, serverPins_congr hs]

theorem Act.pinCounts (h : Act x s t) (hs : ∀ i : DIdx, s.wt[i].pins = holdsOn s i)
    (hb : ∀ c : Chan, s.chans[c].PromotesBare) (i : DIdx) :
    t.wt[i].pins = holdsOn t i := by
  cases h with
  | still h | record _ _ _ h | accept _ _ _ _ h | dequeue _ h =>
    rw [holdsOn_congr (congrArg Inside.server h) (congrArg Inside.chans h), show t.wt = s.wt from congrArg Inside.wt h]
    exact hs i
  | table v hv h =>
    rw [holdsOn_congr (congrArg Inside.server h) (congrArg Inside.chans h), show t.wt = v from congrArg Inside.wt h,
      ← hs i]
    rcases hv i with e | e
    · rw [e]
    · exact e.pins
  | service r r' v hr _ hp h =>
    obtain ⟨rest, h1, h2⟩ := holdsOn_chans (s := s) (t := t) (congrArg Inside.chans h) i
    rw [h2, serverPins_some (show t.server = some r' from congrArg Inside.server h), show t.wt = v from congrArg Inside.wt h]
    exact (hp i).pins trivial (by rw [hs i, h1, serverPins_some hr])
  | served r v hr hp h =>
    obtain ⟨rest, h1, h2⟩ := holdsOn_chans (s := s) (t := t) (congrArg Inside.chans h) i
    rw [h2, serverPins_none (show t.server = none from congrArg Inside.server h), show t.wt = v from congrArg Inside.wt h]
    exact (hp i).pins trivial (by rw [hs i, h1, serverPins_some hr])
  | unlink server' hsv h =>
    obtain ⟨rest, h1, h2⟩ := holdsOn_chans (s := s) (t := t) (congrArg Inside.chans h) i
    have hsv' : t.server = server' := congrArg Inside.server h
    have e : serverPins t i = serverPins s i := by
      rcases hsv with ⟨hr, e⟩ | ⟨r, r', hr, e, -, hp, -⟩
      · rw [serverPins_none (hsv'.trans e), serverPins_none hr]
      · rw [serverPins_some (hsv'.trans e), serverPins_some hr, hp]
    rw [h2, e, ← h1, show t.wt = s.wt from congrArg Inside.wt h]
    exact hs i
  | chan c ch v _ hp h =>
    obtain ⟨rest, h1, h2⟩ := holdsOn_set_chan (s := s) (t := t) c ch
      (serverPins_congr (congrArg Inside.server h)) (congrArg Inside.chans h) i
    rw [h2, show t.wt = v from congrArg Inside.wt h]
    exact (hp i).pins (hb c) (by rw [hs i, h1])
  | handOver c r hd offset g hr hst hg hc h =>
    let u : State := { s with server := t.server }
    obtain ⟨r1, h1, h2⟩ := holdsOn_chans (s := s) (t := u) rfl i
    obtain ⟨r2, h3, h4⟩ := holdsOn_set_chan (s := u) (t := t) c _ (fun _ => rfl) (congrArg Inside.chans h) i
    have e0 : u.chans[c].pinsOn i = 0 := by
      show s.chans[c].pinsOn i = 0
      unfold Channel.pinsOn; rw [hc]; rfl
    have e1 : serverPins u i = 0 := serverPins_some (show u.server = _ from congrArg Inside.server h) i
    rw [e1] at h2
    rw [e0] at h3
    rw [h4, show t.wt = s.wt from congrArg Inside.wt h, hs i, h1, serverPins_some hr]
    have e2 : Channel.pinsOn { s.chans[c] with
        state := .fetch
        primary := some (Primary.fresh r.request.slot hd offset (r.pins.map (⟨·, .list⟩)) .fetch) } i = r.pins.count i := by
      show ((r.pins.map fun j => (⟨j, .list⟩ : ChanPin)).map (·.index)).count i = _
      rw [List.map_map]; exact congrArg (List.count i) (List.map_id _)
    rw [e2]
    omega
  | reset present h =>
    have hch (c : Chan) : channelPins t c i = 0 := by
      rw [channelPins_eq, show t.chans = Vector.replicate 4 Channel.reset from congrArg Inside.chans h]
      simp [Channel.pinsOn, Channel.reset]
    unfold holdsOn
    rw [serverPins_none (show t.server = none from congrArg Inside.server h), hch, hch, hch, hch,
      show t.wt = Vector.replicate 256 Descriptor.reset from congrArg Inside.wt h]
    simp [Descriptor.reset]

theorem Act.promotesBare (h : Act x s t) (hs : ∀ c : Chan, s.chans[c].PromotesBare) (c : Chan) : t.chans[c].PromotesBare :=
  h.channels (P := Channel.PromotesBare) (fun _ hp => by cases hp) ChanStep.bare
    (fun _ _ _ _ _ _ _ => fun p hp hw => by cases hp; cases hw) hs c

theorem Act.pinLaw (h : Act x s t) (hs : PinLaw s) : PinLaw t := ⟨h.pinCounts hs.1 hs.2, h.promotesBare hs.2⟩

/-! ### Holds -/

/-- A fresh list with at most one pin, its list window's. -/
theorem Primary.fresh_holdsOk (owner : Slot) (hd : Handle) (offset : Nat) {is : List DIdx} (h : is.length ≤ 1) :
    (Primary.fresh owner hd offset (is.map (⟨·, .list⟩)) .fetch).holdsOk := by
  match is, h with
  | [], _ => simp [Primary.holdsOk, Primary.fresh, Primary.pinsFor]
  | [i], _ => simp [Primary.holdsOk, Primary.fresh, Primary.pinsFor]

theorem Act.holdsOk_server (h : Act x s t) (hs : ∀ r, s.server = some r → r.HoldsOk) :
    ∀ r, t.server = some r → r.HoldsOk := by
  have same (e : t.server = s.server) : ∀ r, t.server = some r → r.HoldsOk := by rw [e]; exact hs
  have gone (e : t.server = none) : ∀ r, t.server = some r → r.HoldsOk := fun r hr => by rw [e] at hr; cases hr
  have goes {r' : InService} (hr : r'.HoldsOk) (e : t.server = some r') : ∀ r, t.server = some r → r.HoldsOk :=
    fun r he => by cases e.symm.trans he; exact hr
  cases h with
  | still h | table _ _ h | record _ _ _ h | accept _ _ _ _ h | dequeue _ h | chan _ _ _ _ _ h =>
    exact same (congrArg Inside.server h)
  | service r r' v hr hst _ h => exact goes (hst.holds (hs r hr)) (congrArg Inside.server h)
  | served _ _ _ _ h | reset _ h => exact gone (congrArg Inside.server h)
  | unlink server' hsv h =>
    have hsv' : t.server = server' := congrArg Inside.server h
    rcases hsv with ⟨-, e⟩ | ⟨r, r', hr, e, -, hp, -, -, -, hu⟩
    · exact gone (hsv'.trans e)
    · refine goes ⟨by rw [hp]; exact (hs r hr).1, fun hc => ?_⟩ (hsv'.trans e)
      rw [hu] at hc; cases hc
  | handOver c r hd offset g hr hst hg hc h =>
    exact goes (r' := { r with pins := [], stage := g }) ⟨by simp, fun hc => by rw [hg] at hc; cases hc⟩
      (congrArg Inside.server h)

theorem Act.holdLaw (h : Act x s t) (hs : HoldLaw s) : HoldLaw t :=
  ⟨fun c => h.channels (P := Channel.HoldsOk) (fun _ hp => by cases hp) ChanStep.holds
    (fun _ r hd offset hr hu _ p hp => by
      cases hp
      exact Primary.fresh_holdsOk _ hd offset ((hs.2 r hr).2 hu).1) hs.1 c,
   h.holdsOk_server hs.2⟩

/-! ### Detached requests -/

theorem Act.detachedLaw (h : Act x s t) (hs : DetachedLaw s) : DetachedLaw t := by
  have same (e : t.server = s.server) : DetachedLaw t := by unfold DetachedLaw; rw [e]; exact hs
  have gone (e : t.server = none) : DetachedLaw t := fun r hr => by rw [e] at hr; cases hr
  have goes {r' : InService} (hd : r'.detached = true → r'.disposition = .discard ∧ r'.held = []) (e : t.server = some r') :
      DetachedLaw t := fun r he => by cases e.symm.trans he; exact hd
  cases h with
  | still h | table _ _ h | record _ _ _ h | accept _ _ _ _ h | dequeue _ h | chan _ _ _ _ _ h =>
    exact same (congrArg Inside.server h)
  | service r r' v hr hst _ h =>
    refine goes (fun hd => ?_) (congrArg Inside.server h)
    rw [hst.detached] at hd
    obtain ⟨h1, h2⟩ := hst.silent hd
    rw [h1, h2]; exact hs r hr hd
  | served _ _ _ _ h | reset _ h => exact gone (congrArg Inside.server h)
  | unlink server' hsv h =>
    have hsv' : t.server = server' := congrArg Inside.server h
    rcases hsv with ⟨-, e⟩ | ⟨r, r', hr, e, -, -, -, h1, h2, -⟩
    · exact gone (hsv'.trans e)
    · exact goes (fun _ => ⟨h1, h2⟩) (hsv'.trans e)
  | handOver c r hd offset g hr hst hg hc h =>
    exact goes (r' := { r with pins := [], stage := g }) (hs r hr) (congrArg Inside.server h)

/-! ### Slots torn down -/

/-- TornDownLaw but for the slot x, which an act may be shutting out (R148). -/
def TornDownBut (x : Option Slot) (s : State) : Prop :=
  (∀ slot, x ≠ some slot → s.su[slot].Shut → HoldsNothing s slot) ∧
  ∀ r, s.server = some r → r.detached = true ∨ x ≠ some r.request.slot ∧ s.su[r.request.slot].Shut →
    r.stage.uncommitted = false

theorem tornDownBut_none : TornDownBut none s ↔ TornDownLaw s := by
  unfold TornDownBut TornDownLaw
  simp only [ne_eq, reduceCtorEq, not_false_eq_true, true_and, forall_true_left]
  rfl

theorem TornDownLaw.but (h : TornDownLaw s) : TornDownBut x s :=
  ⟨fun slot _ => h.1 slot, fun r hr hd => h.2 r hr (hd.imp_right And.right)⟩

theorem holdsNothing_iff {slot : Slot} : HoldsNothing s slot ↔
    (∀ i : DIdx, ¬ s.wt[i].Knows slot) ∧ (∀ c : Chan, ¬ s.chans[c].OwnedBy slot) ∧ ∀ q ∈ s.rq, q.slot ≠ slot := by
  unfold HoldsNothing Descriptor.Knows Channel.OwnedBy
  simp only [not_or, not_not, not_exists, not_and]

theorem Descriptor.without_knows {d : Descriptor} {slot y : Slot} (h : (d.without y).Knows slot) : d.Knows slot := by
  unfold Descriptor.Knows Descriptor.without at h
  rcases h with h | h | h
  · left
    rw [get_set] at h; split at h
    · exact absurd rfl h
    · exact h
  · right; left
    dsimp only at h; split at h
    · cases h
    · exact h
  · right; right
    dsimp only at h; split at h
    · cases h
    · exact h

theorem Descriptor.clearOpeners_knows {d : Descriptor} {slot : Slot} : ¬ d.clearOpeners.Knows slot := by
  simp [Descriptor.Knows, Descriptor.clearOpeners]

theorem DescStep.knows {gains : Slot → Prop} {i : DIdx} {d d' : Descriptor} (h : DescStep gains i d d') {slot : Slot}
    (hk : d'.Knows slot) : d.Knows slot ∨ gains slot := by
  cases h with
  | leave y => rw [removeOpener_eq_without] at hk; exact .inl (Descriptor.without_knows hk)
  | clear => exact absurd hk (Descriptor.clearOpeners_knows (d := d))
  | enroll y granted hg =>
    by_cases e : y = slot
    · exact .inr (e ▸ hg)
    · left
      rcases addOpener_cases d y granted with h | h <;> rw [h] at hk <;> unfold Descriptor.Knows at hk ⊢ <;>
        rw [get_set_ne _ e] at hk
      · exact hk
      · exact hk.imp_right (.imp_left (by simp))
  | release => exact .inl (hk.imp_right (.imp_left (by simp [Descriptor.releaseLock])))
  | lock y granted expiry hv ho =>
    left
    rcases hk with hk | hk | hk
    · exact .inl hk
    · cases hk; exact .inl (by rw [ho]; simp)
    · cases hk
  | unmark => exact .inl (hk.imp_right (.imp_right (by simp)))
  | expire y hh =>
    left
    rcases hk with hk | hk | hk
    · exact .inl hk
    · cases hk
    · cases hk; exact .inr (.inl hh)
  | write _ _ _ _ _ he =>
    obtain ⟨h1, -, h2, -, h3⟩ := he
    unfold Descriptor.Knows at hk ⊢
    rw [h1, h2, h3] at hk; exact .inl hk
  | retire => exact .inl (hk.imp_right (.imp_left (by simp [Descriptor.releaseLock])))
  | free => exact absurd hk (Descriptor.clearOpeners_knows (d := d))

theorem PinShift.knows {counts : Prop} {d d' : Descriptor} {m n : Nat} (h : PinShift counts d m d' n) {slot : Slot} (hk : d'.Knows slot) :
    d.Knows slot := by
  cases h with
  | placed => exact hk
  | fallen k =>
    rcases d.unpinned_cases k with e | ⟨-, e⟩ <;> rw [e] at hk
    · exact hk
    · exact absurd hk (Descriptor.clearOpeners_knows (d := d))

/-- What a slot has of the part only grows by what it gains, and a slot that gains is not shut out. -/
theorem TornDownBut.of_parts (hs : TornDownBut x s)
    (hsh : ∀ slot, t.su[slot].Shut → s.su[slot].Shut ∨ x = some slot)
    (hk : ∀ (i : DIdx) (slot : Slot), t.wt[i].Knows slot → s.wt[i].Knows slot ∨ s.Gains slot)
    (ho : ∀ (c : Chan) (slot : Slot), t.chans[c].OwnedBy slot → s.chans[c].OwnedBy slot ∨ s.Gains slot)
    (hq : ∀ q ∈ t.rq, q ∈ s.rq ∨ ¬ s.su[q.slot].Shut)
    (hv : ∀ r', t.server = some r' → r'.stage.uncommitted = true →
      ∃ r, s.server = some r ∧ r.request.slot = r'.request.slot ∧ (r'.detached = true → r.detached = true) ∧
        r.stage.uncommitted = true) : TornDownBut x t := by
  have gain (slot : Slot) (hx : x ≠ some slot) (h : s.su[slot].Shut) : ¬ s.Gains slot := by
    rintro ⟨r, hr, rfl, hu⟩
    rw [hs.2 r hr (.inr ⟨hx, h⟩)] at hu; cases hu
  refine ⟨fun slot hx h => ?_, fun r' hr' hd => ?_⟩
  · have h' := (hsh slot h).resolve_right hx
    obtain ⟨a, b, c⟩ := holdsNothing_iff.1 (hs.1 slot hx h')
    refine holdsNothing_iff.2 ⟨fun i e => ?_, fun d e => ?_, fun q hm e => ?_⟩
    · exact (hk i slot e).elim (a i) (gain slot hx h')
    · exact (ho d slot e).elim (b d) (gain slot hx h')
    · rcases hq q hm with m | m
      · exact c q m e
      · exact m (e ▸ h')
  · by_contra hc
    obtain ⟨r, hr, e, hdet, hu⟩ := hv r' hr' (by simpa using hc)
    have moved (y : Slot) (hy : r.request.slot = y) (h : x ≠ some y ∧ s.su[y].Shut) :
        x ≠ some r.request.slot ∧ s.su[r.request.slot].Shut := by subst hy; exact h
    have := hs.2 r hr (hd.imp hdet fun ⟨a, b⟩ => moved _ e ⟨a, (hsh _ b).resolve_right a⟩)
    rw [this] at hu; cases hu

theorem Act.tornDownBut (h : Act x s t) (hsc : ScoreLaw s) (hs : TornDownBut x s) : TornDownBut x t := by
  have su_same (e : t.su = s.su) (slot : Slot) (hq : t.su[slot].Shut) : s.su[slot].Shut ∨ x = some slot := by
    rw [e] at hq; exact .inl hq
  have su_set {y : Slot} {q : Requester} (e : t.su = s.su.set y q) (hq : q.Shut → s.su[y].Shut ∨ x = some y) (slot : Slot)
      (h : t.su[slot].Shut) : s.su[slot].Shut ∨ x = some slot := by
    rw [e, get_set] at h
    split at h
    next he => subst he; exact hq h
    next => exact .inl h
  have wt_same (e : t.wt = s.wt) (i : DIdx) (slot : Slot) (h : t.wt[i].Knows slot) : s.wt[i].Knows slot ∨ s.Gains slot := by
    rw [e] at h; exact .inl h
  have wt_pins {counts : DIdx → Prop} {v : Vector Descriptor 256} {m n : DIdx → Nat} (hp : ∀ i : DIdx, PinShift (counts i) s.wt[i] (m i) v[i] (n i))
      (e : t.wt = v) (i : DIdx) (slot : Slot) (h : t.wt[i].Knows slot) : s.wt[i].Knows slot ∨ s.Gains slot := by
    rw [e] at h; exact .inl ((hp i).knows h)
  have ch_same (e : t.chans = s.chans) (c : Chan) (slot : Slot) (h : t.chans[c].OwnedBy slot) :
      s.chans[c].OwnedBy slot ∨ s.Gains slot := by
    rw [e] at h; exact .inl h
  have ch_set {d : Chan} {ch : Channel} (e : t.chans = s.chans.set d ch)
      (hc : ∀ slot, ch.OwnedBy slot → s.chans[d].OwnedBy slot ∨ s.Gains slot) (c : Chan) (slot : Slot)
      (h : t.chans[c].OwnedBy slot) : s.chans[c].OwnedBy slot ∨ s.Gains slot := by
    rw [e, get_set] at h
    split at h
    next he => subst he; exact hc slot h
    next => exact .inl h
  have rq_same (e : t.rq = s.rq) (q : Request) (h : q ∈ t.rq) : q ∈ s.rq ∨ ¬ s.su[q.slot].Shut := by
    rw [e] at h; exact .inl h
  have sv_same (e : t.server = s.server) (r' : InService) (h : t.server = some r') (hu : r'.stage.uncommitted = true) :
      ∃ r, s.server = some r ∧ r.request.slot = r'.request.slot ∧ (r'.detached = true → r.detached = true) ∧
        r.stage.uncommitted = true := ⟨r', by rw [← e, h], rfl, id, hu⟩
  have sv_none (e : t.server = none) (r' : InService) (h : t.server = some r') (_ : r'.stage.uncommitted = true) :
      ∃ r, s.server = some r ∧ r.request.slot = r'.request.slot ∧ (r'.detached = true → r.detached = true) ∧
        r.stage.uncommitted = true := by rw [e] at h; cases h
  have sv_past {r1 : InService} (e : t.server = some r1) (h1 : r1.stage.uncommitted = false) (r' : InService)
      (h : t.server = some r') (hu : r'.stage.uncommitted = true) :
      ∃ r, s.server = some r ∧ r.request.slot = r'.request.slot ∧ (r'.detached = true → r.detached = true) ∧
        r.stage.uncommitted = true := by
    cases e.symm.trans h; rw [h1] at hu; cases hu
  cases h with
  | still h =>
    exact hs.of_parts (su_same (congrArg Inside.su h)) (wt_same (congrArg Inside.wt h))
      (ch_same (congrArg Inside.chans h)) (rq_same (congrArg Inside.rq h)) (sv_same (congrArg Inside.server h))
  | table v hv h =>
    refine hs.of_parts (su_same (congrArg Inside.su h)) (fun i slot hk => ?_)
      (ch_same (congrArg Inside.chans h)) (rq_same (congrArg Inside.rq h)) (sv_same (congrArg Inside.server h))
    rw [show t.wt = v from congrArg Inside.wt h] at hk
    rcases hv i with e | e
    · rw [e] at hk; exact .inl hk
    · exact e.knows hk
  | record y q hq h =>
    exact hs.of_parts (su_set (congrArg Inside.su h) (hq.shut (hsc y))) (wt_same (congrArg Inside.wt h))
      (ch_same (congrArg Inside.chans h)) (rq_same (congrArg Inside.rq h)) (sv_same (congrArg Inside.server h))
  | accept q hq hl ho h =>
    refine hs.of_parts (su_set (congrArg Inside.su h) .inl) (wt_same (congrArg Inside.wt h))
      (ch_same (congrArg Inside.chans h)) (fun p hp => ?_) (sv_same (congrArg Inside.server h))
    rw [show t.rq = s.rq ++ [q] from congrArg Inside.rq h, List.mem_append, List.mem_singleton] at hp
    exact hp.imp_right fun e => by rw [e]; exact hq
  | dequeue y h =>
    refine hs.of_parts (su_set (congrArg Inside.su h) .inl) (wt_same (congrArg Inside.wt h))
      (ch_same (congrArg Inside.chans h)) (fun p hp => ?_) (sv_same (congrArg Inside.server h))
    rw [show t.rq = s.rq.filter fun q => q.slot != y from congrArg Inside.rq h] at hp
    exact .inl (List.mem_filter.1 hp).1
  | service r r' v hr hst hp h =>
    refine hs.of_parts (su_same (congrArg Inside.su h)) (wt_pins hp (congrArg Inside.wt h))
      (ch_same (congrArg Inside.chans h)) (rq_same (congrArg Inside.rq h)) fun r1 h1 hu => ?_
    cases (show t.server = some r' from congrArg Inside.server h).symm.trans h1
    exact ⟨r, hr, by rw [hst.request], fun hd => by rw [← hst.detached]; exact hd, hst.stage hu⟩
  | served r v hr hp h =>
    exact hs.of_parts (su_set (congrArg Inside.su h) .inl) (wt_pins hp (congrArg Inside.wt h))
      (ch_same (congrArg Inside.chans h)) (rq_same (congrArg Inside.rq h)) (sv_none (congrArg Inside.server h))
  | unlink server' hsv h =>
    refine hs.of_parts (fun slot hq => ?_) (wt_same (congrArg Inside.wt h)) (ch_same (congrArg Inside.chans h))
      (fun p hp => ?_) ?_
    · rw [show t.su = mapTable _ s.su from congrArg Inside.su h, Fin.getElem_fin, mapTable_get] at hq
      exact .inl hq
    · rw [show t.rq = [] from congrArg Inside.rq h] at hp; cases hp
    · have hsv' : t.server = server' := congrArg Inside.server h
      rcases hsv with ⟨-, e⟩ | ⟨r, r', -, e, -, -, -, -, -, hu⟩
      · exact sv_none (hsv'.trans e)
      · exact sv_past (hsv'.trans e) hu
  | chan c ch v hc hp h =>
    exact hs.of_parts (su_same (congrArg Inside.su h)) (wt_pins hp (congrArg Inside.wt h))
      (ch_set (congrArg Inside.chans h) hc.owns) (rq_same (congrArg Inside.rq h)) (sv_same (congrArg Inside.server h))
  | handOver c r hd offset g hr hst hg hc h =>
    refine hs.of_parts (su_same (congrArg Inside.su h)) (wt_same (congrArg Inside.wt h))
      (ch_set (congrArg Inside.chans h) fun slot hown => ?_) (rq_same (congrArg Inside.rq h))
      (sv_past (congrArg Inside.server h) hg)
    rcases hown with ⟨p, hp, ho⟩ | ⟨b, hb, ho⟩
    · cases hp
      exact .inr ⟨r, hr, by simpa [Primary.fresh] using ho, hst⟩
    · exact .inl (.inr ⟨b, hb, ho⟩)
  | reset present h =>
    refine ⟨fun slot _ _ => holdsNothing_iff.2 ⟨fun i => ?_, fun c => ?_, fun q hm => ?_⟩, fun r hr => ?_⟩
    · rw [show t.wt = Vector.replicate 256 Descriptor.reset from congrArg Inside.wt h]
      simp [Descriptor.Knows, Descriptor.reset]
    · rw [show t.chans = Vector.replicate 4 Channel.reset from congrArg Inside.chans h]
      simp [Channel.OwnedBy, Channel.reset]
    · rw [show t.rq = [] from congrArg Inside.rq h] at hm; cases hm
    · rw [show t.server = none from congrArg Inside.server h] at hr; cases hr

end Sys2Proof.Machine

/-! Which acts the shared operations are chains of: the end of a service, the end of a list, what a channel notes of its
primary, a teardown, a violation (R90, R126, R148, R53). -/

namespace Sys2Proof.Machine

variable {x : Option Slot} {s t u : State}

/-! ### Chains of acts -/

theorem Act.acts (h : Act x s t) : Acts x s t := .single h

/-- An operation that the tables, requests and lists do not see. -/
theorem Acts.still (h : t.inside = s.inside) : Acts x s t := .single (.still h)

/-- Chains start and end at states alike in tables, requests and lists. -/
theorem Acts.congr (h : Acts x s t) (e : u.inside = t.inside) : Acts x s u := h.tail (.still e)

/-! ### What the tables, requests and lists do not see -/

section Unseen

variable (s : State)

@[simp] theorem setPm_inside (v : Vector MapEntry 2048) : (s.setPm v).inside = s.inside := rfl
@[simp] theorem setPort_inside (p : Port) : (s.setPort p).inside = s.inside := rfl
@[simp] theorem setMem_inside (m : List Host.Cell) : (s.setMem m).inside = s.inside := rfl
@[simp] theorem setEcc_inside (e : List (Nat × WordErr)) : (s.setEcc e).inside = s.inside := rfl
@[simp] theorem setEngine_inside (e : Engine) : (s.setEngine e).inside = s.inside := rfl
@[simp] theorem setAttn_inside (a : Attention) : (s.setAttn a).inside = s.inside := rfl
@[simp] theorem send_inside (m : LinkMsg) : (s.send m).inside = s.inside := rfl
@[simp] theorem setLines_inside (l : Lines) : (s.setLines l).inside = s.inside := rfl
@[simp] theorem setNow_inside (n : Nat) : (s.setNow n).inside = s.inside := rfl
@[simp] theorem setTurns_inside (l : List (Option Chan)) : (s.setTurns l).inside = s.inside := rfl
@[simp] theorem requestBurst_inside (cl : Claimant) (b : Burst) : (requestBurst cl b s).inside = s.inside := rfl
@[simp] theorem withdrawBurst_inside (cl : Claimant) : (withdrawBurst cl s).inside = s.inside := rfl
@[simp] theorem complete_inside (code : Code) (results : Results) : (complete code results s).inside = s.inside := rfl
@[simp] theorem completeOk_inside : (completeOk s).inside = s.inside := rfl
@[simp] theorem completeWith_inside (code : Code) : (completeWith code s).inside = s.inside := rfl
@[simp] theorem raiseMapHole_inside (entry : Nat) : (raiseMapHole entry s).inside = s.inside := rfl
@[simp] theorem raiseLockExpired_inside (i : DIdx) : (raiseLockExpired i s).inside = s.inside := rfl
@[simp] theorem raiseRequesterGone_inside (slot : Slot) : (raiseRequesterGone slot s).inside = s.inside := rfl
@[simp] theorem raiseMemCorrected_inside (f : Nat) : (raiseMemCorrected f s).inside = s.inside := rfl

@[simp] theorem touchAbsent_inside (o : Option DIdx) : (touchAbsent o s).inside = s.inside := by cases o <;> rfl

@[simp] theorem offerFault_inside (reason : Code) (slot : Slot) (source : Option Chan) (h : Handle) (offset : Nat) :
    (offerFault reason slot source h offset s).inside = s.inside := by unfold offerFault; split <;> rfl

@[simp] theorem grantBurst_inside : (grantBurst s).inside = s.inside := by unfold grantBurst; split <;> rfl

@[simp] theorem sendAnswers_inside (slot : Slot) (answers : List (BitVec 3 × Code)) :
    (sendAnswers slot answers s).inside = s.inside := by rw [sendAnswers_eq]; rfl

@[simp] theorem engineOnFree_inside (i : DIdx) : (engineOnFree i s).inside = s.inside := by
  unfold engineOnFree; split
  · split <;> rfl
  · rfl

@[simp] theorem engineLinkCheck_inside : (engineLinkCheck s).inside = s.inside := by
  unfold engineLinkCheck; split
  · split <;> rfl
  · rfl

@[simp] theorem engineLinkBegin_inside : (engineLinkBegin s).inside = s.inside := by
  unfold engineLinkBegin; split <;> rfl

@[simp] theorem noteCorrected_inside (ws : List Nat) : (noteCorrected s ws).inside = s.inside := by
  unfold noteCorrected
  induction ws generalizing s with
  | nil => rfl
  | cons w ws ih => rw [List.foldl_cons, ih]; split <;> rfl

@[simp] theorem healWord_inside (w : Nat) : (healWord s w).inside = s.inside := by
  unfold healWord; dsimp only; split <;> rfl

@[simp] theorem healWords_inside (ws : List Nat) : (ws.foldl healWord s).inside = s.inside := by
  induction ws generalizing s with
  | nil => rfl
  | cons w ws ih => rw [List.foldl_cons, ih, healWord_inside]

@[simp] theorem performBurst_inside (b : Burst) : (performBurst b s).2.2.inside = s.inside := by
  unfold performBurst
  cases b with
  | read a n =>
    dsimp only; split
    · split <;> exact noteCorrected_inside s _
    · rfl
  | write a bytes =>
    dsimp only; split
    · split
      · exact noteCorrected_inside s _
      · show (State.setMem _ _).inside = _
        rw [setMem_inside, healWords_inside, noteCorrected_inside]
    · rfl

@[simp] theorem applyUpset_inside (v : Upset) : (applyUpset s v).inside = s.inside := by
  unfold applyUpset; split
  · dsimp only; split <;> rfl
  · rfl

@[simp] theorem applyUpsets_inside (l : List Upset) : (l.foldl applyUpset s).inside = s.inside := by
  induction l generalizing s with
  | nil => rfl
  | cons v l ih => rw [List.foldl_cons, ih, applyUpset_inside]

end Unseen

/-! ### Parts of acts -/

theorem PinShift.refl (counts : Prop) (d : Descriptor) (m : Nat) : PinShift counts d m d m :=
  .placed 0 m (.inl rfl) fun _ => rfl

/-- All of a holder's pins on a descriptor fall. -/
theorem PinShift.all (counts : Prop) (d : Descriptor) (m : Nat) : PinShift counts d m (d.unpinned m) 0 :=
  .fallen m 0 fun _ => ⟨le_refl m, (Nat.sub_self m).symm⟩

/-- Pins placed on VALID descriptors beside those a holder has. -/
theorem PinShift.withPins {counts : Prop} {v : Vector Descriptor 256} {is : List DIdx}
    (h : ∀ i ∈ is, v[i].state = .valid) {m n : Nat} (i : DIdx) (hn : counts → n = m + is.count i) :
    PinShift counts v[i] m (Machine.withPins v is)[i] n := by
  have e : (Machine.withPins v is)[i] = { v[i] with pins := v[i].pins + is.count i } := by
    have h1 := withPins_alike is v i
    have h2 := withPins_pins is v i
    generalize (Machine.withPins v is)[i] = d at h1 h2 ⊢
    generalize v[i] = e at h1 h2 ⊢
    rw [← h2]
    cases d; cases e; simpa using h1
  rw [e]
  refine .placed _ _ ?_ hn
  rcases Nat.eq_zero_or_pos (is.count i) with h0 | h0
  · exact .inl h0
  · exact .inr (h i (List.count_pos_iff.1 h0))

/-- One descriptor changes, its pins apart. -/
theorem Acts.desc {i : DIdx} {d : Descriptor} (hd : DescStep s.Gains i s.wt[i] d)
    (h : t.inside = { s.inside with wt := s.wt.set i d }) : Acts x s t := by
  refine .single (.table (s.wt.set i d) (fun j => ?_) h)
  rw [get_set]; split
  · rename_i e; subst e; exact .inr hd
  · exact .inl rfl

/-- A record changes, its count apart. -/
theorem Acts.record {slot : Slot} {q : Requester} (hq : RecordStep x slot s.su[slot] q)
    (h : t.inside = { s.inside with su := s.su.set slot q }) : Acts x s t := .single (.record slot q hq h)

theorem RecordStep.refl (slot : Slot) (r : Requester) : RecordStep x slot r r := ⟨rfl, id, fun _ => .inl⟩

/-- A standing is BARRED from 256 on. -/
theorem standingOf_eq_barred {n : Nat} : standingOf n = .barred ↔ 255 < n := by
  unfold standingOf
  constructor
  · intro h
    by_contra hn
    rw [if_pos (by omega : n ≤ 255)] at h
    split at h
    · cases h
    · split at h <;> cases h
  · intro h
    rw [if_neg (by omega), if_neg (by omega), if_neg (by omega)]

/-- A clean completion shuts nobody out. -/
theorem RecordStep.credited (slot : Slot) (r : Requester) : RecordStep x slot r r.credited := by
  refine ⟨rfl, fun h => ⟨?_, rfl⟩, fun h hq => .inl (hq.imp_right (.imp_right fun hb => ?_))⟩
  · obtain ⟨h1, -⟩ := h
    simp only [Requester.credited]; split <;> omega
  · obtain ⟨h1, h2⟩ := h
    have h3 := standingOf_eq_barred.1 hb
    rw [h2, standingOf_eq_barred]
    split at h3 <;> omega

/-- A violation shuts out its slot alone. -/
theorem RecordStep.charged (slot : Slot) (r : Requester) : RecordStep (some slot) slot r r.charged :=
  ⟨rfl, fun _ => ⟨Nat.min_le_right _ _, rfl⟩, fun _ _ => .inr rfl⟩

/-- A violation that does not bar, or comes after the bar, shuts nobody out. -/
theorem RecordStep.charged_of {slot : Slot} {r : Requester} (h : r.charged.standing = .barred → r.standing = .barred) :
    RecordStep x slot r r.charged :=
  ⟨rfl, fun _ => ⟨Nat.min_le_right _ _, rfl⟩, fun _ hq => .inl (hq.imp_right (.imp_right h))⟩

theorem cleanCompletion_acts (slot : Slot) (s : State) : Acts x s (cleanCompletion slot s) :=
  .record (.credited slot _) rfl

/-! ### The end of a service -/

theorem lockGivenUp_acts (r : InService) (code : Code) (s : State) : Acts x s (s.lockGivenUp r code) := by
  unfold State.lockGivenUp; split
  · split
    · exact .desc .release rfl
    · exact .refl
  · exact .refl

theorem lockGivenUp_server (r : InService) (code : Code) (s : State) : (s.lockGivenUp r code).server = s.server := by
  unfold State.lockGivenUp; split
  · split <;> rfl
  · rfl

/-- What the end of a service is to the tables, requests and lists. -/
theorem State.ended_inside (s : State) (r : InService) (code : Code) (payload : List Byte) :
    (s.ended r code payload).inside = { s.inside with
      wt := (removePins r.pins { s with server := none }).wt
      server := none
      su := s.su.set r.request.slot (r.leaves code s.su[r.request.slot]) } := by
  unfold State.ended; rw [removePins_frame]; rfl

theorem ended_acts {r : InService} (h : s.server = some r) (code : Code) (payload : List Byte) :
    Acts x s (s.ended r code payload) := by
  let q : Requester := if r.disposition = .send ∧ code = .ok ∧ r.request.body.isQuery = false then
    s.su[r.request.slot].credited else s.su[r.request.slot]
  have hq : RecordStep x r.request.slot s.su[r.request.slot] q := by
    show RecordStep x _ _ (if _ then _ else _)
    split
    · exact .credited _ _
    · exact .refl _ _
  refine .head (b := { s with su := s.su.set r.request.slot q }) (.record _ q hq rfl) (.single ?_)
  refine .served r (removePins r.pins { s with server := none }).wt h (fun i => ?_) ?_
  · rw [removePins_wt]; exact .all _ _ _
  · rw [State.ended_inside]
    simp only [State.inside, set_set_self, get_set_self, Inside.mk.injEq, true_and, and_true]
    congr 1
    unfold InService.leaves; dsimp only
    split <;> rfl

/-- The end of a service is a chain of acts. -/
theorem endService_acts (code : Code) (payload : List Byte) (s : State) : Acts x s (endService code payload s) := by
  cases h : s.server with
  | none => unfold endService; rw [h]
  | some r =>
    rw [endService_eq code payload h]
    exact (lockGivenUp_acts r code s).trans (ended_acts (by rw [lockGivenUp_server, h]) code payload)

/-! ### The service goes on -/

/-- The request in service goes on, its pins as they were. -/
theorem Acts.goesOn {r r' : InService} (hr : s.server = some r) (hs : ServiceStep r r') (hp : r'.pins = r.pins)
    (h : t.inside = { s.inside with server := some r' }) : Acts x s t :=
  .single (.service r r' s.wt hr hs (fun i => by rw [hp]; exact .refl _ _ _) h)

/-- The service goes on to a stage: a committed one, or one that asks for the same holds. -/
theorem toStage_acts {r : InService} {g : Stage} (hr : s.server = some r)
    (hg : g.uncommitted = true → r.stage.uncommitted = true ∧ (r.stage ≠ .slotClaim ∨ r.pins = [])) :
    Acts x s (toStage g s) := by
  refine .goesOn hr (r' := { r with stage := g }) ⟨rfl, rfl, fun _ => ⟨rfl, rfl⟩, fun h => (hg h).1, fun h => ⟨h.1, fun hu => ?_⟩⟩
    rfl (by rw [toStage_of hr]; rfl)
  obtain ⟨h1, h2⟩ := hg hu
  have hp : r.pins = [] := h2.elim (h.2 h1).2 id
  exact ⟨by simp [hp], fun _ => hp⟩

/-- The service reaches its result. -/
theorem reach_acts (code : Code) (payload : List Byte) (s : State) : Acts x s (reach code payload s) := by
  cases hr : s.server with
  | none => exact .still (by unfold reach toStage State.setServer State.inside; rw [hr]; rfl)
  | some r => exact toStage_acts hr fun h => by cases h

/-! ### The end of a list -/

/-- A channel whose list has ended with a code: its backup is promoted (R126). -/
def Channel.listEnded (ch : Channel) (p : Primary) (code : Code) : Channel where
  state := if ch.backup.isSome then .fetch else .idle
  primary := ch.backup.map Backup.promoted
  backup := none
  outcome := p.outcome code
  event := some (endEvent code)

theorem Backup.promoted_holdsOk (b : Backup) : b.promoted.holdsOk := by
  simp [Primary.holdsOk, Backup.promoted, Primary.pinsFor]

theorem ChanStep.listEnded (gains : Slot → Prop) (ch : Channel) (p : Primary) (code : Code) :
    ChanStep gains ch (ch.listEnded p code) := by
  have prim {q : Primary} (h : (ch.listEnded p code).primary = some q) : ∃ b, ch.backup = some b ∧ q = b.promoted := by
    obtain ⟨b, hb, e⟩ := Option.map_eq_some_iff.1 h
    exact ⟨b, hb, e.symm⟩
  constructor
  · intro _
    refine ⟨?_, fun h => absurd rfl h, fun q hq => ?_⟩
    · unfold Channel.listEnded; cases ch.backup <;> simp
    · obtain ⟨b, hb, rfl⟩ := prim hq
      simp [Channel.listEnded, hb, Backup.promoted]
  · intro _ q hq
    obtain ⟨b, -, rfl⟩ := prim hq
    exact b.promoted_holdsOk
  · intro _ q hq _
    obtain ⟨b, -, rfl⟩ := prim hq
    rfl
  · rintro slot (⟨q, hq, ho⟩ | ⟨b, hb, -⟩)
    · obtain ⟨b, hb, rfl⟩ := prim hq
      exact .inl (.inr ⟨b, hb, Option.some.inj ho⟩)
    · cases hb

/-- What the end of a list is to the tables, requests and lists. -/
theorem endList_inside {c : Chan} {p : Primary} (hp : s.chans[c].primary = some p) (code : Code) :
    ∃ v : Vector Descriptor 256, (∀ i : DIdx, v[i] = s.wt[i].unpinned (s.chans[c].pinsOn i)) ∧
      (endList c code s).inside = { s.inside with
        wt := v
        su := if code = .ok then p.owner.elim s.su fun o => s.su.set o s.su[o].credited else s.su
        chans := s.chans.set c (s.chans[c].listEnded p code) } := by
  let s1 : State := channelEvent c (endEvent code) (s.updChan c fun ch => { ch with outcome := p.outcome code })
  let s2 : State := if code = .ok then p.owner.elim s1 fun o => cleanCompletion o s1 else s1
  have e : endList c code s = engineOnListEnd c (withdrawBurst (Claimant.ch c)
      ((removePins (p.pins.map (·.index)) s2).updChan c Channel.promote)) := by
    unfold endList; rw [hp]
  have h2 : s2.wt = s.wt ∧ s2.rq = s.rq ∧ s2.server = s.server ∧ s2.chans = s1.chans ∧
      s2.su = if code = .ok then p.owner.elim s.su fun o => s.su.set o s.su[o].credited else s.su := by
    dsimp only [s2]
    split
    · cases p.owner <;> exact ⟨rfl, rfl, rfl, rfl, rfl⟩
    · exact ⟨rfl, rfl, rfl, rfl, rfl⟩
  obtain ⟨hw, hq, hsv, hch, hsu⟩ := h2
  refine ⟨(removePins (p.pins.map (·.index)) s2).wt, fun i => ?_, ?_⟩
  · rw [removePins_wt, hw]; unfold Channel.pinsOn; rw [hp]; rfl
  · rw [e, engineOnListEnd_eq, removePins_frame]
    simp only [withdrawBurst, State.setPort, State.updChan, State.inside, hq, hsv, hsu, Inside.mk.injEq, true_and]
    have h1 : s1.chans = s.chans.set c { s.chans[c] with outcome := p.outcome code, event := some (endEvent code) } := by
      simp only [s1, channelEvent, raiseChan, State.updChan, State.setAttn, get_set_self, set_set_self]
    have key (v : Vector Channel 4) (hv : v = s1.chans) :
        v.set c v[c].promote = s.chans.set c (s.chans[c].listEnded p code) := by
      rw [hv, h1, get_set_self, set_set_self]
      congr 1
      unfold Channel.promote Channel.listEnded
      cases s.chans[c].backup <;> rfl
    exact key _ hch

/-- All pins of a channel fall. -/
theorem PinShift.ofUnpinned {counts : Prop} {v w : Vector Descriptor 256} {m n : DIdx → Nat} (h : ∀ i : DIdx, w[i] = v[i].unpinned (m i))
    (hn : ∀ i, n i = 0) (i : DIdx) : PinShift counts v[i] (m i) w[i] (n i) := by
  rw [h, hn]; exact .all _ _ _

theorem Channel.listEnded_pinsOn (ch : Channel) (p : Primary) (code : Code) (i : DIdx) :
    (ch.listEnded p code).pinsOn i = 0 := by
  unfold Channel.listEnded Channel.pinsOn
  cases ch.backup <;> rfl

/-- The end of a list is a chain of acts. -/
theorem endList_acts (c : Chan) (code : Code) (s : State) : Acts x s (endList c code s) := by
  cases hp : s.chans[c].primary with
  | none => unfold endList; rw [hp]
  | some p =>
    obtain ⟨v, hv, h⟩ := endList_inside hp code
    have ends (u : State) (h1 : u.inside = { s.inside with su := u.su })
        (h2 : (endList c code s).inside = { u.inside with wt := v, chans := s.chans.set c (s.chans[c].listEnded p code) }) :
        Act x u (endList c code s) := by
      have e1 : u.wt = s.wt := congrArg Inside.wt h1
      have e2 : u.chans = s.chans := congrArg Inside.chans h1
      refine .chan c (s.chans[c].listEnded p code) v (by rw [e2]; exact .listEnded _ _ _ _) ?_ (by rw [h2, e2])
      rw [e1, e2]
      exact .ofUnpinned hv (Channel.listEnded_pinsOn _ _ _)
    by_cases hc : ∃ o, code = .ok ∧ p.owner = some o
    · obtain ⟨o, hc, ho⟩ := hc
      rw [if_pos hc, ho] at h
      exact .head (b := { s with su := s.su.set o s.su[o].credited }) (.record o _ (.credited _ _) rfl) (.single (ends { s with su := s.su.set o s.su[o].credited } rfl h))
    · refine .single (ends s rfl ?_)
      rw [h]
      split
      · rename_i e
        cases ho : p.owner with
        | none => rfl
        | some o => exact absurd ⟨o, e, ho⟩ hc
      · rfl

/-- A list that ends at its boundary, or waits for it. -/
theorem endAtBoundary_acts (c : Chan) (s : State) : Acts x s (endAtBoundary c s) := by
  unfold endAtBoundary; split
  · split
    · exact .refl
    · exact endList_acts c _ s
  · exact .refl

/-! ### A channel goes on with its list -/

/-- What keeps a channel's laws while its list goes on: the owner goes only with a mark, STOPPED is the work's, and the holds
are those of the work. -/
structure Primary.Next (ch : Channel) (p p' : Primary) (st : ChanState) : Prop where
  owner   : p'.owner = p.owner ∨ p'.owner = none ∧ p'.mark ≠ none
  mark    : p.mark ≠ none → p'.mark ≠ none
  busy    : ch.Lawful → st ≠ .idle
  stopped : ch.Lawful → (st = .stopped ↔ p'.work = .stopped)
  holds   : p.holdsOk → p'.holdsOk
  bare    : p'.work = .promote → (p.work = .promote → p.pins = []) → p'.pins = []

theorem ChanStep.next {gains : Slot → Prop} {ch : Channel} {p p' : Primary} {st : ChanState} {b : Option Backup}
    (hp : ch.primary = some p) (h : p.Next ch p' st) (hb : ∀ x, b = some x → ch.backup = some x) (o : ListOutcome)
    (e : Option EventKind) : ChanStep gains ch ⟨st, some p', b, o, e⟩ := by
  constructor
  · intro hl
    refine ⟨by simp [h.busy hl], by simp, fun q hq => ?_⟩
    cases hq
    refine ⟨h.stopped hl, fun hn => ?_⟩
    rcases h.owner with ho | ⟨-, hm⟩
    · exact h.mark ((hl.2.2 p hp).2 (ho ▸ hn))
    · exact hm
  · intro hh q hq
    cases hq; exact h.holds (hh p hp)
  · intro hh q hq hw
    cases hq; exact h.bare hw (hh p hp)
  · rintro slot (⟨q, hq, ho⟩ | ⟨y, hy, ho⟩)
    · cases hq
      rcases h.owner with h' | ⟨h', -⟩
      · exact .inl (.inl ⟨p, hp, h' ▸ ho⟩)
      · rw [h'] at ho; cases ho
    · exact .inl (.inr ⟨y, hb y hy, ho⟩)

/-- The list goes on, its pins as they were. -/
theorem Acts.goesOnList {c : Chan} {p p' : Primary} {st : ChanState} {e : Option EventKind}
    (hp : s.chans[c].primary = some p) (h : p.Next s.chans[c] p' st) (hpins : p'.pins = p.pins)
    (ht : t.inside = { s.inside with
      chans := s.chans.set c { s.chans[c] with state := st, primary := some p', event := e } }) : Acts x s t := by
  refine .single (.chan c _ s.wt (.next hp h (fun _ => id) _ e) (fun i => ?_) ht)
  have : (Channel.mk st (some p') s.chans[c].backup s.chans[c].outcome e).pinsOn i = s.chans[c].pinsOn i := by
    unfold Channel.pinsOn; rw [hp]; dsimp only [Option.elim]; rw [hpins]
  rw [this]; exact .refl _ _ _

end Sys2Proof.Machine

/-! What a claim comes to: a chain of acts that shuts nobody out, or one that shuts a slot out and leaves it nothing (R148). The
operations that end lists, tear slots down and notice violations are such claims. -/

namespace Sys2Proof.Machine

variable {x : Option Slot} {s t u : State}

/-! ### A channel's primary -/

theorem updPrimary_inside {c : Chan} {p : Primary} (hp : s.chans[c].primary = some p) (f : Primary → Primary) :
    (updPrimary c f s).inside =
      { s.inside with chans := s.chans.set c { s.chans[c] with primary := some (f p) } } := by
  simp only [updPrimary, State.updChan, State.inside, hp, Option.map_some]

theorem updPrimary_none {c : Chan} (hp : s.chans[c].primary = none) (f : Primary → Primary) : updPrimary c f s = s := by
  have : s.chans[c] = { s.chans[c] with primary := none } := by rw [← hp]
  simp only [updPrimary, State.updChan, hp, Option.map_none]
  rw [← this, set_get_self]

theorem updPrimary_primary {c : Chan} {p : Primary} (hp : s.chans[c].primary = some p) (f : Primary → Primary) :
    (updPrimary c f s).chans[c].primary = some (f p) := by
  rw [show (updPrimary c f s).chans = _ from congrArg Inside.chans (updPrimary_inside hp f), get_set_self]

/-- The list goes on with the same work. -/
theorem Primary.Next.ofWork {ch : Channel} {p p' : Primary} (hp : ch.primary = some p)
    (ho : p'.owner = p.owner ∨ p'.owner = none ∧ p'.mark ≠ none) (hm : p.mark ≠ none → p'.mark ≠ none)
    (hw : p'.work = p.work) (hpins : p'.pins = p.pins) (hh : p.holdsOk → p'.holdsOk) : p.Next ch p' ch.state where
  owner := ho
  mark := hm
  busy := fun hl h => by rw [hl.1.1 h] at hp; cases hp
  stopped := fun hl => by rw [hw]; exact (hl.2.2 p hp).1
  holds := hh
  bare := fun h hb => by rw [hpins]; exact hb (hw ▸ h)

/-- A change of a primary that keeps its work, its pins and what its holds depend on. -/
theorem updPrimary_acts {c : Chan} {f : Primary → Primary}
    (ho : ∀ p, (f p).owner = p.owner ∨ (f p).owner = none ∧ (f p).mark ≠ none)
    (hm : ∀ p : Primary, p.mark ≠ none → (f p).mark ≠ none) (hw : ∀ p, (f p).work = p.work)
    (hpins : ∀ p, (f p).pins = p.pins) (hh : ∀ p, p.holdsOk → (f p).holdsOk) (s : State) :
    Acts x s (updPrimary c f s) := by
  cases hp : s.chans[c].primary with
  | none => rw [updPrimary_none hp]
  | some p =>
    exact .goesOnList hp (p' := f p) (.ofWork hp (ho p) (hm p) (hw p) (hpins p) (hh p)) (hpins p)
      (updPrimary_inside hp f)

/-- A primary that is given a mark carries one. -/
theorem Primary.setMark_mark (code : MarkCode) (p : Primary) : (p.setMark code).mark ≠ none := by
  unfold Primary.setMark; cases p.mark <;> simp

theorem setMark_acts (c : Chan) (code : MarkCode) (s : State) : Acts x s (updPrimary c (Primary.setMark code) s) :=
  updPrimary_acts (f := Primary.setMark code) (fun _ => .inl rfl) (fun p _ => p.setMark_mark code) (fun _ => rfl)
    (fun _ => rfl) (fun _ h => h) s

/-- An abort claim is a chain of acts. -/
theorem abortPrimary_acts (c : Chan) (code : MarkCode) (s : State) : Acts x s (abortPrimary c code s) :=
  (setMark_acts c code s).trans (endAtBoundary_acts c _)

/-- A backup goes. -/
theorem dropBackup_acts (c : Chan) (b : Option Backup) (s : State) (hb : ∀ y, b = some y → s.chans[c].backup = some y)
    (h : t.inside = { s.inside with chans := s.chans.set c { s.chans[c] with backup := b } }) : Acts x s t := by
  refine .single (.chan c { s.chans[c] with backup := b } s.wt ⟨fun hl => ⟨hl.1, fun hn => ?_, hl.2.2⟩, id, id, ?_⟩
    (fun i => .refl _ _ _) h)
  · obtain ⟨y, hy⟩ := Option.ne_none_iff_exists'.1 hn
    exact hl.2.1 (by rw [hb y hy]; simp)
  · rintro slot (h | ⟨y, hy, ho⟩)
    · exact .inl (.inl h)
    · exact .inl (.inr ⟨y, hb y hy, ho⟩)

theorem emptyBackup_acts (c : Chan) (s : State) : Acts x s (emptyBackup c s) :=
  dropBackup_acts c none s (fun _ h => by cases h) rfl

/-- A channel that stops is one act. -/
theorem stopChannel_acts {c : Chan} {p : Primary} (hp : s.chans[c].primary = some p) : Acts x s (stopChannel c s) := by
  refine .goesOnList hp (p' := { p with work := .stopped }) (st := .stopped) (e := some .stop)
    ⟨.inl rfl, id, fun _ h => (by cases h), fun _ => ⟨fun _ => rfl, fun _ => rfl⟩, fun h => ⟨h.1, h.2.1, trivial⟩,
      fun h => (by cases h)⟩ rfl ?_
  simp only [stopChannel, channelEvent, raiseChan, updPrimary, State.updChan, State.setAttn, State.inside, get_set_self,
    set_set_self, hp, Option.map_some]

/-! ### Teardown -/

theorem teardownTable_acts (slot : Slot) (s : State) : Acts x s (teardownTable slot s) :=
  .single (.table (mapTable (Descriptor.removeOpener slot) s.wt)
    (fun i => .inr (by simp only [Fin.getElem_fin, mapTable_get]; exact .leave slot)) rfl)

theorem teardownChannel_acts (cause : TeardownCause) (slot : Slot) (own : Option Chan) (c : Chan) (s : State) :
    Acts x s (teardownChannel cause slot own c s) := by
  have h1 : Acts x s (s.updChan c fun ch => { ch with backup := ch.backup.filter fun b => b.owner != slot }) :=
    dropBackup_acts c _ s (fun y h => (Option.filter_eq_some_iff.1 h).1) rfl
  have h2 (u : State) : Acts x u (updPrimary c (fun p => { p.setMark (teardownMark cause) with owner := none }) u) :=
    updPrimary_acts (f := fun p => { p.setMark (teardownMark cause) with owner := none }) (fun p => .inr ⟨rfl, p.setMark_mark _⟩)
      (fun p _ => p.setMark_mark _) (fun _ => rfl) (fun _ => rfl) (fun _ h => h) u
  unfold teardownChannel; dsimp only
  split
  · split
    · split
      · exact h1.trans (h2 _)
      · exact (h1.trans (h2 _)).trans (endAtBoundary_acts c _)
    · exact h1
  · exact h1

theorem teardownChannels_acts (cause : TeardownCause) (slot : Slot) (own : Option Chan) (l : List Chan) (s : State) :
    Acts x s (l.foldl (fun t c => teardownChannel cause slot own c t) s) := by
  induction l generalizing s with
  | nil => exact .refl
  | cons c l ih => exact (teardownChannel_acts cause slot own c s).trans (ih _)

theorem cutService_acts (s : State) : Acts x s (cutService s) := by
  unfold cutService; split
  · split
    · exact endService_acts _ _ s
    · exact endService_acts _ _ s
    · exact endService_acts _ _ s
    · exact reach_acts _ _ s
    all_goals exact .refl
  · exact .refl

theorem sendAnswers_acts (slot : Slot) (answers : List (BitVec 3 × Code)) (s : State) :
    Acts x s (sendAnswers slot answers s) := .still (sendAnswers_inside s slot answers)

theorem teardownServer_acts (cause : TeardownCause) (slot : Slot) (own : Bool) (answers : List (BitVec 3 × Code))
    (s : State) : Acts x s (teardownServer cause slot own answers s) := by
  unfold teardownServer
  split
  · rename_i r hr
    split
    · rename_i h
      let r' : InService := { r with
        disposition := nextDisposition r cause own
        held := if cause = .departure then [] else r.held ++ answers
        sendKept := r.sendKept || own }
      have h1 : Acts x s (s.setServer (some r')) :=
        .goesOn hr (r' := r') ⟨rfl, rfl, fun hd => absurd h.2 (by simp [hd]), id, id⟩ rfl rfl
      dsimp only
      split
      · exact h1
      · exact h1.trans (cutService_acts _)
    · exact sendAnswers_acts _ _ s
  · exact sendAnswers_acts _ _ s

/-- A teardown is a chain of acts. -/
theorem teardown_acts (cause : TeardownCause) (slot : Slot) (own : Bool) (ownList : Option Chan) (s : State) :
    Acts x s (teardown cause slot own ownList s) := by
  have h2 := (teardownTable_acts (x := x) slot s).trans (teardownChannels_acts cause slot ownList [0, 1, 2, 3] _)
  unfold teardown; dsimp only
  generalize [0, 1, 2, 3].foldl (fun t c => teardownChannel cause slot ownList c t) (teardownTable slot s) = s1 at h2
  unfold teardownQueue; dsimp only
  refine (h2.trans (.single (.dequeue slot ?_))).trans (teardownServer_acts _ _ _ _ _)
  show State.inside { s1 with rq := _, su := _ } = _
  simp only [State.inside, queuedOf, List.countP_eq_length_filter]
  rfl

/-! ### Claims -/

/-- What a claim comes to. A slot that it shuts out is left nothing, and its request in service has nothing more to gain. -/
inductive Claim (s t : State) : Prop
  | acts (h : Acts none s t)
  | shuts (slot : Slot) (h : Acts (some slot) s t) (hn : HoldsNothing t slot)
      (hv : ∀ r, t.server = some r → r.request.slot = slot → r.detached = false → r.stage.uncommitted = false)

/-- A chain of claims. -/
abbrev Claims : State → State → Prop := Relation.ReflTransGen Claim

theorem Acts.claims (h : Acts none s t) : Claims s t := .single (.acts h)

theorem Claim.claims (h : Claim s t) : Claims s t := .single h

/-- A property that every act keeps is kept by every chain of claims. -/
theorem Claims.keep {P : State → Prop} (hP : ∀ x s t, Act x s t → P s → P t) (h : Claims s t) (hs : P s) : P t := by
  induction h with
  | refl => exact hs
  | tail _ h ih =>
    cases h with
    | acts h => exact h.keep (hP _) ih
    | shuts slot h => exact h.keep (hP _) ih

theorem Acts.tornDownBut (h : Acts x s t) (hs : ScoreLaw s ∧ TornDownBut x s) : ScoreLaw t ∧ TornDownBut x t :=
  h.keep (P := fun s => ScoreLaw s ∧ TornDownBut x s) (fun _ _ h hs => ⟨h.scoreLaw hs.1, h.tornDownBut hs.1 hs.2⟩) hs

/-- Slots that are shut out hold nothing through every chain of claims. -/
theorem Claims.tornDownLaw (h : Claims s t) (hs : ScoreLaw s ∧ TornDownLaw s) : ScoreLaw t ∧ TornDownLaw t := by
  induction h with
  | refl => exact hs
  | tail _ h ih =>
    cases h with
    | acts h =>
      obtain ⟨h1, h2⟩ := h.tornDownBut ⟨ih.1, ih.2.but⟩
      exact ⟨h1, tornDownBut_none.1 h2⟩
    | shuts slot h hn hv =>
      obtain ⟨h1, h2⟩ := h.tornDownBut ⟨ih.1, ih.2.but⟩
      refine ⟨h1, fun y hy => ?_, fun r hr hd => ?_⟩
      · by_cases e : slot = y
        · exact e ▸ hn
        · exact h2.1 y (fun h => e (Option.some.inj h)) hy
      · by_cases hdet : r.detached = true
        · exact h2.2 r hr (.inl hdet)
        · by_cases e : slot = r.request.slot
          · exact hv r hr e.symm (by simpa using hdet)
          · exact h2.2 r hr (.inr ⟨fun h => e (Option.some.inj h), hd.resolve_left hdet⟩)

/-- What a slot holds is read from the tables, requests and lists. -/
theorem HoldsNothing.congr {slot : Slot} (h : HoldsNothing s slot) (hw : t.wt = s.wt) (hc : t.chans = s.chans)
    (hq : t.rq = s.rq) : HoldsNothing t slot := by unfold HoldsNothing; rw [hw, hc, hq]; exact h

/-- After a teardown that is not for its own violation a request of the slot has nothing more to gain. -/
theorem teardown_committed (cause : TeardownCause) (slot : Slot) (ownList : Option Chan) (s : State) (r : InService)
    (hr : (teardown cause slot false ownList s).server = some r) (hs : r.request.slot = slot)
    (hd : r.detached = false) : r.stage.uncommitted = false := by
  obtain ⟨h1, h2⟩ := teardown_reaches cause slot ownList s
  by_cases h : ∃ r0, s.server = some r0 ∧ r0.request.slot = slot ∧ r0.detached = false
  · obtain ⟨r0, hr0, hs0, hd0⟩ := h
    have h3 := h1 r0 hr0 hs0 hd0
    dsimp only at h3
    split at h3
    · rw [h3.1] at hr; cases hr
    · rename_i he
      rw [h3.2] at hr; cases hr
      dsimp only
      split
      · rfl
      · rename_i hc
        cases hg : r0.stage <;> simp_all [Stage.early, Stage.uncommitted]
  · have h3 : ∀ r0, s.server = some r0 → r0.request.slot ≠ slot ∨ r0.detached = true := fun r0 hr0 => by
      by_contra hc
      rw [not_or, not_not] at hc
      exact h ⟨r0, hr0, hc.1, by simpa using hc.2⟩
    rw [(h2 h3).1] at hr
    rcases h3 r hr with e | e
    · exact absurd hs e
    · rw [e] at hd; cases hd

/-- A slot that is torn down after it was shut out. -/
theorem teardown_claim {slot : Slot} (h : Acts (some slot) s u) (cause : TeardownCause) (ownList : Option Chan) :
    Claim s (teardown cause slot false ownList u) :=
  .shuts slot (h.trans (teardown_acts cause slot false ownList u)) (teardown_tornDown cause slot false ownList u).1.holdsNothing
    (teardown_committed cause slot ownList u)

/-! ### Violations -/

/-- The violation's charge. -/
def State.chargedBy (s : State) (reason : Code) (slot : Slot) (source : Option Chan) (h : Handle) (offset : Nat) : State :=
  chargeScore slot (offerFault reason slot source h offset s)

theorem chargedBy_inside (s : State) (reason : Code) (slot : Slot) (source : Option Chan) (h : Handle) (offset : Nat) :
    (s.chargedBy reason slot source h offset).inside = { s.inside with su := s.su.set slot s.su[slot].charged } := by
  unfold State.chargedBy; rw [chargeScore_offerFault]; rfl

theorem chargedBy_su (s : State) (reason : Code) (slot : Slot) (source : Option Chan) (h : Handle) (offset : Nat) :
    (s.chargedBy reason slot source h offset).su = s.su.set slot s.su[slot].charged :=
  congrArg Inside.su (chargedBy_inside s reason slot source h offset)

/-- A violation's charge bars its slot, which is then torn down, or shuts nobody out. -/
theorem violation_split (reason : Code) (slot : Slot) (source : Option Chan) (h : Handle) (offset : Nat) (own : Bool)
    (s : State) :
    (Acts (some slot) s (s.chargedBy reason slot source h offset) ∧ violation reason slot source h offset own s =
      teardown .barring slot own source (s.chargedBy reason slot source h offset)) ∨
    (Acts none s (s.chargedBy reason slot source h offset) ∧
      violation reason slot source h offset own s = s.chargedBy reason slot source h offset) := by
  have e : (s.chargedBy reason slot source h offset).su[slot] = s.su[slot].charged := by rw [chargedBy_su, get_set_self]
  unfold violation; dsimp only
  by_cases hb : s.su[slot].charged.standing = .barred ∧ s.su[slot].standing ≠ .barred
  · refine .inl ⟨.record (.charged _ _) (chargedBy_inside s reason slot source h offset), if_pos ?_⟩
    exact ⟨(congrArg Requester.standing e).trans hb.1, hb.2⟩
  · refine .inr ⟨.record (.charged_of fun h => ?_) (chargedBy_inside s reason slot source h offset), if_neg ?_⟩
    · by_contra hn; exact hb ⟨h, hn⟩
    · rintro ⟨h1, h2⟩
      exact hb ⟨(congrArg Requester.standing e).symm.trans h1, h2⟩

/-- A violation that is not the own one of a request in service is a claim. -/
theorem violation_claim (reason : Code) (slot : Slot) (source : Option Chan) (h : Handle) (offset : Nat) (s : State) :
    Claim s (violation reason slot source h offset false s) := by
  rcases violation_split reason slot source h offset false s with ⟨h1, h2⟩ | ⟨h1, h2⟩ <;> rw [h2]
  · exact teardown_claim h1 _ _
  · exact .acts h1

/-- A result that is reached is committed. -/
theorem reach_committed {code : Code} {payload : List Byte} {r : InService} (h : (reach code payload s).server = some r) :
    r.stage.uncommitted = false := by
  unfold reach toStage State.setServer at h
  obtain ⟨r0, -, rfl⟩ := Option.map_eq_some_iff.1 h
  rfl

theorem HoldsNothing.reach {slot : Slot} {code : Code} {payload : List Byte} (h : HoldsNothing s slot) :
    HoldsNothing (reach code payload s) slot := h.congr rfl rfl rfl

/-- A request that fails is a claim. -/
theorem failRequest_claim (code : Code) (h : Handle) (offset : Nat) (s : State) : Claim s (failRequest code h offset s) := by
  unfold failRequest
  split
  · exact .acts .refl
  · rename_i r hr
    split
    · rcases violation_split code r.request.slot none h offset true s with ⟨h1, h2⟩ | ⟨h1, h2⟩ <;> rw [h2]
      · refine .shuts r.request.slot ((h1.trans (teardown_acts _ _ _ _ _)).trans (reach_acts _ _ _)) ?_
          (fun _ h _ _ => reach_committed h)
        exact (teardown_tornDown .barring r.request.slot true none _).1.holdsNothing.reach
      · exact .acts (h1.trans (reach_acts _ _ _))
    · exact .acts (reach_acts _ _ s)

/-- A list that fails is a chain of claims. -/
theorem failList_claims (c : Chan) (code : Code) (owner : Slot) (h : Handle) (offset : Nat) (s : State) :
    Claims s (failList c code owner h offset s) := by
  unfold failList
  split
  · exact (violation_claim code owner (some c) h offset s).claims.trans (endList_acts c code _).claims
  · exact (endList_acts c code s).claims

end Sys2Proof.Machine

/-! The work that channels take up and what a completed burst of theirs does, as chains of claims (R115 to R125). -/

namespace Sys2Proof.Machine

variable {x : Option Slot} {s t u : State} {c : Chan} {p q : Primary}

/-! ### The holds of a primary, part by part -/

/-- No pin but the list's. -/
def Primary.NoStepPins (p : Primary) : Prop :=
  ∀ u ∈ [Purpose.source, .sourceTarget, .destination, .destinationTarget, .completion, .completionTarget], p.pinsFor u = 0

/-- At most one pin for a window, and one for its target only beside it. -/
def Primary.Pair (p : Primary) (named target : Purpose) : Prop :=
  p.pinsFor named ≤ 1 ∧ p.pinsFor target ≤ p.pinsFor named

/-- The pins that the current step allows (R109). -/
def Primary.StepHolds (p : Primary) : Prop :=
  match p.step with
  | some (.move _ _ _ _ _ _ _ _) => p.Pair .source .sourceTarget ∧ p.Pair .destination .destinationTarget ∧
      ∀ u ∈ [Purpose.completion, .completionTarget], p.pinsFor u = 0
  | some (.halt _ _) => p.Pair .completion .completionTarget ∧
      ∀ u ∈ [Purpose.source, .sourceTarget, .destination, .destinationTarget], p.pinsFor u = 0
  | some (.jump _) | none => p.NoStepPins

/-- What the work needs of the pins and the resolved windows. -/
def Primary.WorkHolds (p : Primary) : Prop :=
  match p.work with
  | .promote => p.pins = []
  | .fetch | .fetchBurst _ _ => p.NoStepPins
  | .unit | .unitRead _ _ | .unitWrite _ =>
      p.dest.isSome = true ∧ ∃ src so dst d n f l dn, p.step = some (.move src so dst d n f l dn)
  | .record | .recordBurst _ => p.completion.isSome = true ∧ ∃ h o, p.step = some (.halt h o)
  | .resume | .resolve | .stopped => True

theorem Primary.holdsOk_iff : p.holdsOk ↔ p.pinsFor .list ≤ 1 ∧ p.StepHolds ∧ p.WorkHolds := Iff.rfl

/-- A step that allows none of its pins is one without them. -/
theorem Primary.StepHolds.of_noStepPins (h : p.NoStepPins) : p.StepHolds := by
  unfold Primary.StepHolds Primary.Pair
  unfold Primary.NoStepPins at h
  simp only [List.mem_cons, List.not_mem_nil, or_false, forall_eq_or_imp, forall_eq] at h ⊢
  obtain ⟨h1, h2, h3, h4, h5, h6⟩ := h
  split
  · omega
  · omega
  · unfold Primary.NoStepPins; simp [h1, h2, h3, h4, h5, h6]
  · unfold Primary.NoStepPins; simp [h1, h2, h3, h4, h5, h6]

theorem updChan_inside (c : Chan) (f : Channel → Channel) (s : State) : (s.updChan c f).inside =
    { s.inside with chans := s.inside.chans.set c (f s.inside.chans[c]) } := rfl

/-! ### A channel goes on to other work -/

/-- The list goes on to other work, in a state that is not STOPPED. -/
theorem Primary.Next.toWork {ch : Channel} {p' : Primary} {st : ChanState} (hp : ch.primary = some p)
    (ho : p'.owner = p.owner) (hm : p'.mark = p.mark) (hw : p.work ≠ .stopped) (hw' : p'.work ≠ .stopped)
    (hpr : p'.work ≠ .promote) (hst : st = ch.state ∨ st = .fetch ∨ st = .move ∨ st = .halting)
    (hh : p.holdsOk → p'.holdsOk) : p.Next ch p' st := by
  refine ⟨.inl ho, fun a => hm ▸ a, fun hl e => ?_, fun hl => ?_, hh, fun a => absurd a hpr⟩
  · rcases hst with rfl | rfl | rfl | rfl
    · rw [hl.1.1 e] at hp; cases hp
    all_goals cases e
  · rcases hst with rfl | rfl | rfl | rfl
    · exact ⟨fun e => absurd (((hl.2.2 p hp).1).1 e) hw, fun e => absurd e hw'⟩
    all_goals exact ⟨fun e => (by cases e), fun e => absurd e hw'⟩

/-- The list goes on to other work that its holds allow. -/
theorem work_acts {w : Work} (hp : s.chans[c].primary = some p) (hw : p.work ≠ .stopped) (hw' : w ≠ .stopped)
    (hpr : w ≠ .promote) (hh : p.holdsOk → Primary.WorkHolds { p with work := w }) :
    Acts x s (updPrimary c (fun p => { p with work := w }) s) :=
  .goesOnList hp (p' := { p with work := w })
    (.toWork hp rfl rfl hw hw' hpr (.inl rfl) fun h => ⟨h.1, h.2.1, hh h⟩) rfl (updPrimary_inside hp _)

theorem channelBurst_acts {b : Burst} {w : Work} (hp : s.chans[c].primary = some p) (hw : p.work ≠ .stopped)
    (hw' : w ≠ .stopped) (hpr : w ≠ .promote) (hh : p.holdsOk → Primary.WorkHolds { p with work := w }) :
    Acts x s (channelBurst c b w s) :=
  (work_acts hp hw hw' hpr hh).congr rfl

theorem channelBursts_acts {bs : List Burst} {w : List Burst → Work} (hp : s.chans[c].primary = some p)
    (hw : p.work ≠ .stopped) (hw' : ∀ l, w l ≠ .stopped) (hpr : ∀ l, w l ≠ .promote)
    (hh : ∀ l, p.holdsOk → Primary.WorkHolds { p with work := w l }) : Acts x s (channelBursts c bs w s) := by
  cases bs with
  | nil => exact .refl
  | cons b rest => exact channelBurst_acts hp hw (hw' rest) (hpr rest) (hh rest)

theorem holeStops_acts (entry : Nat) (hp : s.chans[c].primary = some p) : Acts x s (holeStops c entry s) :=
  (Acts.still (raiseMapHole_inside s entry)).trans (stopChannel_acts (s := raiseMapHole entry s) hp)

theorem touchAbsent_acts (o : Option DIdx) (s : State) : Acts x s (touchAbsent o s) := .still (touchAbsent_inside s o)

theorem verdictFails_claims (f : Code × Option DIdx) (owner : Slot) (h : Handle) (offset : Nat)
    (hp : s.chans[c].primary = some p) : Claims s (verdictFails c f owner h offset s) := by
  unfold verdictFails; split
  · have e : (touchAbsent f.2 s).chans = s.chans := congrArg Inside.chans (touchAbsent_inside s f.2)
    exact Acts.claims ((touchAbsent_acts f.2 s).trans (stopChannel_acts (p := p) (by rw [e]; exact hp)))
  · exact failList_claims c f.1 owner h offset s

/-! ### Resolved step handles -/

/-- The pins a passing resolution adds for a step handle: none where it holds them already (R49). -/
def Primary.notes (p : Primary) (r : Resolved) (named target : Purpose) : List ChanPin :=
  if p.pins.any (·.purpose == named) then [] else stepPins r named target

theorem stepPins_index (r : Resolved) (named target : Purpose) : (stepPins r named target).map (·.index) = r.pinned := by
  unfold stepPins Resolved.pinned
  cases r.target <;> rfl

/-- What noting a passing resolution is to the tables, requests and lists. -/
theorem notePass_inside (hq : s.chans[c].primary = some q) (r : Resolved) (named target : Purpose)
    (f : Primary → Primary) : (notePass c p r named target f s).inside = { s.inside with
      wt := withPins s.wt ((p.notes r named target).map (·.index))
      chans := s.chans.set c { s.chans[c] with primary := some (f { q with pins := q.pins ++ p.notes r named target }) } } := by
  unfold notePass Primary.notes
  split
  · rw [updPrimary_inside hq, List.append_nil]; rfl
  · rw [updPrimary_inside (p := q) (by rw [placePins_eq]; exact hq), placePins_eq, stepPins_index]; rfl

/-- The list goes on with pins placed for a passing resolution of a handle of its step. -/
theorem Acts.noted {p' : Primary} {st : ChanState} {ps : List ChanPin} (hp : s.chans[c].primary = some p)
    (hn : p.Next s.chans[c] p' st) (hpins : p'.pins = p.pins ++ ps)
    (hv : ∀ i ∈ ps.map (·.index), s.wt[i].state = .valid)
    (h : t.inside = { s.inside with
      wt := withPins s.wt (ps.map (·.index))
      chans := s.chans.set c { s.chans[c] with state := st, primary := some p' } }) : Acts x s t := by
  refine .single (.chan c _ _ (.next hp hn (fun _ => id) _ _) (fun i => .withPins hv i fun _ => ?_) h)
  unfold Channel.pinsOn
  rw [hp]; dsimp only [Option.elim]
  rw [hpins, List.map_append, List.count_append]

/-- The pins that a passing resolution adds are on VALID descriptors. -/
theorem notes_valid {slot : Slot} {h : Handle} {offset length : Nat} {needed : Rights} {nl : NeedsList} {al : Bool}
    {r : Resolved} (hr : resolve s slot h offset length needed nl al = .ok r) (named target : Purpose) :
    ∀ i ∈ (p.notes r named target).map (·.index), s.wt[i].state = .valid := by
  unfold Primary.notes
  split
  · simp
  · rw [stepPins_index]; exact resolve_pinned hr

/-- Noted pins are the window's and its target's. -/
theorem pinsFor_notes (r : Resolved) {named target : Purpose} (u : Purpose) {ps : List ChanPin}
    (hps : ps = p.pins ++ p.notes r named target) (hn : u ≠ named) (ht : u ≠ target) :
    (ps.countP fun x => x.purpose == u) = p.pinsFor u := by
  have e : ((p.notes r named target).countP fun x => x.purpose == u) = 0 := by
    unfold Primary.notes stepPins
    split
    · rfl
    · cases r.target <;> simp [hn.symm, ht.symm]
  rw [hps, List.countP_append, e]; rfl

theorem pair_notes (r : Resolved) {named target : Purpose} (hnt : named ≠ target) {ps : List ChanPin}
    (hps : ps = p.pins ++ p.notes r named target) (h : p.Pair named target) :
    (ps.countP fun x => x.purpose == named) ≤ 1 ∧
      (ps.countP fun x => x.purpose == target) ≤ ps.countP fun x => x.purpose == named := by
  obtain ⟨h1, h2⟩ := h
  rw [hps, List.countP_append, List.countP_append]
  unfold Primary.notes stepPins
  unfold Primary.pinsFor at h1 h2
  split
  · simpa using ⟨h1, h2⟩
  · rename_i hany
    have h0 : (p.pins.countP fun x => x.purpose == named) = 0 := by
      rw [List.countP_eq_zero]
      intro a ha hb
      exact hany (List.any_eq_true.2 ⟨a, ha, hb⟩)
    rw [h0] at h2 ⊢
    rw [Nat.le_zero.1 h2]
    cases r.target <;> simp [hnt, hnt.symm]

/-! ### Ready work -/

theorem advancePromote_claims (owner : Slot) (hp : s.chans[c].primary = some p) (hw : p.work = .promote) :
    Claims s (advancePromote c p owner s) := by
  unfold advancePromote; split
  · exact (endList_acts c _ s).claims
  · split
    · rename_i code touched hr
      exact (Acts.claims (touchAbsent_acts touched s)).trans (failList_claims c code owner p.handle p.offset _)
    · rename_i r hr
      obtain ⟨hi, hv, -⟩ := resolve_ok hr
      let p' : Primary := { p with pins := [⟨r.index, .list⟩], work := .fetch }
      have hn : p'.NoStepPins := by simp [Primary.NoStepPins, Primary.pinsFor, p']
      have hnext : p.Next s.chans[c] p' s.chans[c].state :=
        .toWork hp rfl rfl (by rw [hw]; simp) (by simp [p']) (by simp [p']) (.inl rfl)
          fun _ => ⟨by simp [Primary.pinsFor, p'], Primary.StepHolds.of_noStepPins hn, hn⟩
      refine Acts.claims (.single (.chan c { s.chans[c] with primary := some p' } (withPins s.wt [r.index])
        (.next hp hnext (fun _ => id) _ _) (fun i => .withPins (by simpa using hv) i fun hb => ?_) ?_))
      · unfold Channel.pinsOn
        rw [hp]; dsimp only [Option.elim]
        rw [hb p hp hw]; simp [p']
      · rw [updPrimary_inside (p := p) (by rw [placePins_eq]; exact hp), placePins_eq]; rfl

theorem advanceFetch_claims (owner : Slot) (hp : s.chans[c].primary = some p) (hw : p.work = .fetch) :
    Claims s (advanceFetch c p owner s) := by
  unfold advanceFetch; split
  · exact verdictFails_claims _ owner p.handle p.offset hp
  · split
    · exact Acts.claims (holeStops_acts _ hp)
    · refine Acts.claims (channelBursts_acts hp (by rw [hw]; simp) (by simp) (by simp) fun l h => ?_)
      have h3 := h.2.2
      rw [hw] at h3; exact h3

theorem advanceResume_claims (owner : Slot) (hp : s.chans[c].primary = some p) (hw : p.work = .resume) :
    Claims s (advanceResume c p owner s) := by
  unfold advanceResume; split
  · exact verdictFails_claims _ owner p.handle p.offset hp
  · have h : (updPrimary c (fun q => { q with work := if q.step.isSome then .resolve else .fetch }) s).inside =
        (updPrimary c (fun q => { q with work := if p.step.isSome then .resolve else .fetch }) s).inside := by
      rw [updPrimary_inside hp, updPrimary_inside hp]
    refine Acts.claims (Acts.congr (work_acts (p := p) hp (by rw [hw]; simp) ?_ ?_ fun hh => ?_) h)
    · split <;> simp
    · split <;> simp
    · cases hs : p.step with
      | some st => trivial
      | none =>
        have h2 := hh.2.1
        rw [hs] at h2
        exact h2

theorem Primary.stepHolds_move {src : Handle} {srcOff : Nat} {dst : Handle} {dstOff count : Nat} {fill : Byte}
    {last down : Bool} (h : p.step = some (.move src srcOff dst dstOff count fill last down)) :
    p.StepHolds ↔ p.Pair .source .sourceTarget ∧ p.Pair .destination .destinationTarget ∧
      ∀ u ∈ [Purpose.completion, .completionTarget], p.pinsFor u = 0 := by
  unfold Primary.StepHolds; rw [h]

theorem Primary.stepHolds_halt {comp : Handle} {offset : Nat} (h : p.step = some (.halt comp offset)) :
    p.StepHolds ↔ p.Pair .completion .completionTarget ∧
      ∀ u ∈ [Purpose.source, .sourceTarget, .destination, .destinationTarget], p.pinsFor u = 0 := by
  unfold Primary.StepHolds; rw [h]

/-- A window's pins are as before where its purposes are none of those that were noted. -/
theorem Primary.Pair.noted {p' : Primary} {r : Resolved} {named target n' t' : Purpose} (h : p.Pair n' t')
    (hp : p'.pins = p.pins ++ p.notes r named target) (h1 : n' ≠ named) (h2 : n' ≠ target) (h3 : t' ≠ named)
    (h4 : t' ≠ target) : p'.Pair n' t' := by
  unfold Primary.Pair at *
  rw [show p'.pinsFor n' = p.pinsFor n' from pinsFor_notes r n' hp h1 h2,
    show p'.pinsFor t' = p.pinsFor t' from pinsFor_notes r t' hp h3 h4]
  exact h

/-- A MOVE's holds allow the pins of its source and of its destination. -/
theorem Primary.stepHolds_noted_move {p' : Primary} {r : Resolved} {src : Handle} {srcOff : Nat} {dst : Handle}
    {dstOff count : Nat} {fill : Byte} {last down : Bool}
    (hs : p.step = some (.move src srcOff dst dstOff count fill last down)) (hs' : p'.step = p.step)
    (hp : p'.pins = p.pins ++ p.notes r .source .sourceTarget ∨
      p'.pins = p.pins ++ p.notes r .destination .destinationTarget) (h : p.StepHolds) : p'.StepHolds := by
  rw [stepHolds_move hs] at h
  rw [stepHolds_move (hs'.trans hs)]
  obtain ⟨h1, h2, h3⟩ := h
  rcases hp with hp | hp
  · refine ⟨pair_notes r (by decide) hp h1, h2.noted hp (by decide) (by decide) (by decide) (by decide), fun u hu => ?_⟩
    rw [← h3 u hu]
    simp only [List.mem_cons, List.not_mem_nil, or_false] at hu
    rcases hu with rfl | rfl <;> exact pinsFor_notes r _ hp (by decide) (by decide)
  · refine ⟨h1.noted hp (by decide) (by decide) (by decide) (by decide), pair_notes r (by decide) hp h2, fun u hu => ?_⟩
    rw [← h3 u hu]
    simp only [List.mem_cons, List.not_mem_nil, or_false] at hu
    rcases hu with rfl | rfl <;> exact pinsFor_notes r _ hp (by decide) (by decide)

/-- A HALT's holds allow the pins of its completion window. -/
theorem Primary.stepHolds_noted_halt {p' : Primary} {r : Resolved} {comp : Handle} {offset : Nat}
    (hs : p.step = some (.halt comp offset)) (hs' : p'.step = p.step)
    (hp : p'.pins = p.pins ++ p.notes r .completion .completionTarget) (h : p.StepHolds) : p'.StepHolds := by
  rw [stepHolds_halt hs] at h
  rw [stepHolds_halt (hs'.trans hs)]
  obtain ⟨h1, h2⟩ := h
  refine ⟨pair_notes r (by decide) hp h1, fun u hu => ?_⟩
  rw [← h2 u hu]
  simp only [List.mem_cons, List.not_mem_nil, or_false] at hu
  rcases hu with rfl | rfl | rfl | rfl <;> exact pinsFor_notes r _ hp (by decide) (by decide)

/-- The pins noted for a source are none of a destination. -/
theorem source_notes_any (r : Resolved) :
    (p.notes r .source .sourceTarget).any (·.purpose == .destination) = false := by
  unfold Primary.notes stepPins
  split
  · rfl
  · cases r.target <;> rfl

/-- The destination of a MOVE is resolved, its source's pins placed (R119). -/
theorem resolveDest_claims {src : Handle} {srcOff : Nat} {dst : Handle} {dstOff count : Nat} {fill : Byte} {last down : Bool}
    (owner : Slot) (hq : s.chans[c].primary = some q)
    (hn : ∀ r, p.notes r .destination .destinationTarget = q.notes r .destination .destinationTarget)
    (hst : q.step = some (.move src srcOff dst dstOff count fill last down)) (hw : q.work = .resolve) :
    Claims s (resolveDest c p owner dst dstOff count s) := by
  unfold resolveDest; split
  · exact verdictFails_claims _ owner dst dstOff hq
  · rename_i r hr
    let q' : Primary := { q with
      pins := q.pins ++ q.notes r .destination .destinationTarget, dest := some r, work := .unit }
    have hnext : q.Next s.chans[c] q' .move :=
      .toWork hq rfl rfl (by rw [hw]; simp) (by simp [q']) (by simp [q']) (.inr (.inr (.inl rfl))) fun h =>
        ⟨(pinsFor_notes (p := q) r .list rfl (by decide) (by decide)).trans_le h.1,
          Primary.stepHolds_noted_move (p := q) (p' := q') hst rfl (.inr rfl) h.2.1, rfl, _, _, _, _, _, _, _, _, hst⟩
    refine Acts.claims (.noted (ps := q.notes r .destination .destinationTarget) hq hnext rfl (notes_valid hr _ _) ?_)
    have h := notePass_inside (p := p) hq r .destination .destinationTarget fun q => { q with dest := some r, work := .unit }
    rw [hn] at h
    rw [updChan_inside, h]
    simp only [get_set_self, set_set_self]
    rfl

theorem advanceResolve_claims (owner : Slot) (hp : s.chans[c].primary = some p) (hw : p.work = .resolve) :
    Claims s (advanceResolve c p owner s) := by
  have hws : p.work ≠ .stopped := by rw [hw]; simp
  have refetch (hn : p.StepHolds → p.NoStepPins) :
      Claims s (updPrimary c (fun q => { q with step := none, work := .fetch }) s) :=
    Acts.claims (.goesOnList hp (p' := { p with step := none, work := .fetch })
      (.toWork hp rfl rfl hws (by simp) (by simp) (.inl rfl) fun h => ⟨h.1, hn h.2.1, hn h.2.1⟩) rfl
      (updPrimary_inside hp _))
  unfold advanceResolve
  split
  · rename_i src srcOff dst dstOff count fill last down hst
    split
    · exact resolveDest_claims owner hp (fun _ => rfl) hst hw
    · split
      · exact verdictFails_claims _ owner src srcOff hp
      · rename_i r hr
        let q : Primary := { p with pins := p.pins ++ p.notes r .source .sourceTarget, source := some r }
        have h := notePass_inside (p := p) hp r .source .sourceTarget fun q => { q with source := some r }
        have hnext : p.Next s.chans[c] q s.chans[c].state :=
          .toWork hp rfl rfl hws hws (by simp [q, hw]) (.inl rfl) fun h =>
            ⟨(pinsFor_notes (p := p) r .list rfl (by decide) (by decide)).trans_le h.1,
              Primary.stepHolds_noted_move (p := p) (p' := q) hst rfl (.inl rfl) h.2.1, by
              show Primary.WorkHolds q
              unfold Primary.WorkHolds; rw [show q.work = .resolve from hw]; trivial⟩
        refine (Acts.claims (.noted (ps := p.notes r .source .sourceTarget) hp hnext rfl (notes_valid hr _ _) h)).trans
          (resolveDest_claims (q := q) owner ?_ (fun r' => ?_) hst hw)
        · rw [show (notePass c p r .source .sourceTarget (fun q => { q with source := some r }) s).chans = _ from
            congrArg Inside.chans h, get_set_self]
        · unfold Primary.notes
          rw [List.any_append, source_notes_any, Bool.or_false]
  · rename_i comp offset hst
    split
    · exact (endList_acts c _ s).claims
    · split
      · exact verdictFails_claims _ owner comp offset hp
      · rename_i r hr
        let q' : Primary := { p with
          pins := p.pins ++ p.notes r .completion .completionTarget, completion := some r, work := .record }
        have hnext : p.Next s.chans[c] q' .halting :=
          .toWork hp rfl rfl hws (by simp [q']) (by simp [q']) (.inr (.inr (.inr rfl))) fun h =>
            ⟨(pinsFor_notes (p := p) r .list rfl (by decide) (by decide)).trans_le h.1,
              Primary.stepHolds_noted_halt (p := p) (p' := q') hst rfl rfl h.2.1, rfl, _, _, hst⟩
        refine Acts.claims (.noted (ps := p.notes r .completion .completionTarget) hp hnext rfl (notes_valid hr _ _) ?_)
        rw [updChan_inside, notePass_inside (p := p) hp]
        simp only [get_set_self, set_set_self]
        rfl
  · rename_i hst
    exact refetch fun h => by unfold Primary.StepHolds at h; rw [hst] at h; exact h
  · rename_i hst
    exact refetch fun h => by unfold Primary.StepHolds at h; rw [hst] at h; exact h

theorem advanceUnit_claims (hp : s.chans[c].primary = some p) (hw : p.work = .unit) :
    Claims s (advanceUnit c p s) := by
  have hws : p.work ≠ .stopped := by rw [hw]; simp
  have needs (h : p.holdsOk) : p.dest.isSome = true ∧
      ∃ src so dst d n f l dn, p.step = some (.move src so dst d n f l dn) := by
    have h3 := h.2.2
    rw [hw] at h3; exact h3
  unfold advanceUnit; split
  · dsimp only; split
    · split
      · exact Acts.claims (holeStops_acts _ hp)
      · exact Acts.claims (holeStops_acts _ hp)
      · exact Acts.claims (channelBurst_acts hp hws (by simp) (by simp) needs)
    · split
      · exact Acts.claims (holeStops_acts _ hp)
      · exact Acts.claims (channelBurst_acts hp hws (by simp) (by simp) needs)
  · rename_i hno
    refine Acts.claims (work_acts hp hws (by simp) (by simp) fun h => ?_)
    obtain ⟨hd, _, _, _, _, _, _, _, _, hs⟩ := needs h
    obtain ⟨d, hd⟩ := Option.isSome_iff_exists.1 hd
    exact absurd hd (hno _ _ _ _ _ _ _ _ _ hs)

theorem advanceRecord_claims (owner : Slot) (hp : s.chans[c].primary = some p) (hw : p.work = .record) :
    Claims s (advanceRecord c p owner s) := by
  have hws : p.work ≠ .stopped := by rw [hw]; simp
  have needs (h : p.holdsOk) : p.completion.isSome = true ∧ ∃ h o, p.step = some (.halt h o) := by
    have h3 := h.2.2
    rw [hw] at h3; exact h3
  unfold advanceRecord; split
  · split
    · exact Acts.claims (holeStops_acts _ hp)
    · exact Acts.claims (channelBursts_acts hp hws (by simp) (by simp) fun _ => needs)
  · rename_i hno
    exact Acts.claims (work_acts hp hws (by simp) (by simp) fun h => by have := (needs h).1; rw [hno] at this; cases this)

/-- A piece of a channel's ready work is a chain of claims. -/
theorem advance_claims (c : Chan) (s : State) : Claims s (advance c s) := by
  unfold advance; split
  · exact .refl
  · rename_i p hp
    split
    · exact (endList_acts c _ s).claims
    · exact (endList_acts c _ s).claims
    · rename_i owner _ _
      split
      · rename_i hw; exact advancePromote_claims owner hp hw
      · rename_i hw; exact advanceFetch_claims owner hp hw
      · rename_i hw; exact advanceResume_claims owner hp hw
      · rename_i hw; exact advanceResolve_claims owner hp hw
      · rename_i hw; exact advanceUnit_claims hp hw
      · rename_i hw; exact advanceRecord_claims owner hp hw
      all_goals exact .refl

theorem runReady_claims (n : Nat) (s : State) : Claims s (runReady n s) := by
  induction n generalizing s with
  | zero => exact .refl
  | succ n ih =>
    unfold runReady; split
    · exact .refl
    · exact (advance_claims _ s).trans (ih _)
    · exact Acts.claims (.still rfl)
    · rename_i later _ _
      have h : Claims s (s.setTurns later) := Acts.claims (.still rfl)
      exact (h.trans (advance_claims _ (s.setTurns later))).trans (ih _)

/-- The end of a step is a chain of claims. -/
theorem settle_claims (s : State) : Claims s (settle s) :=
  (runReady_claims readyBound s).trans (Acts.claims (.still (grantBurst_inside _)))

/-! ### A channel's burst completes -/

/-- A fetch's list holds no pins of a step. -/
theorem Primary.fetchBurst_noStepPins {rest : List Burst} {got : List Byte} (hw : p.work = .fetchBurst rest got)
    (h : p.holdsOk) : p.NoStepPins := by
  have h3 := h.2.2
  rw [hw] at h3; exact h3

theorem stepRead_claims {rest : List Burst} {got : List Byte} (owner : Slot) (bytes : List Byte)
    (hp : s.chans[c].primary = some p) (hw : p.work = .fetchBurst rest got) :
    Claims s (stepRead c p owner bytes s) := by
  have hws : p.work ≠ .stopped := by rw [hw]; simp
  have goes {f : Primary → Primary} (ho : (f p).owner = p.owner) (hm : (f p).mark = p.mark) (hpins : (f p).pins = p.pins)
      (hf : (f p).work = .fetch ∨ (f p).work = .resolve) : Claims s (updPrimary c f s) := by
    refine Acts.claims (.goesOnList hp (p' := f p) (.toWork hp ho hm hws ?_ ?_ (.inl rfl) fun h => ?_) hpins
      (updPrimary_inside hp f))
    · rcases hf with e | e <;> rw [e] <;> simp
    · rcases hf with e | e <;> rw [e] <;> simp
    · have hn : (f p).NoStepPins := by
        have := Primary.fetchBurst_noStepPins hw h
        unfold Primary.NoStepPins Primary.pinsFor at *
        rw [hpins]; exact this
      refine ⟨?_, Primary.StepHolds.of_noStepPins hn, ?_⟩
      · have := h.1
        unfold Primary.pinsFor at *
        rw [hpins]; exact this
      · show (f p).WorkHolds
        unfold Primary.WorkHolds
        rcases hf with e | e <;> rw [e]
        · exact hn
        · trivial
  unfold stepRead; split
  · exact failList_claims c _ owner p.handle p.offset s
  · split
    · exact failList_claims c _ owner p.handle p.offset s
    · exact goes rfl rfl rfl (.inl rfl)
  · exact goes rfl rfl rfl (.inr rfl)
  · exact goes rfl rfl rfl (.inr rfl)

/-- The work is none of the end's business. -/
theorem endList_work (c : Chan) (code : Code) (w : Work) (s : State) :
    (endList c code (updPrimary c (fun p => { p with work := w }) s)).inside = (endList c code s).inside := by
  cases hp : s.chans[c].primary with
  | none => rw [updPrimary_none hp]
  | some p =>
    have hu := updPrimary_inside hp fun p => { p with work := w }
    have hp' := updPrimary_primary hp fun p => { p with work := w }
    obtain ⟨v, hv, e⟩ := endList_inside hp code
    obtain ⟨v', hv', e'⟩ := endList_inside hp' code
    have hch : (updPrimary c (fun p => { p with work := w }) s).chans =
        s.chans.set c { s.chans[c] with primary := some { p with work := w } } := congrArg Inside.chans hu
    have hvv : v' = v := by
      ext i hi
      have a := hv ⟨i, hi⟩
      have b := hv' ⟨i, hi⟩
      rw [hch, get_set_self] at b
      rw [show s.chans[c].pinsOn ⟨i, hi⟩ = Channel.pinsOn { s.chans[c] with primary := some { p with work := w } } ⟨i, hi⟩ by
        unfold Channel.pinsOn; rw [hp]; rfl] at a
      exact b.trans a.symm
    rw [e, e', hu, hch, get_set_self, set_set_self, hvv]
    rfl

/-- A MOVE step's pins fall, and the list goes on without a step (R123). -/
theorem stepPins_fall {p' : Primary} {st : ChanState} (hp : s.chans[c].primary = some p) (ho : p'.owner = p.owner)
    (hm : p'.mark = p.mark) (hpins : p'.pins = p.pins.filter fun x => !isStepPin x) (hw : p.work ≠ .stopped)
    (hw' : p'.work = .fetch) (hst : st = s.chans[c].state ∨ st = .fetch)
    (h : t.inside = { s.inside with
      wt := (removePins ((p.pins.filter isStepPin).map (·.index)) s).wt
      chans := s.chans.set c { s.chans[c] with state := st, primary := some p' } }) : Acts x s t := by
  have hn : p'.NoStepPins := by
    have none' (u : Purpose) (hu : u ≠ .list) : p'.pinsFor u = 0 := by
      unfold Primary.pinsFor
      rw [hpins, List.countP_eq_zero]
      intro a ha hb
      rw [List.mem_filter] at ha
      have e : a.purpose = u := by simpa using hb
      have hl : a.purpose = .list := by simpa [isStepPin] using ha.2
      exact hu (e.symm.trans hl)
    intro u hu
    refine none' u ?_
    rintro rfl
    simp at hu
  have hl (hh : p.holdsOk) : p'.pinsFor .list ≤ 1 := by
    refine le_trans ?_ hh.1
    unfold Primary.pinsFor
    rw [hpins]
    exact List.filter_sublist.countP_le
  have hnext : p.Next s.chans[c] p' st :=
    .toWork hp ho hm hw (by rw [hw']; simp) (by rw [hw']; simp) (hst.imp_right .inl) fun hh => by
      refine ⟨hl hh, ?_, ?_⟩
      · exact Primary.StepHolds.of_noStepPins hn
      · show p'.WorkHolds
        unfold Primary.WorkHolds; rw [hw']; exact hn
  refine .single (.chan c _ _ (.next hp hnext (fun _ => id) _ _) (fun i => ?_) h)
  rw [removePins_wt]
  refine .fallen _ _ fun _ => ?_
  have e := List.countP_eq_countP_filter_add p.pins (fun x => x.index == i) isStepPin
  unfold Channel.pinsOn
  rw [hp]; dsimp only [Option.elim]
  rw [hpins]
  simp only [List.count, List.countP_map, Function.comp_def]
  omega

/-- A MOVE step that is complete (R123). -/
theorem stepComplete_claims (hq : s.chans[c].primary = some q) (hpins : p.pins = q.pins) (hw : q.work = .unit)
    (last : Bool) : Claims s (stepComplete c p last s) := by
  have hws : q.work ≠ .stopped := by rw [hw]; simp
  let s2 : State := removePins ((p.pins.filter isStepPin).map (·.index)) s
  let g : Primary → Primary := fun q => { q with
    pins := q.pins.filter fun x => !isStepPin x
    step := none, bytesDone := 0, source := none, dest := none, completion := none }
  let s3 : State := updPrimary c g s2
  have h2 : s2.inside = { s.inside with wt := (removePins ((q.pins.filter isStepPin).map (·.index)) s).wt } := by
    dsimp only [s2]; rw [hpins, removePins_frame]; rfl
  have hq2 : s2.chans[c].primary = some q := by
    rw [show s2.chans = s.chans from congrArg Inside.chans h2]; exact hq
  have h3 : s3.inside = { s2.inside with chans := s2.chans.set c { s2.chans[c] with primary := some (g q) } } :=
    updPrimary_inside hq2 g
  have hq3 : s3.chans[c].primary = some (g q) := updPrimary_primary hq2 g
  have hc3 : s3.chans = s.chans.set c { s.chans[c] with primary := some (g q) } := by
    rw [show s3.chans = _ from congrArg Inside.chans h3, show s2.chans = s.chans from congrArg Inside.chans h2]
  have goes {f : Primary → Primary} {st : ChanState} {t : State} (ho : (f (g q)).owner = q.owner)
      (hm : (f (g q)).mark = q.mark) (hp : (f (g q)).pins = q.pins.filter fun x => !isStepPin x)
      (hf : (f (g q)).work = .fetch) (hst : st = s.chans[c].state ∨ st = .fetch)
      (ht : t.inside = { s3.inside with
        chans := s.chans.set c { s.chans[c] with state := st, primary := some (f (g q)) } }) : Claims s t :=
    Acts.claims (stepPins_fall hq ho hm hp hws hf hst (by rw [ht, h3, h2]))
  show Claims s (if last then endList c .ok s3 else _)
  split
  · have h4 : Claims s (updPrimary c (fun q => { q with work := .fetch }) s3) := by
      refine goes (f := fun q => { q with work := .fetch }) rfl rfl rfl rfl (.inl rfl) ?_
      rw [updPrimary_inside hq3, hc3, get_set_self, set_set_self]
    exact (h4.trans (Acts.claims (endList_acts c .ok _))).trans (Acts.claims (.still (endList_work c .ok .fetch s3).symm))
  · refine goes (f := fun q => { q with offset := q.offset + 16, work := .fetch }) (st := .fetch) rfl rfl rfl rfl (.inr rfl) ?_
    rw [updChan_inside, updPrimary_inside hq3, hc3]
    simp only [get_set_self, set_set_self]

theorem unitWritten_claims {n : Nat} (hp : s.chans[c].primary = some p) (hw : p.work = .unitWrite n) :
    Claims s (unitWritten c p n s) := by
  have hws : p.work ≠ .stopped := by rw [hw]; simp
  unfold unitWritten
  let q : Primary := { p with bytesDone := p.bytesDone + n, total := p.total + BitVec.ofNat 32 n, work := .unit }
  let s1 : State := updPrimary c (fun q => { q with
    bytesDone := p.bytesDone + n, total := q.total + BitVec.ofNat 32 n, work := .unit }) s
  have h1 : Claims s s1 := Acts.claims (.goesOnList hp (p' := q) (.toWork hp rfl rfl hws (by simp [q]) (by simp [q]) (.inl rfl)
    fun h => ⟨h.1, h.2.1, by have h3 := h.2.2; rw [hw] at h3; exact h3⟩) rfl (updPrimary_inside hp _))
  have hq : s1.chans[c].primary = some q := updPrimary_primary hp _
  show Claims s (if _ then endAtBoundary c s1 else _)
  split
  · exact h1.trans (Acts.claims (endAtBoundary_acts c s1))
  · split
    · rename_i last _ _
      split
      · refine h1.trans ?_
        exact stepComplete_claims hq rfl rfl last
      · exact h1
    · exact h1

/-- A burst of a channel that completes is a chain of claims. -/
theorem channelBurstDone_claims (c : Chan) (st : BurstStatus) (data : List Byte) (s : State) :
    Claims s (channelBurstDone c st data s) := by
  have atEnd : Claims s (endAtBoundary c s) := Acts.claims (endAtBoundary_acts c s)
  have ends (code : Code) : Claims s (endList c code s) := Acts.claims (endList_acts c code s)
  unfold channelBurstDone; split
  · exact .refl
  · rename_i p hp
    split
    · rename_i n hw
      split
      · split
        · exact atEnd
        · exact ends _
      · exact unitWritten_claims hp hw
    · rename_i hnw
      split
      · exact atEnd
      · split
        · exact ends _
        · split
          · rename_i got owner hw ho
            exact stepRead_claims owner _ hp hw
          · rename_i b rest got hw
            refine Acts.claims (channelBurst_acts hp (by rw [hw]; simp) (by simp) (by simp) fun h => ?_)
            exact Primary.fetchBurst_noStepPins (p := p) hw h
          · rename_i n dst hw
            refine Acts.claims (channelBurst_acts hp (by rw [hw]; simp) (by simp) (by simp) fun h => ?_)
            have h3 := h.2.2
            rw [hw] at h3; exact h3
          · exact ends _
          · rename_i b rest hw
            refine Acts.claims (channelBurst_acts hp (by rw [hw]; simp) (by simp) (by simp) fun h => ?_)
            have h3 := h.2.2
            rw [hw] at h3; exact h3
          · exact .refl

end Sys2Proof.Machine

/-! The claims of requests, as chains of claims (chapters 4, 5, 6.2, 8.4). -/

namespace Sys2Proof.Machine

variable {x : Option Slot} {s t u : State} {r : InService}

/-! ### A violation does not look at the record of the request in service -/

section SetServer

variable (o : Option InService) (s : State)

theorem engineOnFree_setServer (i : DIdx) : engineOnFree i (s.setServer o) = (engineOnFree i s).setServer o := by
  unfold engineOnFree; rw [State.setServer_engine]; split
  · split <;> rfl
  · rfl

theorem enterFree_setServer (i : DIdx) : enterFree i (s.setServer o) = (enterFree i s).setServer o :=
  engineOnFree_setServer o (raiseRetireDone i (s.updDesc i fun d =>
    { d.clearOpeners with state := .free, gen := d.gen + 1 })) i

theorem removePin_setServer (i : DIdx) : removePin i (s.setServer o) = (removePin i s).setServer o := by
  let s1 : State := s.updDesc i fun d => { d with pins := d.pins - 1 }
  by_cases h : s1.wt[i].state = .retiring ∧ s1.wt[i].pins = 0
  · rw [show removePin i (s.setServer o) = enterFree i (s1.setServer o) from if_pos h,
      show removePin i s = enterFree i s1 from if_pos h, enterFree_setServer]
  · rw [show removePin i (s.setServer o) = s1.setServer o from if_neg h, show removePin i s = s1 from if_neg h]

theorem removePins_setServer (is : List DIdx) : removePins is (s.setServer o) = (removePins is s).setServer o := by
  unfold removePins
  induction is generalizing s with
  | nil => rfl
  | cons i is ih => rw [List.foldl_cons, List.foldl_cons, removePin_setServer, ih]

theorem endList_setServer (c : Chan) (code : Code) : endList c code (s.setServer o) = (endList c code s).setServer o := by
  cases hp : s.chans[c].primary with
  | none => unfold endList; rw [State.setServer_chans, hp]
  | some p =>
    let s1 : State := channelEvent c (endEvent code) (s.updChan c fun ch => { ch with outcome := p.outcome code })
    let s2 : State := if code = .ok then p.owner.elim s1 fun o => cleanCompletion o s1 else s1
    have e2 : (if code = .ok then p.owner.elim (s1.setServer o) fun y => cleanCompletion y (s1.setServer o)
        else s1.setServer o) = s2.setServer o := by
      dsimp only [s2]
      split
      · cases p.owner <;> rfl
      · rfl
    have e1 : endList c code (s.setServer o) = engineOnListEnd c (withdrawBurst (Claimant.ch c) ((removePins
        (p.pins.map (·.index)) (if code = .ok then p.owner.elim (s1.setServer o) fun y => cleanCompletion y (s1.setServer o)
        else s1.setServer o)).updChan c Channel.promote)) := by
      unfold endList; rw [State.setServer_chans, hp]; rfl
    have e0 : endList c code s = engineOnListEnd c (withdrawBurst (Claimant.ch c)
        ((removePins (p.pins.map (·.index)) s2).updChan c Channel.promote)) := by
      unfold endList; rw [hp]
    rw [e0, e1, e2, removePins_setServer, engineOnListEnd_eq, engineOnListEnd_eq]
    rfl

theorem endAtBoundary_setServer (c : Chan) : endAtBoundary c (s.setServer o) = (endAtBoundary c s).setServer o := by
  unfold endAtBoundary
  rw [State.setServer_chans]
  split
  · show (if hasGrant (Claimant.ch c) s = true then _ else _) = _
    split
    · rfl
    · exact endList_setServer o s c _
  · rfl

theorem teardownChannel_setServer (cause : TeardownCause) (slot : Slot) (own : Option Chan) (c : Chan) :
    teardownChannel cause slot own c (s.setServer o) = (teardownChannel cause slot own c s).setServer o := by
  unfold teardownChannel; dsimp only
  rw [State.updChan_chans, State.updChan_chans, State.setServer_chans]
  split
  · split
    · split
      · rfl
      · exact endAtBoundary_setServer o (updPrimary c (fun p => { p.setMark (teardownMark cause) with owner := none })
          (s.updChan c fun ch => { ch with backup := ch.backup.filter fun b => b.owner != slot })) c
    · rfl
  · rfl

theorem teardownChannels_setServer (cause : TeardownCause) (slot : Slot) (own : Option Chan) (l : List Chan) :
    l.foldl (fun t c => teardownChannel cause slot own c t) (s.setServer o) =
      (l.foldl (fun t c => teardownChannel cause slot own c t) s).setServer o := by
  induction l generalizing s with
  | nil => rfl
  | cons c l ih => rw [List.foldl_cons, List.foldl_cons, teardownChannel_setServer, ih]

theorem chargedBy_setServer (reason : Code) (slot : Slot) (source : Option Chan) (h : Handle) (offset : Nat) :
    (s.setServer o).chargedBy reason slot source h offset = (s.chargedBy reason slot source h offset).setServer o := by
  have e : offerFault reason slot source h offset (s.setServer o) =
      (offerFault reason slot source h offset s).setServer o := by
    unfold offerFault; rw [State.setServer_attn]; split <;> rfl
  unfold State.chargedBy; rw [e]
  unfold chargeScore; dsimp only; rw [State.setServer_su]
  split <;> rfl

end SetServer

/-- The server's part of a teardown for the own violation of the request in service does not look at its stage. -/
theorem teardownServer_toStage (cause : TeardownCause) (slot : Slot) (answers : List (BitVec 3 × Code)) (g : Stage)
    (s : State) : teardownServer cause slot true answers (toStage g s) =
      toStage g (teardownServer cause slot true answers s) := by
  unfold teardownServer
  cases hr : s.server with
  | none =>
    rw [show (toStage g s).server = none by unfold toStage; rw [hr]; rfl]
    dsimp only
    rw [sendAnswers_eq, sendAnswers_eq]; rfl
  | some r =>
    rw [show (toStage g s).server = some { r with stage := g } by rw [toStage_of hr]]
    dsimp only
    split
    · rfl
    · rw [sendAnswers_eq, sendAnswers_eq]; rfl

/-- A teardown for the own violation of the request in service does not look at its stage. -/
theorem teardown_toStage (cause : TeardownCause) (slot : Slot) (ownList : Option Chan) (g : Stage) (s : State) :
    teardown cause slot true ownList (toStage g s) = toStage g (teardown cause slot true ownList s) := by
  have h := teardownChannels_setServer (s.server.map fun r => { r with stage := g }) (teardownTable slot s) cause slot
    ownList [0, 1, 2, 3]
  obtain ⟨_, _, _, _, _, _, f⟩ := teardownChannels_frame cause slot ownList [0, 1, 2, 3] (teardownTable slot s)
  unfold teardown; dsimp only
  rw [show teardownTable slot (toStage g s) = (teardownTable slot s).setServer (s.server.map fun r => { r with stage := g })
    from rfl, h]
  generalize [0, 1, 2, 3].foldl (fun t c => teardownChannel cause slot ownList c t) (teardownTable slot s) = s1 at *
  have hv : s1.server = s.server := by rw [f]; rfl
  rw [← hv]
  exact teardownServer_toStage cause slot (teardownAnswers cause (s1.rq.filter fun q => q.slot == slot)) g
    ((s1.setRq (s1.rq.filter fun q => q.slot != slot)).updSlot slot fun r =>
      { r with outstanding := r.outstanding - (s1.rq.filter fun q => q.slot == slot).length })

/-- The own violation of the request in service does not look at its stage. -/
theorem violation_toStage (reason : Code) (slot : Slot) (source : Option Chan) (h : Handle) (offset : Nat) (g : Stage)
    (s : State) : violation reason slot source h offset true (toStage g s) =
      toStage g (violation reason slot source h offset true s) := by
  have e : (toStage g s).chargedBy reason slot source h offset = toStage g (s.chargedBy reason slot source h offset) := by
    have hv : (s.chargedBy reason slot source h offset).server = s.server :=
      congrArg Inside.server (chargedBy_inside s reason slot source h offset)
    unfold toStage; rw [chargedBy_setServer, hv]
  unfold violation; dsimp only
  change (if ((toStage g s).chargedBy reason slot source h offset).su[slot].standing = .barred ∧ s.su[slot].standing ≠ .barred
    then teardown .barring slot true source ((toStage g s).chargedBy reason slot source h offset)
    else (toStage g s).chargedBy reason slot source h offset) = toStage g (if (s.chargedBy reason slot source h
      offset).su[slot].standing = .barred ∧ s.su[slot].standing ≠ .barred then teardown .barring slot true source
        (s.chargedBy reason slot source h offset) else s.chargedBy reason slot source h offset)
  rw [e, teardown_toStage]
  exact (apply_ite (toStage g) _ _ _).symm

/-- A request that fails does not look at its stage. -/
theorem failRequest_toStage (code : Code) (h : Handle) (offset : Nat) (g : Stage) (s : State) :
    failRequest code h offset (toStage g s) = failRequest code h offset s := by
  have idem (code' : Code) (t : State) : reach code' [] (toStage g t) = reach code' [] t := by
    unfold reach toStage State.setServer; cases t.server <;> rfl
  unfold failRequest
  cases hr : s.server with
  | none =>
    rw [show (toStage g s).server = none by unfold toStage; rw [hr]; rfl]
    dsimp only; unfold toStage State.setServer; rw [hr, Option.map_none, ← hr]
  | some r =>
    rw [show (toStage g s).server = some { r with stage := g } by rw [toStage_of hr]]
    dsimp only
    split
    · rw [violation_toStage, idem]
    · rw [idem]

end Sys2Proof.Machine

/-! The claims of requests, as chains of claims (chapters 4, 5, 6.2, 8.4). -/

namespace Sys2Proof.Machine

variable {x : Option Slot} {s t u : State} {r : InService}

/-! ### The request in service -/

/-- An act keeps the request of the service. -/
theorem Act.keeps_request {q : Request} (h : Act x s t) (hs : ∀ r, s.server = some r → r.request = q) :
    ∀ r, t.server = some r → r.request = q := by
  have same (e : t.server = s.server) : ∀ r, t.server = some r → r.request = q := by rw [e]; exact hs
  have gone (e : t.server = none) : ∀ r, t.server = some r → r.request = q := fun r hr => by rw [e] at hr; cases hr
  have goes {r r' : InService} (hr : s.server = some r) (he : r'.request = r.request) (e : t.server = some r') :
      ∀ r, t.server = some r → r.request = q := fun r2 h2 => by
    cases e.symm.trans h2; rw [he]; exact hs r hr
  cases h with
  | still h | table _ _ h | record _ _ _ h | accept _ _ _ _ h | dequeue _ h | chan _ _ _ _ _ h =>
    exact same (congrArg Inside.server h)
  | service r r' v hr hst _ h => exact goes hr hst.request (congrArg Inside.server h)
  | served _ _ _ _ h | reset _ h => exact gone (congrArg Inside.server h)
  | unlink server' hsv h =>
    have hsv' : t.server = server' := congrArg Inside.server h
    rcases hsv with ⟨-, e⟩ | ⟨r, r', hr, e, he, -⟩
    · exact gone (hsv'.trans e)
    · exact goes hr he (hsv'.trans e)
  | handOver c r hd offset g hr _ _ _ h => exact goes (r' := { r with pins := [], stage := g }) hr rfl (congrArg Inside.server h)

/-- The claims of a service are a chain of claims, where each claim of its kind is. -/
theorem carryOn_claims {claim : Stage → State → State} {q : Request}
    (h : ∀ s r, s.server = some r → r.request = q → Claims s (claim r.stage s)) (n : Nat) (s : State)
    (hs : ∀ r, s.server = some r → r.request = q) : Claims s (carryOn claim n s) := by
  induction n generalizing s with
  | zero => exact .refl
  | succ n ih =>
    unfold carryOn; split
    · exact .refl
    · rename_i r hr
      split
      · exact .refl
      · exact Acts.claims (endService_acts _ _ s)
      · have h1 := h s r hr (hs r hr)
        exact h1.trans (ih _ (h1.keep (P := fun s => ∀ r, s.server = some r → r.request = q)
          (fun _ _ _ ha hp => ha.keeps_request hp) hs))

theorem reach_claims (code : Code) (payload : List Byte) (s : State) : Claims s (reach code payload s) :=
  Acts.claims (reach_acts code payload s)

theorem failRequest_claims (code : Code) (h : Handle) (offset : Nat) (s : State) :
    Claims s (failRequest code h offset s) := (failRequest_claim code h offset s).claims

/-- A service goes on from a stage before its resolution. -/
theorem toStage_claims {g : Stage} (hr : s.server = some r) (hu : r.stage.uncommitted = true) (hc : r.stage ≠ .slotClaim) :
    Claims s (toStage g s) := Acts.claims (toStage_acts hr fun _ => ⟨hu, .inl hc⟩)

/-! ### OPEN -/

theorem searchOn_claims (k : Search) (hr : s.server = some r) (hu : r.stage.uncommitted = true)
    (hc : r.stage ≠ .slotClaim) : Claims s (searchOn k s) := by
  unfold searchOn; split
  · exact failRequest_claims _ _ _ s
  · exact toStage_claims hr hu hc

theorem examine_claims (k : Search) (hr : s.server = some r) (hu : r.stage.uncommitted = true)
    (hc : r.stage ≠ .slotClaim) : Claims s (examine r.request.slot k s) := by
  unfold examine; dsimp only; split
  · exact searchOn_claims k hr hu hc
  · rename_i hlive
    split
    · exact searchOn_claims _ hr hu hc
    · split
      · exact searchOn_claims _ hr hu hc
      · rw [not_or, not_or] at hlive
        exact (Acts.claims (.desc (.enroll r.request.slot k.wanted ⟨r, hr, rfl, hu⟩ hlive.1 hlive.2.1) rfl)).trans
          (reach_claims _ _ _)

theorem openClaim_claims (tag : BitVec 16) (wanted : Byte) (hr : s.server = some r) :
    Claims s (openClaim r.request.slot tag wanted r.stage s) := by
  cases hg : r.stage <;> dsimp only [openClaim]
  case begun =>
    split
    · exact failRequest_claims _ _ _ s
    · exact toStage_claims hr (by rw [hg]; rfl) (by rw [hg]; simp)
  case checked =>
    split
    · exact failRequest_claims _ _ _ s
    · unfold beginSearch; dsimp only; split
      · exact toStage_claims hr (by rw [hg]; rfl) (by rw [hg]; simp)
      · exact failRequest_claims _ _ _ s
  case search k => exact examine_claims k hr (by rw [hg]; rfl) (by rw [hg]; simp)
  all_goals exact .refl

/-! ### CLOSE, QUERY -/

theorem onlyClaim_claims {claim : State → State} (h : Claims s (claim s)) (g : Stage) : Claims s (onlyClaim claim g s) := by
  cases g
  case begun => exact h
  all_goals exact .refl

theorem closeClaim_claims (slot : Slot) (h : Handle) (s : State) : Claims s (closeClaim slot h s) := by
  unfold closeClaim; split
  · exact failRequest_claims _ _ _ s
  · exact (Acts.claims (.desc (.leave slot) rfl)).trans (reach_claims _ _ _)

theorem queryClaim_claims (slot : Slot) (h : Handle) (s : State) : Claims s (queryClaim slot h s) := by
  unfold queryClaim; split <;> exact reach_claims _ _ s

/-! ### Direct access -/

theorem accessChecks_claims {slot : Slot} {h : Handle} {offset n : Nat} {limited : State → State}
    (hl : Claims s (limited s)) (hr : s.server = some r) (hg : r.stage = .begun) :
    Claims s (accessChecks slot h offset n limited s) := by
  unfold accessChecks; split
  · exact failRequest_claims _ _ _ s
  · split
    · exact hl
    · exact toStage_claims hr (by rw [hg]; rfl) (by rw [hg]; simp)

/-- The record of a service whose resolution has passed, at its next stage (R93). -/
def InService.noted (r : InService) (w : Resolved) (g : Stage) : InService :=
  { r with resolved := some w, pins := r.pins ++ w.pinned, stage := g }

theorem noteResolved_of (w : Resolved) (hr : s.server = some r) :
    noteResolved w s = { s with
      wt := withPins s.wt w.pinned, server := some { r with resolved := some w, pins := r.pins ++ w.pinned } } := by
  unfold noteResolved; rw [placePins_eq, hr]; rfl

theorem pinned_length_le (w : Resolved) : w.pinned.length ≤ 2 := by
  unfold Resolved.pinned
  cases w.target <;> simp

/-- The service notes a passing resolution and goes on to its next stage. -/
theorem noted_acts {slot : Slot} {h : Handle} {offset length : Nat} {needed : Rights} {nl : NeedsList} {al : Bool}
    {w : Resolved} {g : Stage} {r' : InService} (hw : resolve s slot h offset length needed nl al = .ok w)
    (hr : s.server = some r) (hg : r.stage = .checked)
    (hg' : g.uncommitted = true → nl = true ∧ g = .slotClaim)
    (hr' : r'.request = r.request ∧ r'.detached = r.detached ∧ r'.disposition = r.disposition ∧ r'.held = r.held ∧
      r'.pins = r.pins ++ w.pinned ∧ r'.stage = g)
    (ht : t.inside = { s.inside with wt := withPins s.wt w.pinned, server := some r' }) : Acts x s t := by
  obtain ⟨h1, h2, h3, h4, h5, h6⟩ := hr'
  refine .single (.service r r' (withPins s.wt w.pinned) hr
    ⟨h1, h2, fun _ => ⟨h3, h4⟩, fun _ => by rw [hg]; rfl, fun hh => ?_⟩
    (fun i => .withPins (resolve_pinned hw) i fun _ => by rw [h5, List.count_append]) ht)
  have hp : r.pins = [] := (hh.2 (by rw [hg]; rfl)).2 (by rw [hg]; simp)
  refine ⟨by rw [h5, hp]; exact pinned_length_le w, fun hu => ?_⟩
  rw [h6] at hu
  obtain ⟨rfl, e⟩ := hg' hu
  obtain ⟨-, -, -, -, h7⟩ := resolve_ok hw
  refine ⟨?_, fun hc => absurd (h6.trans e) hc⟩
  rw [h5, hp, Resolved.pinned, (h7 rfl).1]; simp

theorem resolveThen_claims {slot : Slot} {h : Handle} {offset length : Nat} {needed : Rights} {go : State → State}
    (hgo : ∀ w, resolve s slot h offset length needed false false = .ok w → Claims s (go (noteResolved w s))) :
    Claims s (resolveThen slot h offset length needed go s) := by
  unfold resolveThen; split
  · exact (Acts.claims (touchAbsent_acts _ s)).trans (failRequest_claims _ _ _ _)
  · rename_i w hw; exact hgo w hw

/-- A resolution after which the translation is next. -/
theorem resolveThen_translation {slot : Slot} {h : Handle} {offset length : Nat} {needed : Rights}
    (hr : s.server = some r) (hg : r.stage = .checked) :
    Claims s (resolveThen slot h offset length needed (toStage .translation) s) :=
  resolveThen_claims fun w hw => by
    refine Acts.claims (noted_acts (r' := r.noted w .translation) (g := .translation) hw hr hg (fun h => by cases h)
      ⟨rfl, rfl, rfl, rfl, rfl, rfl⟩ ?_)
    rw [noteResolved_of w hr]; rfl

theorem serverBursts_acts (bs : List Burst) (s : State) : Acts x s (serverBursts bs s) := by
  unfold serverBursts; split
  · rename_i b rest r hr
    exact .goesOn hr (r' := { r with stage := .bursts, rest := rest }) ⟨rfl, rfl, fun _ => ⟨rfl, rfl⟩, fun h => (by cases h),
      fun h => ⟨h.1, fun h => by cases h⟩⟩ rfl rfl
  · exact .refl

theorem translateAndBurst_claims (bursts : List (Nat × Nat) → List Burst) (s : State) :
    Claims s (translateAndBurst bursts s) := by
  unfold translateAndBurst; split
  · exact .refl
  · split
    · exact (Acts.claims (.still (raiseMapHole_inside s _))).trans (reach_claims _ _ _)
    · exact Acts.claims (serverBursts_acts _ s)

theorem accessClaims_claims {checks resolution translation : State → State} {g : Stage}
    (hc : g = .begun → Claims s (checks s)) (hr : g = .checked → Claims s (resolution s))
    (ht : Claims s (translation s)) : Claims s (accessClaims checks resolution translation g s) := by
  cases g
  case begun => exact hc rfl
  case checked => exact hr rfl
  case translation => exact ht
  all_goals exact .refl

/-! ### Locked accesses -/

/-- A right that is needed, where all that is needed is among the effective rights, is granted. -/
theorem and_eq_right_of_within {w : Nat} {needed granted others k : BitVec w} (hk : needed &&& k = k)
    (h : needed &&& (granted &&& others) = needed) : granted &&& k = k := by
  apply BitVec.eq_of_getLsbD_eq
  intro i _
  have e1 := congrArg (BitVec.getLsbD · i) hk
  have e2 := congrArg (BitVec.getLsbD · i) h
  simp only [BitVec.getLsbD_and] at e1 e2 ⊢
  rw [← e1, ← e2]
  cases granted.getLsbD i <;> simp

/-- A resolution that needs LOCK finds an opener's entry with it, on a VALID descriptor. -/
theorem resolve_opener {slot : Slot} {h : Handle} {offset length : Nat} {needed : Rights} {nl : NeedsList} {al : Bool}
    {w : Resolved} (hw : resolve s slot h offset length needed nl al = .ok w) (hk : needed &&& Rights.K = Rights.K) :
    ∃ granted, s.wt[h.index].openers[slot] = some granted ∧ granted &&& Rights.K = Rights.K := by
  unfold resolve at hw
  split at hw
  · cases hw
  · rename_i granted hg
    have ho : s.wt[h.index].openers[slot] = some granted := by
      unfold checkHandle at hg; dsimp only at hg
      split at hg
      · cases hg
      · split at hg
        · cases hg
        · split at hg
          · cases hg
          · rename_i e; cases hg; exact e
    refine ⟨granted, ho, ?_⟩
    split at hw
    · cases hw
    · dsimp only at hw
      split at hw
      · cases hw
      · split at hw
        · cases hw
        · rename_i hin
          have hin' : needed &&& effectiveRights s s.wt[h.index] granted = needed := by
            simpa [Rights.within] using hin
          unfold effectiveRights at hin'
          split at hin'
          · rw [BitVec.and_assoc] at hin'; exact and_eq_right_of_within hk hin'
          · exact and_eq_right_of_within hk hin'

/-- After a passing resolution a request that fails its interlock step. -/
theorem failNoted_claims {slot : Slot} {h : Handle} {offset length : Nat} {needed : Rights} {w : Resolved} (code : Code)
    (hw : resolve s slot h offset length needed false false = .ok w) (hr : s.server = some r) (hg : r.stage = .checked) :
    Claims s (failRequest code h offset (noteResolved w s)) := by
  rw [← failRequest_toStage code h offset .translation (noteResolved w s)]
  refine (Acts.claims (noted_acts (r' := r.noted w .translation) (g := .translation) hw hr hg (fun h => by cases h)
    ⟨rfl, rfl, rfl, rfl, rfl, rfl⟩ ?_)).trans (failRequest_claims code h offset _)
  rw [noteResolved_of w hr]; rfl

theorem lockStep_claims {slot : Slot} {h : Handle} {offset length : Nat} {w : Resolved} {needed : Rights}
    (hk : needed &&& Rights.K = Rights.K) (hw : resolve s slot h offset length needed false false = .ok w)
    (hr : s.server = some r) (hg : r.stage = .checked) : Claims s (lockStep slot h offset (noteResolved w s)) := by
  unfold lockStep; dsimp only; split
  · let r' : InService := { r.noted w .translation with lockTaken := true }
    let s1 : State := { s with wt := withPins s.wt w.pinned, server := some r' }
    have h1 : Claims s s1 := Acts.claims (noted_acts (r' := r') (g := .translation) hw hr hg (fun h => by cases h)
      ⟨rfl, rfl, rfl, rfl, rfl, rfl⟩ rfl)
    obtain ⟨granted, ho, hgr⟩ := resolve_opener hw hk
    obtain ⟨hi, hv, -⟩ := resolve_ok hw
    obtain ⟨hst, -, -, -, -, -, -, -, -, -, -, -, -, hop, -⟩ := (withPins_alike w.pinned s.wt).fields h.index
    refine h1.trans (Acts.claims (.desc (i := h.index) (.lock slot granted (s.now + s.engine.timeout) ?_ ?_ hgr) ?_))
    · rw [hst, ← hi]; exact hv
    · rw [hop]; exact ho
    · rw [noteResolved_of w hr]; rfl
  · exact failNoted_claims .lockBusy hw hr hg

theorem unlockStep_claims {slot : Slot} {h : Handle} {offset length : Nat} {w : Resolved} {needed : Rights}
    (hw : resolve s slot h offset length needed false false = .ok w)
    (hr : s.server = some r) (hg : r.stage = .checked) : Claims s (unlockStep slot h offset (noteResolved w s)) := by
  have noted {g : Stage} (hg' : g.uncommitted = false) :
      Claims s { s with wt := withPins s.wt w.pinned, server := some (r.noted w g) } :=
    Acts.claims (noted_acts (r' := r.noted w g) (g := g) hw hr hg (fun h => by rw [hg'] at h; cases h)
      ⟨rfl, rfl, rfl, rfl, rfl, rfl⟩ rfl)
  unfold unlockStep; dsimp only; split
  · refine (noted (g := .translation) rfl).trans (Acts.claims (.desc (i := h.index) .release ?_))
    rw [noteResolved_of w hr]; rfl
  · split
    · refine (noted (g := .ending .lockLost []) rfl).trans (Acts.claims (.desc (i := h.index) .unmark ?_))
      rw [noteResolved_of w hr]; rfl
    · exact failNoted_claims .notHolder hw hr hg

theorem limitedRelease_acts (slot : Slot) (h : Handle) (s : State) : Acts x s (limitedRelease slot h s) := by
  unfold limitedRelease; dsimp only; split
  · by_cases hh : s.wt[h.index].holder = some slot
    · exact .desc (i := h.index) .release (by simp only [State.updDesc, Descriptor.releaseIfHolder, hh, if_true]; rfl)
    · refine .still ?_
      simp only [State.updDesc, Descriptor.releaseIfHolder, hh, if_false, set_get_self]
  · exact .refl

/-! ### START, CANCEL, CHANNEL_STATUS -/

theorem slotClaim_claims (c : Chan) (h : Handle) (offset : Nat) (hr : s.server = some r)
    (hu : r.stage.uncommitted = true) : Claims s (slotClaim c r.request.slot h offset s) := by
  unfold slotClaim; split
  · rename_i hc
    refine Acts.claims (.single (.handOver c r h offset (.ending .ok []) hr hu rfl hc ?_))
    simp only [reach, toStage, State.setServer, State.updChan, State.inside, hr, Option.map_some]
    rfl
  · rename_i p hp hb
    let ch : Channel := { s.chans[c] with backup := some ⟨r.request.slot, h, offset⟩ }
    refine (Acts.claims (.single (.chan c ch s.wt ⟨fun hl => ⟨hl.1, fun _ => ?_, hl.2.2⟩, id, id, ?_⟩
      (fun i => .refl _ _ _) rfl))).trans (reach_claims _ _ _)
    · show s.chans[c].primary ≠ none
      rw [hp]; simp
    · rintro slot (hq | ⟨b, hb', ho⟩)
      · exact .inl (.inl hq)
      · cases hb'
        exact .inr ⟨r, hr, ho, hu⟩
  · exact reach_claims _ _ s

theorem startClaims_claims (channel : Byte) (h : Handle) (offset : Nat) (hr : s.server = some r) :
    Claims s (startClaims r.request.slot channel h offset r.stage s) := by
  cases hg : r.stage <;> dsimp only [startClaims]
  case begun =>
    unfold startChecks; split
    · exact failRequest_claims _ _ _ s
    · split
      · exact failRequest_claims _ _ _ s
      · exact toStage_claims hr (by rw [hg]; rfl) (by rw [hg]; simp)
  case checked =>
    unfold startResolution; split
    · exact (Acts.claims (touchAbsent_acts _ s)).trans (failRequest_claims _ _ _ _)
    · rename_i w hw
      refine Acts.claims (noted_acts (r' := r.noted w .slotClaim) (g := .slotClaim) hw hr hg (fun _ => ⟨rfl, rfl⟩)
        ⟨rfl, rfl, rfl, rfl, rfl, rfl⟩ ?_)
      rw [noteResolved_of w hr]; rfl
  case slotClaim =>
    cases chanOf channel.toNat with
    | none => exact .refl
    | some c => exact slotClaim_claims c h offset hr (by rw [hg]; rfl)
  all_goals exact .refl

theorem serveCancel_claims (slot : Slot) (channel : Byte) (s : State) : Claims s (serveCancel slot channel s) := by
  unfold serveCancel; split
  · exact failRequest_claims _ _ _ s
  · rename_i c hc
    refine Relation.ReflTransGen.trans (b := (cancelClaim c slot s).2) ?_ (reach_claims _ _ _)
    unfold cancelClaim; dsimp only
    have h1 : Acts none s (if s.chans[c].backup.any (·.owner == slot) then emptyBackup c s else s) := by
      split
      · exact emptyBackup_acts c s
      · exact .refl
    generalize (if s.chans[c].backup.any (·.owner == slot) then emptyBackup c s else s) = s1 at h1 ⊢
    refine Acts.claims (h1.trans ?_)
    split
    · exact abortPrimary_acts c .aborted _
    · exact .refl

theorem serveChannelStatus_claims (channel : Byte) (s : State) : Claims s (serveChannelStatus channel s) := by
  unfold serveChannelStatus; split
  · exact failRequest_claims _ _ _ s
  · exact reach_claims _ _ s

/-! ### The rows -/

/-- The request at the head of the queue is taken into service (R90). -/
def Takes (s u : State) : Prop :=
  ∃ q rest, s.server = none ∧ s.rq = q :: rest ∧ u = { s with rq := rest, server := some (InService.begin q) }

/-- A request row is a chain of claims, after the taking of a request where the server was IDLE. -/
theorem serveRow_claims {kind : Request → Option (Stage → State → State)} {claims : Option Nat}
    (h : ∀ q claim s r, kind q = some claim → s.server = some r → r.request = q → Claims s (claim r.stage s)) (s : State) :
    ∃ u, (u = s ∨ Takes s u) ∧ Claims u (serveRow kind claims s) := by
  unfold serveRow
  split
  · exact ⟨s, .inl rfl, .refl⟩
  · rename_i q t ht
    split
    · rename_i claim hk
      have serve (hq : ∀ r, t.server = some r → r.request = q) :
          Claims t (settle (carryOn claim (claims.getD serviceBound) t)) :=
        (carryOn_claims (fun s r => h q claim s r hk) _ t hq).trans (settle_claims _)
      unfold inHand at ht
      split at ht
      · rename_i r rq hr
        split at ht
        · cases ht
        · cases ht
          exact ⟨s, .inl rfl, serve fun r' hr' => by cases hr.symm.trans hr'; rfl⟩
      · rename_i q' rest hr hq
        cases ht
        exact ⟨_, .inr ⟨q, rest, hr, hq, rfl⟩, serve fun r' hr' => by cases hr'; rfl⟩
      · cases ht
    · exact ⟨s, .inl rfl, .refl⟩

theorem R_and_K : (Rights.R ||| Rights.K) &&& Rights.K = Rights.K := by decide

theorem W_and_K : (Rights.W ||| Rights.K) &&& Rights.K = Rights.K := by decide

/-- Every request row. -/
theorem exec_request_claims {i : Instr} {claims : Option Nat} (hi : i ∈ requestRows claims) {s t : State}
    (h : exec i s = .next t) : ∃ u, (u = s ∨ Takes s u) ∧ Claims u t := by
  have done {kind : Request → Option (Stage → State → State)} (he : (.next (serveRow kind claims s) : Answer) = .next t)
      (hs : ∀ q claim s r, kind q = some claim → s.server = some r → r.request = q → Claims s (claim r.stage s)) :
      ∃ u, (u = s ∨ Takes s u) ∧ Claims u t := by
    cases he; exact serveRow_claims hs s
  simp only [requestRows, List.mem_cons, List.not_mem_nil, or_false] at hi
  rcases hi with rfl | rfl | rfl | rfl | rfl | rfl | rfl | rfl | rfl | rfl | rfl
  all_goals
    refine done h fun q claim s r hq hr hrq => ?_
    subst hrq
    split at hq <;> cases hq
  · exact openClaim_claims _ _ hr
  · exact onlyClaim_claims (closeClaim_claims _ _ s) _
  · exact accessClaims_claims
      (fun hg => accessChecks_claims (toStage_claims hr (by rw [hg]; rfl) (by rw [hg]; simp)) hr hg)
      (fun hg => resolveThen_translation hr hg) (translateAndBurst_claims _ s)
  · exact accessClaims_claims (fun hg => accessChecks_claims (failRequest_claims _ _ _ s) hr hg)
      (fun hg => resolveThen_translation hr hg) (translateAndBurst_claims _ s)
  · exact accessClaims_claims (fun hg => accessChecks_claims (failRequest_claims _ _ _ s) hr hg)
      (fun hg => resolveThen_claims fun w hw => lockStep_claims R_and_K hw hr hg) (translateAndBurst_claims _ s)
  · exact accessClaims_claims
      (fun hg => accessChecks_claims
        ((Acts.claims (limitedRelease_acts _ _ s)).trans (failRequest_claims _ _ _ _)) hr hg)
      (fun hg => resolveThen_claims fun w hw => unlockStep_claims hw hr hg) (translateAndBurst_claims _ s)
  · exact onlyClaim_claims (queryClaim_claims _ _ s) _
  · exact startClaims_claims _ _ _ hr
  · exact onlyClaim_claims (serveCancel_claims _ _ s) _
  · exact onlyClaim_claims (serveChannelStatus_claims _ s) _
  · exact onlyClaim_claims (failRequest_claims _ _ _ s) _

end Sys2Proof.Machine

/-! The manager's commands, the lines and the bursts, as chains of claims; and with them every step (chapters 8, 9). -/

namespace Sys2Proof.Machine

variable {x : Option Slot} {s t u : State}

/-! ### Commands on the Window Table -/

theorem complete_claims (h : Claims s t) (code : Code) (results : Results) : Claims s (complete code results t) :=
  h.trans (Acts.claims (.still (complete_inside t code results)))

theorem completeWith_claims (code : Code) (s : State) : Claims s (completeWith code s) := complete_claims .refl code _

/-- What a written descriptor keeps of the entries, the pins and the interlock. -/
def Descriptor.SameHolds (d d' : Descriptor) : Prop :=
  d'.openers = d.openers ∧ d'.pins = d.pins ∧ d'.holder = d.holder ∧ d'.expiry = d.expiry ∧
    d'.expiredHolder = d.expiredHolder

theorem idxOf_ne_zero {n : Nat} (h0 : n ≠ 0) (h : n ≤ 255) : idxOf n ≠ 0 := by
  intro e
  have := congrArg Fin.val e
  simp only [idxOf, Fin.ofNat, Fin.val_zero] at this
  omega

theorem usableIndex_ne_zero {n : Nat} {i : DIdx} (h : usableIndex n = some i) : i ≠ 0 := by
  unfold usableIndex at h
  split at h
  · rename_i hn
    cases h; exact idxOf_ne_zero (by omega) hn.2
  · cases h

theorem lowestFree_ne_zero {i : DIdx} (h : lowestFree s = some i) : i ≠ 0 := by
  have hm := List.mem_of_find?_eq_some h
  obtain ⟨n, hn, rfl⟩ := List.mem_map.1 hm
  rw [List.mem_range'_1] at hn
  exact idxOf_ne_zero (by omega) (by omega)

theorem placementOk_iff {mapStart firstOffset length : Nat} : placementOk mapStart firstOffset length = true ↔
    mapStart ≤ 2047 ∧ firstOffset ≤ 4095 ∧ 1 ≤ length ∧ length ≤ 8388608 ∧
      firstOffset + length ≤ (2048 - mapStart) * 4096 := by
  simp only [placementOk, Bool.and_eq_true, decide_eq_true_eq, and_assoc]

theorem gateRangesOk_iff {gateOffset gateLength : Nat} : gateRangesOk gateOffset gateLength = true ↔
    gateOffset ≤ 8388607 ∧ 1 ≤ gateLength ∧ gateLength ≤ 8388608 := by
  simp only [gateRangesOk, Bool.and_eq_true, decide_eq_true_eq, and_assoc]

theorem initialState_some {n : Nat} {st : DState} (h : initialState n = some st) : st = .valid ∨ st = .absent := by
  unfold initialState at h
  split at h <;> cases h
  · exact .inl rfl
  · exact .inr rfl

/-- What CREATE writes where its checks pass (R20). -/
theorem createChecks_ok {p : Vector Word 4} {i : DIdx} {f : Descriptor → Descriptor} (h : createChecks p s = .ok (i, f))
    (d : Descriptor) : i ≠ 0 ∧ s.wt[i].state = .free ∧ ((f d).state = .valid ∨ (f d).state = .absent) ∧ (f d).Placed ∧
      d.SameHolds (f d) := by
  unfold createChecks at h
  dsimp only at h
  split at h
  · cases h
  rename_i hidx
  split at h
  · rename_i st ty level rights hst hty hlv hri
    split at h
    · cases h
    rename_i hplace
    split at h
    · cases h
    rename_i hgate
    split at h
    · cases h
    rename_i j hj
    split at h
    · cases h
    rename_i hfree
    split at h
    · cases h
    have hj0 : j ≠ 0 := by
      split at hj
      · exact lowestFree_ne_zero hj
      · rename_i hn
        cases hj; exact idxOf_ne_zero hn (by omega)
    cases h
    refine ⟨hj0, by simpa using hfree, ?_, ?_, ?_⟩
    · have := initialState_some hst
      split <;> exact this
    · split
      · rename_i hg
        have hr := gateRangesOk_iff.1 (by simpa [hg] using hgate)
        unfold Descriptor.Placed; rw [if_pos hg]
        exact ⟨rfl, rfl, rfl, hr⟩
      · rename_i hg
        obtain ⟨h1, h2, h3, h4, h5⟩ := placementOk_iff.1 (by simpa [hg] using hplace)
        unfold Descriptor.Placed; rw [if_neg hg]
        exact ⟨rfl, rfl, rfl, rfl, h1, h2, h4, fun _ => h3, h5⟩
    · split <;> exact ⟨rfl, rfl, rfl, rfl, rfl⟩
  · cases h

theorem createClaim_claims (p : Vector Word 4) (s : State) : Claims s (createClaim p s) := by
  unfold createClaim
  split
  · exact completeWith_claims _ s
  · rename_i i f hc
    obtain ⟨hi, hs, hv, hp, hk⟩ := createChecks_ok hc s.wt[i]
    exact complete_claims (Acts.claims (.desc (.write _ hi (by rw [hs]; simp) hv (fun _ => hp) hk) rfl)) _ _

section Groups

variable (p : Vector Word 4) (identity access placement : Bool) (d : Descriptor)

/-- The fields that MODIFY's first two groups replace. -/
theorem modifyGroups_access : ∃ (tag : BitVec 16) (level : Fin 4) (rights : Rights),
    modifyGroups p identity access false d = { d with tag := tag, level := level, rights := rights } := by
  cases identity <;> cases access <;> exact ⟨_, _, _, rfl⟩

/-- What MODIFY's placement group replaces. -/
theorem modifyGroups_placement : modifyGroups p identity access placement d =
    if placement then
      if d.dtype = .gate then
        { modifyGroups p identity access false d with gateOffset := p[2].toNat, gateLength := p[3].toNat }
      else { modifyGroups p identity access false d with
        mapStart := field p[2] 15 0, firstOffset := field p[2] 31 16, length := p[3].toNat }
    else modifyGroups p identity access false d := by
  cases placement
  · rfl
  · cases identity <;> cases access <;> rfl

theorem modifyGroups_state : (modifyGroups p identity access placement d).state = d.state := by
  obtain ⟨_, _, _, e⟩ := modifyGroups_access p identity access d
  rw [modifyGroups_placement, e]
  split
  · split <;> rfl
  · rfl

theorem modifyGroups_sameHolds : d.SameHolds (modifyGroups p identity access placement d) := by
  obtain ⟨_, _, _, e⟩ := modifyGroups_access p identity access d
  rw [modifyGroups_placement, e]
  split
  · split <;> exact ⟨rfl, rfl, rfl, rfl, rfl⟩
  · exact ⟨rfl, rfl, rfl, rfl, rfl⟩

end Groups

theorem modifyGroups_placed {p : Vector Word 4} {identity access placement : Bool} {d : Descriptor}
    (hw : placement = true → d.dtype ≠ .gate → field p[2] 15 0 ≤ 2047 ∧ field p[2] 31 16 ≤ 4095 ∧ 1 ≤ p[3].toNat ∧
      p[3].toNat ≤ 8388608 ∧ field p[2] 31 16 + p[3].toNat ≤ (2048 - field p[2] 15 0) * 4096)
    (hg : placement = true → d.dtype = .gate → p[2].toNat ≤ 8388607 ∧ 1 ≤ p[3].toNat ∧ p[3].toNat ≤ 8388608)
    (hd : d.Placed) : (modifyGroups p identity access placement d).Placed := by
  obtain ⟨_, _, _, e⟩ := modifyGroups_access p identity access d
  rw [modifyGroups_placement, e]
  unfold Descriptor.Placed at hd ⊢
  split
  · rename_i hm
    split
    · rename_i ht
      rw [if_pos ht] at hd
      exact ⟨hd.1, hd.2.1, hd.2.2.1, hg hm ht⟩
    · rename_i ht
      obtain ⟨h1, h2, h3, h4, h5⟩ := hw hm ht
      rw [if_neg ht] at hd
      obtain ⟨d1, d2, d3, d4, -⟩ := hd
      exact ⟨d1, d2, d3, d4, h1, h2, h4, fun _ => h3, h5⟩
  · exact hd

/-- What MODIFY writes where its checks pass (R22). -/
theorem modifyChecks_ok {p : Vector Word 4} {i : DIdx} {f : Descriptor → Descriptor} (h : modifyChecks p s = .ok (i, f)) :
    i ≠ 0 ∧ (s.wt[i].state = .valid ∨ s.wt[i].state = .absent) ∧ (f s.wt[i]).state = s.wt[i].state ∧
      (s.wt[i].Placed → (f s.wt[i]).Placed) ∧ s.wt[i].SameHolds (f s.wt[i]) := by
  unfold modifyChecks at h
  split at h
  · cases h
  rename_i j hj
  dsimp only at h
  split at h
  · cases h
  rename_i hst
  split at h
  · cases h
  split at h
  · cases h
  split at h
  · cases h
  rename_i hplace
  split at h
  · cases h
  rename_i hgate
  split at h
  · cases h
  split at h
  · cases h
  cases h
  have hst' : s.wt[i].state = .valid ∨ s.wt[i].state = .absent := by
    by_contra hn
    rw [not_or] at hn
    exact hst hn
  exact ⟨usableIndex_ne_zero hj, hst', modifyGroups_state .., modifyGroups_placed
    (fun hm hd => placementOk_iff.1 (by by_contra hn; exact hplace ⟨hm, hd, by simpa using hn⟩))
    (fun hm hd => gateRangesOk_iff.1 (by by_contra hn; exact hgate ⟨hm, hd, by simpa using hn⟩)), modifyGroups_sameHolds ..⟩

theorem modifyClaim_claims (p : Vector Word 4) (s : State) : Claims s (modifyClaim p s) := by
  unfold modifyClaim
  split
  · exact completeWith_claims _ s
  · rename_i i f hc
    obtain ⟨hi, hs, hv, hp, hk⟩ := modifyChecks_ok hc
    exact complete_claims (Acts.claims (.desc (.write _ hi (by rcases hs with e | e <;> rw [e] <;> simp)
      (by rw [hv]; exact hs) hp hk) rfl)) _ _

theorem markClaim_claims {was becomes : DState} (h : was = .valid ∧ becomes = .absent ∨ was = .absent ∧ becomes = .valid)
    (p : Vector Word 4) (s : State) : Claims s (markClaim was becomes p s) := by
  unfold markClaim
  split
  · exact completeWith_claims _ s
  · rename_i i hi
    split
    · rename_i hs
      have hf : s.wt[i].state ≠ .free := by rw [hs]; rcases h with ⟨rfl, -⟩ | ⟨rfl, -⟩ <;> simp
      refine complete_claims (Acts.claims (.desc (.write { s.wt[i] with state := becomes } (usableIndex_ne_zero hi) ?_ ?_
        (fun hp => ?_) ⟨rfl, rfl, rfl, rfl, rfl⟩) rfl)) _ _
      · rw [hs]; rcases h with ⟨rfl, -⟩ | ⟨rfl, -⟩ <;> simp
      · rcases h with ⟨-, rfl⟩ | ⟨-, rfl⟩ <;> simp
      · unfold Descriptor.Placed at hp ⊢
        dsimp only
        split at hp
        · rename_i hg; rw [if_pos hg]; exact hp
        · rename_i hg
          rw [if_neg hg]
          obtain ⟨h1, h2, h3, h4, h5, h6, h7, h8, h9⟩ := hp
          exact ⟨h1, h2, h3, h4, h5, h6, h7, fun _ => h8 hf, h9⟩
    · exact completeWith_claims _ s

/-- A descriptor begins to retire, or is freed where no pin is held (R10, R29). -/
theorem retireDescriptor_acts {i : DIdx} (hf : s.wt[i].state ≠ .free) : Acts x s (retireDescriptor i s) := by
  unfold retireDescriptor; dsimp only
  rw [State.updDesc_wt, get_set_self]
  split
  · rename_i hp
    refine .desc (i := i) (.free hf hp) ?_
    unfold enterFree
    rw [engineOnFree_inside]
    simp only [raiseRetireDone, State.setAttn, State.updDesc, State.inside, get_set_self, set_set_self]
    rfl
  · rename_i hp
    exact .desc (i := i) (.retire hf (Nat.pos_of_ne_zero hp)) rfl

theorem noteChannels_acts (i : DIdx) (s : State) : Acts x s (noteChannels i s) := by
  unfold noteChannels
  generalize ([0, 1, 2, 3] : List Chan) = l
  induction l generalizing s with
  | nil => exact .refl
  | cons c l ih =>
    refine Relation.ReflTransGen.trans (updPrimary_acts (f := fun p => { p with noted := p.noted || p.holdsPin i })
      (fun _ => .inl rfl) (fun _ => id) (fun _ => rfl) (fun _ => rfl) (fun _ => id) s) (ih _)

theorem retireClaim_claims (p : Vector Word 4) (s : State) : Claims s (retireClaim p s) := by
  unfold retireClaim
  split
  · exact completeWith_claims _ s
  · rename_i i hi
    dsimp only
    split
    · exact completeWith_claims _ s
    · split
      · exact completeWith_claims _ s
      · rename_i hf
        split
        · exact completeWith_claims _ s
        · split
          · exact complete_claims (Acts.claims (retireDescriptor_acts hf)) _ _
          · exact Acts.claims (((Acts.still (setEngine_inside s { s.engine with state := .busy (.retire i) })).trans
              (noteChannels_acts i _)).trans (retireDescriptor_acts hf))

/-! ### Commands on slots and channels -/

/-- A record that is neither newly disabled, nor newly absent, nor newly BARRED, with its count. -/
theorem updSlot_acts (slot : Slot) {f : Requester → Requester} (ho : (f s.su[slot]).outstanding = s.su[slot].outstanding)
    (hs : s.su[slot].Scored → (f s.su[slot]).Scored) (hsh : (f s.su[slot]).Shut → s.su[slot].Shut ∨ x = some slot) :
    Acts x s (s.updSlot slot f) := .record ⟨ho, hs, fun _ => hsh⟩ rfl

theorem requesterSetClaim_claims (p : Vector Word 4) (s : State) : Claims s (requesterSetClaim p s) := by
  unfold requesterSetClaim
  split
  · rename_i slot enable level _ _ _
    dsimp only
    refine complete_claims ?_ _ _
    have set {x : Option Slot} (h : s.su[slot].enabled = true → enable = false → x = some slot) :
        Acts x s (s.updSlot slot fun r => { r with enabled := enable, level := level }) := by
      refine updSlot_acts slot rfl id fun hq => ?_
      rcases hq with e | e | e
      · by_cases hw : s.su[slot].enabled = true
        · exact .inr (h hw e)
        · exact .inl (.inl (by simpa using hw))
      · exact .inl (.inr (.inl e))
      · exact .inl (.inr (.inr e))
    split
    · exact (teardown_claim (set fun _ _ => rfl) _ _).claims
    · rename_i hn
      exact Acts.claims (set fun h1 h2 => absurd (by rw [h1, h2]; rfl) hn)
  · exact completeWith_claims _ s

theorem filterSetClaim_claims (p : Vector Word 4) (s : State) : Claims s (filterSetClaim p s) := by
  unfold filterSetClaim
  split
  · exact complete_claims (Acts.claims (updSlot_acts _ rfl id .inl)) _ _
  · exact completeWith_claims _ s

theorem withScore_zero_scored (r : Requester) : (r.withScore 0).Scored := ⟨Nat.zero_le _, rfl⟩

theorem readmitClaim_claims (p : Vector Word 4) (s : State) : Claims s (readmitClaim p s) := by
  unfold readmitClaim
  split
  · refine complete_claims (Acts.claims (updSlot_acts _ rfl (fun _ => withScore_zero_scored _) fun hq => .inl ?_)) _ _
    rcases hq with e | e | e
    · exact .inl e
    · exact .inr (.inl e)
    · cases e
  · exact completeWith_claims _ s

theorem abortAndWait_claims (c : Chan) (s : State) : Claims s (abortAndWait c s) := by
  unfold abortAndWait; split
  · exact Acts.claims ((Acts.still (setEngine_inside s _)).trans (abortPrimary_acts c .aborted _))
  · exact complete_claims .refl _ _

theorem channelAbortClaim_claims (p : Vector Word 4) (s : State) : Claims s (channelAbortClaim p s) := by
  unfold channelAbortClaim
  split
  · exact abortAndWait_claims _ s
  · exact complete_claims (Acts.claims (emptyBackup_acts _ s)) _ _
  · exact (Acts.claims (emptyBackup_acts _ s)).trans (abortAndWait_claims _ _)
  · exact completeWith_claims _ s

theorem resume_acts {c : Chan} (h : s.chans[c].state = .stopped) :
    Acts x s (updPrimary c (fun q => { q with work := .resume }) (s.updChan c fun ch => { ch with state := .fetch })) := by
  cases hp : s.chans[c].primary with
  | none =>
    refine .single (.chan c { s.chans[c] with state := .fetch } s.wt ⟨fun hl => ?_, id, id, fun _ => .inl⟩
      (fun i => .refl _ _ _) ?_)
    · have := hl.1.2 hp
      rw [h] at this; cases this
    · rw [updPrimary_none (by rw [State.updChan_chans, get_set_self]; exact hp)]; rfl
  | some p =>
    refine .goesOnList hp (p' := { p with work := .resume }) (st := .fetch) (e := s.chans[c].event)
      ⟨.inl rfl, id, fun _ h => (by cases h), fun _ => ⟨fun h => (by cases h), fun h => (by cases h)⟩,
        fun h => ⟨h.1, h.2.1, trivial⟩, fun h => (by cases h)⟩ rfl ?_
    simp only [updPrimary, State.updChan, State.inside, get_set_self, set_set_self, hp, Option.map_some]

theorem channelResumeClaim_claims (p : Vector Word 4) (s : State) : Claims s (channelResumeClaim p s) := by
  unfold channelResumeClaim
  split
  · split
    · rename_i h
      exact complete_claims (Acts.claims (resume_acts h)) _ _
    · exact completeWith_claims _ s
  · exact completeWith_claims _ s

/-! ### Resets -/

theorem linkResetChannel_acts (c : Chan) (s : State) : Acts x s (linkResetChannel c s) :=
  (emptyBackup_acts c s).trans (abortPrimary_acts c .aborted _)

theorem linkResetChannels_acts (l : List Chan) (s : State) : Acts x s (l.foldl (fun t c => linkResetChannel c t) s) := by
  induction l generalizing s with
  | nil => exact .refl
  | cons c l ih => exact (linkResetChannel_acts c s).trans (ih _)

/-- The queue is emptied and the request in service detached (R140, R167). -/
theorem unlink_acts (s : State) :
    Acts x s (detachServer ((s.setRq []).setSu (mapTable (fun r => { r with outstanding := 0 }) s.su))) := by
  unfold detachServer
  split
  · rename_i r hr
    have hr' : s.server = some r := hr
    let r1 : InService := { r with disposition := .discard, held := [], detached := true }
    let s1 : State := (s.setRq []).setSu (mapTable (fun r => { r with outstanding := 0 }) s.su)
    have goes {g : Stage} (hg : g.uncommitted = false) : Acts x s (toStage g (s1.setServer (some r1))) :=
      .single (.unlink (some { r1 with stage := g }) (.inr ⟨r, _, hr', rfl, rfl, rfl, rfl, rfl, rfl, hg⟩) rfl)
    show Acts x s (cutService (s1.setServer (some r1)))
    unfold cutService
    rw [State.setServer_server]
    dsimp only
    split
    · rw [← endService_toStage .ok [] (.ending .ok [])]
      exact (goes rfl).trans (endService_acts _ _ _)
    · rw [← endService_toStage .ok [] (.ending .ok [])]
      exact (goes rfl).trans (endService_acts _ _ _)
    · rw [← endService_toStage .ok [] (.ending .ok [])]
      exact (goes rfl).trans (endService_acts _ _ _)
    · exact goes rfl
    all_goals
      rename_i hg
      have e : toStage r.stage (s1.setServer (some r1)) = s1.setServer (some r1) := rfl
      rw [← e]
      exact goes (by rw [show r.stage = _ from hg]; rfl)
  · rename_i hr
    exact .single (.unlink none (.inl ⟨hr, rfl⟩) (by
      show State.inside { s with rq := [], su := _ } = _
      simp only [State.inside, show s.server = none from hr]))

/-- A link reset is a chain of acts (R167). -/
theorem linkReset_acts (s : State) : Acts x s (linkReset s) := by
  have h1 : Acts x s (engineLinkBegin s) := .still (engineLinkBegin_inside s)
  unfold linkReset; dsimp only
  generalize engineLinkBegin s = s1 at h1 ⊢
  let s2 : State := s1.setWt (mapTable Descriptor.clearOpeners s1.wt)
  have h2 : Acts x s1 s2 := .single (.table (mapTable Descriptor.clearOpeners s1.wt)
    (fun i => .inr (by simp only [Fin.getElem_fin, mapTable_get]; exact .clear)) rfl)
  have h3 := (h1.trans h2).trans (unlink_acts s2)
  refine Relation.ReflTransGen.trans (h3.trans (linkResetChannels_acts [0, 1, 2, 3] _)) ?_
  generalize List.foldl _ _ _ = s4
  exact Acts.still (engineLinkCheck_inside s4)

/-- A device reset is one act (R183). -/
theorem deviceReset_acts (s : State) : Acts x s (deviceReset s) := .single (.reset s.lines.present rfl)

/-! ### Every command -/

/-- What a command comes to, after the taking of a request: a chain of claims, or, while RESET is asserted, the fall of a
present mark (R183). -/
inductive Comes (s t : State) : Prop
  | claims (u : State) (hu : u = s ∨ Takes s u) (h : Claims u t)
  | held (hr : s.lines.reset = true) (slot : Slot) (h : Acts (some slot) s t)
      (hs : t.wt = s.wt ∧ t.chans = s.chans ∧ t.rq = s.rq ∧ t.server = s.server)

theorem Claims.comes (h : Claims s t) : Comes s t := .claims s (.inl rfl) h

theorem Acts.comes (h : Acts none s t) : Comes s t := Claims.comes (Acts.claims h)

theorem takeCommand_comes {code : Byte} {body : Vector Word 4 → State → State} (h : ∀ p s, Claims s (body p s)) (s : State) :
    Comes s (takeCommand code body s) := by
  refine Claims.comes ?_
  unfold takeCommand; split
  · exact .refl
  · split
    · exact Acts.claims (.still (setEngine_inside s _))
    · exact ((Acts.claims (.still (setEngine_inside s _))).trans (h _ _)).trans (settle_claims _)

theorem confirm_acts (slot : Slot) (message : List Byte) (s : State) : Acts x s (confirm slot message s) := by
  unfold confirm; split
  · exact .still rfl
  · rename_i tag body _
    split
    · rename_i h
      have hc : ¬ s.su[slot].Shut ∧ s.rq.length < 32 ∧ s.su[slot].outstanding < 4 := by
        unfold confirmationOf at h; dsimp only at h
        split at h
        · cases h
        · rename_i h1
          split at h
          · cases h
          · rename_i h2
            simp only [Bool.or_eq_true, Bool.not_eq_true', beq_iff_eq, not_or, Bool.not_eq_false] at h1
            obtain ⟨⟨a, b⟩, c⟩ := h1
            simp only [ge_iff_le, Bool.or_eq_true, decide_eq_true_eq, not_or, not_le] at h2
            refine ⟨?_, h2⟩
            rintro (e | e | e)
            · rw [a] at e; cases e
            · rw [b] at e; cases e
            · exact c e
      exact .single (.accept ⟨slot, tag, body⟩ hc.1 hc.2.1 hc.2.2 rfl)
    · exact .still rfl

theorem depart_claims (slot : Slot) (s : State) : Claims s (depart slot s) := by
  have gone {x : Option Slot} (h : s.su[slot].Shut ∨ x = some slot) :
      Acts x s (raiseRequesterGone slot (s.updSlot slot fun r => { r with present := false })) :=
    (updSlot_acts slot (f := fun r => { r with present := false }) rfl id fun _ => h).congr (raiseRequesterGone_inside _ slot)
  unfold depart; dsimp only
  split
  · exact (teardown_claim (gone (.inr rfl)) _ _).claims
  · rename_i h
    refine Acts.claims ((gone (.inl ?_)).trans (teardownServer_acts _ _ _ _ _))
    simp only [Bool.and_eq_true, bne_iff_ne, ne_eq, not_and, not_not] at h
    by_cases he : s.su[slot].enabled = true
    · exact .inr (.inr (h he))
    · exact .inl (by simpa using he)

theorem presentFall_comes (slot : Slot) {t : State} (h : execPresentFall slot s = .next t) : Comes s t := by
  unfold execPresentFall at h
  cases h
  split
  · exact Acts.comes .refl
  · dsimp only
    have hl : Acts none s (setPresentLine slot false s) := .still rfl
    split
    · rename_i hr
      exact .held hr slot (hl.weaken.trans (updSlot_acts slot (f := fun r => { r with present := false }) rfl id
        fun _ => .inr rfl)) ⟨rfl, rfl, rfl, rfl⟩
    · exact Claims.comes (((Acts.claims hl).trans (depart_claims slot _)).trans (settle_claims _))

theorem serverBurstDone_acts (st : BurstStatus) (data : List Byte) (s : State) : Acts x s (serverBurstDone st data s) := by
  unfold serverBurstDone; split
  · exact .refl
  · rename_i r hr
    split
    · exact endService_acts _ _ s
    · dsimp only; split
      · exact endService_acts _ _ s
      · refine Relation.ReflTransGen.trans (Acts.goesOn hr (r' := { r with data := r.data ++ data })
          ⟨rfl, rfl, fun _ => ⟨rfl, rfl⟩, id, id⟩ rfl rfl) (serverBursts_acts _ _)

theorem burstComplete_claims (upsets : List Upset) (s : State) : Claims s (burstComplete upsets s) := by
  unfold burstComplete
  split
  · exact .refl
  · rename_i cl b _
    dsimp only
    refine Relation.ReflTransGen.trans ?_ (settle_claims _)
    have h : Claims s ((performBurst b (upsets.foldl applyUpset s)).2.2.setPort
        { (performBurst b (upsets.foldl applyUpset s)).2.2.port with granted := none }) :=
      Acts.claims (.still (by rw [setPort_inside, performBurst_inside, applyUpsets_inside]))
    refine h.trans ?_
    split
    · exact Acts.claims (serverBurstDone_acts _ _ _)
    · exact channelBurstDone_claims _ _ _ _

theorem forceAbortClaim_claims (c : Chan) (s : State) : Claims s (forceAbortClaim c s) := by
  unfold forceAbortClaim; split
  · split
    · refine Relation.ReflTransGen.trans (Acts.claims (Relation.ReflTransGen.trans
        (updPrimary_acts (f := fun q => { q with noted := false }) (fun _ => .inl rfl) (fun _ => id) (fun _ => rfl)
          (fun _ => rfl) (fun _ => id) s) (abortPrimary_acts c .aborted _))) (settle_claims _)
    · exact .refl
  · exact .refl

theorem expireLock_claims {i : DIdx} {holder : Slot} (hh : s.wt[i].holder = some holder) :
    Claims s (expireLock i holder s) := by
  unfold expireLock; dsimp only
  refine Relation.ReflTransGen.trans (Acts.claims ?_) (violation_claim _ _ _ _ _ _).claims
  exact .desc (i := i) (.expire holder hh) rfl

end Sys2Proof.Machine

/-! Every step as a chain of claims, and the laws that follow (R1 to R183). -/

namespace Sys2Proof.Machine

variable {x : Option Slot} {s t u : State}

/-- A row that serves requests. -/
theorem request_comes {i : Instr} {claims : Option Nat} (hi : i ∈ requestRows claims) (h : exec i s = .next t) :
    Comes s t := by
  obtain ⟨u, hu, hc⟩ := exec_request_claims hi h
  exact .claims u hu hc

/-- A change that the tables, requests and lists do not see. -/
theorem Comes.still (h : t.inside = s.inside) : Comes s t := Acts.comes (Acts.still h)

section Plain

variable (p : Vector Word 4) (s : State)

theorem readDescriptorClaim_claims : Claims s (readDescriptorClaim p s) := by
  unfold readDescriptorClaim; split <;> exact complete_claims .refl _ _

theorem readOpenerClaim_claims : Claims s (readOpenerClaim p s) := by
  unfold readOpenerClaim; split <;> exact complete_claims .refl _ _

theorem probeClaim_claims : Claims s (probeClaim p s) := by
  unfold probeClaim; split <;> exact complete_claims .refl _ _

theorem mapWriteClaim_claims : Claims s (mapWriteClaim p s) := by
  unfold mapWriteClaim; split
  · exact completeWith_claims _ s
  · split
    · split
      · exact complete_claims (Acts.claims (.still (setPm_inside s _))) _ _
      · exact completeWith_claims _ s
    · exact completeWith_claims _ s

theorem mapFillClaim_claims : Claims s (mapFillClaim p s) := by
  unfold mapFillClaim; dsimp only; split
  · exact complete_claims (Acts.claims (.still (setPm_inside s _))) _ _
  · exact completeWith_claims _ s

theorem mapClearClaim_claims : Claims s (mapClearClaim p s) := by
  unfold mapClearClaim; dsimp only; split
  · exact complete_claims (Acts.claims (.still (setPm_inside s _))) _ _
  · exact completeWith_claims _ s

theorem mapReadClaim_claims : Claims s (mapReadClaim p s) := by
  unfold mapReadClaim; split <;> exact complete_claims .refl _ _

theorem requesterReadClaim_claims : Claims s (requesterReadClaim p s) := by
  unfold requesterReadClaim; split
  · split <;> exact complete_claims .refl _ _
  · exact completeWith_claims _ s

theorem channelReadClaim_claims : Claims s (channelReadClaim p s) := by
  unfold channelReadClaim; split
  · split <;> exact complete_claims .refl _ _
  · exact completeWith_claims _ s

theorem setLockTimeoutClaim_claims : Claims s (setLockTimeoutClaim p s) := by
  unfold setLockTimeoutClaim; split
  · exact complete_claims (Acts.claims (.still (setEngine_inside s _))) _ _
  · exact completeWith_claims _ s

theorem linkResetClaim_claims : Claims s (linkResetClaim p s) :=
  Acts.claims ((Acts.still (setEngine_inside s _)).trans (linkReset_acts _))

end Plain

theorem claimOf_claims (code : Byte) (p : Vector Word 4) (s : State) : Claims s (claimOf code p s) := by
  obtain ⟨f, hf⟩ : ∃ f, claimOf code = f := ⟨_, rfl⟩
  rw [hf]
  unfold claimOf at hf
  split at hf <;> subst hf
  · exact createClaim_claims p s
  · exact modifyClaim_claims p s
  · exact markClaim_claims (.inl ⟨rfl, rfl⟩) p s
  · exact markClaim_claims (.inr ⟨rfl, rfl⟩) p s
  · exact retireClaim_claims p s
  · exact readDescriptorClaim_claims p s
  · exact readOpenerClaim_claims p s
  · exact probeClaim_claims p s
  · exact mapWriteClaim_claims p s
  · exact mapFillClaim_claims p s
  · exact mapClearClaim_claims p s
  · exact mapReadClaim_claims p s
  · exact requesterSetClaim_claims p s
  · exact filterSetClaim_claims p s
  · exact requesterReadClaim_claims p s
  · exact readmitClaim_claims p s
  · exact channelReadClaim_claims p s
  · exact channelAbortClaim_claims p s
  · exact channelResumeClaim_claims p s
  · exact Acts.claims (.still rfl)
  · exact setLockTimeoutClaim_claims p s
  · exact linkResetClaim_claims p s
  · exact Acts.claims (deviceReset_acts s)
  · exact completeWith_claims _ s

/-- Every command. -/
theorem exec_comes {i : Instr} (h : exec i s = .next t) : Comes s t := by
  have takes {code : Byte} {body : Vector Word 4 → State → State} (hb : ∀ p s, Claims s (body p s))
      (h : (.next (takeCommand code body s) : Answer) = .next t) : Comes s t := by
    cases h; exact takeCommand_comes hb s
  cases i with
  | openWindow n | closeWindow n | read n | write n | readLock n | writeUnlock n | query n | start n | cancel n
  | channelStatus n | unknownKind n => exact request_comes (claims := n) (by simp [requestRows]) h
  | confirmation slot message =>
    change Host.Outcome.next _ = Host.Outcome.next _ at h
    cases h
    split
    · exact Acts.comes .refl
    · exact Acts.comes (confirm_acts slot message s)
  | burstComplete upsets => cases h; exact (burstComplete_claims upsets s).comes
  | forceAbortClaim c => cases h; exact (forceAbortClaim_claims c s).comes
  | interlockExpiry i =>
    change Host.Outcome.next _ = Host.Outcome.next _ at h
    cases h
    split
    · rename_i hh
      exact Claims.comes ((expireLock_claims hh).trans (settle_claims _))
    · exact Acts.comes .refl
  | presentRise slot =>
    cases h
    refine Acts.comes (Relation.ReflTransGen.trans (Acts.still (t := setPresentLine slot true s) rfl)
      (updSlot_acts slot (f := fun r => { r with present := true }) rfl id fun hq => .inl ?_))
    rcases hq with e | e | e
    · exact .inl e
    · cases e
    · exact .inr (.inr e)
  | presentFall slot => exact presentFall_comes slot h
  | init =>
    change Host.Outcome.next _ = Host.Outcome.next _ at h
    cases h
    split
    · exact Acts.comes .refl
    · dsimp only
      split
      · exact .still rfl
      · exact Claims.comes (((Acts.claims (.still (setLines_inside s { s.lines with init := true }))).trans
        (Acts.claims (linkReset_acts _))).trans (settle_claims _))
  | reset =>
    change Host.Outcome.next _ = Host.Outcome.next _ at h
    cases h
    split
    · exact Acts.comes .refl
    · exact Acts.comes ((Acts.still (setLines_inside s { s.lines with reset := true })).trans (deviceReset_acts _))
  | initRelease | resetRelease => cases h; exact .still rfl
  | create => exact takes createClaim_claims h
  | modify => exact takes modifyClaim_claims h
  | setAbsent => exact takes (markClaim_claims (.inl ⟨rfl, rfl⟩)) h
  | setValid => exact takes (markClaim_claims (.inr ⟨rfl, rfl⟩)) h
  | retire => exact takes retireClaim_claims h
  | readDescriptor => exact takes readDescriptorClaim_claims h
  | readOpener => exact takes readOpenerClaim_claims h
  | probe => exact takes probeClaim_claims h
  | mapWrite => exact takes mapWriteClaim_claims h
  | mapFill => exact takes mapFillClaim_claims h
  | mapClear => exact takes mapClearClaim_claims h
  | mapRead => exact takes mapReadClaim_claims h
  | requesterSet => exact takes requesterSetClaim_claims h
  | filterSet => exact takes filterSetClaim_claims h
  | requesterRead => exact takes requesterReadClaim_claims h
  | readmit => exact takes readmitClaim_claims h
  | channelRead => exact takes channelReadClaim_claims h
  | channelAbort => exact takes channelAbortClaim_claims h
  | channelResume => exact takes channelResumeClaim_claims h
  | faultAck => exact takes (body := faultAckClaim) (fun _ s => Acts.claims (.still rfl)) h
  | setLockTimeout => exact takes setLockTimeoutClaim_claims h
  | linkReset => exact takes linkResetClaim_claims h
  | deviceReset => exact takes (body := deviceResetClaim) (fun _ s => Acts.claims (deviceReset_acts s)) h
  | unknownCommand code => exact takes (claimOf_claims code) h
  | engineStatus => cases h; exact .still rfl
  | attnPending v =>
    cases h
    unfold writeAttnPending
    split <;> exact .still rfl
  | attnEnable v =>
    cases h
    unfold writeAttnEnable
    split <;> exact .still rfl
  | registerWrite offset v =>
    change Host.Outcome.next _ = Host.Outcome.next _ at h
    cases h
    have param (k : Fin 4) : Comes s (writeParam k v s) := by
      unfold writeParam; split <;> exact .still rfl
    unfold writeRegister
    split
    · exact takeCommand_comes (claimOf_claims _) s
    · exact param 0
    · exact param 1
    · exact param 2
    · exact param 3
    · unfold writeAttnPending; split <;> exact .still rfl
    · unfold writeAttnEnable; split <;> exact .still rfl
    · exact .still rfl

/-- Every step. -/
theorem step_comes (h : step s = .next t) : Comes s t ∨ ∃ c rest, s.pending = c :: rest ∧ Comes (s.setPending rest) t := by
  unfold step at h
  split at h
  · cases h
    exact .inl (Claims.comes ((Acts.claims (.still (setNow_inside s _))).trans (settle_claims _)))
  · rename_i c rest hp
    exact .inr ⟨c, rest, hp, exec_comes h⟩

/-- A property that every act and the taking of a request keep is kept by every command. -/
theorem Comes.keep {P : State → Prop} (hP : ∀ x s t, Act x s t → P s → P t) (hT : ∀ s u, Takes s u → P s → P u)
    (h : Comes s t) (hs : P s) : P t := by
  cases h with
  | claims u hu h =>
    refine h.keep hP ?_
    rcases hu with rfl | hu
    · exact hs
    · exact hT s u hu hs
  | held _ _ h _ => exact h.keep (hP _) hs

/-- A property that every act and the taking of a request keep is kept by every step. -/
theorem step_keeps {P : State → Prop} (hP : ∀ x s t, Act x s t → P s → P t) (hT : ∀ s u, Takes s u → P s → P u)
    (s t : State) (hs : P s) (h : step s = .next t) : P t := by
  rcases step_comes h with h | ⟨c, rest, -, h⟩
  · exact h.keep hP hT hs
  · exact h.keep hP hT (hP none s _ (.still rfl) hs)

end Sys2Proof.Machine

/-! What commands do to the Page Map, shared DRAM, the interlock timeout and the RESET line. -/

namespace Sys2Proof.Machine

variable {s t u : State}

/-- The Page Map, shared DRAM, the interlock timeout and the level of the RESET line are alike. -/
structure SameCore (s t : State) : Prop where
  pm      : t.pm = s.pm
  mem     : t.mem = s.mem
  ecc     : t.ecc = s.ecc
  timeout : t.engine.timeout = s.engine.timeout
  reset   : t.lines.reset = s.lines.reset

theorem SameCore.of_outside (h : SameOutside s t) : SameCore s t :=
  ⟨congrArg Outside.pm h, congrArg Outside.mem h, congrArg Outside.ecc h, congrArg Outside.timeout h,
    congrArg (fun o => o.lines.reset) h⟩

theorem SameCore.of_eq (h : t.outside = s.outside) : SameCore s t := .of_outside (.of_eq h)

section Claims

variable (p : Vector Word 4) (s : State)

theorem createClaim_outside : (createClaim p s).outside = s.outside := by
  unfold createClaim; split <;> simp

theorem modifyClaim_outside : (modifyClaim p s).outside = s.outside := by
  unfold modifyClaim; split <;> simp

theorem markClaim_outside (was becomes : DState) : (markClaim was becomes p s).outside = s.outside := by
  unfold markClaim; split
  · simp
  · split <;> simp

theorem retireDescriptor_outside (i : DIdx) (s : State) : (retireDescriptor i s).outside = s.outside := by
  unfold retireDescriptor; dsimp only; split <;> simp

theorem noteChannels_outside (i : DIdx) (s : State) : (noteChannels i s).outside = s.outside := rfl

theorem retireClaim_outside : (retireClaim p s).outside = s.outside := by
  unfold retireClaim; split
  · simp
  · dsimp only
    split
    · simp
    · split
      · simp
      · split
        · simp
        · split
          · rw [completeOk_outside, retireDescriptor_outside]
          · rw [retireDescriptor_outside, noteChannels_outside]; rfl

theorem requesterSetClaim_outside : (requesterSetClaim p s).outside = s.outside := by
  unfold requesterSetClaim; split
  · dsimp only; rw [completeOk_outside]; split <;> simp
  · simp

theorem filterSetClaim_outside : (filterSetClaim p s).outside = s.outside := by
  unfold filterSetClaim; split <;> simp

theorem readmitClaim_outside : (readmitClaim p s).outside = s.outside := by
  unfold readmitClaim; split <;> simp

theorem abortAndWait_outside (c : Chan) (s : State) : (abortAndWait c s).outside = s.outside := by
  unfold abortAndWait; split
  · rw [abortPrimary_outside]; rfl
  · simp

theorem channelAbortClaim_outside : (channelAbortClaim p s).outside = s.outside := by
  unfold channelAbortClaim; split
  · exact abortAndWait_outside _ s
  · simp
  · rw [abortAndWait_outside, emptyBackup_outside]
  · simp

theorem channelResumeClaim_outside : (channelResumeClaim p s).outside = s.outside := by
  unfold channelResumeClaim; split
  · split <;> simp
  · simp

theorem linkResetClaim_outside : (linkResetClaim p s).outside = s.outside := by
  unfold linkResetClaim; rw [linkReset_outside]; rfl

theorem readDescriptorClaim_outside : (readDescriptorClaim p s).outside = s.outside := by
  unfold readDescriptorClaim; split <;> rfl

theorem readOpenerClaim_outside : (readOpenerClaim p s).outside = s.outside := by
  unfold readOpenerClaim; split <;> rfl

theorem probeClaim_outside : (probeClaim p s).outside = s.outside := by
  unfold probeClaim; split <;> rfl

theorem mapReadClaim_outside : (mapReadClaim p s).outside = s.outside := by
  unfold mapReadClaim; split <;> rfl

theorem requesterReadClaim_outside : (requesterReadClaim p s).outside = s.outside := by
  unfold requesterReadClaim; split
  · split <;> rfl
  · rfl

theorem channelReadClaim_outside : (channelReadClaim p s).outside = s.outside := by
  unfold channelReadClaim; split
  · split <;> rfl
  · rfl

end Claims

theorem depart_outside (slot : Slot) (s : State) : (depart slot s).outside = s.outside := by
  unfold depart; dsimp only; split
  · rw [teardown_outside]; rfl
  · unfold departAgain; rw [teardownServer_outside]; rfl

theorem confirm_outside (slot : Slot) (message : List Byte) (s : State) : (confirm slot message s).outside = s.outside := by
  unfold confirm; split
  · rfl
  · split <;> rfl

theorem serverBurstDone_outside (st : BurstStatus) (data : List Byte) (s : State) :
    (serverBurstDone st data s).outside = s.outside := by
  unfold serverBurstDone; split
  · rfl
  · split
    · simp
    · dsimp only; split
      · simp
      · rw [serverBursts_outside]; rfl

theorem stepRead_outside (c : Chan) (p : Primary) (owner : Slot) (bytes : List Byte) (s : State) :
    (stepRead c p owner bytes s).outside = s.outside := by
  unfold stepRead; split
  · simp
  · split <;> simp
  · simp
  · simp

theorem stepComplete_outside (c : Chan) (p : Primary) (last : Bool) (s : State) :
    (stepComplete c p last s).outside = s.outside := by
  unfold stepComplete; dsimp only; split <;> simp

theorem unitWritten_outside (c : Chan) (p : Primary) (n : Nat) (s : State) :
    (unitWritten c p n s).outside = s.outside := by
  unfold unitWritten; dsimp only; split
  · simp
  · split
    · split
      · rw [stepComplete_outside]; rfl
      · rfl
    · rfl

theorem channelBurstDone_outside (c : Chan) (st : BurstStatus) (data : List Byte) (s : State) :
    (channelBurstDone c st data s).outside = s.outside := by
  unfold channelBurstDone; split
  · rfl
  · split
    · split
      · split <;> simp
      · exact unitWritten_outside _ _ _ s
    · split
      · simp
      · split
        · simp
        · split
          · exact stepRead_outside _ _ _ _ s
          all_goals simp

theorem forceAbortClaim_outside (c : Chan) (s : State) : SameOutside s (forceAbortClaim c s) := by
  unfold forceAbortClaim; split
  · split
    · exact (SameOutside.of_eq (by simp)).trans (settle_outside _)
    · rfl
  · rfl

end Sys2Proof.Machine

/-! Properties of the Page Map, shared DRAM, the interlock timeout and the RESET line through every step. -/

namespace Sys2Proof.Machine

variable {s t u : State}

/-- What a property must be kept by, besides what leaves the Page Map, shared DRAM, the timeout and the RESET line alone, to be
kept by every command. -/
structure CoreKept (P : State → Prop) : Prop where
  same    : ∀ s t, SameCore s t → P s → P t
  write   : ∀ p s, P s → P (mapWriteClaim p s)
  fill    : ∀ p s, P s → P (mapFillClaim p s)
  clear   : ∀ p s, P s → P (mapClearClaim p s)
  timeout : ∀ p s, P s → P (setLockTimeoutClaim p s)
  device  : ∀ s, P s → P (deviceReset s)
  perform : ∀ b s, P s → P (performBurst b s).2.2
  upset   : ∀ v s, P s → P (applyUpset s v)

section Kept

variable {P : State → Prop} (k : CoreKept P)
include k

theorem CoreKept.of_eq (h : t.outside = s.outside) (hs : P s) : P t := k.same s t (.of_eq h) hs

theorem CoreKept.settle (hs : P s) : P (settle s) := k.same _ _ (.of_outside (settle_outside s)) hs

theorem CoreKept.takeCommand {code : Byte} {body : Vector Word 4 → State → State} (h : ∀ p s, P s → P (body p s))
    (hs : P s) : P (takeCommand code body s) := by
  unfold Machine.takeCommand; split
  · exact hs
  · split
    · exact k.same s _ ⟨rfl, rfl, rfl, rfl, rfl⟩ hs
    · exact k.settle (h _ _ (k.same s _ ⟨rfl, rfl, rfl, rfl, rfl⟩ hs))

theorem CoreKept.body {f : Vector Word 4 → State → State} (h : ∀ p s, (f p s).outside = s.outside) (p : Vector Word 4)
    (s : State) (hs : P s) : P (f p s) := k.of_eq (h p s) hs

theorem CoreKept.claimOf (code : Byte) (p : Vector Word 4) (s : State) (hs : P s) : P (claimOf code p s) := by
  obtain ⟨f, hf⟩ : ∃ f, Machine.claimOf code = f := ⟨_, rfl⟩
  rw [hf]
  unfold Machine.claimOf at hf
  split at hf <;> subst hf
  · exact k.body createClaim_outside p s hs
  · exact k.body modifyClaim_outside p s hs
  · exact k.body (fun p s => markClaim_outside p s _ _) p s hs
  · exact k.body (fun p s => markClaim_outside p s _ _) p s hs
  · exact k.body retireClaim_outside p s hs
  · exact k.body readDescriptorClaim_outside p s hs
  · exact k.body readOpenerClaim_outside p s hs
  · exact k.body probeClaim_outside p s hs
  · exact k.write p s hs
  · exact k.fill p s hs
  · exact k.clear p s hs
  · exact k.body mapReadClaim_outside p s hs
  · exact k.body requesterSetClaim_outside p s hs
  · exact k.body filterSetClaim_outside p s hs
  · exact k.body requesterReadClaim_outside p s hs
  · exact k.body readmitClaim_outside p s hs
  · exact k.body channelReadClaim_outside p s hs
  · exact k.body channelAbortClaim_outside p s hs
  · exact k.body channelResumeClaim_outside p s hs
  · exact k.body (f := faultAckClaim) (fun _ _ => rfl) p s hs
  · exact k.timeout p s hs
  · exact k.body linkResetClaim_outside p s hs
  · exact k.device s hs
  · exact k.body (f := unknownClaim) (fun _ _ => rfl) p s hs

theorem CoreKept.burstComplete (upsets : List Upset) (hs : P s) : P (burstComplete upsets s) := by
  have ups (l : List Upset) (s : State) (hs : P s) : P (l.foldl applyUpset s) := by
    induction l generalizing s with
    | nil => exact hs
    | cons v l ih => exact ih _ (k.upset v s hs)
  unfold Machine.burstComplete; split
  · exact hs
  · rename_i cl b _
    have h1 := k.perform b _ (ups upsets s hs)
    dsimp only
    refine k.settle ?_
    have h2 : P ((performBurst b (upsets.foldl applyUpset s)).2.2.setPort
        { (performBurst b (upsets.foldl applyUpset s)).2.2.port with granted := none }) :=
      k.same (performBurst b (upsets.foldl applyUpset s)).2.2 _ ⟨rfl, rfl, rfl, rfl, rfl⟩ h1
    split
    · exact k.of_eq (serverBurstDone_outside _ _ _) h2
    · exact k.of_eq (channelBurstDone_outside _ _ _ _) h2

/-- The property is kept by every command but for what RESET and RESET_RELEASE do to their line. -/
theorem CoreKept.exec {i : Instr} (hset : i = .reset → P s → P (s.setLines { s.lines with reset := true }))
    (hrel : i = .resetRelease → P s → P (s.setLines { s.lines with reset := false })) (h : exec i s = .next t) (hs : P s) :
    P t := by
  have takes {code : Byte} {body : Vector Word 4 → State → State} (hb : ∀ p s, P s → P (body p s))
      (h : (.next (Machine.takeCommand code body s) : Answer) = .next t) : P t := by
    cases h; exact k.takeCommand hb hs
  have request {n : Option Nat} (hi : i ∈ requestRows n) : P t := k.same _ _ (.of_outside (exec_request_outside hi h)) hs
  have attnPending {v : Word} : P (writeAttnPending v s) := by
    unfold writeAttnPending
    split
    · exact hs
    · exact k.same s _ ⟨rfl, rfl, rfl, rfl, rfl⟩ hs
  have attnEnable {v : Word} : P (writeAttnEnable v s) := by
    unfold writeAttnEnable
    split
    · exact hs
    · exact k.same s _ ⟨rfl, rfl, rfl, rfl, rfl⟩ hs
  have still (h : SameCore s t) : P t := k.same _ _ h hs
  cases i with
  | openWindow n | closeWindow n | read n | write n | readLock n | writeUnlock n | query n | start n | cancel n
  | channelStatus n | unknownKind n => exact request (n := n) (by simp [requestRows])
  | confirmation slot message =>
    change Host.Outcome.next _ = Host.Outcome.next _ at h
    cases h
    split
    · exact hs
    · exact k.of_eq (confirm_outside slot message s) hs
  | burstComplete upsets => cases h; exact k.burstComplete upsets hs
  | forceAbortClaim c => cases h; exact still (.of_outside (forceAbortClaim_outside c s))
  | interlockExpiry i =>
    change Host.Outcome.next _ = Host.Outcome.next _ at h
    cases h
    split
    · refine k.settle ?_
      unfold expireLock; dsimp only
      exact k.of_eq (violation_outside _ _ _ _ _ _ _) (k.same s _ ⟨rfl, rfl, rfl, rfl, rfl⟩ hs)
    · exact hs
  | presentRise slot => cases h; exact still ⟨rfl, rfl, rfl, rfl, rfl⟩
  | presentFall slot =>
    change Host.Outcome.next _ = Host.Outcome.next _ at h
    cases h
    split
    · exact hs
    · dsimp only
      have h1 : P (setPresentLine slot false s) := k.same s _ ⟨rfl, rfl, rfl, rfl, rfl⟩ hs
      split
      · exact k.of_eq (s := setPresentLine slot false s) rfl h1
      · exact k.settle (k.of_eq (depart_outside slot _) h1)
  | init =>
    change Host.Outcome.next _ = Host.Outcome.next _ at h
    cases h
    split
    · exact hs
    · dsimp only
      have h1 : P (s.setLines { s.lines with init := true }) := k.same s _ ⟨rfl, rfl, rfl, rfl, rfl⟩ hs
      split
      · exact h1
      · exact k.settle (k.of_eq (linkReset_outside _) h1)
  | initRelease => cases h; exact still ⟨rfl, rfl, rfl, rfl, rfl⟩
  | reset =>
    change Host.Outcome.next _ = Host.Outcome.next _ at h
    cases h
    split
    · exact hs
    · exact k.device _ (hset rfl hs)
  | resetRelease => cases h; exact hrel rfl hs
  | create => exact takes (k.body createClaim_outside) h
  | modify => exact takes (k.body modifyClaim_outside) h
  | setAbsent => exact takes (k.body fun p s => markClaim_outside p s _ _) h
  | setValid => exact takes (k.body fun p s => markClaim_outside p s _ _) h
  | retire => exact takes (k.body retireClaim_outside) h
  | readDescriptor => exact takes (k.body readDescriptorClaim_outside) h
  | readOpener => exact takes (k.body readOpenerClaim_outside) h
  | probe => exact takes (k.body probeClaim_outside) h
  | mapWrite => exact takes k.write h
  | mapFill => exact takes k.fill h
  | mapClear => exact takes k.clear h
  | mapRead => exact takes (k.body mapReadClaim_outside) h
  | requesterSet => exact takes (k.body requesterSetClaim_outside) h
  | filterSet => exact takes (k.body filterSetClaim_outside) h
  | requesterRead => exact takes (k.body requesterReadClaim_outside) h
  | readmit => exact takes (k.body readmitClaim_outside) h
  | channelRead => exact takes (k.body channelReadClaim_outside) h
  | channelAbort => exact takes (k.body channelAbortClaim_outside) h
  | channelResume => exact takes (k.body channelResumeClaim_outside) h
  | faultAck => exact takes (k.body (f := faultAckClaim) fun _ _ => rfl) h
  | setLockTimeout => exact takes k.timeout h
  | linkReset => exact takes (k.body linkResetClaim_outside) h
  | deviceReset => exact takes (body := deviceResetClaim) (fun _ => k.device) h
  | unknownCommand code => exact takes (k.claimOf code) h
  | engineStatus => cases h; exact still ⟨rfl, rfl, rfl, rfl, rfl⟩
  | attnPending v =>
    cases h
    exact attnPending
  | attnEnable v =>
    cases h
    exact attnEnable
  | registerWrite offset v =>
    change Host.Outcome.next _ = Host.Outcome.next _ at h
    cases h
    have param (j : Fin 4) : P (writeParam j v s) := by
      unfold writeParam; split
      · exact hs
      · exact k.same s _ ⟨rfl, rfl, rfl, rfl, rfl⟩ hs
    unfold writeRegister
    split
    · exact k.takeCommand (k.claimOf _) hs
    · exact param 0
    · exact param 1
    · exact param 2
    · exact param 3
    · exact attnPending
    · exact attnEnable
    · exact hs

/-- A property that does not look at the RESET line is kept by every step. -/
theorem CoreKept.step (hl : ∀ s b, P s → P (s.setLines { s.lines with reset := b })) (s t : State) (hs : P s)
    (h : step s = .next t) : P t := by
  unfold Machine.step at h
  split at h
  · cases h
    exact k.settle (k.same s (s.setNow (s.now + 1)) ⟨rfl, rfl, rfl, rfl, rfl⟩ hs)
  · exact k.exec (fun _ => hl _ _) (fun _ => hl _ _) h (k.same s _ ⟨rfl, rfl, rfl, rfl, rfl⟩ hs)

end Kept

end Sys2Proof.Machine

/-! Every step keeps the ranges and forms, the interlocks and lifecycles (R1 to R15, R57, R98, R144). -/

namespace Sys2Proof.Machine

variable {s t u : State}

/-! ### What a burst leaves -/

theorem noteCorrected_kept (ws : List Nat) (s : State) : ∃ (attn : Attention) (latch : Nat),
    noteCorrected s ws = { s with attn := attn, port := { s.port with correctedLatch := latch } } := by
  unfold noteCorrected
  induction ws generalizing s with
  | nil => exact ⟨s.attn, s.port.correctedLatch, rfl⟩
  | cons w ws ih =>
    rw [List.foldl_cons]
    split
    · obtain ⟨a, l, e⟩ := ih (raiseMemCorrected (w / 512) s)
      exact ⟨a, l, e⟩
    · obtain ⟨a, l, e⟩ := ih (raiseMemCorrected (w / 512) s)
      exact ⟨a, l, e⟩
    · exact ih s
    · exact ih s

theorem healWords_kept (ws : List Nat) (s : State) : ∃ (mem : List Host.Cell) (ecc : List (Nat × WordErr)),
    ws.foldl healWord s = { s with mem := mem, ecc := ecc } := by
  induction ws generalizing s with
  | nil => exact ⟨s.mem, s.ecc, rfl⟩
  | cons w ws ih =>
    rw [List.foldl_cons]
    obtain ⟨m, e, h⟩ := ih (healWord s w)
    rw [h]
    unfold healWord; dsimp only
    split <;> exact ⟨m, e, rfl⟩

/-- A burst that is carried out touches shared DRAM, the attentions and the correctable-error latch, and no more. -/
theorem performBurst_kept (b : Burst) (s : State) :
    ∃ (mem : List Host.Cell) (ecc : List (Nat × WordErr)) (attn : Attention) (latch : Nat), (performBurst b s).2.2 =
      { s with mem := mem, ecc := ecc, attn := attn, port := { s.port with correctedLatch := latch } } := by
  have noted (ws : List Nat) : ∃ (mem : List Host.Cell) (ecc : List (Nat × WordErr)) (attn : Attention) (latch : Nat),
      noteCorrected s ws =
        { s with mem := mem, ecc := ecc, attn := attn, port := { s.port with correctedLatch := latch } } := by
    obtain ⟨a, l, h⟩ := noteCorrected_kept ws s
    exact ⟨s.mem, s.ecc, a, l, h⟩
  unfold performBurst
  cases b with
  | read a n =>
    dsimp only; split
    · split <;> exact noted _
    · exact ⟨s.mem, s.ecc, s.attn, s.port.correctedLatch, rfl⟩
  | write a bytes =>
    dsimp only; split
    · split
      · exact noted _
      · obtain ⟨_, _, _, _, h⟩ := noted (partialWords a bytes.length)
        obtain ⟨_, _, h'⟩ := healWords_kept (wordsOf a bytes.length) (noteCorrected s (partialWords a bytes.length))
        rw [h', h]
        exact ⟨_, _, _, _, rfl⟩
    · exact ⟨s.mem, s.ecc, s.attn, s.port.correctedLatch, rfl⟩

theorem applyUpset_kept (v : Upset) (s : State) : ∃ (mem : List Host.Cell) (ecc : List (Nat × WordErr)),
    applyUpset s v = { s with mem := mem, ecc := ecc } := by
  unfold applyUpset; split
  · dsimp only; split <;> exact ⟨_, _, rfl⟩
  · exact ⟨s.mem, s.ecc, rfl⟩

/-! ### The map, the timeout and shared DRAM -/

theorem frameLaw_kept : CoreKept FrameLaw where
  same s t h hs := by unfold FrameLaw; rw [h.pm]; exact hs
  write p s hs := by
    unfold mapWriteClaim; split
    · exact hs
    · split
      · split
        · rename_i hf
          intro e
          show ((s.pm.set _ _)[e]).frame ≤ _
          rw [Fin.getElem_fin, Vector.getElem_set]
          split
          · have : p[1].toNat < 131072 := hf
            show p[1].toNat ≤ _; omega
          · exact hs e
        · exact hs
      · exact hs
  fill p s hs := by
    unfold mapFillClaim; dsimp only; split
    · rename_i h
      intro e
      show ((updEntries _ _ _ s.pm)[e]).frame ≤ _
      rw [updEntries_eq_ofFn, Fin.getElem_fin, Vector.getElem_ofFn]
      split
      · rename_i he
        dsimp only at he ⊢
        omega
      · exact hs e
    · exact hs
  clear p s hs := by
    unfold mapClearClaim; dsimp only; split
    · intro e
      show ((updEntries _ _ _ s.pm)[e]).frame ≤ _
      rw [updEntries_eq_ofFn, Fin.getElem_fin, Vector.getElem_ofFn]
      split <;> exact hs e
    · exact hs
  timeout p s hs := by unfold setLockTimeoutClaim; split <;> exact hs
  device s _ := fun e => by
    show ((Vector.replicate 2048 (⟨false, 0⟩ : MapEntry))[e]).frame ≤ _
    simp
  perform b s hs := by
    obtain ⟨_, _, _, _, h⟩ := performBurst_kept b s
    rw [h]; exact hs
  upset v s hs := by
    obtain ⟨_, _, h⟩ := applyUpset_kept v s
    rw [h]; exact hs

theorem timeoutLaw_kept : CoreKept TimeoutLaw where
  same s t h hs := by unfold TimeoutLaw; rw [h.timeout]; exact hs
  write p s hs := by
    unfold mapWriteClaim; split
    · exact hs
    · split
      · split <;> exact hs
      · exact hs
  fill p s hs := by unfold mapFillClaim; dsimp only; split <;> exact hs
  clear p s hs := by unfold mapClearClaim; dsimp only; split <;> exact hs
  timeout p s hs := by
    unfold setLockTimeoutClaim; split
    · rename_i h; exact h
    · exact hs
  device s _ := show 16 ≤ Config.resetTimeout ∧ Config.resetTimeout ≤ 65535 by decide
  perform b s hs := by
    obtain ⟨_, _, _, _, h⟩ := performBurst_kept b s
    rw [h]; exact hs
  upset v s hs := by
    obtain ⟨_, _, h⟩ := applyUpset_kept v s
    rw [h]; exact hs

theorem canonicalMemory_kept : CoreKept CanonicalMemory where
  same s t h hs := hs.congr h.mem h.ecc
  write p s hs := by
    unfold mapWriteClaim; split
    · exact hs
    · split
      · split <;> exact hs
      · exact hs
  fill p s hs := by unfold mapFillClaim; dsimp only; split <;> exact hs
  clear p s hs := by unfold mapClearClaim; dsimp only; split <;> exact hs
  timeout p s hs := by unfold setLockTimeoutClaim; split <;> exact hs
  device s hs := by
    have h : CanonicalMemory (cutGranted s) := by
      unfold cutGranted; split
      · exact canonical_cutBurst hs _
      · exact hs
    exact h
  perform b s hs := canonical_performBurst hs b
  upset v s hs := canonical_applyUpset hs v

/-! ### A request taken into service -/

theorem Takes.scoreLaw (h : Takes s u) (hs : ScoreLaw s) : ScoreLaw u := by obtain ⟨_, _, _, _, rfl⟩ := h; exact hs
theorem Takes.placementLaw (h : Takes s u) (hs : PlacementLaw s) : PlacementLaw u := by
  obtain ⟨_, _, _, _, rfl⟩ := h; exact hs
theorem Takes.interlockLaw (h : Takes s u) (hs : InterlockLaw s) : InterlockLaw u := by
  obtain ⟨_, _, _, _, rfl⟩ := h; exact hs
theorem Takes.lifecycleLaw (h : Takes s u) (hs : LifecycleLaw s) : LifecycleLaw u := by
  obtain ⟨_, _, _, _, rfl⟩ := h; exact hs
theorem Takes.channelLaw (h : Takes s u) (hs : ChannelLaw s) : ChannelLaw u := by
  obtain ⟨_, _, _, _, rfl⟩ := h; exact hs

end Sys2Proof.Machine

namespace Sys2Proof.Machine

/-- Settles O56: scores and placements are kept act by act, the rest by what commands leave alone. -/
theorem everyStepKeepsRangesAndForms : Obligations.EveryStepKeepsRangesAndForms :=
  ⟨step_keeps (fun _ _ _ => Act.scoreLaw) fun _ _ => Takes.scoreLaw,
    step_keeps (fun _ _ _ => Act.placementLaw) fun _ _ => Takes.placementLaw,
    frameLaw_kept.step fun _ _ => id, timeoutLaw_kept.step fun _ _ => id, canonicalMemory_kept.step fun _ _ => id⟩

/-- Settles O57, act by act. -/
theorem everyStepKeepsInterlocksAndLifecycles : Obligations.EveryStepKeepsInterlocksAndLifecycles :=
  ⟨step_keeps (fun _ _ _ => Act.interlockLaw) fun _ _ => Takes.interlockLaw,
    step_keeps (fun _ _ _ => Act.lifecycleLaw) fun _ _ => Takes.lifecycleLaw⟩

end Sys2Proof.Machine

/-! Every step keeps the credits, the pin counts, the blocks held in reset and the slots torn down (R16, R148, R159, R183). -/

namespace Sys2Proof.Machine

variable {s t u : State}

/-! ### A request taken into service -/

theorem Takes.creditLaw (h : Takes s u) (hs : CreditLaw s) : CreditLaw u := by
  obtain ⟨q, rest, hv, hq, rfl⟩ := h
  obtain ⟨h1, h2⟩ := hs
  rw [hq, List.length_cons] at h1
  refine ⟨by dsimp only; omega, fun slot => ?_⟩
  obtain ⟨h3, h4⟩ := h2 slot
  refine ⟨?_, h4⟩
  rw [inServiceOf_none hv] at h3
  rw [inServiceOf_some (r := InService.begin q) rfl]
  show s.su[slot].outstanding = _
  rw [h3]
  unfold queuedOf
  rw [hq, List.countP_cons]
  simp only [InService.begin, beq_iff_eq, and_true]
  omega

theorem Takes.pinLaw (h : Takes s u) (hs : PinLaw s) : PinLaw u := by
  obtain ⟨q, rest, hv, hq, rfl⟩ := h
  refine ⟨fun i => (hs.1 i).trans ?_, hs.2⟩
  obtain ⟨r, h1, h2⟩ := holdsOn_chans (s := s) (t := { s with rq := rest, server := some (InService.begin q) }) rfl i
  rw [h1, h2, serverPins_none hv, serverPins_some (r := InService.begin q) rfl]
  simp [InService.begin]

theorem Takes.holdLaw (h : Takes s u) (hs : HoldLaw s) : HoldLaw u := by
  obtain ⟨q, rest, hv, hq, rfl⟩ := h
  refine ⟨hs.1, fun r hr => ?_⟩
  cases hr
  exact ⟨Nat.zero_le _, fun _ => ⟨Nat.zero_le _, fun _ => rfl⟩⟩

theorem Takes.detachedLaw (h : Takes s u) (_ : DetachedLaw s) : DetachedLaw u := by
  obtain ⟨q, rest, hv, hq, rfl⟩ := h
  intro r hr hd
  cases hr; cases hd

theorem Takes.tornDownLaw (h : Takes s u) (hs : TornDownLaw s) : TornDownLaw u := by
  obtain ⟨q, rest, hv, hq, rfl⟩ := h
  refine ⟨fun slot hsh => ?_, fun r hr hd => ?_⟩
  · obtain ⟨h1, h2, h3⟩ := hs.1 slot hsh
    exact ⟨h1, h2, fun q' hq' => h3 q' (by rw [hq]; exact List.mem_cons_of_mem _ hq')⟩
  · cases hr
    rcases hd with hd | hd
    · cases hd
    · exact absurd rfl ((hs.1 q.slot hd).2.2 q (by rw [hq]; exact List.mem_cons_self ..))

/-! ### How many pins there can be -/

theorem length_eq_purposes (l : List ChanPin) : l.length = ([Purpose.list, .source, .sourceTarget, .destination,
    .destinationTarget, .completion, .completionTarget].map fun u => l.countP fun x => x.purpose == u).sum := by
  induction l with
  | nil => rfl
  | cons a l ih =>
    simp only [List.length_cons, List.countP_cons, ih]
    cases a.purpose <;> simp <;> omega

/-- A primary slot holds at most five pins: its list's, and two for each window of a MOVE. -/
theorem Primary.holdsOk.pins_le {p : Primary} (h : p.holdsOk) : p.pins.length ≤ 5 := by
  obtain ⟨hl, hst, -⟩ := Primary.holdsOk_iff.1 h
  unfold Primary.StepHolds Primary.Pair Primary.NoStepPins Primary.pinsFor at hst
  unfold Primary.pinsFor at hl
  rw [length_eq_purposes]
  simp only [List.mem_cons, List.not_mem_nil, or_false, forall_eq_or_imp, forall_eq] at hst
  simp only [List.map_cons, List.map_nil, List.sum_cons, List.sum_nil]
  split at hst <;> omega

theorem channelPins_le (h : HoldLaw s) (c : Chan) (i : DIdx) : channelPins s c i ≤ 5 := by
  unfold channelPins
  cases hp : s.chans[c].primary with
  | none => exact Nat.zero_le _
  | some p =>
    refine (List.count_le_length ..).trans ?_
    rw [List.length_map]; exact (h.1 c p hp).pins_le

theorem serverPins_le (h : HoldLaw s) (i : DIdx) : serverPins s i ≤ 2 := by
  cases hr : s.server with
  | none => rw [serverPins_none hr]; omega
  | some r => rw [serverPins_some hr]; exact (List.count_le_length ..).trans (h.2 r hr).1

theorem pins_le (h : PinLaw s) (h' : HoldLaw s) (i : DIdx) : s.wt[i].pins ≤ 22 := by
  rw [h.1 i]
  unfold holdsOn
  have := serverPins_le h' i
  have := channelPins_le h' 0 i
  have := channelPins_le h' 1 i
  have := channelPins_le h' 2 i
  have := channelPins_le h' 3 i
  omega

/-! ### The blocks while RESET is asserted -/

/-- The level of the RESET line is left alone by everything but the two commands of it. -/
theorem resetLine_kept : CoreKept fun s => s.lines.reset = false where
  same s t h hs := h.reset.trans hs
  write p s hs := by
    unfold mapWriteClaim; split
    · exact hs
    · split
      · split <;> exact hs
      · exact hs
  fill p s hs := by unfold mapFillClaim; dsimp only; split <;> exact hs
  clear p s hs := by unfold mapClearClaim; dsimp only; split <;> exact hs
  timeout p s hs := by unfold setLockTimeoutClaim; split <;> exact hs
  device s hs := hs
  perform b s hs := by
    obtain ⟨_, _, _, _, h⟩ := performBurst_kept b s
    rw [h]; exact hs
  upset v s hs := by
    obtain ⟨_, _, h⟩ := applyUpset_kept v s
    rw [h]; exact hs

/-- A device reset leaves every block at its reset values. -/
theorem deviceReset_held (s : State) : HeldInReset (deviceReset s) := fun _ =>
  ⟨rfl, rfl, rfl, rfl, rfl, rfl, rfl, rfl, rfl, rfl, rfl, fun slot => by
    show (mapTable Requester.reset s.lines.present)[slot] = _
    rw [Fin.getElem_fin, mapTable_get]; rfl⟩

end Sys2Proof.Machine

/-! Every step keeps the blocks at their reset values while RESET is asserted (R183). -/

namespace Sys2Proof.Machine

variable {s t u : State}

/-- The blocks at their reset values, present following the lines (R183). -/
def State.Held (s : State) : Prop :=
  s.wt = State.reset.wt ∧ s.pm = State.reset.pm ∧ s.port.waiting = State.reset.port.waiting ∧ s.port.granted = none ∧
  s.port.pointer = Claimant.rs ∧ s.port.correctedLatch = 0 ∧ s.rq = [] ∧ s.server = none ∧
  s.chans = State.reset.chans ∧ s.engine = Engine.reset ∧ s.attn = Attention.reset ∧
  ∀ slot : Slot, s.su[slot] = Requester.reset s.lines.present[slot]

theorem heldInReset_iff : HeldInReset s ↔ (s.lines.reset = true → s.Held) := Iff.rfl

/-- In blocks at their reset values nothing is left to take up. -/
theorem State.Held.settle (h : s.Held) : settle s = s := by
  obtain ⟨-, -, hw, hg, -, -, -, -, hc, -⟩ := h
  refine Settled.settle_eq ⟨?_, fun _ => ?_⟩
  · rw [readyChannel_eq_none]
    intro c
    unfold isReady
    rw [hc]; simp [State.reset, Channel.reset]
  · rw [nextClaimant_eq_none]
    intro cl
    rw [hw]; simp [State.reset]

/-- In blocks at their reset values no request is in hand. -/
theorem State.Held.serveRow (h : s.Held) (kind : Request → Option (Stage → State → State)) (claims : Option Nat) :
    serveRow kind claims s = s := by
  obtain ⟨-, -, -, -, -, -, hq, hv, -⟩ := h
  unfold Machine.serveRow inHand
  rw [hq, hv]

/-- Request rows leave blocks at their reset values as they are. -/
theorem State.Held.request {i : Instr} {claims : Option Nat} (hs : s.Held) (hi : i ∈ requestRows claims)
    (h : exec i s = .next t) : t = s := by
  have done {kind : Request → Option (Stage → State → State)}
      (he : (.next (Machine.serveRow kind claims s) : Answer) = .next t) : t = s := by
    cases he; exact hs.serveRow kind claims
  simp only [requestRows, List.mem_cons, List.not_mem_nil, or_false] at hi
  rcases hi with rfl | rfl | rfl | rfl | rfl | rfl | rfl | rfl | rfl | rfl | rfl <;> exact done h

/-- While RESET is asserted command words are ignored (R183). -/
theorem takeCommand_reset' (hr : s.lines.reset = true) (code : Byte) (body : Vector Word 4 → State → State) :
    takeCommand code body s = s := if_pos hr

/-- A present mark that follows its line. -/
theorem State.Held.present (hs : s.Held) (slot : Slot) (b : Bool) :
    ((setPresentLine slot b s).updSlot slot fun r => { r with present := b }).Held := by
  obtain ⟨h1, h2, h3, h4, h5, h6, h7, h8, h9, h10, h11, h12⟩ := hs
  refine ⟨h1, h2, h3, h4, h5, h6, h7, h8, h9, h10, h11, fun y => ?_⟩
  show (s.su.set slot { s.su[slot] with present := b })[y] = Requester.reset ((s.lines.present.set slot b)[y])
  rw [get_set, get_set]
  split
  · rw [h12 slot]; rfl
  · exact h12 y

/-- While RESET is asserted the commands leave the blocks at their reset values, present following the lines (R183). -/
theorem State.Held.exec {i : Instr} (hr : s.lines.reset = true) (hs : s.Held) (h : exec i s = .next t) :
    HeldInReset t := by
  have same (e : t = s) : HeldInReset t := by rw [e]; exact fun _ => hs
  have takes {code : Byte} {body : Vector Word 4 → State → State}
      (h : (.next (Machine.takeCommand code body s) : Answer) = .next t) : HeldInReset t := by
    cases h; rw [takeCommand_reset' hr]; exact fun _ => hs
  have ⟨h1, h2, h3, h4, h5, h6, h7, h8, h9, h10, h11, h12⟩ := hs
  cases i with
  | openWindow n | closeWindow n | read n | write n | readLock n | writeUnlock n | query n | start n | cancel n
  | channelStatus n | unknownKind n => exact same (hs.request (claims := n) (by simp [requestRows]) h)
  | confirmation slot message =>
    change Host.Outcome.next _ = Host.Outcome.next _ at h
    cases h
    exact same (if_pos (by rw [hr]; simp))
  | burstComplete upsets =>
    cases h
    exact same (by unfold burstComplete; rw [h4])
  | forceAbortClaim c =>
    cases h
    refine same ?_
    unfold forceAbortClaim; rw [h9]; simp [State.reset, Channel.reset]
  | interlockExpiry i =>
    change Host.Outcome.next _ = Host.Outcome.next _ at h
    cases h
    refine same ?_
    rw [h1]; simp [State.reset, Descriptor.reset]
  | presentRise slot => cases h; exact fun _ => hs.present slot true
  | presentFall slot =>
    change Host.Outcome.next _ = Host.Outcome.next _ at h
    cases h
    split
    · exact fun _ => hs
    · dsimp only
      rw [if_pos (show (setPresentLine slot false s).lines.reset = true from hr)]
      exact fun _ => hs.present slot false
  | init =>
    change Host.Outcome.next _ = Host.Outcome.next _ at h
    cases h
    split
    · exact fun _ => hs
    · dsimp only
      rw [if_pos (show (s.setLines { s.lines with init := true }).lines.reset = true from hr)]
      exact fun _ => hs
  | initRelease => cases h; exact fun _ => hs
  | reset =>
    change Host.Outcome.next _ = Host.Outcome.next _ at h
    cases h
    exact same (if_pos hr)
  | resetRelease => cases h; exact fun hc => by cases hc
  | create | modify | setAbsent | setValid | retire | readDescriptor | readOpener | probe | mapWrite | mapFill | mapClear
  | mapRead | requesterSet | filterSet | requesterRead | readmit | channelRead | channelAbort | channelResume | faultAck
  | setLockTimeout | linkReset | deviceReset | unknownCommand => exact takes h
  | engineStatus =>
    cases h
    exact fun _ => ⟨h1, h2, h3, h4, h5, h6, h7, h8, h9, by
      show { s.engine with overrun := false } = _
      rw [h10]; rfl, h11, h12⟩
  | attnPending v => cases h; exact same (if_pos hr)
  | attnEnable v => cases h; exact same (if_pos hr)
  | registerWrite offset v =>
    change Host.Outcome.next _ = Host.Outcome.next _ at h
    cases h
    have param (k : Fin 4) : writeParam k v s = s := if_pos hr
    refine same ?_
    unfold writeRegister
    split
    · exact takeCommand_reset' hr _ _
    · exact param 0
    · exact param 1
    · exact param 2
    · exact param 3
    · exact if_pos hr
    · exact if_pos hr
    · rfl

/-- Every command keeps the blocks at their reset values while RESET is asserted. -/
theorem exec_heldInReset {i : Instr} (hs : HeldInReset s) (h : exec i s = .next t) : HeldInReset t := by
  by_cases hr : s.lines.reset = true
  · exact State.Held.exec hr (hs hr) h
  · by_cases hi : i = .reset
    · subst hi
      change Host.Outcome.next _ = Host.Outcome.next _ at h
      cases h
      rw [if_neg hr]; exact deviceReset_held _
    · have := resetLine_kept.exec (fun e => absurd e hi) (fun _ _ => rfl) h (by simpa using hr)
      exact fun hc => by rw [this] at hc; cases hc

/-- A state that settling leaves as it is. -/
theorem tick_of_held (hs : s.Held) : tick s = s.setNow (s.now + 1) :=
  State.Held.settle (s := s.setNow (s.now + 1)) hs

theorem step_heldInReset (s t : State) (hs : HeldInReset s) (h : step s = .next t) : HeldInReset t := by
  unfold step at h
  split at h
  · cases h
    by_cases hr : s.lines.reset = true
    · rw [tick_of_held (hs hr)]; exact hs
    · have h0 : (tick s).lines.reset = false :=
        resetLine_kept.settle (resetLine_kept.same s (s.setNow (s.now + 1)) ⟨rfl, rfl, rfl, rfl, rfl⟩ (by simpa using hr))
      exact fun hc => by rw [h0] at hc; cases hc
  · rename_i c rest _
    exact exec_heldInReset (s := s.setPending rest) hs h

/-! ### Slots torn down -/

/-- What a command comes to keeps slots torn down. -/
theorem Comes.tornDownLaw (h : Comes s t) (hsc : ScoreLaw s) (hr : HeldInReset s) (hs : TornDownLaw s) : TornDownLaw t := by
  cases h with
  | claims u hu h =>
    have h1 : ScoreLaw u ∧ TornDownLaw u := by
      rcases hu with rfl | hu
      · exact ⟨hsc, hs⟩
      · exact ⟨hu.scoreLaw hsc, hu.tornDownLaw hs⟩
    exact (h.tornDownLaw h1).2
  | held hres slot h hsame =>
    obtain ⟨e1, e2, e3, e4⟩ := hsame
    obtain ⟨h1, -, -, -, -, -, h7, h8, h9, -⟩ := hr hres
    refine ⟨fun y _ => HoldsNothing.congr (s := s) ⟨fun i => ?_, fun c => ?_, ?_⟩ e1 e2 e3, fun r hv => ?_⟩
    · rw [h1]; simp [State.reset, Descriptor.reset]
    · rw [h9]; simp [State.reset, Channel.reset]
    · rw [h7]; simp
    · rw [e4, h8] at hv; cases hv

theorem step_tornDownLaw (s t : State) (hsc : ScoreLaw s) (hr : HeldInReset s) (hs : TornDownLaw s)
    (h : step s = .next t) : TornDownLaw t := by
  rcases step_comes h with h | ⟨c, rest, -, h⟩
  · exact h.tornDownLaw hsc hr hs
  · exact h.tornDownLaw (s := s.setPending rest) hsc hr hs

/-- Settles O59: pins and holds are kept act by act, and a holder's pins are those of its list and its step. -/
theorem everyStepKeepsPinCounts : Obligations.EveryStepKeepsPinCounts :=
  ⟨step_keeps (fun _ _ _ => Act.pinLaw) fun _ _ => Takes.pinLaw,
    step_keeps (fun _ _ _ => Act.holdLaw) fun _ _ => Takes.holdLaw, fun _ => pins_le⟩

/-- Settles O60: a claim that shuts a slot out tears it down, and no other act gives a slot that is shut out anything. -/
theorem everyStepKeepsSlotsTornDown : Obligations.EveryStepKeepsSlotsTornDown :=
  ⟨step_heldInReset, step_tornDownLaw, step_keeps (fun _ _ _ => Act.detachedLaw) fun _ _ => Takes.detachedLaw⟩

end Sys2Proof.Machine

/-! The end of every step: how much ready work there can be, and that settling leaves none (R69, R108). -/

namespace Sys2Proof.Machine

variable {s t u : State} {c d : Chan} {p : Primary}

/-! ### How much work a channel can have before its next burst -/

/-- Pieces of ready work to the next burst or stop at the most. -/
def Work.weight : Work → Nat
  | .fetch => 1
  | .promote | .unit | .record => 2
  | .resolve => 3
  | .resume => 4
  | .fetchBurst _ _ | .unitRead _ _ | .unitWrite _ | .recordBurst _ | .stopped => 0

/-- Pieces of ready work that a channel can come to, its backup's promotion among them. -/
def Channel.weight (ch : Channel) : Nat := ch.primary.elim 0 (·.work.weight) + if ch.backup.isSome then 2 else 0

/-- Pieces of ready work that all channels can come to. -/
def State.weight (s : State) : Nat :=
  s.chans[(0 : Chan)].weight + s.chans[(1 : Chan)].weight + s.chans[(2 : Chan)].weight + s.chans[(3 : Chan)].weight

theorem Work.ready_iff {w : Work} : w.ready = true ↔ 1 ≤ w.weight := by cases w <;> simp [Work.ready, Work.weight]

theorem Work.weight_le (w : Work) : w.weight ≤ 4 := by cases w <;> simp [Work.weight]

theorem Channel.weight_of (ch : Channel) {p : Primary} (h : ch.primary = some p) :
    ch.weight = p.work.weight + if ch.backup.isSome then 2 else 0 := by unfold Channel.weight; rw [h]; rfl

theorem Channel.weight_le (ch : Channel) : ch.weight ≤ 6 := by
  unfold Channel.weight
  have : ch.primary.elim 0 (·.work.weight) ≤ 4 := by
    cases ch.primary with
    | none => exact Nat.zero_le _
    | some p => exact p.work.weight_le
  split <;> omega

theorem State.weight_le (s : State) : s.weight ≤ 24 := by
  unfold State.weight
  have := s.chans[(0 : Chan)].weight_le
  have := s.chans[(1 : Chan)].weight_le
  have := s.chans[(2 : Chan)].weight_le
  have := s.chans[(3 : Chan)].weight_le
  omega

/-- No channel has more to do. -/
def NoMore (s t : State) : Prop := ∀ d : Chan, t.chans[d].weight ≤ s.chans[d].weight

theorem NoMore.trans (h : NoMore s t) (k : NoMore t u) : NoMore s u := fun d => (k d).trans (h d)

theorem NoMore.of_chans (h : t.chans = s.chans) : NoMore s t := fun d => by rw [h]

/-- A channel has less to do, and no other has more. -/
structure Falls (c : Chan) (s t : State) : Prop where
  noMore : NoMore s t
  less   : t.chans[c].weight < s.chans[c].weight

theorem Falls.weight_lt (h : Falls c s t) : t.weight < s.weight := by
  obtain ⟨h, hc⟩ := h
  have h0 := h 0
  have h1 := h 1
  have h2 := h 2
  have h3 := h 3
  unfold State.weight
  fin_cases c <;> (simp only [Fin.zero_eta, Fin.mk_one, Fin.reduceFinMk] at hc; omega)

theorem NoMore.falls (h : NoMore s t) (k : Falls c t u) : Falls c s u :=
  ⟨h.trans k.noMore, lt_of_lt_of_le k.less (h c)⟩

theorem NoMore.set {ch : Channel} (h : t.chans = s.chans.set c ch) (hw : ch.weight ≤ s.chans[c].weight) : NoMore s t := by
  intro d
  rw [h, get_set]
  split
  · rename_i e; subst e; exact hw
  · exact le_refl _

theorem Falls.set {ch : Channel} (h : t.chans = s.chans.set c ch) (hw : ch.weight < s.chans[c].weight) : Falls c s t :=
  ⟨.set h hw.le, by rw [h, get_set_self]; exact hw⟩

/-! ### What ends and teardowns leave to do -/

theorem Channel.listEnded_weight (ch : Channel) (p : Primary) (code : Code) :
    (ch.listEnded p code).weight = if ch.backup.isSome then 2 else 0 := by
  unfold Channel.listEnded Channel.weight
  cases ch.backup <;> rfl

theorem endList_chans (hp : s.chans[c].primary = some p) (code : Code) :
    (endList c code s).chans = s.chans.set c (s.chans[c].listEnded p code) := by
  obtain ⟨v, -, h⟩ := endList_inside hp code
  exact congrArg Inside.chans h

/-- The end of a list with ready work leaves less to do. -/
theorem endList_falls (hp : s.chans[c].primary = some p) (hw : 1 ≤ p.work.weight) (code : Code) :
    Falls c s (endList c code s) := by
  refine .set (endList_chans hp code) ?_
  rw [Channel.listEnded_weight, Channel.weight_of _ hp]
  omega

/-- What a teardown leaves of a channel is no more to do. -/
theorem TornDownChannel.weight_le {slot : Slot} {code : MarkCode} {own : Option Chan}
    (h : TornDownChannel s u slot code own c) : u.chans[c].weight ≤ s.chans[c].weight := by
  obtain ⟨h1, h2⟩ := h
  have hb : (if (s.chans[c].backup.filter fun b => b.owner != slot).isSome then 2 else 0) ≤
      if s.chans[c].backup.isSome then 2 else 0 := by
    cases s.chans[c].backup with
    | none => simp
    | some b =>
      simp only [Option.isSome_some, if_true]
      split <;> omega
  by_cases ho : ∃ p, s.chans[c].primary = some p ∧ p.owner = some slot
  · obtain ⟨p, hp, ho⟩ := ho
    obtain ⟨m, hm⟩ : ∃ m, (p.mark <|> some ⟨code, slot⟩) = some m := by cases p.mark <;> simp
    obtain ⟨a, b⟩ := h2 p m hp ho hm
    rw [Channel.weight_of _ hp]
    by_cases hw : (∃ b, s.port.granted = some (Claimant.ch c, b)) ∨ own = some c
    · rw [(a hw).1]
      exact Nat.add_le_add_left hb _
    · rw [(b hw).1]
      unfold Channel.weight
      cases hf : s.chans[c].backup.filter fun b => b.owner != slot with
      | none => exact Nat.zero_le _
      | some b =>
        rw [hf] at hb
        simp only [Option.isSome_some, if_true] at hb
        exact hb.trans (Nat.le_add_left _ _)
  · have h3 := h1 fun p hp e => ho ⟨p, hp, e⟩
    rw [h3.1]
    exact Nat.add_le_add_left hb _

theorem teardown_noMore (cause : TeardownCause) (slot : Slot) (own : Bool) (ownList : Option Chan) (s : State) :
    NoMore s (teardown cause slot own ownList s) := fun d =>
  ((teardown_tornDown cause slot own ownList s).1.1 d).weight_le

/-- A teardown leaves the list that is its cause to its own end. -/
theorem teardown_own_primary (cause : TeardownCause) (slot : Slot) (own : Bool) (hp : s.chans[c].primary = some p) :
    ∃ q, (teardown cause slot own (some c) s).chans[c].primary = some q ∧ q.work = p.work := by
  obtain ⟨h1, h2⟩ := (teardown_tornDown cause slot own (some c) s).1.1 c
  by_cases ho : p.owner = some slot
  · obtain ⟨m, hm⟩ : ∃ m, (p.mark <|> some ⟨teardownMark cause, slot⟩) = some m := by cases p.mark <;> simp
    rw [((h2 p m hp ho hm).1 (.inr rfl)).1]
    exact ⟨_, rfl, rfl⟩
  · rw [(h1 fun p' hp' e => by rw [hp] at hp'; cases hp'; exact ho e).1]
    exact ⟨p, hp, rfl⟩

theorem chargedBy_chans (s : State) (reason : Code) (slot : Slot) (source : Option Chan) (h : Handle) (offset : Nat) :
    (s.chargedBy reason slot source h offset).chans = s.chans :=
  congrArg Inside.chans (chargedBy_inside s reason slot source h offset)

/-- A violation leaves no more to do, and the list that is its cause to its own end. -/
theorem violation_noMore (reason : Code) (slot : Slot) (h : Handle) (offset : Nat) (own : Bool)
    (hp : s.chans[c].primary = some p) :
    NoMore s (violation reason slot (some c) h offset own s) ∧
      ∃ q, (violation reason slot (some c) h offset own s).chans[c].primary = some q ∧ q.work = p.work := by
  have e := chargedBy_chans s reason slot (some c) h offset
  have hp' : (s.chargedBy reason slot (some c) h offset).chans[c].primary = some p := by rw [e]; exact hp
  rcases violation_split reason slot (some c) h offset own s with ⟨-, h2⟩ | ⟨-, h2⟩ <;> rw [h2]
  · exact ⟨(NoMore.of_chans e).trans (teardown_noMore .barring slot own (some c) _), teardown_own_primary _ _ _ hp'⟩
  · exact ⟨.of_chans e, p, hp', rfl⟩

/-! ### A piece of ready work -/

/-- The list goes on to lighter work. -/
theorem Falls.work {p' : Primary} {st : ChanState} {e : Option EventKind} (hp : s.chans[c].primary = some p)
    (h : t.chans = s.chans.set c { s.chans[c] with state := st, primary := some p', event := e })
    (hlt : p'.work.weight < p.work.weight) : Falls c s t := by
  refine .set h ?_
  rw [Channel.weight_of _ hp]
  exact Nat.add_lt_add_right hlt _

section Ready

variable (hp : s.chans[c].primary = some p) (hw : 1 ≤ p.work.weight)
include hp hw

theorem failList_falls (code : Code) (owner : Slot) (h : Handle) (offset : Nat) :
    Falls c s (failList c code owner h offset s) := by
  unfold failList
  split
  · obtain ⟨h1, q, h2, h3⟩ := violation_noMore code owner h offset false hp
    exact h1.falls (endList_falls h2 (by rw [h3]; exact hw) code)
  · exact endList_falls hp hw code

theorem stopChannel_falls : Falls c s (stopChannel c s) := by
  refine .work hp (p' := { p with work := .stopped }) (st := .stopped) (e := some .stop) ?_ hw
  simp only [stopChannel, channelEvent, raiseChan, updPrimary, State.updChan, State.setAttn, get_set_self, set_set_self,
    hp, Option.map_some]

theorem verdictFails_falls (f : Code × Option DIdx) (owner : Slot) (h : Handle) (offset : Nat) :
    Falls c s (verdictFails c f owner h offset s) := by
  unfold verdictFails; split
  · have e : (touchAbsent f.2 s).chans = s.chans := congrArg Inside.chans (touchAbsent_inside s f.2)
    exact (NoMore.of_chans e).falls (stopChannel_falls (by rw [e]; exact hp) hw)
  · exact failList_falls hp hw f.1 owner h offset

theorem holeStops_falls (entry : Nat) : Falls c s (holeStops c entry s) :=
  NoMore.falls (s := s) (t := raiseMapHole entry s) (NoMore.of_chans rfl) (stopChannel_falls (s := raiseMapHole entry s) hp hw)

theorem channelBurst_falls (b : Burst) {w : Work} (h0 : w.weight = 0) : Falls c s (channelBurst c b w s) :=
  .work hp (p' := { p with work := w }) (st := s.chans[c].state) (congrArg Inside.chans (updPrimary_inside hp _))
    (by dsimp only; omega)

theorem channelBursts_falls {bs : List Burst} (hb : bs ≠ []) {w : List Burst → Work} (h0 : ∀ l, (w l).weight = 0) :
    Falls c s (channelBursts c bs w s) := by
  cases bs with
  | nil => exact absurd rfl hb
  | cons b rest => exact channelBurst_falls hp hw b (h0 rest)

end Ready

/-- A translation that passes has a piece. -/
theorem translate_ne_nil {base : DIdx} {offset n : Nat} {pieces : List (Nat × Nat)}
    (h : translate s base offset n = .ok pieces) : pieces ≠ [] := by
  unfold translate at h
  dsimp only at h
  split at h
  · cases h
  · split at h
    · cases h; simp
    · split at h
      · cases h
      · cases h; simp

theorem notePass_chans {q : Primary} (hq : s.chans[c].primary = some q) (r : Resolved) (named target : Purpose)
    (f : Primary → Primary) : (notePass c p r named target f s).chans =
      s.chans.set c { s.chans[c] with primary := some (f { q with pins := q.pins ++ p.notes r named target }) } :=
  congrArg Inside.chans (notePass_inside hq r named target f)

theorem resolveDest_falls {q : Primary} (hq : s.chans[c].primary = some q) (hw : q.work = .resolve) (owner : Slot)
    (dst : Handle) (dstOff count : Nat) : Falls c s (resolveDest c p owner dst dstOff count s) := by
  unfold resolveDest; split
  · exact verdictFails_falls hq (by rw [hw]; decide) _ owner dst dstOff
  · rename_i r hr
    refine .work hq (p' := { q with
      pins := q.pins ++ p.notes r .destination .destinationTarget, dest := some r, work := .unit }) (st := .move)
      (e := s.chans[c].event) ?_
      (by rw [hw]; exact Nat.lt_succ_self 2)
    rw [State.updChan_chans, notePass_chans hq]
    simp only [get_set_self, set_set_self]

theorem advanceResolve_falls (hp : s.chans[c].primary = some p) (hw : p.work = .resolve) (owner : Slot) :
    Falls c s (advanceResolve c p owner s) := by
  have h1 : 1 ≤ p.work.weight := by rw [hw]; decide
  have refetch : Falls c s (updPrimary c (fun q => { q with step := none, work := .fetch }) s) :=
    .work hp (p' := { p with step := none, work := .fetch }) (st := s.chans[c].state)
      (congrArg Inside.chans (updPrimary_inside hp _)) (by rw [hw]; exact Nat.lt_of_sub_pos (Nat.succ_pos 1))
  unfold advanceResolve
  split
  · split
    · exact resolveDest_falls hp hw owner _ _ _
    · split
      · exact verdictFails_falls hp h1 _ owner _ _
      · rename_i src srcOff dst dstOff count _ _ _ _ _ _ r hr
        have e := notePass_chans (p := p) hp r .source .sourceTarget fun q => { q with source := some r }
        refine NoMore.falls (t := notePass c p r .source .sourceTarget (fun q => { q with source := some r }) s) ?_
          (resolveDest_falls (q := { p with pins := p.pins ++ p.notes r .source .sourceTarget, source := some r }) ?_ hw
            owner dst dstOff count)
        · refine .set e ?_
          rw [Channel.weight_of _ hp]; exact le_refl _
        · rw [e, get_set_self]
  · split
    · exact endList_falls hp h1 _
    · split
      · exact verdictFails_falls hp h1 _ owner _ _
      · rename_i r hr
        refine .work hp (p' := { p with
          pins := p.pins ++ p.notes r .completion .completionTarget, completion := some r, work := .record })
          (st := .halting) (e := s.chans[c].event) ?_ (by rw [hw]; exact Nat.lt_succ_self 2)
        rw [State.updChan_chans, notePass_chans hp]
        simp only [get_set_self, set_set_self]
  · exact refetch
  · exact refetch

theorem advancePromote_falls (hp : s.chans[c].primary = some p) (hw : p.work = .promote) (owner : Slot) :
    Falls c s (advancePromote c p owner s) := by
  have h1 : 1 ≤ p.work.weight := by rw [hw]; decide
  unfold advancePromote; split
  · exact endList_falls hp h1 _
  · split
    · rename_i code touched hr
      have e : (touchAbsent touched s).chans = s.chans := congrArg Inside.chans (touchAbsent_inside s touched)
      exact (NoMore.of_chans e).falls (failList_falls (by rw [e]; exact hp) h1 code owner p.handle p.offset)
    · rename_i r hr
      refine .work hp (p' := { p with pins := [⟨r.index, .list⟩], work := .fetch }) (st := s.chans[c].state)
        (e := s.chans[c].event) ?_ (by rw [hw]; exact Nat.lt_succ_self 1)
      rw [show (updPrimary c _ (placePins [r.index] s)).chans = _ from
        congrArg Inside.chans (updPrimary_inside (p := p) (by rw [placePins_eq]; exact hp) _), placePins_eq]

theorem advanceFetch_falls (hp : s.chans[c].primary = some p) (hw : p.work = .fetch) (owner : Slot) :
    Falls c s (advanceFetch c p owner s) := by
  have h1 : 1 ≤ p.work.weight := by rw [hw]; decide
  unfold advanceFetch; split
  · exact verdictFails_falls hp h1 _ owner p.handle p.offset
  · split
    · exact holeStops_falls hp h1 _
    · rename_i pieces ht
      refine channelBursts_falls hp h1 (fun e => translate_ne_nil ht ?_) fun _ => rfl
      simpa [readBursts] using e

theorem advanceResume_falls (hp : s.chans[c].primary = some p) (hw : p.work = .resume) (owner : Slot) :
    Falls c s (advanceResume c p owner s) := by
  unfold advanceResume; split
  · exact verdictFails_falls hp (by rw [hw]; decide) _ owner p.handle p.offset
  · refine .work hp (p' := { p with work := if p.step.isSome then .resolve else .fetch }) (st := s.chans[c].state)
      (congrArg Inside.chans (updPrimary_inside hp _)) ?_
    rw [hw]
    dsimp only
    split <;> decide

theorem advanceUnit_falls (hp : s.chans[c].primary = some p) (hw : p.work = .unit) : Falls c s (advanceUnit c p s) := by
  have h1 : 1 ≤ p.work.weight := by rw [hw]; decide
  unfold advanceUnit; split
  · dsimp only; split
    · split
      · exact holeStops_falls hp h1 _
      · exact holeStops_falls hp h1 _
      · exact channelBurst_falls hp h1 _ rfl
    · split
      · exact holeStops_falls hp h1 _
      · exact channelBurst_falls hp h1 _ rfl
  · exact .work hp (p' := { p with work := .fetch }) (st := s.chans[c].state)
      (congrArg Inside.chans (updPrimary_inside hp _)) (by rw [hw]; exact Nat.lt_succ_self 1)

theorem writeBursts_ne_nil {pieces : List (Nat × Nat)} (h : pieces ≠ []) (bytes : List Byte) :
    writeBursts pieces bytes ≠ [] := by
  cases pieces with
  | nil => exact absurd rfl h
  | cons a l => simp [writeBursts]

theorem advanceRecord_falls (hp : s.chans[c].primary = some p) (hw : p.work = .record) (owner : Slot) :
    Falls c s (advanceRecord c p owner s) := by
  have h1 : 1 ≤ p.work.weight := by rw [hw]; decide
  unfold advanceRecord; split
  · split
    · exact holeStops_falls hp h1 _
    · rename_i pieces ht
      exact channelBursts_falls hp h1 (writeBursts_ne_nil (translate_ne_nil ht) _) fun _ => rfl
  · exact .work hp (p' := { p with work := .fetch }) (st := s.chans[c].state)
      (congrArg Inside.chans (updPrimary_inside hp _)) (by rw [hw]; exact Nat.lt_succ_self 1)

/-- A piece of ready work leaves less of it. -/
theorem advance_falls (h : isReady s c = true) : Falls c s (advance c s) := by
  obtain ⟨p, hp, hr⟩ := isReady_iff.1 h
  have h1 := Work.ready_iff.1 hr
  unfold advance; rw [hp]; dsimp only
  split
  · exact endList_falls hp h1 _
  · exact endList_falls hp h1 _
  · rename_i owner _ _
    split
    · rename_i hw; exact advancePromote_falls hp hw owner
    · rename_i hw; exact advanceFetch_falls hp hw owner
    · rename_i hw; exact advanceResume_falls hp hw owner
    · rename_i hw; exact advanceResolve_falls hp hw owner
    · rename_i hw; exact advanceUnit_falls hp hw
    · rename_i hw; exact advanceRecord_falls hp hw owner
    all_goals rename_i hw; rw [hw] at hr; cases hr

/-! ### Settling -/

theorem isReady_of_readyChannel (h : readyChannel s = some c) : isReady s c = true := List.find?_some h

/-- A state with no weight has no ready channel. -/
theorem readyChannel_of_weight (h : s.weight = 0) : readyChannel s = none := by
  rw [readyChannel_eq_none]
  intro c
  by_contra hc
  have := (advance_falls (c := c) (by simpa using hc)).weight_lt
  omega

/-- The channel that takes up the next piece is ready. -/
theorem turn_ready (h : readyChannel s = some c) (d : Chan) : isReady s (if isReady s d then d else c) = true := by
  split
  · assumption
  · exact isReady_of_readyChannel h

/-- More pieces than the weight change nothing. -/
theorem runReady_succ {n : Nat} (h : s.weight ≤ n) : runReady (n + 1) s = runReady n s := by
  induction n generalizing s with
  | zero =>
    rw [runReady_of_none (readyChannel_of_weight (by omega)), runReady_of_none (readyChannel_of_weight (by omega))]
  | succ n ih =>
    cases hc : readyChannel s with
    | none => rw [runReady_of_none hc, runReady_of_none hc]
    | some c =>
      match ht : s.turns with
      | [] =>
        rw [runReady_lowest ht hc, runReady_lowest ht hc]
        exact ih (by have := (advance_falls (isReady_of_readyChannel hc)).weight_lt; omega)
      | none :: later => rw [runReady_pause ht (by simp [hc]), runReady_pause ht (by simp [hc])]
      | some d :: later =>
        rw [runReady_turn ht hc, runReady_turn ht hc]
        refine ih ?_
        have := (advance_falls (s := s.setTurns later) (turn_ready hc d)).weight_lt
        have e : (s.setTurns later).weight = s.weight := rfl
        omega

/-- With no turns to come nothing ready is left. -/
theorem runReady_empties {n : Nat} (ht : s.turns = []) (h : s.weight ≤ n) : readyChannel (runReady n s) = none := by
  induction n generalizing s with
  | zero => exact readyChannel_of_weight (s := s) (by omega)
  | succ n ih =>
    cases hc : readyChannel s with
    | none => rw [runReady_of_none hc]; exact hc
    | some c =>
      rw [runReady_lowest ht hc]
      exact ih (by rw [advance_turns]; exact ht)
        (by have := (advance_falls (isReady_of_readyChannel hc)).weight_lt; omega)

theorem runReady_turns (ht : s.turns = []) (n : Nat) : (runReady n s).turns = [] := by
  induction n generalizing s with
  | zero => exact ht
  | succ n ih =>
    cases hc : readyChannel s with
    | none => rw [runReady_of_none hc]; exact ht
    | some c => rw [runReady_lowest ht hc]; exact ih (by rw [advance_turns]; exact ht)

/-- The arbiter leaves no free DRAM before a waiting burst. -/
theorem grantBurst_grants (s : State) :
    (grantBurst s).port.granted = none → nextClaimant (grantBurst s).port = none := by
  cases hg : s.port.granted with
  | some g => rw [grantBurst_busy (by rw [hg]; rfl), hg]; intro h; cases h
  | none =>
    cases hn : nextClaimant s.port with
    | none => rw [grantBurst_of fun _ => hn]; exact fun _ => hn
    | some cl =>
      have hsome : (s.port.waiting[cl]).isSome = true := by
        unfold nextClaimant at hn
        exact List.find?_some (p := fun cl : Claimant => (s.port.waiting[cl]).isSome) hn
      obtain ⟨b, hb⟩ := Option.isSome_iff_exists.1 hsome
      rw [grantBurst_free hg hn hb]
      intro h; cases h

theorem grantBurst_chans (s : State) : (grantBurst s).chans = s.chans := congrArg Inside.chans (grantBurst_inside s)

theorem weight_le_readyBound (s : State) : s.weight ≤ readyBound - 1 := s.weight_le.trans (by decide)

/-- With no turns to come settling leaves the part settled, and no turns. -/
theorem settle_settled (ht : s.turns = []) : Settled (settle s) ∧ (settle s).turns = [] := by
  refine ⟨⟨?_, grantBurst_grants _⟩, ?_⟩
  · unfold settle
    rw [readyChannel_congr (grantBurst_chans _)]
    exact runReady_empties ht (s.weight_le.trans (by decide))
  · exact (congrArg Outside.turns (grantBurst_outside (s := _))).trans (runReady_turns ht _)

/-- A piece of ready work is the first of those that settling takes up. -/
theorem settle_advance {s' : State} (h : runReady (39 + 1) s = runReady 39 (advance c s')) :
    settle s = settle (advance c s') := by
  unfold settle
  rw [show runReady readyBound s = runReady 39 (advance c s') from h]
  exact congrArg grantBurst (runReady_succ (n := 39) ((State.weight_le _).trans (by decide))).symm

/-! ### How commands end -/

/-- A command leaves the channels, the port and the turns to come alone, ends in settling, or resets the part. -/
inductive Closes (s t : State) : Prop
  | plain (hc : t.chans = s.chans) (hp : t.port = s.port) (ht : t.turns = s.turns)
  | settles (u : State) (ht : u.turns = s.turns) (h : t = settle u)
  | cleared (hc : t.chans = State.reset.chans) (hw : t.port.waiting = State.reset.port.waiting)
      (hg : t.port.granted = none) (ht : t.turns = s.turns)

theorem Closes.settle_of (h : u.outside = s.outside) : Closes s (settle u) := .settles u (congrArg Outside.turns h) rfl

theorem mapWriteClaim_turns (p : Vector Word 4) (s : State) : (mapWriteClaim p s).turns = s.turns := by
  unfold mapWriteClaim; split
  · rfl
  · split
    · split <;> rfl
    · rfl

theorem mapFillClaim_turns (p : Vector Word 4) (s : State) : (mapFillClaim p s).turns = s.turns := by
  unfold mapFillClaim; dsimp only; split <;> rfl

theorem mapClearClaim_turns (p : Vector Word 4) (s : State) : (mapClearClaim p s).turns = s.turns := by
  unfold mapClearClaim; dsimp only; split <;> rfl

theorem setLockTimeoutClaim_turns (p : Vector Word 4) (s : State) : (setLockTimeoutClaim p s).turns = s.turns := by
  unfold setLockTimeoutClaim; split <;> rfl

theorem turns_of_outside {f : Vector Word 4 → State → State} (h : ∀ p s, (f p s).outside = s.outside) (p : Vector Word 4)
    (s : State) : (f p s).turns = s.turns := congrArg Outside.turns (h p s)

theorem claimOf_turns (code : Byte) (p : Vector Word 4) (s : State) : (claimOf code p s).turns = s.turns := by
  obtain ⟨f, hf⟩ : ∃ f, claimOf code = f := ⟨_, rfl⟩
  rw [hf]
  unfold claimOf at hf
  split at hf <;> subst hf
  · exact turns_of_outside createClaim_outside p s
  · exact turns_of_outside modifyClaim_outside p s
  · exact turns_of_outside (fun p s => markClaim_outside p s _ _) p s
  · exact turns_of_outside (fun p s => markClaim_outside p s _ _) p s
  · exact turns_of_outside retireClaim_outside p s
  · exact turns_of_outside readDescriptorClaim_outside p s
  · exact turns_of_outside readOpenerClaim_outside p s
  · exact turns_of_outside probeClaim_outside p s
  · exact mapWriteClaim_turns p s
  · exact mapFillClaim_turns p s
  · exact mapClearClaim_turns p s
  · exact turns_of_outside mapReadClaim_outside p s
  · exact turns_of_outside requesterSetClaim_outside p s
  · exact turns_of_outside filterSetClaim_outside p s
  · exact turns_of_outside requesterReadClaim_outside p s
  · exact turns_of_outside readmitClaim_outside p s
  · exact turns_of_outside channelReadClaim_outside p s
  · exact turns_of_outside channelAbortClaim_outside p s
  · exact turns_of_outside channelResumeClaim_outside p s
  · rfl
  · exact setLockTimeoutClaim_turns p s
  · exact turns_of_outside linkResetClaim_outside p s
  · rfl
  · rfl

theorem takeCommand_closes {code : Byte} {body : Vector Word 4 → State → State} (h : ∀ p s, (body p s).turns = s.turns)
    (s : State) : Closes s (takeCommand code body s) := by
  unfold takeCommand; split
  · exact .plain rfl rfl rfl
  · split
    · exact .plain rfl rfl rfl
    · refine .settles (body s.engine.params (s.setEngine { s.engine with
        state := .busy .claim, command := code, copies := s.engine.params })) (h _ _) rfl

theorem serveRow_closes {kind : Request → Option (Stage → State → State)} {claims : Option Nat}
    (h : ∀ q claim g t, kind q = some claim → (claim g t).outside = t.outside) (s : State) :
    Closes s (serveRow kind claims s) := by
  unfold serveRow
  split
  · exact .plain rfl rfl rfl
  · rename_i q t ht
    split
    · rename_i claim hk
      refine .settle_of ((carryOn_outside t (fun g u => h q claim g u hk) _).trans ?_)
      unfold inHand at ht
      split at ht
      · split at ht <;> cases ht
        rfl
      · cases ht; rfl
      · cases ht
    · exact .plain rfl rfl rfl

theorem burstComplete_closes (upsets : List Upset) (s : State) : Closes s (burstComplete upsets s) := by
  unfold burstComplete
  split
  · exact .plain rfl rfl rfl
  · rename_i cl b _
    have ups (l : List Upset) (s : State) : (l.foldl applyUpset s).turns = s.turns := by
      induction l generalizing s with
      | nil => rfl
      | cons v l ih =>
        obtain ⟨_, _, e⟩ := applyUpset_kept v s
        rw [List.foldl_cons, ih, e]
    obtain ⟨_, _, _, _, e⟩ := performBurst_kept b (upsets.foldl applyUpset s)
    generalize performBurst b (upsets.foldl applyUpset s) = o at e
    have ho : (o.2.2.setPort { o.2.2.port with granted := none }).turns = s.turns := by
      rw [State.setPort_turns, e]; exact ups upsets s
    refine .settles _ ?_ rfl
    split
    · exact (congrArg Outside.turns (serverBurstDone_outside _ _ _)).trans ho
    · exact (congrArg Outside.turns (channelBurstDone_outside _ _ _ _)).trans ho

/-- A request row carries out claims that leave the outside part alone. -/
theorem exec_requestRow {i : Instr} {claims : Option Nat} (hi : i ∈ requestRows claims) (h : exec i s = .next t) :
    ∃ kind, t = serveRow kind claims s ∧
      ∀ q claim g u, kind q = some claim → (claim g u).outside = u.outside := by
  have done {kind : Request → Option (Stage → State → State)} (he : (.next (serveRow kind claims s) : Answer) = .next t)
      (hs : ∀ q claim g u, kind q = some claim → (claim g u).outside = u.outside) :
      ∃ kind, t = serveRow kind claims s ∧
        ∀ q claim g u, kind q = some claim → (claim g u).outside = u.outside := by
    cases he; exact ⟨kind, rfl, hs⟩
  simp only [requestRows, List.mem_cons, List.not_mem_nil, or_false] at hi
  rcases hi with rfl | rfl | rfl | rfl | rfl | rfl | rfl | rfl | rfl | rfl | rfl
  all_goals
    refine done h fun q claim g u hq => ?_
    split at hq <;> cases hq
  · exact openClaim_outside _ _ _ g u
  · exact onlyClaim_outside (fun t => by unfold closeClaim; split <;> simp) g u
  · exact accessClaims_outside (accessChecks_outside fun t => toStage_outside t _)
      (resolveThen_outside fun t => toStage_outside t _) (translateAndBurst_outside _) g u
  · exact accessClaims_outside (accessChecks_outside fun t => failRequest_outside t _ _ _)
      (resolveThen_outside fun t => toStage_outside t _) (translateAndBurst_outside _) g u
  · exact accessClaims_outside (accessChecks_outside fun t => failRequest_outside t _ _ _)
      (resolveThen_outside (lockStep_outside _ _ _)) (translateAndBurst_outside _) g u
  · exact accessClaims_outside
      (accessChecks_outside fun t => (failRequest_outside _ _ _ _).trans (limitedRelease_outside _ _ t))
      (resolveThen_outside (unlockStep_outside _ _ _)) (translateAndBurst_outside _) g u
  · exact onlyClaim_outside (fun t => by unfold queryClaim; split <;> rfl) g u
  · exact startClaims_outside _ _ _ _ g u
  · refine onlyClaim_outside (fun t => ?_) g u
    unfold serveCancel; split
    · exact failRequest_outside t _ _ _
    · rw [reach_outside, cancelClaim_outside]
  · exact onlyClaim_outside (fun t => by unfold serveChannelStatus; split <;> simp) g u
  · exact onlyClaim_outside (fun t => failRequest_outside t _ _ _) g u

theorem linkReset_turns (s : State) : (linkReset s).turns = s.turns := by
  have h (t : State) (e : t.outside = s.outside) : t.turns = s.turns := congrArg Outside.turns e
  exact h _ (linkReset_outside s)

theorem exec_closes {i : Instr} (h : exec i s = .next t) : Closes s t := by
  have takes {code : Byte} {body : Vector Word 4 → State → State} (hb : ∀ p s, (body p s).turns = s.turns)
      (h : (.next (takeCommand code body s) : Answer) = .next t) : Closes s t := by
    cases h; exact takeCommand_closes hb s
  have request {n : Option Nat} (hi : i ∈ requestRows n) : Closes s t := by
    obtain ⟨kind, rfl, hk⟩ := exec_requestRow hi h
    exact serveRow_closes hk s
  have attnPending {v : Word} : Closes s (writeAttnPending v s) := by
    unfold writeAttnPending; split <;> exact .plain rfl rfl rfl
  have attnEnable {v : Word} : Closes s (writeAttnEnable v s) := by
    unfold writeAttnEnable; split <;> exact .plain rfl rfl rfl
  cases i with
  | openWindow n | closeWindow n | read n | write n | readLock n | writeUnlock n | query n | start n | cancel n
  | channelStatus n | unknownKind n => exact request (n := n) (by simp [requestRows])
  | confirmation slot message =>
    change Host.Outcome.next _ = Host.Outcome.next _ at h
    cases h
    split
    · exact .plain rfl rfl rfl
    · unfold confirm; split
      · exact .plain rfl rfl rfl
      · split <;> exact .plain rfl rfl rfl
  | burstComplete upsets => cases h; exact burstComplete_closes upsets s
  | forceAbortClaim c =>
    cases h
    unfold forceAbortClaim; split
    · split
      · exact .settle_of (by simp)
      · exact .plain rfl rfl rfl
    · exact .plain rfl rfl rfl
  | interlockExpiry i =>
    change Host.Outcome.next _ = Host.Outcome.next _ at h
    cases h
    split
    · refine .settles _ ?_ rfl
      unfold expireLock; dsimp only
      exact congrArg Outside.turns (violation_outside _ _ _ _ _ _ _)
    · exact .plain rfl rfl rfl
  | presentFall slot =>
    change Host.Outcome.next _ = Host.Outcome.next _ at h
    cases h
    split
    · exact .plain rfl rfl rfl
    · dsimp only
      split
      · exact .plain rfl rfl rfl
      · exact .settles _ (congrArg Outside.turns (depart_outside slot (setPresentLine slot false s))) rfl
  | init =>
    change Host.Outcome.next _ = Host.Outcome.next _ at h
    cases h
    split
    · exact .plain rfl rfl rfl
    · dsimp only
      split
      · exact .plain rfl rfl rfl
      · exact .settles (linkReset (s.setLines { s.lines with init := true }))
          (linkReset_turns _) rfl
  | reset =>
    change Host.Outcome.next _ = Host.Outcome.next _ at h
    cases h
    split
    · exact .plain rfl rfl rfl
    · exact .cleared rfl rfl rfl rfl
  | presentRise | initRelease | resetRelease | engineStatus => cases h; exact .plain rfl rfl rfl
  | create => exact takes (turns_of_outside createClaim_outside) h
  | modify => exact takes (turns_of_outside modifyClaim_outside) h
  | setAbsent => exact takes (turns_of_outside fun p s => markClaim_outside p s _ _) h
  | setValid => exact takes (turns_of_outside fun p s => markClaim_outside p s _ _) h
  | retire => exact takes (turns_of_outside retireClaim_outside) h
  | readDescriptor => exact takes (turns_of_outside readDescriptorClaim_outside) h
  | readOpener => exact takes (turns_of_outside readOpenerClaim_outside) h
  | probe => exact takes (turns_of_outside probeClaim_outside) h
  | mapWrite => exact takes mapWriteClaim_turns h
  | mapFill => exact takes mapFillClaim_turns h
  | mapClear => exact takes mapClearClaim_turns h
  | mapRead => exact takes (turns_of_outside mapReadClaim_outside) h
  | requesterSet => exact takes (turns_of_outside requesterSetClaim_outside) h
  | filterSet => exact takes (turns_of_outside filterSetClaim_outside) h
  | requesterRead => exact takes (turns_of_outside requesterReadClaim_outside) h
  | readmit => exact takes (turns_of_outside readmitClaim_outside) h
  | channelRead => exact takes (turns_of_outside channelReadClaim_outside) h
  | channelAbort => exact takes (turns_of_outside channelAbortClaim_outside) h
  | channelResume => exact takes (turns_of_outside channelResumeClaim_outside) h
  | faultAck => exact takes (body := faultAckClaim) (fun _ _ => rfl) h
  | setLockTimeout => exact takes setLockTimeoutClaim_turns h
  | linkReset => exact takes (turns_of_outside linkResetClaim_outside) h
  | deviceReset => exact takes (body := deviceResetClaim) (fun _ _ => rfl) h
  | unknownCommand code => exact takes (claimOf_turns code) h
  | attnPending v => cases h; exact attnPending
  | attnEnable v => cases h; exact attnEnable
  | registerWrite offset v =>
    change Host.Outcome.next _ = Host.Outcome.next _ at h
    cases h
    have param (k : Fin 4) : Closes s (writeParam k v s) := by
      unfold writeParam; split <;> exact .plain rfl rfl rfl
    unfold writeRegister
    split
    · exact takeCommand_closes (claimOf_turns _) s
    · exact param 0
    · exact param 1
    · exact param 2
    · exact param 3
    · exact attnPending
    · exact attnEnable
    · exact .plain rfl rfl rfl

theorem step_closes (h : step s = .next t) : Closes s t := by
  unfold step at h
  split at h
  · cases h
    exact .settles (s.setNow (s.now + 1)) rfl rfl
  · rename_i c rest _
    rcases exec_closes (s := s.setPending rest) h with ⟨hc, hp, ht⟩ | ⟨u, ht, e⟩ | ⟨hc, hw, hg, ht⟩
    · exact .plain hc hp ht
    · exact .settles u ht e
    · exact .cleared hc hw hg ht

/-- No free DRAM stands before a waiting burst. -/
def State.Grants (s : State) : Prop := s.port.granted = none → ∀ cl : Claimant, s.port.waiting[cl] = none

theorem grants_iff : s.Grants ↔ (s.port.granted = none → nextClaimant s.port = none) := by
  unfold State.Grants; rw [nextClaimant_eq_none]

/-- A command leaves no free DRAM before a waiting burst. -/
theorem Closes.grants (h : Closes s t) (hs : s.Grants) : t.Grants := by
  cases h with
  | plain hc hp ht => unfold State.Grants; rw [hp]; exact hs
  | settles u ht h => rw [h]; exact grants_iff.2 (grantBurst_grants _)
  | cleared hc hw hg ht => intro _ cl; rw [hw]; simp [State.reset]

/-- With no turns to come a command leaves the part settled. -/
theorem Closes.settled (h : Closes s t) (h0 : s.turns = []) (hs : Settled s) : t.turns = [] ∧ Settled t := by
  cases h with
  | plain hc hp ht => exact ⟨ht.trans h0, hs.congr hc hp⟩
  | settles u ht h =>
    rw [h]
    obtain ⟨h1, h2⟩ := settle_settled (s := u) (ht.trans h0)
    exact ⟨h2, h1⟩
  | cleared hc hw hg ht =>
    refine ⟨ht.trans h0, ?_, fun _ => ?_⟩
    · rw [readyChannel_eq_none]
      intro c
      unfold isReady; rw [hc]; simp [State.reset, Channel.reset]
    · rw [nextClaimant_eq_none, hw]
      intro cl; simp [State.reset]

/-- The work that a channel takes up at once, written out. -/
theorem isReady_iff_work : isReady s c = true ↔ ∃ p, s.chans[c].primary = some p ∧
    (p.work = .promote ∨ p.work = .fetch ∨ p.work = .resume ∨ p.work = .resolve ∨ p.work = .unit ∨ p.work = .record) := by
  rw [isReady_iff]
  refine exists_congr fun p => and_congr_right fun _ => ?_
  cases p.work <;> simp [Work.ready]

/-- How settling takes up the first piece of ready work. -/
theorem settle_takes (hc : isReady s c = true) (hl : ∀ d, d < c → isReady s d = false) :
    (s.turns = [] → settle s = settle (advance c s)) ∧
    (∀ later, s.turns = none :: later → settle s = grantBurst { s with turns := later }) ∧
    (∀ d later, s.turns = some d :: later →
      (isReady s d = true → settle s = settle (advance d { s with turns := later })) ∧
      (isReady s d = false → settle s = settle (advance c { s with turns := later }))) := by
  have hr := readyChannel_eq_some hc hl
  refine ⟨fun ht => settle_advance (runReady_lowest ht hr 39), fun later ht => ?_, fun d later ht => ?_⟩
  · exact congrArg grantBurst (runReady_pause ht (by rw [hr]; simp) 39)
  · have e := runReady_turn ht hr 39
    refine ⟨fun hd => ?_, fun hd => ?_⟩
    · rw [if_pos hd] at e; exact settle_advance (s' := s.setTurns later) e
    · rw [if_neg (by rw [hd]; simp)] at e; exact settle_advance (s' := s.setTurns later) e

/-- Settles O58: credits and channels act by act, and settling by the weight of the work that is ready. -/
theorem everyStepKeepsCreditsAndChannels : Obligations.EveryStepKeepsCreditsAndChannels := by
  unfold Obligations.EveryStepKeepsCreditsAndChannels
  refine ⟨⟨step_keeps (fun _ _ _ => Act.creditLaw) fun _ _ => Takes.creditLaw,
    step_keeps (fun _ _ _ => Act.channelLaw) fun _ _ => Takes.channelLaw⟩, fun s => ?_,
    fun _ _ hs h => (step_closes h).grants hs, fun _ _ ht hs h => (step_closes h).settled ht hs⟩
  simp only [← isReady_iff_work, Bool.not_eq_true]
  refine ⟨fun h => settle_of_ready_none (readyChannel_eq_none.2 h), fun c hc hl => settle_takes hc hl,
    fun ht => (settle_settled ht).1⟩

end Sys2Proof.Machine

/-! One row per kind of request: which claims a row carries out, on which request, and what one claim or a whole service
comes to. -/

namespace Sys2Proof.Machine

section Rows

variable {s t u : State} {q : Request} {rest : List Request} {r : InService}

/-- The claims of a request's kind (R78, R87, R91, R111). -/
def Request.claim (q : Request) : Stage → State → State :=
  match q.body with
  | .openWindow tag wanted => openClaim q.slot tag wanted
  | .closeWindow h => onlyClaim (closeClaim q.slot h)
  | .read h offset n => accessClaims (accessChecks q.slot h offset n.toNat (toStage .checked))
      (resolveThen q.slot h offset n.toNat Rights.R (toStage .translation)) (translateAndBurst readBursts)
  | .write h offset bytes => accessClaims (accessChecks q.slot h offset bytes.length (failRequest .limited h offset))
      (resolveThen q.slot h offset bytes.length Rights.W (toStage .translation)) (translateAndBurst (writeBursts · bytes))
  | .readLock h offset n => accessClaims (accessChecks q.slot h offset n.toNat (failRequest .limited h offset))
      (resolveThen q.slot h offset n.toNat (Rights.R ||| Rights.K) (lockStep q.slot h offset)) (translateAndBurst readBursts)
  | .writeUnlock h offset bytes => accessClaims
      (accessChecks q.slot h offset bytes.length fun s => failRequest .limited h offset (limitedRelease q.slot h s))
      (resolveThen q.slot h offset bytes.length (Rights.W ||| Rights.K) (unlockStep q.slot h offset))
      (translateAndBurst (writeBursts · bytes))
  | .query h => onlyClaim (queryClaim q.slot h)
  | .start channel h offset => startClaims q.slot channel h offset
  | .cancel channel => onlyClaim (serveCancel q.slot channel)
  | .channelStatus channel => onlyClaim (serveChannelStatus channel)
  | .unknown _ => onlyClaim (failRequest .badRequest Handle.null 0)

/-- The row of a kind serves the requests whose row it is, with the claims of their kind. -/
theorem exec_row (b : ReqBody) (claims : Option Nat) (s : State) : ∃ kind,
    exec (b.row claims) s = .next (serveRow kind claims s) ∧
    ∀ q : Request, kind q = if q.body.row claims = b.row claims then some q.claim else none := by
  cases b <;> refine ⟨_, rfl, fun ⟨slot, tag, body⟩ => ?_⟩ <;> cases body <;> simp [ReqBody.row, Request.claim]

theorem exec_row_none {b : ReqBody} {claims : Option Nat} (h : inHand s = none) : exec (b.row claims) s = .next s := by
  obtain ⟨kind, e, -⟩ := exec_row b claims s
  rw [e]; unfold serveRow; rw [h]

theorem exec_row_other {b : ReqBody} {claims : Option Nat} (h : inHand s = some (q, t))
    (hb : q.body.row claims ≠ b.row claims) : exec (b.row claims) s = .next s := by
  obtain ⟨kind, e, hk⟩ := exec_row b claims s
  have := hk q
  rw [if_neg hb] at this
  rw [e]; unfold serveRow; rw [h]; simp only [this]

theorem exec_row_of {claims : Option Nat} (h : inHand s = some (q, t)) :
    exec (q.body.row claims) s = .next (settle (carryOn q.claim (claims.getD serviceBound) t)) := by
  obtain ⟨kind, e, hk⟩ := exec_row q.body claims s
  rw [e, serveRow_of h ((hk q).trans (if_pos rfl))]

/-- The row of the request at the head of the queue. -/
theorem exec_atHead (hq : AtHead s q rest) (claims : Option Nat) :
    exec (q.body.row claims) s = .next (settle (carryOn q.claim (claims.getD serviceBound) (s.serving q rest))) :=
  exec_row_of (inHand_atHead hq)

/-- The whole service of the request at the head of the queue, claim by claim. -/
theorem exec_whole (hq : AtHead s q rest) :
    exec (q.body.row none) s = .next (settle (carryOn q.claim (257 + 3) (s.serving q rest))) :=
  exec_atHead hq none

/-- A whole service of the request at the head of the queue that leaves nothing to settle. -/
theorem exec_answers (hs : Settled s) (hq : AtHead s q rest) (hu : carryOn q.claim (257 + 3) (s.serving q rest) = u)
    (hc : u.chans = s.chans) (hp : u.port = s.port) : exec (q.body.row none) s = .next u := by
  rw [exec_whole hq, hu, settle_of_same hs hc hp]

/-- The row of the request in service. -/
theorem exec_inService (hr : s.server = some r) (hb : r.stage ≠ .bursts) (claims : Option Nat) :
    exec (r.request.body.row claims) s = .next (settle (carryOn r.request.claim (claims.getD serviceBound) s)) :=
  exec_row_of (inHand_inService hr hb)

/-- One claim of the request in service. -/
theorem exec_oneClaim (hr : s.server = some r) (hb : r.stage ≠ .bursts) (he : ∀ code payload, r.stage ≠ .ending code payload) :
    exec (r.request.body.row (some 1)) s = .next (settle (r.request.claim r.stage s)) := by
  rw [exec_inService hr hb, Option.getD_some, carryOn_claim hr hb he]; rfl

/-- One claim of the request in service that leaves nothing to settle. -/
theorem exec_claims (hs : Settled s) (hr : s.server = some r) (hb : r.stage ≠ .bursts)
    (he : ∀ code payload, r.stage ≠ .ending code payload) (hu : r.request.claim r.stage s = u) (hc : u.chans = s.chans)
    (hp : u.port = s.port) : exec (r.request.body.row (some 1)) s = .next u := by
  rw [exec_oneClaim hr hb he, hu, settle_of_same hs hc hp]

/-! ### Where a service stands after a claim -/

/-- The service has reached a result, its request the same. -/
def State.Reached (s : State) (q : Request) : Prop :=
  ∃ r code payload, s.server = some r ∧ r.request = q ∧ r.stage = .ending code payload

theorem reach_reached (hr : s.server = some r) (hq : r.request = q) (code : Code) (payload : List Byte) :
    (reach code payload s).Reached q :=
  ⟨{ r with stage := .ending code payload }, code, payload, congrArg State.server (reach_of hr), hq, rfl⟩

/-- A violation of the request in service keeps it in service. -/
theorem violation_server (reason : Code) (h : Handle) (offset : Nat) (hr : s.server = some r) (hd : r.detached = false) :
    ∃ r', (violation reason r.request.slot none h offset true s).server = some r' ∧ r'.request = r.request := by
  have hc : (s.chargedBy reason r.request.slot none h offset).server = some r :=
    (congrArg Inside.server (chargedBy_inside s reason r.request.slot none h offset)).trans hr
  rcases violation_split reason r.request.slot none h offset true s with ⟨-, e⟩ | ⟨-, e⟩
  · exact ⟨_, (congrArg State.server e).trans (teardown_own none hc rfl hd).1, rfl⟩
  · exact ⟨r, by rw [e]; exact hc, rfl⟩

theorem failRequest_reached (code : Code) (h : Handle) (offset : Nat) (hr : s.server = some r) (hd : r.detached = false) :
    (failRequest code h offset s).Reached r.request := by
  unfold failRequest; rw [hr]; dsimp only
  split
  · obtain ⟨r', e, hq⟩ := violation_server code h offset hr hd
    exact reach_reached e hq code []
  · exact reach_reached hr rfl code []

end Rows

end Sys2Proof.Machine

/-! Steps: every command answers a next state, and which states a request row leaves as they are. -/

namespace Sys2Proof.Machine

section Steps

variable {s : State} {q : Request} {rest : List Request}

/-- Settles O1. -/
theorem stepCarriesOutTheFrontCommand : Obligations.StepCarriesOutTheFrontCommand := by
  unfold Obligations.StepCarriesOutTheFrontCommand
  intro s c rest h
  unfold step; rw [h]; rfl

theorem exec_answersNext (c : Instr) (s : State) : ∃ t, exec c s = .next t := by cases c <;> exact ⟨_, rfl⟩

theorem step_empty (h : s.pending = []) : step s = .next (settle { s with now := s.now + 1 }) := by
  unfold step; split
  · rfl
  · rename_i e; rw [h] at e; cases e

/-- A CANCEL's claim leaves the request in service as it is. -/
theorem cancelClaim_server (c : Chan) (slot : Slot) (s : State) : (cancelClaim c slot s).2.server = s.server := by
  have abort (t : State) : (abortPrimary c .aborted t).server = t.server := by
    unfold abortPrimary; rw [endAtBoundary_frame]; rfl
  unfold cancelClaim; dsimp only
  split
  · rw [abort]; split <;> rfl
  · split <;> rfl

/-- The kinds that one claim serves (log entry 24). -/
def ReqBody.OneClaim (b : ReqBody) : Prop :=
  ∃ h channel kind, b = .closeWindow h ∨ b = .query h ∨ b = .cancel channel ∨ b = .channelStatus channel ∨ b = .unknown kind

/-- The one claim of such a kind reaches its result. -/
theorem oneClaim_reached (hb : q.body.OneClaim) : (q.claim .begun (s.serving q rest)).Reached q := by
  have reached {t : State} (h : t.server = some (InService.begin q)) (code : Code) (payload : List Byte) :
      (reach code payload t).Reached q := reach_reached h rfl code payload
  have fails (code : Code) (h : Handle) (offset : Nat) : (failRequest code h offset (s.serving q rest)).Reached q :=
    failRequest_reached (s := s.serving q rest) (r := InService.begin q) code h offset rfl rfl
  obtain ⟨slot, tag, body⟩ := q
  obtain ⟨h, channel, kind, e | e | e | e | e⟩ := hb
  all_goals cases e
  · change (closeClaim slot h _).Reached _
    unfold closeClaim; split
    · exact fails _ h 0
    · exact reached (by rfl) _ _
  · change (queryClaim slot h _).Reached _
    unfold queryClaim; split <;> exact reached rfl _ _
  · change (serveCancel slot channel _).Reached _
    unfold serveCancel; split
    · exact fails _ _ 0
    · rename_i c _
      exact reached (cancelClaim_server c slot _) _ _
  · change (serveChannelStatus channel _).Reached _
    unfold serveChannelStatus; split
    · exact fails _ _ 0
    · exact reached rfl _ _
  · exact fails .badRequest Handle.null 0

/-- A kind of one claim: its row of one claim, its whole row, and its rows of more claims. -/
theorem exec_of_reached (hq : AtHead s q rest) (hu : (q.claim .begun (s.serving q rest)).Reached q) :
    ∃ (u : State) (r : InService) (code : Code) (payload : List Byte),
      u.server = some r ∧ r.request = q ∧ r.stage = .ending code payload ∧
      exec (q.body.row (some 1)) s = .next (settle u) ∧
      exec (q.body.row none) s = .next (settle ((u.lockGivenUp r code).ended r code payload)) ∧
      ∀ n, exec (q.body.row (some (n + 2))) s = exec (q.body.row none) s := by
  obtain ⟨r, code, payload, hr, hrq, hg⟩ := hu
  have whole (n : Nat) : carryOn q.claim (n + 2) (s.serving q rest) =
      ((q.claim .begun (s.serving q rest)).lockGivenUp r code).ended r code payload := by
    rw [carryOn_serving, carryOn_ending hr hg, endService_eq code payload hr]
  have none_eq := exec_atHead hq none
  rw [Option.getD_none, whole 258] at none_eq
  refine ⟨_, r, code, payload, hr, hrq, hg, ?_, none_eq, fun n => ?_⟩
  · rw [exec_atHead hq, Option.getD_some, carryOn_serving]; rfl
  · rw [exec_atHead hq, Option.getD_some, whole n, none_eq]

/-- Settles O2: a row whose kind is not that of the request in hand changes nothing, and the kinds of one claim reach their
result in it. -/
theorem everyStepAnswersANextState : Obligations.EveryStepAnswersANextState := by
  unfold Obligations.EveryStepAnswersANextState
  refine ⟨exec_answersNext, fun s h => ⟨step_empty h, fun hs => ?_⟩, fun s b claims => ⟨?idle, ?otherHead, ?otherServed, ?taken⟩,
    fun s q rest hq hb => exec_of_reached hq (oneClaim_reached hb)⟩
  · rw [step_empty h]; exact congrArg _ (settle_of_same hs rfl rfl)
  case idle => exact fun h hq => exec_row_none (by unfold inHand; rw [h, hq])
  case otherHead => exact fun q rest hq hb => exec_row_other (inHand_atHead hq) hb
  case otherServed =>
    intro r hr h
    by_cases hg : r.stage = .bursts
    · exact exec_row_none (by unfold inHand; simp only [hr, if_pos hg])
    · exact exec_row_other (inHand_inService hr hg) (h.resolve_left hg)
  case taken =>
    intro q rest hs hq
    rw [exec_atHead hq, Option.getD_some]
    exact congrArg _ (settle_of_same hs rfl rfl)

end Steps

/-! ### Commands of the manager -/

/-- The manager's commands that the table of 10.8 names. -/
def managerCommands : List Instr :=
  [.create, .modify, .setAbsent, .setValid, .retire, .readDescriptor, .readOpener, .probe, .mapWrite, .mapFill, .mapClear,
    .mapRead, .requesterSet, .filterSet, .requesterRead, .readmit, .channelRead, .channelAbort, .channelResume, .faultAck,
    .setLockTimeout, .linkReset, .deviceReset]

theorem exec_managerCommand {c : Instr} (hc : c ∈ managerCommands) :
    ∃ code body, ∀ s, exec c s = .next (takeCommand code body s) := by
  simp only [managerCommands, List.mem_cons, List.not_mem_nil, or_false] at hc
  rcases hc with rfl | rfl | rfl | rfl | rfl | rfl | rfl | rfl | rfl | rfl | rfl | rfl | rfl | rfl | rfl | rfl | rfl | rfl |
    rfl | rfl | rfl | rfl | rfl <;> exact ⟨_, _, fun _ => rfl⟩

theorem exec_unknownCommand (code : Byte) (s : State) :
    exec (.unknownCommand code) s = .next (takeCommand code (claimOf code) s) := rfl

/-- A code that the table does not name begins the claim that fails. -/
theorem claimOf_unknown {code : Byte} (h : Instr.wellFormed (.unknownCommand code) = true) : claimOf code = unknownClaim := by
  have hc : code = BitVec.ofNat 8 code.toNat := by simp
  unfold claimOf; split <;> first
    | (rename_i e; rw [e] at hc; subst hc; exact absurd h (by decide))
    | rfl

/-- Settles O41: a BUSY engine drops every command word, and an unknown code fails its one check. -/
theorem busyOrUnknownCommandsTakeNoEffect : Obligations.BusyOrUnknownCommandsTakeNoEffect := by
  unfold Obligations.BusyOrUnknownCommandsTakeNoEffect
  refine ⟨fun s w hr hb => ⟨fun c hc => ?_, fun code => ?_⟩, fun s code h hs hw => ?_⟩
  · obtain ⟨code, body, e⟩ := exec_managerCommand hc
    rw [e, takeCommand_busy hr hb]
  · rw [exec_unknownCommand, takeCommand_busy hr hb]
  · rw [exec_unknownCommand, claimOf_unknown hw]
    exact congrArg _ (takeCommand_fails h hs (by decide) rfl)

/-! ### Resets -/

/-- Settles O3. -/
theorem resetStateHoldsTheResetValues : Obligations.ResetStateHoldsTheResetValues := by
  unfold Obligations.ResetStateHoldsTheResetValues
  refine ⟨fun i => ?_, fun e => ?_, rfl, rfl, rfl, fun cl => ?_, fun slot => ?_, rfl, rfl, fun c => ?_, rfl, rfl, rfl, rfl, rfl,
    rfl, rfl, rfl, rfl, rfl, rfl, rfl, rfl, rfl, rfl, rfl⟩ <;>
    simp [State.reset, Descriptor.reset, Requester.reset, Channel.reset]

/-- Settles O5: the RESET line guards every access. -/
theorem assertedResetPinHoldsThePart : Obligations.AssertedResetPinHoldsThePart := by
  unfold Obligations.AssertedResetPinHoldsThePart
  refine ⟨fun s hr => ⟨fun slot message => ?_, fun c hc => ?_, fun code => ?_, fun v => ⟨?_, ?_⟩, fun offset v => ?_,
    fun offset => ?_, ?_, ?_, fun slot => rfl, fun slot hp => ?_⟩, fun s => ⟨rfl, rfl⟩⟩
  · rw [exec_confirmation, execConfirmation, hr, Bool.or_true, if_pos rfl]
  · obtain ⟨code, body, e⟩ := exec_managerCommand hc
    rw [e, takeCommand_reset hr]
  · rw [exec_unknownCommand, takeCommand_reset hr]
  · rw [exec_attnPending, writeAttnPending, if_pos hr]
  · rw [exec_attnEnable, writeAttnEnable, if_pos hr]
  · rw [exec_registerWrite]
    congr 1
    unfold writeRegister
    split <;> first
      | rfl
      | exact takeCommand_reset hr
      | exact if_pos hr
  · exact if_pos hr
  · exact congrArg _ (if_pos hr)
  · show Host.Outcome.next _ = _
    congr 1
    split
    · rename_i hi
      rw [← hi]
    · exact if_pos hr
  · show Host.Outcome.next _ = _
    rw [if_neg (by rw [hp]; decide)]
    exact congrArg _ (if_pos hr)

/-- Settles O55. -/
theorem everyLawHoldsAtReset : Obligations.EveryLawHoldsAtReset := by
  unfold Obligations.EveryLawHoldsAtReset
  have wt (i : DIdx) : State.reset.wt[i] = Descriptor.reset := by simp [State.reset]
  have su (slot : Slot) : State.reset.su[slot] = Requester.reset false := by simp [State.reset]
  have chans (c : Chan) : State.reset.chans[c] = Channel.reset := by simp [State.reset]
  have primary (c : Chan) : State.reset.chans[c].primary = none := by rw [chans]; rfl
  refine ⟨fun slot => ?_, fun i => ?_, ⟨wt 0, fun i => ?_⟩, fun i => ?_, fun e => ?_, canonical_reset, ⟨by decide, fun slot => ?_⟩,
    fun c => ?_, ⟨fun i => ?_, fun c p hp => ?_⟩, ⟨fun c p hp => ?_, fun r hr => ?_⟩, fun h => ?_,
    ⟨fun slot _ => ⟨fun i => ?_, fun c => ?_, fun q hq => ?_⟩, fun r hr => ?_⟩, fun r hr => ?_, ⟨by decide, by decide⟩, ⟨?_, fun _ => ?_⟩, rfl⟩
  · rw [su]; exact ⟨Nat.zero_le _, rfl⟩
  · rw [wt]; simp [Descriptor.reset]
  · rw [wt]; simp [Descriptor.reset]
  · rw [wt]; simp [Descriptor.reset]
  · simp [State.reset]
  · rw [su]; simp [Requester.reset, queuedOf, inServiceOf, State.reset]
  · rw [chans]; exact Channel.reset_lawful
  · rw [wt]; simp [Descriptor.reset, holdsOn, serverPins, channelPins, State.reset, Channel.reset]
  · rw [primary] at hp; cases hp
  · rw [primary] at hp; cases hp
  · cases hr
  · cases h
  · rw [wt]; simp [Descriptor.reset]
  · rw [chans]; simp [Channel.reset]
  · cases hq
  · cases hr
  · cases hr
  · exact readyChannel_eq_none.2 fun c => by unfold isReady; rw [primary]; rfl
  · exact nextClaimant_eq_none.2 fun cl => by simp [State.reset]

end Sys2Proof.Machine

/-! Device resets and the bursts they cut (R74, R183), the arbiter (R69), translation (R58 to R60), the last pin (R18). -/

namespace Sys2Proof.Machine

section DeviceReset

variable {s : State}

/-! ### What a cut burst leaves of shared DRAM -/

/-- Bytes of which a device reset lets through those that the free value names. -/
def tornBytes (cuts : Nat) (bytes : List Byte) (a : Nat) (m : List Host.Cell) : List Host.Cell :=
  (bytes.zipIdx a).foldl (fun m (v, x) => if Config.cutTakesNew cuts x then Memory.write m x v else m) m

/-- The words in error after a cut. -/
def tornWords (cuts : Nat) (ws : List Nat) (e : List (Nat × WordErr)) : List (Nat × WordErr) :=
  ws.foldl (fun e w => Sparse.put e w (Config.cutWordError cuts w)) e

theorem tornBytes_cons (cuts : Nat) (v : Byte) (bytes : List Byte) (a : Nat) (m : List Host.Cell) :
    tornBytes cuts (v :: bytes) a m =
      tornBytes cuts bytes (a + 1) (if Config.cutTakesNew cuts a then Memory.write m a v else m) := by
  unfold tornBytes; rw [List.zipIdx_cons, List.foldl_cons]

/-- A byte that the burst does not carry is kept. -/
theorem read_tornBytes_outside (cuts : Nat) {x : Nat} : ∀ (bytes : List Byte) (a : Nat) {m : List Host.Cell},
    Memory.wf m = true → x < a ∨ a + bytes.length ≤ x → Memory.read (tornBytes cuts bytes a m) x = Memory.read m x
  | [], _, _, _, _ => rfl
  | v :: bytes, a, m, hm, hx => by
    rw [List.length_cons] at hx
    rw [tornBytes_cons]
    split
    · rw [read_tornBytes_outside cuts bytes (a + 1) (Memory.wf_write hm a v) (by omega), Memory.read_write hm,
        if_neg (by omega)]
    · exact read_tornBytes_outside cuts bytes (a + 1) hm (by omega)

/-- A byte that the burst carries is old or new. -/
theorem read_tornBytes_inside (cuts : Nat) : ∀ (bytes : List Byte) (a : Nat) {m : List Host.Cell}, Memory.wf m = true →
    ∀ k : Fin bytes.length, Memory.read (tornBytes cuts bytes a m) (a + k) = Memory.read m (a + k) ∨
      Memory.read (tornBytes cuts bytes a m) (a + k) = bytes[k]
  | [], _, _, _, k => k.elim0
  | v :: bytes, a, m, hm, ⟨0, _⟩ => by
    rw [tornBytes_cons]
    show Memory.read _ a = _ ∨ Memory.read _ a = v
    split
    · rw [read_tornBytes_outside cuts bytes (a + 1) (Memory.wf_write hm a v) (by omega), Memory.read_write hm, if_pos rfl]
      exact .inr rfl
    · exact .inl (read_tornBytes_outside cuts bytes (a + 1) hm (by omega))
  | v :: bytes, a, m, hm, ⟨k + 1, hk⟩ => by
    have hk' : k < bytes.length := Nat.lt_of_succ_lt_succ hk
    rw [tornBytes_cons]
    show Memory.read _ (a + (k + 1)) = _ ∨ Memory.read _ (a + (k + 1)) = bytes[k]
    rw [show a + (k + 1) = a + 1 + k by omega]
    split
    · have h := read_tornBytes_inside cuts bytes (a + 1) (Memory.wf_write hm a v) ⟨k, hk'⟩
      rwa [Memory.read_write hm, if_neg (by simp only; omega)] at h
    · exact read_tornBytes_inside cuts bytes (a + 1) hm ⟨k, hk'⟩

/-- A word that no byte of the burst lies in keeps what is wrong with it. -/
theorem find_tornWords_of_not_mem (cuts : Nat) {w : Nat} : ∀ (ws : List Nat) {e : List (Nat × WordErr)}, Ecc.wf e = true →
    w ∉ ws → Sparse.find (tornWords cuts ws e) w = Sparse.find e w
  | [], _, _, _ => rfl
  | x :: ws, e, he, hw => by
    obtain ⟨hx, hw⟩ := not_or.1 (List.mem_cons.not.1 hw)
    show Sparse.find (tornWords cuts ws (Sparse.put e x _)) w = _
    rw [find_tornWords_of_not_mem cuts ws (Ecc.wf_put he x _) hw, Ecc.find_put he, if_neg hx]

theorem mem_wordsOf {a n w : Nat} : w ∈ wordsOf a n ↔ a / 8 ≤ w ∧ w ≤ (a + n - 1) / 8 := by
  unfold wordsOf; rw [List.mem_range'_1]; omega

/-- A cut write burst stops short, or tears its bytes and its words' check bits. -/
theorem cutBurst_write (a : Nat) (bytes : List Byte) (s : State) : cutBurst (.write a bytes) s = s ∨
    cutBurst (.write a bytes) s =
      (s.setMem (tornBytes s.cuts bytes a s.mem)).setEcc (tornWords s.cuts (wordsOf a bytes.length) s.ecc) := by
  unfold cutBurst; dsimp only
  split
  · exact .inr rfl
  · exact .inl rfl

theorem cutGranted_of_not_write (h : ∀ cl a bytes, s.port.granted ≠ some (cl, .write a bytes)) : cutGranted s = s := by
  unfold cutGranted
  split
  · rename_i cl b e
    cases b with
    | read a n => rfl
    | write a bytes => exact absurd e (h cl a bytes)
  · rfl

theorem cutGranted_of_write {cl : Claimant} {b : Burst} (h : s.port.granted = some (cl, b)) : cutGranted s = cutBurst b s := by
  unfold cutGranted; rw [h]

/-- What a cut leaves of shared DRAM depends on the port and shared DRAM, and on the cuts taken. -/
theorem cutGranted_congr {t : State} (hp : t.port = s.port) (hm : t.mem = s.mem) (he : t.ecc = s.ecc) (hc : t.cuts = s.cuts) :
    (cutGranted t).mem = (cutGranted s).mem ∧ (cutGranted t).ecc = (cutGranted s).ecc := by
  have check (ws : List Nat) : checkWords t ws = checkWords s ws := by unfold checkWords; rw [he]
  have bank (a : Nat) : installed t a = installed s a := by unfold installed; rw [hp]
  have cut (b : Burst) : (cutBurst b t).mem = (cutBurst b s).mem ∧ (cutBurst b t).ecc = (cutBurst b s).ecc := by
    unfold cutBurst
    cases b with
    | read a n => exact ⟨hm, he⟩
    | write a bytes =>
      simp only [check, bank]
      split
      · rw [hm, he, hc]; exact ⟨rfl, rfl⟩
      · exact ⟨hm, he⟩
  unfold cutGranted
  rw [hp]
  split
  · exact cut _
  · exact ⟨hm, he⟩

/-! ### The reset -/

theorem deviceReset_eq (s : State) : deviceReset s = { State.reset with
    port := { State.reset.port with installedFrames := s.port.installedFrames }
    mem := (cutGranted s).mem
    ecc := (cutGranted s).ecc
    su := Vector.ofFn fun slot => Requester.reset s.lines.present[slot]
    linkOut := s.linkOut
    busRead := s.busRead
    lines := s.lines
    now := s.now
    cuts := s.cuts + 1
    turns := s.turns
    pending := s.pending } := by
  rw [← mapTable_eq_ofFn]; rfl

theorem settle_deviceReset (s : State) : settle (deviceReset s) = deviceReset s :=
  State.Held.settle ⟨rfl, rfl, rfl, rfl, rfl, rfl, rfl, rfl, rfl, rfl, rfl, fun slot => by
    rw [deviceReset_eq]; simp⟩

/-- Settles O4: the pin and the command reset alike, and a granted write burst is cut byte by byte. -/
theorem deviceResetGivesEveryBlockItsResetValues : Obligations.DeviceResetGivesEveryBlockItsResetValues := by
  unfold Obligations.DeviceResetGivesEveryBlockItsResetValues
  refine fun s => ⟨(cutGranted s).mem, (cutGranted s).ecc, fun hr => ?pin, fun h => ?command, fun h => ?kept,
    fun cl a bytes hc hg => ?cut⟩
  case pin =>
    obtain ⟨hm, he⟩ := cutGranted_congr (s := s) (t := s.setLines { s.lines with reset := true }) rfl rfl rfl rfl
    show Host.Outcome.next _ = _
    rw [if_neg (by rw [hr]; decide), deviceReset_eq, hm, he]; rfl
  case command =>
    obtain ⟨hm, he⟩ := cutGranted_congr (s := s) (t := s.commanded 0x31) rfl rfl rfl rfl
    show Host.Outcome.next (takeCommand 0x31 deviceResetClaim s) = _
    rw [takeCommand_idle h, deviceResetClaim, settle_deviceReset, deviceReset_eq, hm, he]
  case kept => rw [cutGranted_of_not_write h]; exact ⟨rfl, rfl⟩
  case cut =>
    rw [cutGranted_of_write hg]
    rcases cutBurst_write a bytes s with e | e <;> rw [e]
    · exact ⟨fun _ _ => rfl, fun _ => .inl rfl, fun _ _ => rfl⟩
    · exact ⟨fun x hx => read_tornBytes_outside _ bytes a hc.1 hx, read_tornBytes_inside _ bytes a hc.1,
        fun w hw => find_tornWords_of_not_mem _ _ hc.2 fun hm => by rw [mem_wordsOf] at hm; omega⟩

end DeviceReset

end Sys2Proof.Machine

/-! The arbiter's grant (R69), translation through the Page Map (R58 to R60), the last pin on a RETIRING descriptor (R18) and
the end of a list (R126). -/

namespace Sys2Proof.Machine

section

variable {s : State}

/-- Settles O25. -/
theorem freeDramIsGrantedInRingOrder : Obligations.FreeDramIsGrantedInRingOrder := by
  unfold Obligations.FreeDramIsGrantedInRingOrder
  refine fun s => ⟨fun h => grantBurst_of fun e => absurd e h, fun _ h => grantBurst_of fun _ => nextClaimant_eq_none.2 h,
    fun k cl b hg h1 h5 hcl hb hlow => ?_⟩
  exact grantBurst_free hg (nextClaimant_of h1 h5 hcl (by rw [hb]; rfl) hlow) hb

/-! ### The last pin -/

theorem engineOnFree_eq (i : DIdx) (s : State) : engineOnFree i s =
    { s with engine := if s.engine.state = .busy (.retire i) then s.engine.finished else s.engine } := by
  unfold engineOnFree
  split
  · rename_i j e
    rw [e]
    by_cases h : i = j
    · subst h; rw [if_pos rfl, if_pos rfl]; rfl
    · rw [if_neg h, if_neg (by simpa using Ne.symm h)]
  · rename_i h
    rw [if_neg (h i)]

/-- A descriptor that has entered FREE from a retire (R10). -/
def Descriptor.freed (d : Descriptor) : Descriptor :=
  { d with state := .free, gen := d.gen + 1, openers := Vector.replicate 16 none, holder := none, expiry := none
           expiredHolder := none }

theorem enterFree_eq (i : DIdx) (s : State) : enterFree i s = { s with
    wt := s.wt.set i s.wt[i].freed
    attn := { s.attn with pending := s.attn.pending ||| 0x200, retireLatch := i }
    engine := if s.engine.state = .busy (.retire i) then s.engine.finished else s.engine } := by
  unfold enterFree; rw [engineOnFree_eq]; rfl

/-- Settles O37. -/
theorem lastPinFreesARetiringDescriptor : Obligations.LastPinFreesARetiringDescriptor := by
  unfold Obligations.LastPinFreesARetiringDescriptor
  refine fun s i => ⟨fun h hp => ?_, fun h => removePin_of h⟩
  rw [removePin_last h hp.le, enterFree_eq]
  simp only [State.updDesc, get_set_self, set_set_self, Descriptor.freed, hp]
  rfl

/-! ### The end of a list -/

theorem Engine.waitsFor_set (e : Engine) (lists : Vector Bool 4) (c : Chan) (detached : Bool) :
    e.waitsFor (lists.set c false) detached =
      if (∀ d : Chan, d ≠ c → lists[d] = false) ∧ detached = false then e.finished
      else { e with state := .busy (.link (lists.set c false) detached) } := by
  have hall : lists.set c false = Vector.replicate 4 false ↔ ∀ d : Chan, d ≠ c → lists[d] = false := by
    constructor
    · intro h d hd
      rw [← get_set_ne lists hd.symm false, h]; simp
    · intro h
      ext d hd
      have hget := get_set lists c ⟨d, hd⟩ false
      simp only [Fin.getElem_fin] at hget
      rw [hget, Vector.getElem_replicate]
      split
      · rfl
      · rename_i hne; exact h ⟨d, hd⟩ fun e => hne e.symm
  unfold Engine.waitsFor
  simp only [hall]

theorem endEvent_eq (code : Code) : endEvent code = match code with
    | .ok => .ended
    | .aborted | .ownerGone | .ownerBarred => .aborted
    | _ => .fault := by cases code <;> rfl

/-- The records after a list's end: its owner is credited for OK (R54). -/
def Primary.credits (p : Primary) (code : Code) (su : Vector Requester 16) : Vector Requester 16 :=
  if code = .ok then p.owner.elim su fun o => su.set o su[o].credited else su

theorem Channel.promote_outcome (ch : Channel) (p : Primary) (code : Code) :
    ({ ch with outcome := p.outcome code, event := some (endEvent code) } : Channel).promote = ch.listEnded p code := by
  unfold Channel.promote Channel.listEnded
  cases ch.backup <;> rfl

/-- The end claim of a list none of whose pins is on a RETIRING descriptor. -/
theorem endList_of {c : Chan} {p : Primary} (hp : s.chans[c].primary = some p)
    (hv : ∀ x ∈ p.pins, s.wt[x.index].state ≠ .retiring) (code : Code) : endList c code s = { s with
      wt := withoutPins s.wt (p.pins.map (·.index))
      chans := s.chans.set c (s.chans[c].listEnded p code)
      attn := s.attn.raise (cChan c)
      su := p.credits code s.su
      port := { s.port with waiting := s.port.waiting.set (Claimant.ch c) none }
      engine := s.engine.listEnded c } := by
  let s1 : State := channelEvent c (endEvent code) (s.updChan c fun ch => { ch with outcome := p.outcome code })
  have credit : (if code = .ok then p.owner.elim s1 fun o => cleanCompletion o s1 else s1) =
      { s1 with su := p.credits code s.su } := by
    unfold Primary.credits
    split
    · cases p.owner <;> rfl
    · rfl
  have hr : ∀ i ∈ p.pins.map (·.index), ({ s1 with su := p.credits code s.su } : State).wt[i].state ≠ .retiring := by
    intro i hi
    obtain ⟨x, hx, rfl⟩ := List.mem_map.1 hi
    exact hv x hx
  have hch : (s1.chans.set c s1.chans[c].promote) = s.chans.set c (s.chans[c].listEnded p code) := by
    simp only [s1, channelEvent, raiseChan, State.updChan, State.setAttn, get_set_self, set_set_self]
    rw [Channel.promote_outcome]
  have e : endList c code s = engineOnListEnd c (withdrawBurst (Claimant.ch c)
      ((removePins (p.pins.map (·.index)) { s1 with su := p.credits code s.su }).updChan c Channel.promote)) := by
    rw [← credit]; unfold endList; rw [hp]
  rw [e, engineOnListEnd_eq, removePins_of hr]
  simp only [withdrawBurst, State.setPort, State.updChan]
  rw [hch]; rfl

/-- Settles O35. -/
theorem listEndRecordsItsOutcome : Obligations.ListEndRecordsItsOutcome := by
  unfold Obligations.ListEndRecordsItsOutcome
  intro s c p owner code hp hv ho
  have howner : p.outcomeOwner = owner := by
    unfold Primary.outcomeOwner
    rcases ho with h | ⟨h, -, m, hm, hmo⟩
    · rw [h]; rfl
    · rw [h, hm]; exact hmo
  have hcredit : p.credits code s.su = if code = .ok then s.su.set owner s.su[owner].credited else s.su := by
    unfold Primary.credits
    split
    · rename_i hc
      rw [(ho.resolve_right fun h => h.2.1 hc)]; rfl
    · rfl
  have hengine : s.engine.listEnded c = match s.engine.state with
      | .busy (.abort d) => if d = c then s.engine.finished else s.engine
      | .busy (.link lists detached) =>
        if (∀ d : Chan, d ≠ c → lists[d] = false) ∧ detached = false then s.engine.finished
        else { s.engine with state := .busy (.link (lists.set c false) detached) }
      | _ => s.engine := by
    unfold Engine.listEnded
    rcases s.engine.state with _ | ⟨_ | _ | _ | _⟩ <;> first | rfl | exact Engine.waitsFor_set _ _ _ _
  have hpins (l : List ChanPin) (v : Vector Descriptor 256) : withoutPins v (l.map (·.index)) =
      l.foldl (fun v x => v.set x.index { v[x.index] with pins := v[x.index].pins - 1 }) v := by
    unfold withoutPins; rw [List.foldl_map]
  dsimp only
  rw [endList_of hp hv, hcredit, hengine, hpins]
  unfold Channel.listEnded Primary.outcome
  rw [howner, endEvent_eq]
  unfold Attention.raise causeBit
  rw [show cChan c - 1 = c.val + 2 by unfold cChan; omega]
  rfl

/-! ### Translation -/

/-- The page that the byte at an offset of a window lies in, and its place there, when the window's page holds it (R58). -/
theorem place_first {x k : Nat} (h : k < 4096 - x % 4096) : (x + k) / 4096 = x / 4096 ∧ (x + k) % 4096 = x % 4096 + k := by
  omega

theorem place_second {x k : Nat} (h : 4096 - x % 4096 ≤ k) (hk : k < 4096) :
    (x + k) / 4096 = x / 4096 + 1 ∧ (x + k) % 4096 = k - (4096 - x % 4096) := by
  omega

/-- A translation, by whether the bytes stay in one page and which entries are valid. -/
theorem translate_eq (s : State) (base : DIdx) (offset n : Nat) : Machine.translate s base offset n =
    let x := s.wt[base].firstOffset + offset
    let e := s.wt[base].mapStart + x / 4096
    if (mapEntry s e).valid = false then .error e
    else if n ≤ 4096 - x % 4096 then .ok [((mapEntry s e).frame * 4096 + x % 4096, n)]
    else if (mapEntry s (e + 1)).valid = false then .error (e + 1)
    else .ok [((mapEntry s e).frame * 4096 + x % 4096, 4096 - x % 4096),
      ((mapEntry s (e + 1)).frame * 4096, n - (4096 - x % 4096))] := by
  unfold Machine.translate placeOf
  simp only [Bool.not_eq_true', Config.frameBytes]

/-- Settles O16: the bytes lie in the page of the first, or from the page's end on in the next. -/
theorem translationFollowsThePageMap : Obligations.TranslationFollowsThePageMap := by
  unfold Obligations.TranslationFollowsThePageMap
  intro s base offset n h1 h64
  dsimp only
  intro _
  rw [translate_eq]
  dsimp only
  generalize s.wt[base].firstOffset + offset = x
  generalize s.wt[base].mapStart = m
  have zero : (x + 0) / 4096 = x / 4096 := rfl
  by_cases hv : (mapEntry s (m + x / 4096)).valid = false
  · rw [if_pos hv]
    refine ⟨fun _ e => (nomatch e), fun entry e => ?_, fun h => ?_⟩
    · cases e
      exact ⟨⟨0, h1, rfl⟩, hv, fun k _ hk => by omega⟩
    · have := h 0 h1
      rw [zero, hv] at this; cases this
  rw [if_neg hv]
  have hfirst : (mapEntry s (m + x / 4096)).valid = true := by simpa using hv
  by_cases hn : n ≤ 4096 - x % 4096
  · rw [if_pos hn]
    have valid (k : Nat) (hk : k < n) : (mapEntry s (m + (x + k) / 4096)).valid = true := by
      rw [(place_first (hk.trans_le hn)).1]; exact hfirst
    refine ⟨fun pieces e => ⟨valid, ?_⟩, fun _ e => (nomatch e), fun _ => ⟨_, rfl⟩⟩
    cases e
    simp only [List.flatMap_cons, List.flatMap_nil, List.append_nil, List.range'_eq_map_range]
    refine List.map_congr_left fun k hk => ?_
    rw [List.mem_range] at hk
    obtain ⟨hd, hm⟩ := place_first (hk.trans_le hn)
    rw [hd, hm]; omega
  rw [if_neg hn]
  by_cases hv2 : (mapEntry s (m + x / 4096 + 1)).valid = false
  · rw [if_pos hv2]
    refine ⟨fun _ e => (nomatch e), fun entry e => ?_, fun h => ?_⟩
    · cases e
      refine ⟨⟨4096 - x % 4096, by omega, by omega⟩, hv2, fun k _ hk => ?_⟩
      rw [show m + (x + k) / 4096 = m + x / 4096 by omega]; exact hfirst
    · have := h (4096 - x % 4096) (by omega)
      rw [show m + (x + (4096 - x % 4096)) / 4096 = m + x / 4096 + 1 by omega, hv2] at this; cases this
  rw [if_neg hv2]
  have hsecond : (mapEntry s (m + x / 4096 + 1)).valid = true := by simpa using hv2
  have valid (k : Nat) (hk : k < n) : (mapEntry s (m + (x + k) / 4096)).valid = true := by
    by_cases hr : k < 4096 - x % 4096
    · rw [(place_first hr).1]; exact hfirst
    · rw [(place_second (by omega) (by omega)).1, ← Nat.add_assoc]; exact hsecond
  refine ⟨fun pieces e => ⟨valid, ?_⟩, fun _ e => (nomatch e), fun _ => ⟨_, rfl⟩⟩
  cases e
  have hsplit : n = (4096 - x % 4096) + (n - (4096 - x % 4096)) := by omega
  conv_rhs => rw [hsplit, List.range_add, List.map_append, List.map_map]
  simp only [List.flatMap_cons, List.flatMap_nil, List.append_nil, List.range'_eq_map_range]
  refine congrArg₂ (· ++ ·) ?_ ?_
  · refine List.map_congr_left fun k hk => ?_
    obtain ⟨hd, hm⟩ := place_first (List.mem_range.1 hk)
    rw [hd, hm]; omega
  · refine List.map_congr_left fun k hk => ?_
    rw [List.mem_range] at hk
    obtain ⟨hd, hm⟩ := place_second (x := x) (k := 4096 - x % 4096 + k) (by omega) (by omega)
    rw [Function.comp_apply, hd, hm, ← Nat.add_assoc]; omega

end

end Sys2Proof.Machine

/-! Messages and words: which messages are readable (R156, R184), the steps that bytes spell (R117), and how the reading
commands lay a record out (10.9). -/

namespace Sys2Proof.Machine

section Messages

variable {s : State}

theorem beNat_two (a b : Byte) : beNat [a, b] = a.toNat * 256 + b.toNat := by simp [beNat]

theorem beNat_three (a b c : Byte) : beNat [a, b, c] = a.toNat * 65536 + b.toNat * 256 + c.toNat := by
  simp only [beNat, List.foldl_cons, List.foldl_nil]; omega

theorem parseMessage_isSome (kind tag : Byte) (rest : List Byte) :
    (parseMessage (kind :: tag :: rest)).isSome ↔ (parseBody kind rest).isSome ∧ parity (kind :: tag :: rest) = 0 := by
  unfold parseMessage
  split
  · rename_i k t r e
    cases e
    split
    · rename_i hp; simp [hp]
    · rename_i hp; exact iff_of_false (by simp) fun h => hp h.2
  · rename_i h; exact absurd rfl (h kind tag rest)

theorem parseMessage_of {kind tag : Byte} {rest : List Byte} {body : ReqBody} (hb : parseBody kind rest = some body)
    (hp : parity (kind :: tag :: rest) = 0) :
    parseMessage (kind :: tag :: rest) = some (BitVec.ofNat 3 tag.toNat, body) := by
  simp only [parseMessage, hp, if_true, hb, Option.map_some]

/-- The bytes of a WRITE or WRITE_UNLOCK after its tag are as many as its count says. -/
def dataFits (rest : List Byte) : Bool :=
  match rest[5]? with
  | some count => rest.length == 7 + count.toNat
  | none => false

/-- The bytes after the kind and the tag are as many as the kind's layout has (10.2). -/
def layoutFits (kind : Byte) (rest : List Byte) : Bool :=
  match kind.toNat with
  | 0x01 => rest.length == 4
  | 0x02 => rest.length == 3
  | 0x03 => rest.length == 7
  | 0x04 => dataFits rest
  | 0x05 => rest.length == 7
  | 0x06 => dataFits rest
  | 0x07 => rest.length == 3
  | 0x08 => rest.length == 7
  | 0x09 => rest.length == 2
  | 0x0A => rest.length == 2
  | _ => rest.length == 1

theorem parseData_isSome (mk : Handle → Nat → List Byte → ReqBody) (rest : List Byte) :
    (parseData mk rest).isSome = dataFits rest := by
  rcases rest with _ | ⟨a, _ | ⟨b, _ | ⟨c, _ | ⟨d, _ | ⟨e, _ | ⟨f, l⟩⟩⟩⟩⟩⟩
  all_goals try rfl
  show (if l.length = f.toNat + 1 then some _ else none : Option ReqBody).isSome = ((l.length + 6) == 7 + f.toNat)
  rw [Bool.eq_iff_iff, beq_iff_eq, Option.isSome_ite]
  omega

/-- A request of an unknown kind has its parity byte after its tag. -/
theorem parseBody_unknown {kind : Byte} (h : kind.toNat = 0 ∨ 11 ≤ kind.toNat) (rest : List Byte) :
    parseBody kind rest = if rest.length = 1 then some (.unknown kind) else none := by
  unfold parseBody
  split <;> first
    | omega
    | rfl
    | exact (if_neg fun e => by
        obtain ⟨x, e⟩ := List.length_eq_one_iff.1 e
        exact ‹∀ b : Byte, _ = [b] → False› x e).symm

theorem eq_ofNat_toNat (b : Byte) : b = BitVec.ofNat 8 b.toNat := by simp

theorem parseBody_isSome (kind : Byte) (rest : List Byte) : (parseBody kind rest).isSome = layoutFits kind rest := by
  have hk := eq_ofNat_toNat kind
  unfold layoutFits
  split
  case h_4 e => rw [e] at hk; subst hk; exact parseData_isSome _ rest
  case h_6 e => rw [e] at hk; subst hk; exact parseData_isSome _ rest
  case h_11 h1 h2 h3 h4 h5 h6 h7 h8 h9 h10 =>
    simp only [imp_false] at h1 h2 h3 h4 h5 h6 h7 h8 h9 h10
    rw [parseBody_unknown (by omega), Bool.eq_iff_iff, beq_iff_eq, Option.isSome_ite]
  all_goals
    rename_i e
    rw [e] at hk; subst hk
    rcases rest with _ | ⟨a, _ | ⟨b, _ | ⟨c, _ | ⟨d, _ | ⟨e, _ | ⟨f, _ | ⟨g, _ | ⟨h, l⟩⟩⟩⟩⟩⟩⟩⟩ <;> rfl

/-- Settles O7: a message is readable where its layout fits and its parity is 0. -/
theorem unreadableMessageIsRefused : Obligations.UnreadableMessageIsRefused := by
  unfold Obligations.UnreadableMessageIsRefused
  refine ⟨fun s slot message => ⟨fun hi hr hm => ?_, fun hi => ?_⟩, fun kind tag rest => ⟨?_, rfl, rfl⟩⟩
  · rw [exec_confirmation_of_released hi hr]
    unfold confirm; rw [hm]; rfl
  · rw [exec_confirmation, execConfirmation, hi, Bool.true_or, if_pos rfl]
  · rw [parseMessage_isSome, parseBody_isSome]
    exact Iff.rfl

/-- Settles O8, kind by kind. -/
theorem messageFieldsAreRead : Obligations.MessageFieldsAreRead := by
  unfold Obligations.MessageFieldsAreRead
  intro t g i o2 o1 o0 n c p data
  dsimp only
  rw [← beNat_three, ← beNat_two]
  have withData (mk : Handle → Nat → List Byte → ReqBody) (h : n.toNat = data.length) :
      parseData mk (g :: i :: o2 :: o1 :: o0 :: n :: (data ++ [p])) = some (mk (handleOf g i) (beNat [o2, o1, o0]) data) := by
    unfold parseData
    dsimp only
    rw [if_pos (by rw [h]; simp), h, List.take_left]
  exact ⟨parseMessage_of rfl, parseMessage_of rfl, parseMessage_of rfl, fun h => parseMessage_of (withData .write h),
    parseMessage_of rfl, fun h => parseMessage_of (withData .writeUnlock h), parseMessage_of rfl, parseMessage_of rfl,
    parseMessage_of rfl, parseMessage_of rfl, fun kind h => parseMessage_of ((parseBody_unknown h [p]).trans (if_pos rfl))⟩

end Messages

/-! ### Steps -/

/-- Settles O28. -/
theorem stepBytesSpellAStepOrNone : Obligations.StepBytesSpellAStepOrNone := by
  unfold Obligations.StepBytesSpellAStepOrNone
  intro kind flags b2 b3 b4 b5 b6 b7 b8 b9 b10 b11 b12 b13 b14 b15
  dsimp only
  simp only [← beNat_three]
  unfold decodeStep
  dsimp only
  by_cases h1 : kind = 0x01
  · subst h1
    rw [if_pos rfl]
    unfold decodeMove
    refine (if_congr ?_ rfl rfl).trans (ite_congr rfl (fun _ => rfl) fun _ => by simp).symm
    simp only [true_and, Config.maxOffset, Config.maxCount]
    omega
  · rw [if_neg h1, if_neg (c := _ ∧ _) fun h => h1 h.1]
    by_cases h2 : kind = 0x02
    · subst h2
      rw [if_pos rfl]
      refine (if_congr ?_ rfl rfl).trans (ite_congr rfl (fun _ => rfl) fun _ => by simp).symm
      simp only [List.forall_mem_cons, List.not_mem_nil, false_imp_iff, implies_true, and_true, true_and, Config.maxOffset]
      tauto
    · rw [if_neg h2, if_neg (c := _ ∧ _) fun h => h2 h.1]
      by_cases h3 : kind = 0x03
      · subst h3
        rw [if_pos rfl]
        refine if_congr ?_ rfl rfl
        simp only [List.forall_mem_cons, List.not_mem_nil, false_imp_iff, implies_true, and_true, true_and, Config.maxOffset]
        tauto
      · rw [if_neg h3, if_neg (c := _ ∧ _) fun h => h3 h.1]

end Sys2Proof.Machine

/-! How READ_DESCRIPTOR, REQUESTER_READ and CHANNEL_READ lay a record out in words (10.9): each field fits its bits. -/

namespace Sys2Proof.Machine

theorem put_of_lt {hi lo n : Nat} (h : n < 2 ^ (hi + 1 - lo)) : put hi lo n = n * 2 ^ lo := put_eq_of_lt h

theorem putBit_eq (b : Nat) (v : Bool) : putBit b v = (if v then 1 else 0) * 2 ^ b := by
  rw [putBit_eq_ite]; cases v <;> simp

/-- Four words are given word by word. -/
theorem results_congr {a b c d a' b' c' d' : Word} (ha : a = a') (hb : b = b') (hc : c = c') (hd : d = d') :
    (#v[a, b, c, d] : Results) = #v[a', b', c', d'] := by
  subst ha hb hc hd; rfl

section Descriptors

variable (d : Descriptor)

theorem openerBits_eq : openerBits d =
    ((List.finRange 16).map fun i => if d.openers[i].isSome then 2 ^ i.val else 0).sum := by
  unfold openerBits
  simp only [putBit_eq_ite]
  rw [List.sum_eq_foldl, List.foldl_map]

theorem openerBits_lt : openerBits d < 2 ^ 16 := by
  rw [openerBits_eq]
  calc _ ≤ ((List.finRange 16).map fun i => 2 ^ i.val).sum := by
        refine List.sum_le_sum fun i _ => ?_
        split <;> simp
    _ < 2 ^ 16 := by decide

theorem interlockField_eq : interlockField d =
    (if d.holder.isSome then 2 else if d.expiredHolder.isSome then 1 else 0,
      (d.holder <|> d.expiredHolder).elim 0 (·.val)) := by
  unfold interlockField
  cases d.holder <;> cases d.expiredHolder <;> rfl

theorem DState.toNat_lt (x : DState) : x.toNat < 4 := by cases x <;> decide

theorem DType.toNat_lt (x : DType) : x.toNat < 4 := by cases x <;> decide

theorem Standing.toNat_lt (x : Standing) : x.toNat < 4 := by cases x <;> decide

theorem ChanState.toNat_lt (x : ChanState) : x.toNat < 8 := by cases x <;> decide

theorem elim_slot_lt (o : Option Slot) : o.elim 0 (·.val) < 16 := by
  cases o with
  | none => decide
  | some i => exact i.isLt

end Descriptors

theorem readDescriptorWords_eq {d : Descriptor} (hp : d.pins < 32) (hm : d.mapStart < 2048) (hf : d.firstOffset < 4096)
    (hl : d.length < 16777216) (hgo : d.gateOffset < 8388608) (hgl : d.gateLength < 16777216) :
    readDescriptorWords d = #v[
      word (d.tag.toNat + d.gen.toNat * 2 ^ 16 + d.state.toNat * 2 ^ 24 + d.dtype.toNat * 2 ^ 26 + d.rights.toNat * 2 ^ 28),
      word (openerBits d + d.pins * 2 ^ 16 + d.level.val * 2 ^ 21 + (interlockField d).1 * 2 ^ 23 +
        (interlockField d).2 * 2 ^ 25),
      word (if d.dtype = .gate then d.gateOffset + d.targetGen.toNat * 2 ^ 23 else d.mapStart + d.firstOffset * 2 ^ 11),
      word (if d.dtype = .gate then d.gateLength + d.targetIndex.val * 2 ^ 24 else d.length)] := by
  have hcond : (interlockField d).1 < 2 ^ 2 := by rw [interlockField_eq]; dsimp only; split <;> [decide; split <;> decide]
  have hslot : (interlockField d).2 < 2 ^ 4 := by rw [interlockField_eq]; exact elim_slot_lt _
  unfold readDescriptorWords
  dsimp only
  refine results_congr (congrArg word ?_) (congrArg word ?_) ?_ ?_
  · rw [put_of_lt (n := d.tag.toNat) d.tag.isLt, put_of_lt (n := d.gen.toNat) d.gen.isLt,
      put_of_lt (n := d.state.toNat) d.state.toNat_lt, put_of_lt (n := d.dtype.toNat) d.dtype.toNat_lt,
      put_of_lt (n := d.rights.toNat) d.rights.isLt, pow_zero, mul_one]
  · rw [put_of_lt (n := openerBits d) (openerBits_lt d), put_of_lt (n := d.pins) hp,
      put_of_lt (n := d.level.val) d.level.isLt, put_of_lt hcond, put_of_lt hslot, pow_zero, mul_one]
  · rw [apply_ite word, put_of_lt (n := d.gateOffset) hgo, put_of_lt (n := d.targetGen.toNat) d.targetGen.isLt,
      put_of_lt (n := d.mapStart) hm, put_of_lt (n := d.firstOffset) hf, pow_zero, mul_one, mul_one]
  · rw [apply_ite word, put_of_lt (n := d.gateLength) hgl, put_of_lt (n := d.targetIndex.val) d.targetIndex.isLt,
      put_of_lt (n := d.length) hl, pow_zero, mul_one, mul_one]

theorem filterWord_eq (f : Filter) : filterWord f = word (f.value.toNat + f.mask.toNat * 2 ^ 16) := by
  unfold filterWord
  rw [put_of_lt (n := f.value.toNat) f.value.isLt, put_of_lt (n := f.mask.toNat) f.mask.isLt, pow_zero, mul_one]

theorem requesterWord_eq {r : Requester} (hs : r.score ≤ 256) (ho : r.outstanding ≤ 4) :
    requesterWord r = word ((if r.enabled then 1 else 0) + (if r.present then 1 else 0) * 2 + r.level.val * 2 ^ 2 +
      r.standing.toNat * 2 ^ 4 + r.outstanding * 2 ^ 8 + r.score * 2 ^ 16 + (if r.filters[0].enabled then 1 else 0) * 2 ^ 25 +
      (if r.filters[1].enabled then 1 else 0) * 2 ^ 26 + (if r.filters[2].enabled then 1 else 0) * 2 ^ 27 +
      (if r.filters[3].enabled then 1 else 0) * 2 ^ 28) := by
  unfold requesterWord
  rw [put_of_lt (n := r.level.val) r.level.isLt, put_of_lt (n := r.standing.toNat) r.standing.toNat_lt,
    put_of_lt (n := r.outstanding) (by omega), put_of_lt (n := r.score) (by omega)]
  simp only [putBit_eq, pow_zero, pow_one, mul_one]

theorem requesterReadWords_zero (r : Requester) : requesterReadWords r 0 =
    #v[requesterWord r, filterWord r.filters[0], filterWord r.filters[1], 0] := if_pos rfl

theorem requesterReadWords_one (r : Requester) : requesterReadWords r 1 =
    #v[requesterWord r, filterWord r.filters[2], filterWord r.filters[3], 0] := if_neg (by decide)

theorem handleNat_lt (h : Handle) : handleNat h < 2 ^ 16 := by
  have := h.gen.isLt
  have := h.index.isLt
  unfold handleNat; omega

theorem slotField_lt (o : Option Slot) : slotField o < 2 ^ 5 := by
  cases o with
  | none => decide
  | some i => exact i.isLt.trans (by decide)

theorem eventKind_lt (e : Option EventKind) : EventKind.toNat e < 8 := by rcases e with _ | _ | _ | _ | _ <;> decide

theorem markCode_lt (m : Option MarkCode) : MarkCode.toNat m < 4 := by rcases m with _ | _ | _ | _ <;> decide

/-- A field of the primary slot that fits its bits where the slot is occupied. -/
theorem put_primary {c : Option Primary} {hi lo : Nat} {f : Primary → Nat} (h : ∀ p, c = some p → f p < 2 ^ (hi + 1 - lo)) :
    put hi lo (c.elim 0 f) = c.elim 0 f * 2 ^ lo := put_of_lt (by
  cases hc : c with
  | none => exact Nat.pow_pos (by decide)
  | some p => exact h p hc)

section Channels

variable {c : Channel}

theorem word_toNat (w : Word) : word w.toNat = w := by simp [word]

theorem markOwner_lt (m : Option Mark) : m.elim 0 (·.owner.val) < 2 ^ 4 := by
  cases m with
  | none => decide
  | some m => exact m.owner.isLt

theorem listWord_eq (c : Channel) : put 15 0 (c.primary.elim 0 (handleNat ·.handle)) + put 18 16 c.state.toNat +
      put 22 20 (EventKind.toNat c.event) + put 28 24 (slotField (c.primary.bind (·.owner))) =
    c.primary.elim 0 (handleNat ·.handle) + c.state.toNat * 2 ^ 16 + EventKind.toNat c.event * 2 ^ 20 +
      slotField (c.primary.bind (·.owner)) * 2 ^ 24 := by
  rw [put_primary fun p _ => handleNat_lt p.handle, put_of_lt (n := c.state.toNat) c.state.toNat_lt,
    put_of_lt (eventKind_lt c.event), put_of_lt (slotField_lt _), pow_zero, mul_one]

theorem offsetWord_eq {p : Primary} (ho : p.offset < 2 ^ 23) (hj : p.jumps < 2 ^ 4) :
    put 22 0 p.offset + put 27 24 p.jumps + put 29 28 (MarkCode.toNat (p.mark.map (·.code))) =
      p.offset + p.jumps * 2 ^ 24 + MarkCode.toNat (p.mark.map (·.code)) * 2 ^ 28 := by
  rw [put_of_lt (n := p.offset) ho, put_of_lt (n := p.jumps) hj, put_of_lt (markCode_lt _), pow_zero, mul_one]

theorem doneWord_eq {p : Primary} (hb : p.bytesDone < 2 ^ 21) :
    put 20 0 p.bytesDone + put 27 24 (p.mark.elim 0 (·.owner.val)) = p.bytesDone + p.mark.elim 0 (·.owner.val) * 2 ^ 24 := by
  rw [put_of_lt (n := p.bytesDone) hb, put_of_lt (markOwner_lt p.mark), pow_zero, mul_one]

theorem elim_congr {α : Type} {o : Option α} {f g : α → Nat} (h : ∀ x, o = some x → f x = g x) : o.elim 0 f = o.elim 0 g := by
  cases ho : o with
  | none => rfl
  | some x => exact h x ho

theorem totalWord_eq (o : Option Primary) : word (o.elim 0 (·.total.toNat)) = o.elim 0 (·.total) := by
  cases o with
  | none => rfl
  | some p => exact word_toNat p.total

theorem channelReadWords_zero (h : ∀ p, c.primary = some p → p.offset < 8388608 ∧ p.jumps < 16 ∧ p.bytesDone < 2097152) :
    channelReadWords c 0 = #v[
      word (c.primary.elim 0 (handleNat ·.handle) + c.state.toNat * 2 ^ 16 + EventKind.toNat c.event * 2 ^ 20 +
        slotField (c.primary.bind (·.owner)) * 2 ^ 24),
      word (c.primary.elim 0 fun p => p.offset + p.jumps * 2 ^ 24 + MarkCode.toNat (p.mark.map (·.code)) * 2 ^ 28),
      word (c.primary.elim 0 fun p => p.bytesDone + p.mark.elim 0 (·.owner.val) * 2 ^ 24),
      c.primary.elim 0 (·.total)] := by
  unfold channelReadWords
  rw [if_pos rfl]
  exact results_congr (congrArg word (listWord_eq c))
    (congrArg word (elim_congr fun p hp => offsetWord_eq (h p hp).1 (h p hp).2.1))
    (congrArg word (elim_congr fun p hp => doneWord_eq (h p hp).2.2)) (totalWord_eq _)

theorem channelReadWords_one (h : ∀ b, c.backup = some b → b.offset < 8388608) :
    channelReadWords c 1 = #v[
      word (c.backup.elim 0 (handleNat ·.handle) + slotField (c.backup.map (·.owner)) * 2 ^ 16),
      word (c.backup.elim 0 (·.offset)), 0, 0] := by
  have handle : c.backup.elim 0 (handleNat ·.handle) < 2 ^ 16 := by
    cases c.backup with
    | none => decide
    | some b => exact handleNat_lt b.handle
  have offset : c.backup.elim 0 (·.offset) < 2 ^ 23 := by
    cases hb : c.backup with
    | none => decide
    | some b => exact h b hb
  unfold channelReadWords
  rw [if_neg (by decide), if_pos rfl, put_of_lt handle, put_of_lt (slotField_lt _), put_of_lt offset, pow_zero, mul_one,
    mul_one]

theorem channelReadWords_two (h : c.outcome.offset < 8388608) :
    channelReadWords c 2 = #v[
      word ((if c.outcome.valid then 1 else 0) + c.outcome.owner.val * 2 ^ 4 + c.outcome.listIndex.val * 2 ^ 8 +
        c.outcome.code.toNat * 2 ^ 16),
      c.outcome.total, word c.outcome.offset, 0] := by
  unfold channelReadWords
  rw [if_neg (by decide), if_neg (by decide)]
  refine results_congr (congrArg word ?_) (word_toNat _) (congrArg word ?_) rfl
  · rw [putBit_eq, put_of_lt (n := c.outcome.owner.val) c.outcome.owner.isLt,
      put_of_lt (n := c.outcome.listIndex.val) c.outcome.listIndex.isLt,
      put_of_lt (n := c.outcome.code.toNat) (Code.toNat_lt _), pow_zero, mul_one]
  · rw [put_of_lt (n := c.outcome.offset) h, pow_zero, mul_one]

end Channels

theorem eventKind_eq (e : Option EventKind) : EventKind.toNat e = match e with
    | none => 0
    | some .ended => 1
    | some .fault => 2
    | some .stop => 3
    | some .aborted => 4 := by
  rcases e with _ | _ | _ | _ | _ <;> rfl

theorem markCode_eq (m : Option MarkCode) : MarkCode.toNat m = match m with
    | none => 0
    | some .aborted => 1
    | some .ownerGone => 2
    | some .ownerBarred => 3 := by
  rcases m with _ | _ | _ | _ <;> rfl

theorem listWord_congr {a a' e e' f f' : Nat} (n : Nat) (ha : a = a') (he : e = e') (hf : f = f') :
    a + n * 2 ^ 16 + e * 2 ^ 20 + f * 2 ^ 24 = a' + n * 2 ^ 16 + e' * 2 ^ 20 + f' * 2 ^ 24 := by
  subst ha he hf; rfl

theorem backupOwner_eq (o : Option Backup) : slotField (o.map (·.owner)) = o.elim 31 (·.owner.val) := by cases o <;> rfl

/-- Settles O47, record by record. -/
theorem resultWordsLayOutTheRecords : Obligations.ResultWordsLayOutTheRecords := by
  unfold Obligations.ResultWordsLayOutTheRecords
  refine ⟨fun d hp hm hf hl hgo hgl => ?_, fun r part hs ho hpart => ?_, fun c h0 h1 h2 => ⟨?_, ?_, ?_⟩⟩
  · rw [readDescriptorWords_eq hp hm hf hl hgo hgl, openerBits_eq, interlockField_eq]
    rfl
  · intro filter
    have first := requesterWord_eq hs ho
    obtain rfl | rfl : part = 0 ∨ part = 1 := by omega
    · rw [requesterReadWords_zero, if_pos rfl, if_pos rfl]
      exact results_congr first (filterWord_eq _) (filterWord_eq _) rfl
    · rw [requesterReadWords_one, if_neg (by decide), if_neg (by decide)]
      exact results_congr first (filterWord_eq _) (filterWord_eq _) rfl
  · rw [channelReadWords_zero h0]
    refine results_congr (congrArg word ?_) (congrArg word (elim_congr fun p _ => ?_)) rfl rfl
    · exact listWord_congr _ rfl (eventKind_eq _) rfl
    · exact congrArg (p.offset + p.jumps * 2 ^ 24 + · * 2 ^ 28) (markCode_eq _)
  · rw [channelReadWords_one h1, backupOwner_eq]
    exact results_congr (congrArg word (congrArg (· + _ * 2 ^ 16) rfl)) rfl rfl rfl
  · rw [channelReadWords_two h2]
    rfl

end Sys2Proof.Machine

/-! The manager's commands over the descriptors and the commands that read (1.4, 9.2): which fields a claim takes, and what it
leaves. -/

namespace Sys2Proof.Machine

section ManagerFields

/-! ### Fields and what they name -/

theorem field_15_8 (w : Word) : field w 15 8 = w.toNat / 256 % 256 := by simp [field]

theorem field_23_16 (w : Word) : field w 23 16 = w.toNat / 65536 % 256 := by simp [field]

theorem field_19_16 (w : Word) : field w 19 16 = w.toNat / 65536 % 16 := by simp [field]

theorem field_23_20 (w : Word) : field w 23 20 = w.toNat / 1048576 % 16 := by simp [field]

theorem field_31_24 (w : Word) : field w 31 24 = w.toNat / 16777216 := by
  have := w.isLt
  simp only [field]; omega

theorem field_31_16 (w : Word) : field w 31 16 = w.toNat / 65536 := by
  have := w.isLt
  simp only [field]; omega

theorem idxOf_val (i : DIdx) : idxOf i.val = i := Fin.ext (Nat.mod_eq_of_lt i.isLt)

theorem usableIndex_eq_none {n : Nat} (h : n = 0 ∨ 255 < n) : usableIndex n = none := if_neg (by omega)

theorem usableIndex_eq_some {i : DIdx} {n : Nat} (h0 : i ≠ 0) (h : i.val = n) : usableIndex n = some i := by
  have := i.isLt
  have : i.val ≠ 0 := fun e => h0 (Fin.ext e)
  rw [usableIndex, if_pos (by omega), ← h, idxOf_val]

theorem slotOf_eq_none {n : Nat} (h : 15 < n) : slotOf n = none := dif_neg (by omega)

theorem slotOf_eq_some {slot : Slot} {n : Nat} (h : slot.val = n) : slotOf n = some slot := by
  subst h; exact dif_pos slot.isLt

theorem chanOf_eq_none {n : Nat} (h : 3 < n) : chanOf n = none := dif_neg (by omega)

theorem chanOf_eq_some {c : Chan} {n : Nat} (h : c.val = n) : chanOf n = some c := by
  subst h; exact dif_pos c.isLt

theorem fin4Of_eq_none {n : Nat} (h : 3 < n) : fin4Of n = none := dif_neg (by omega)

theorem fin4Of_eq_some {k : Fin 4} {n : Nat} (h : k.val = n) : fin4Of n = some k := by
  subst h; exact dif_pos k.isLt

theorem rightsOf_eq_none {n : Nat} (h : 15 < n) : rightsOf n = none := if_neg (by omega)

theorem rightsOf_eq_some {n : Nat} (h : n ≤ 15) : rightsOf n = some (BitVec.ofNat 4 n) := if_pos (by omega)

end ManagerFields

section ManagerCommands

variable {s t : State} {c : Instr} {command : Byte} {body : Vector Word 4 → State → State} {code : Code}
  {p : Vector Word 4} {i : DIdx}

/-! ### How a command ends -/

/-- The claim fails a check. -/
theorem exec_fails (he : exec c s = .next (takeCommand command body s)) (h : EngineReady s) (hs : Settled s) (hc : code ≠ .ok)
    (hb : body s.engine.params (s.commanded command) = completeWith code (s.commanded command)) :
    exec c s = .next (s.engineAnswers command code Results.zero) :=
  he.trans (congrArg _ (takeCommand_fails h hs hc hb))

/-- The claim completes with these results. -/
theorem exec_results {results : Results} (he : exec c s = .next (takeCommand command body s)) (h : EngineReady s)
    (hs : Settled s) (hb : body s.engine.params (s.commanded command) = complete .ok results (s.commanded command)) :
    exec c s = .next (s.engineAnswers command .ok results) :=
  he.trans (congrArg _ (takeCommand_settled h hs hb rfl rfl))

/-- The claim leaves a state with nothing to settle. -/
theorem exec_takes (he : exec c s = .next (takeCommand command body s)) (h : EngineReady s) (hs : Settled s)
    (hb : body s.engine.params (s.commanded command) = t) (hc : t.chans = s.chans) (hp : t.port = s.port) :
    exec c s = .next t :=
  he.trans (congrArg _ (takeCommand_settled h hs hb hc hp))

/-! ### SET_ABSENT and SET_VALID -/

theorem markClaim_badIndex {was becomes : DState} (h : p[0].toNat % 65536 = 0 ∨ 255 < p[0].toNat % 65536) :
    markClaim was becomes p t = completeWith .badIndex t := by
  rw [markClaim, field_15_0, usableIndex_eq_none h]

theorem markClaim_of {was becomes : DState} (h0 : i ≠ 0) (hi : i.val = p[0].toNat % 65536) : markClaim was becomes p t =
    if t.wt[i].state = was then completeOk (t.updDesc i fun d => { d with state := becomes }) else completeWith .badState t := by
  rw [markClaim, field_15_0, usableIndex_eq_some h0 hi]

/-- A mark moves from one state to another. -/
theorem exec_mark {was becomes : DState} (he : exec c s = .next (takeCommand command (markClaim was becomes) s))
    (h : EngineReady s) (hs : Settled s) :
    (s.engine.params[0].toNat % 65536 = 0 ∨ 255 < s.engine.params[0].toNat % 65536 →
      exec c s = .next (s.engineAnswers command .badIndex Results.zero)) ∧
    ∀ i : DIdx, i ≠ 0 → i.val = s.engine.params[0].toNat % 65536 →
      (s.wt[i].state ≠ was → exec c s = .next (s.engineAnswers command .badState Results.zero)) ∧
      (s.wt[i].state = was → exec c s = .next { s.engineAnswers command .ok Results.zero with
        wt := s.wt.set i { s.wt[i] with state := becomes } }) := by
  refine ⟨fun hbad => ?_, fun i h0 hi => ⟨fun hw => ?_, fun hw => ?_⟩⟩
  · exact exec_fails he h hs (by decide) (markClaim_badIndex hbad)
  · exact exec_fails he h hs (by decide) ((markClaim_of h0 hi).trans (if_neg hw))
  · exact exec_takes he h hs ((markClaim_of h0 hi).trans (if_pos hw)) rfl rfl

/-- Settles O44: both commands are one claim, told the two states. -/
theorem absentAndValidMarksMove : Obligations.AbsentAndValidMarksMove := by
  unfold Obligations.AbsentAndValidMarksMove
  exact fun s h hs => ⟨exec_mark rfl h hs, exec_mark rfl h hs⟩

/-! ### The reads -/

theorem readOpenerWord_some (r : Rights) : readOpenerWord (some r) = r.toNat + 256 := by
  have h : r.toNat < 2 ^ (3 + 1 - 0) := r.isLt
  simp only [readOpenerWord, Option.elim, put_eq_of_lt h, putBit_eq_ite]
  norm_num

theorem readOpenerResults (granted : Option Rights) : Results.one (readOpenerWord granted) = match granted with
    | some r => #v[BitVec.ofNat 32 (r.toNat + 256), 0, 0, 0]
    | none => Results.zero := by
  cases granted with
  | none => rfl
  | some r => rw [readOpenerWord_some]; rfl

theorem mapReadWord_eq {e : MapEntry} (h : e.frame ≤ 131071) :
    mapReadWord e = e.frame + if e.valid then 16777216 else 0 := by
  have hf : e.frame < 2 ^ (16 + 1 - 0) := by omega
  rw [mapReadWord, put_eq_of_lt hf, putBit_eq_ite, pow_zero, mul_one]
  rfl

theorem probeResults (r : Requester) (d : Descriptor) (rights : Rights) : Results.one (probeVerdict r d rights).toNat =
    #v[if visible r.filters d.tag = false then 0x04
      else if d.level < r.level then 0x05
      else if rights &&& d.rights ≠ rights then 0x06
      else if d.state = .valid ∨ d.state = .absent then 0x00 else 0x04, 0, 0, 0] := by
  refine results_congr ?_ rfl rfl rfl
  unfold probeVerdict
  simp only [Bool.not_eq_true', Rights.within_eq_false_iff, ← not_or, ite_not]
  repeat' split
  all_goals rfl

theorem readDescriptorClaim_badIndex (h : p[0].toNat % 65536 = 0 ∨ 255 < p[0].toNat % 65536) :
    readDescriptorClaim p t = completeWith .badIndex t := by
  rw [readDescriptorClaim, field_15_0, usableIndex_eq_none h]

theorem readDescriptorClaim_of (h0 : i ≠ 0) (hi : i.val = p[0].toNat % 65536) :
    readDescriptorClaim p t = complete .ok (readDescriptorWords t.wt[i]) t := by
  rw [readDescriptorClaim, field_15_0, usableIndex_eq_some h0 hi]

theorem readOpenerClaim_badIndex (h : p[0].toNat % 65536 = 0 ∨ 255 < p[0].toNat % 65536) :
    readOpenerClaim p t = completeWith .badIndex t := by
  rw [readOpenerClaim, field_15_0, usableIndex_eq_none h]

theorem readOpenerClaim_badSlot (h0 : i ≠ 0) (hi : i.val = p[0].toNat % 65536) (h : 15 < p[1].toNat % 256) :
    readOpenerClaim p t = completeWith .badField t := by
  rw [readOpenerClaim, field_15_0, field_7_0, usableIndex_eq_some h0 hi, slotOf_eq_none h]

theorem readOpenerClaim_of {slot : Slot} (h0 : i ≠ 0) (hi : i.val = p[0].toNat % 65536) (h : slot.val = p[1].toNat % 256) :
    readOpenerClaim p t = complete .ok (Results.one (readOpenerWord t.wt[i].openers[slot])) t := by
  rw [readOpenerClaim, field_15_0, field_7_0, usableIndex_eq_some h0 hi, slotOf_eq_some h]

theorem probeClaim_badIndex (h : p[0].toNat % 65536 = 0 ∨ 255 < p[0].toNat % 65536) :
    probeClaim p t = completeWith .badIndex t := by
  rw [probeClaim, field_15_0, usableIndex_eq_none h]

theorem probeClaim_badField (h0 : i ≠ 0) (hi : i.val = p[0].toNat % 65536)
    (h : 15 < p[1].toNat % 256 ∨ 15 < p[1].toNat / 256 % 256) : probeClaim p t = completeWith .badField t := by
  rw [probeClaim, field_15_0, field_7_0, field_15_8, usableIndex_eq_some h0 hi]
  rcases h with h | h
  · rw [slotOf_eq_none h]
  · rw [rightsOf_eq_none h]; cases slotOf _ <;> rfl

theorem probeClaim_of {slot : Slot} (h0 : i ≠ 0) (hi : i.val = p[0].toNat % 65536) (h : slot.val = p[1].toNat % 256)
    (hr : p[1].toNat / 256 % 256 ≤ 15) : probeClaim p t = complete .ok
      (Results.one (probeVerdict t.su[slot] t.wt[i] (BitVec.ofNat 4 (p[1].toNat / 256 % 256))).toNat) t := by
  rw [probeClaim, field_15_0, field_7_0, field_15_8, usableIndex_eq_some h0 hi, slotOf_eq_some h, rightsOf_eq_some hr]

theorem mapReadClaim_eq_ite : mapReadClaim p t =
    if p[0].toNat % 65536 < 2048 then complete .ok (Results.one (mapReadWord (mapEntry t (p[0].toNat % 65536)))) t
    else completeWith .badField t := by
  rw [mapReadClaim, field_15_0]

theorem requesterReadClaim_badField (h : 15 < p[0].toNat % 256 ∨ 1 < p[0].toNat / 256 % 256) :
    requesterReadClaim p t = completeWith .badField t := by
  rw [requesterReadClaim, field_7_0, field_15_8]
  cases hs : slotOf (p[0].toNat % 256) with
  | none => rfl
  | some slot =>
    have hn : ¬ 15 < p[0].toNat % 256 := fun e => by rw [slotOf_eq_none e] at hs; cases hs
    exact if_neg (by omega)

theorem requesterReadClaim_of {slot : Slot} (h : slot.val = p[0].toNat % 256) (hp : p[0].toNat / 256 % 256 ≤ 1) :
    requesterReadClaim p t = complete .ok (requesterReadWords t.su[slot] (p[0].toNat / 256 % 256)) t := by
  rw [requesterReadClaim, field_7_0, field_15_8, slotOf_eq_some h]
  exact if_pos hp

theorem channelReadClaim_badField (h : 3 < p[0].toNat % 256 ∨ 2 < p[0].toNat / 256 % 256) :
    channelReadClaim p t = completeWith .badField t := by
  rw [channelReadClaim, field_7_0, field_15_8]
  cases hs : chanOf (p[0].toNat % 256) with
  | none => rfl
  | some slot =>
    have hn : ¬ 3 < p[0].toNat % 256 := fun e => by rw [chanOf_eq_none e] at hs; cases hs
    exact if_neg (by omega)

theorem channelReadClaim_of {c : Chan} (h : c.val = p[0].toNat % 256) (hp : p[0].toNat / 256 % 256 ≤ 2) :
    channelReadClaim p t = complete .ok (channelReadWords t.chans[c] (p[0].toNat / 256 % 256)) t := by
  rw [channelReadClaim, field_7_0, field_15_8, chanOf_eq_some h]
  exact if_pos hp

/-- Settles O46, command by command: a field that names nothing fails its check, and fields that name something answer it. -/
theorem readingCommandsAnswerTheRecord : Obligations.ReadingCommandsAnswerTheRecord := by
  unfold Obligations.ReadingCommandsAnswerTheRecord
  intro s h hs
  refine ⟨fun hi => ⟨?_, ?_, ?_⟩, fun i h0 hi => ⟨?_, fun hb => ?_, fun hb => ?_, fun slot hslot => ⟨?_, fun hr => ?_⟩⟩,
    fun hb => ?_, fun e he hf => ?_, fun hb => ?_, fun slot hslot hp => ?_, fun hb => ?_, fun c hc hp => ?_⟩
  · exact exec_fails rfl h hs (by decide) (readDescriptorClaim_badIndex hi)
  · exact exec_fails rfl h hs (by decide) (readOpenerClaim_badIndex hi)
  · exact exec_fails rfl h hs (by decide) (probeClaim_badIndex hi)
  · exact exec_results rfl h hs (readDescriptorClaim_of h0 hi)
  · exact exec_fails rfl h hs (by decide) (readOpenerClaim_badSlot h0 hi hb)
  · exact exec_fails rfl h hs (by decide) (probeClaim_badField h0 hi hb)
  · exact (exec_results rfl h hs (readOpenerClaim_of h0 hi hslot)).trans
      (congrArg (Host.Outcome.next <| s.engineAnswers 0x07 .ok ·) (readOpenerResults s.wt[i].openers[slot]))
  · exact (exec_results rfl h hs (probeClaim_of h0 hi hslot hr)).trans
      (congrArg (Host.Outcome.next <| s.engineAnswers 0x08 .ok ·) (probeResults s.su[slot] s.wt[i] _))
  · exact exec_fails rfl h hs (by decide) (mapReadClaim_eq_ite.trans (if_neg (by omega)))
  · have hentry : mapEntry s e.val = s.pm[e] := dif_pos e.isLt
    refine (exec_results (results := Results.one (mapReadWord s.pm[e])) rfl h hs ?_).trans ?_
    · rw [mapReadClaim_eq_ite, ← he, if_pos e.isLt, ← hentry]; rfl
    · rw [mapReadWord_eq hf]; rfl
  · exact exec_fails rfl h hs (by decide) (requesterReadClaim_badField hb)
  · exact exec_results rfl h hs (requesterReadClaim_of hslot hp)
  · exact exec_fails rfl h hs (by decide) (channelReadClaim_badField hb)
  · exact exec_results rfl h hs (channelReadClaim_of hc hp)

end ManagerCommands

end Sys2Proof.Machine

/-! CREATE, MODIFY and RETIRE (R20, R22, R28 to R30): the checks in their order, and the descriptor each command leaves. -/

namespace Sys2Proof.Machine

section DescriptorCommands

variable {s t : State} {p : Vector Word 4} {i : DIdx} {n : Nat}

/-! ### What the fields name -/

theorem initialState_eq (h : n = 1 ∨ n = 2) : initialState n = some (if n = 1 then .valid else .absent) := by
  obtain rfl | rfl := h <;> rfl

theorem of_initialState_eq_some {st : DState} (h : initialState n = some st) : n = 1 ∨ n = 2 := by
  unfold initialState at h
  split at h
  · exact .inl rfl
  · exact .inr rfl
  · cases h

theorem dtypeOf_eq (h : n ≤ 2) : dtypeOf n = some (if n = 0 then .data else if n = 1 then .list else .gate) := by
  obtain rfl | rfl | rfl : n = 0 ∨ n = 1 ∨ n = 2 := by omega
  all_goals rfl

theorem of_dtypeOf_eq_some {ty : DType} (h : dtypeOf n = some ty) : n ≤ 2 ∧ (ty = .gate ↔ n = 2) := by
  unfold dtypeOf at h
  split at h <;> cases h <;> decide

theorem of_fin4Of_eq_some {k : Fin 4} (h : fin4Of n = some k) : n ≤ 3 := by
  by_contra hn
  rw [fin4Of_eq_none (by omega)] at h; cases h

theorem of_rightsOf_eq_some {r : Rights} (h : rightsOf n = some r) : n ≤ 15 := by
  by_contra hn
  rw [rightsOf_eq_none (by omega)] at h; cases h

theorem ofNat_low (n : Nat) : BitVec.ofNat 16 (n % 65536) = BitVec.ofNat 16 n := BitVec.eq_of_toNat_eq (by simp)

theorem placementOk_eq_false_iff {m f l : Nat} : placementOk m f l = false ↔
    2047 < m ∨ 4095 < f ∨ l = 0 ∨ 8388608 < l ∨ (2048 - m) * 4096 < f + l := by
  simp only [placementOk, Bool.and_eq_false_iff, decide_eq_false_iff_not, Config.maxLength, Config.frameBytes]
  omega

theorem gateRangesOk_eq_false_iff {o l : Nat} : gateRangesOk o l = false ↔ 8388607 < o ∨ l = 0 ∨ 8388608 < l := by
  simp only [gateRangesOk, Bool.and_eq_false_iff, decide_eq_false_iff_not, Config.maxLength, Config.maxOffset]
  omega

theorem gateTargetOk_eq_false_iff {target : DIdx} {o l : Nat} : gateTargetOk s target o l = false ↔
    target = 0 ∨ s.wt[target].state ≠ .valid ∧ s.wt[target].state ≠ .absent ∨ s.wt[target].dtype ≠ .data ∨
      s.wt[target].length < o + l := by
  simp only [gateTargetOk, Bool.and_eq_false_iff, Bool.or_eq_false_iff, bne_eq_false_iff_eq, beq_eq_false_iff_ne,
    decide_eq_false_iff_not, not_le, or_assoc, ne_eq]

theorem modifyGateOk_eq_false_iff {d : Descriptor} {o l : Nat} : modifyGateOk s d o l = false ↔
    s.wt[d.targetIndex].state ≠ .valid ∧ s.wt[d.targetIndex].state ≠ .absent ∨ s.wt[d.targetIndex].gen ≠ d.targetGen ∨
      s.wt[d.targetIndex].dtype ≠ .data ∨ s.wt[d.targetIndex].length < o + l := by
  simp only [modifyGateOk, Bool.and_eq_false_iff, Bool.or_eq_false_iff, beq_eq_false_iff_ne,
    decide_eq_false_iff_not, not_le, or_assoc, ne_eq]

/-! ### The lowest FREE index -/

theorem lowestFree_eq_none (h : ∀ i : DIdx, i ≠ 0 → s.wt[i].state ≠ .free) : lowestFree s = none := by
  rw [lowestFree, List.find?_eq_none]
  intro i hi
  obtain ⟨n, hn, rfl⟩ := List.mem_map.1 hi
  rw [List.mem_range'_1] at hn
  have h0 : idxOf n ≠ 0 := fun e => by
    have : n % 256 = 0 := congrArg Fin.val e
    omega
  rw [beq_iff_eq]
  exact h _ h0

theorem lowestFree_eq_some (h0 : i ≠ 0) (hi : s.wt[i].state = .free)
    (hl : ∀ j : DIdx, j ≠ 0 → j < i → s.wt[j].state ≠ .free) : lowestFree s = some i := by
  have hi0 : i.val ≠ 0 := fun e => h0 (Fin.ext e)
  have found : (List.range' 1 255).find? ((fun i : DIdx => s.wt[i].state == .free) ∘ idxOf) = some i.val := by
    rw [List.find?_range'_eq_some]
    have := i.isLt
    refine ⟨?_, List.mem_range'_1.mpr (by omega), fun m hm hmi => ?_⟩
    · rw [Function.comp, idxOf_val, hi]; rfl
    · have hv : (idxOf m).val = m := Nat.mod_eq_of_lt (by omega)
      rw [Function.comp, Bool.not_eq_true', beq_eq_false_iff_ne]
      exact hl _ (fun e => by rw [e] at hv; simp at hv; omega) (Fin.lt_def.2 (by omega))
  rw [lowestFree, List.find?_map, found, Option.map_some, idxOf_val]

/-! ### CREATE -/

/-- The fields of CREATE that fail its checks 2 to 4 (R20). -/
abbrev CreateBadFields (p : Vector Word 4) : Prop :=
  p[0].toNat / 65536 % 16 ≠ 1 ∧ p[0].toNat / 65536 % 16 ≠ 2 ∨ 2 < p[0].toNat / 1048576 % 16 ∨
  3 < p[1].toNat / 65536 % 256 ∨ 15 < p[1].toNat / 16777216 ∨
  p[0].toNat / 1048576 % 16 ≠ 2 ∧ (2047 < p[2].toNat % 65536 ∨ 4095 < p[2].toNat / 65536 ∨ p[3].toNat = 0 ∨
    8388608 < p[3].toNat ∨ (2048 - p[2].toNat % 65536) * 4096 < p[2].toNat / 65536 + p[3].toNat) ∨
  p[0].toNat / 1048576 % 16 = 2 ∧ (8388607 < p[2].toNat ∨ p[3].toNat = 0 ∨ 8388608 < p[3].toNat)

/-- The target that CREATE names for a gate. -/
abbrev createTarget (p : Vector Word 4) : DIdx := Fin.ofNat 256 (p[0].toNat / 16777216)

/-- The target of CREATE fails check 7 (R20). -/
abbrev CreateBadTarget (p : Vector Word 4) (s : State) : Prop :=
  p[0].toNat / 1048576 % 16 = 2 ∧ (createTarget p = 0 ∨
    s.wt[createTarget p].state ≠ .valid ∧ s.wt[createTarget p].state ≠ .absent ∨ s.wt[createTarget p].dtype ≠ .data ∨
    s.wt[createTarget p].length < p[2].toNat + p[3].toNat)

/-- The record that CREATE makes of a FREE one. -/
def Descriptor.created (d : Descriptor) (p : Vector Word 4) (s : State) : Descriptor :=
  { d with
    state := if p[0].toNat / 65536 % 16 = 1 then .valid else .absent
    dtype := if p[0].toNat / 1048576 % 16 = 0 then .data else if p[0].toNat / 1048576 % 16 = 1 then .list else .gate
    tag := BitVec.ofNat 16 p[1].toNat
    level := Fin.ofNat 4 (p[1].toNat / 65536 % 256)
    rights := BitVec.ofNat 4 (p[1].toNat / 16777216)
    mapStart := if p[0].toNat / 1048576 % 16 = 2 then 0 else p[2].toNat % 65536
    firstOffset := if p[0].toNat / 1048576 % 16 = 2 then 0 else p[2].toNat / 65536
    length := if p[0].toNat / 1048576 % 16 = 2 then 0 else p[3].toNat
    targetIndex := if p[0].toNat / 1048576 % 16 = 2 then createTarget p else 0
    targetGen := if p[0].toNat / 1048576 % 16 = 2 then s.wt[createTarget p].gen else 0
    gateOffset := if p[0].toNat / 1048576 % 16 = 2 then p[2].toNat else 0
    gateLength := if p[0].toNat / 1048576 % 16 = 2 then p[3].toNat else 0 }

theorem createChecks_badIndex (h : 255 < p[0].toNat % 65536) : createChecks p s = .error .badIndex := by
  unfold createChecks; dsimp only
  rw [if_pos (by rwa [field_15_0])]

theorem createChecks_badField (hi : p[0].toNat % 65536 ≤ 255) (hb : CreateBadFields p) :
    createChecks p s = .error .badField := by
  unfold createChecks; dsimp only
  rw [if_neg (by rw [field_15_0]; omega)]
  split
  · rename_i st ty level rights hst hty hl hr
    have hst := of_initialState_eq_some hst
    obtain ⟨hty, hgate⟩ := of_dtypeOf_eq_some hty
    have hl := of_fin4Of_eq_some hl
    have hr := of_rightsOf_eq_some hr
    rw [field_19_16] at hst; rw [field_23_20] at hty hgate; rw [field_23_16] at hl; rw [field_31_24] at hr
    simp only [Bool.not_eq_true', placementOk_eq_false_iff, gateRangesOk_eq_false_iff, field_15_0, field_31_16, ne_eq, hgate]
    by_cases hg : p[0].toNat / 1048576 % 16 = 2
    · rw [if_neg (fun h => h.1 hg), if_pos ⟨hg, by omega⟩]
    · rw [if_pos ⟨hg, by omega⟩]
  · rfl

/-- The checks of CREATE behind its fields: the index, its state and a gate's target. -/
theorem createChecks_fields (hi : p[0].toNat % 65536 ≤ 255) (hb : ¬ CreateBadFields p) : createChecks p s =
    match if p[0].toNat % 65536 = 0 then lowestFree s else some (idxOf (p[0].toNat % 65536)) with
    | none => .error .noSpace
    | some i =>
      if s.wt[i].state ≠ .free then .error .notFree
      else if CreateBadTarget p s then .error .gateTarget
      else .ok (i, fun d => d.created p s) := by
  have hlv : (Fin.ofNat 4 (p[1].toNat / 65536 % 256)).val = p[1].toNat / 65536 % 256 := Nat.mod_eq_of_lt (by omega)
  have hgate : (if p[0].toNat / 1048576 % 16 = 0 then DType.data else if p[0].toNat / 1048576 % 16 = 1 then .list else .gate) =
      .gate ↔ p[0].toNat / 1048576 % 16 = 2 := (of_dtypeOf_eq_some (dtypeOf_eq (by omega))).2
  have hplace : ¬ (¬ p[0].toNat / 1048576 % 16 = 2 ∧
      placementOk (p[2].toNat % 65536) (p[2].toNat / 65536) p[3].toNat = false) := by
    rw [placementOk_eq_false_iff]; omega
  have hranges : ¬ (p[0].toNat / 1048576 % 16 = 2 ∧ gateRangesOk p[2].toNat p[3].toNat = false) := by
    rw [gateRangesOk_eq_false_iff]; omega
  unfold createChecks; dsimp only
  rw [if_neg (by rw [field_15_0]; omega), field_19_16, field_23_20, field_23_16, field_31_24, initialState_eq (by omega),
    dtypeOf_eq (by omega), fin4Of_eq_some hlv, rightsOf_eq_some (by omega)]
  simp only [ne_eq, hgate, field_15_0, field_31_16, field_31_24, Bool.not_eq_true', if_neg hplace,
    if_neg hranges, gateTargetOk_eq_false_iff]
  generalize (if p[0].toNat % 65536 = 0 then lowestFree s else some (idxOf (p[0].toNat % 65536))) = chosen
  cases chosen with
  | none => rfl
  | some i =>
    refine if_congr Iff.rfl rfl (if_congr Iff.rfl rfl ?_)
    refine congrArg (fun f => Except.ok (i, f)) (funext fun d => ?_)
    unfold Descriptor.created
    by_cases hg : p[0].toNat / 1048576 % 16 = 2
    · simp only [if_pos hg, ofNat_low]; rfl
    · simp only [if_neg hg, ofNat_low]

theorem createClaim_error {code : Code} (h : createChecks p t = .error code) : createClaim p t = completeWith code t := by
  rw [createClaim, h]

theorem createClaim_ok (h : createChecks p t = .ok (i, fun d => d.created p s)) : createClaim p t =
    complete .ok #v[BitVec.ofNat 32 (t.wt[i].gen.toNat * 256 + i.val), 0, 0, 0]
      { t with wt := t.wt.set i (t.wt[i].created p s) } := by
  have hgen : (t.updDesc i fun d => d.created p s).wt[i].gen = t.wt[i].gen := by
    rw [State.updDesc, get_set_self]; rfl
  rw [createClaim, h]; dsimp only
  rw [hgen]; rfl

/-- Settles O42, by the order of CREATE's checks. -/
theorem createMakesADescriptor : Obligations.CreateMakesADescriptor := by
  unfold Obligations.CreateMakesADescriptor
  intro s h hs
  have fails {code : Code} (hc : code ≠ .ok) (he : createChecks s.engine.params (s.commanded 0x01) = .error code) :
      exec .create s = .next (s.engineAnswers 0x01 code Results.zero) :=
    exec_fails rfl h hs hc (createClaim_error he)
  refine ⟨fun hi => fails (by decide) (createChecks_badIndex hi), fun hi hb => fails (by decide) (createChecks_badField hi hb),
    fun hi hb hfree => fails (by decide) ?_, fun i h0 hi hb hfree => fails (by decide) ?_, fun i h0 hi hfree hb => ?_⟩
  · rw [createChecks_fields (by omega) hb, if_pos hi, lowestFree_eq_none (s := s.commanded 0x01) hfree]
  · have := i.isLt
    have hi0 : i.val ≠ 0 := fun e => h0 (Fin.ext e)
    rw [createChecks_fields (by omega) hb, ← hi, if_neg hi0, idxOf_val]
    exact if_pos hfree
  · have := i.isLt
    have hi0 : i.val ≠ 0 := fun e => h0 (Fin.ext e)
    have chosen : createChecks s.engine.params (s.commanded 0x01) =
        if CreateBadTarget s.engine.params (s.commanded 0x01) then .error .gateTarget
        else .ok (i, fun d => d.created s.engine.params (s.commanded 0x01)) := by
      rw [createChecks_fields (by omega) hb]
      rcases hi with hi | ⟨hi, hl⟩
      · rw [← hi, if_neg hi0, idxOf_val]; exact if_neg (not_not.2 hfree)
      · rw [if_pos hi, lowestFree_eq_some (s := s.commanded 0x01) h0 hfree hl]; exact if_neg (not_not.2 hfree)
    refine ⟨fun ht => fails (by decide) (chosen.trans (if_pos ht)), fun ht => ?_⟩
    exact exec_takes rfl h hs (createClaim_ok (chosen.trans (if_neg ht))) rfl rfl

/-! ### MODIFY -/

/-- The fields of MODIFY, with its mask, that fail its checks 3 to 5 on a descriptor (R22). -/
abbrev ModifyBadFields (p : Vector Word 4) (d : Descriptor) : Prop :=
  7 < p[0].toNat / 65536 % 256 ∨
  decide (p[0].toNat / 65536 % 256 / 2 % 2 = 1) = true ∧ (3 < p[1].toNat / 65536 % 256 ∨ 15 < p[1].toNat / 16777216) ∨
  decide (p[0].toNat / 65536 % 256 / 4 % 2 = 1) = true ∧ d.dtype ≠ .gate ∧ (2047 < p[2].toNat % 65536 ∨
    4095 < p[2].toNat / 65536 ∨ p[3].toNat = 0 ∨ 8388608 < p[3].toNat ∨
    (2048 - p[2].toNat % 65536) * 4096 < p[2].toNat / 65536 + p[3].toNat) ∨
  decide (p[0].toNat / 65536 % 256 / 4 % 2 = 1) = true ∧ d.dtype = .gate ∧
    (8388607 < p[2].toNat ∨ p[3].toNat = 0 ∨ 8388608 < p[3].toNat)

/-- The new gate fields do not fit the target (R22 check 7). -/
abbrev ModifyBadTarget (p : Vector Word 4) (s : State) (d : Descriptor) : Prop :=
  decide (p[0].toNat / 65536 % 256 / 4 % 2 = 1) = true ∧ d.dtype = .gate ∧
    (s.wt[d.targetIndex].state ≠ .valid ∧ s.wt[d.targetIndex].state ≠ .absent ∨ s.wt[d.targetIndex].gen ≠ d.targetGen ∨
      s.wt[d.targetIndex].dtype ≠ .data ∨ s.wt[d.targetIndex].length < p[2].toNat + p[3].toNat)

/-- The record that MODIFY makes of one, group by group. -/
def Descriptor.modified (d : Descriptor) (p : Vector Word 4) (identity access placement : Bool) : Descriptor :=
  { d with
    tag := if identity then BitVec.ofNat 16 p[1].toNat else d.tag
    level := if access then Fin.ofNat 4 (p[1].toNat / 65536 % 256) else d.level
    rights := if access then BitVec.ofNat 4 (p[1].toNat / 16777216) else d.rights
    mapStart := if placement ∧ d.dtype ≠ .gate then p[2].toNat % 65536 else d.mapStart
    firstOffset := if placement ∧ d.dtype ≠ .gate then p[2].toNat / 65536 else d.firstOffset
    length := if placement ∧ d.dtype ≠ .gate then p[3].toNat else d.length
    gateOffset := if placement ∧ d.dtype = .gate then p[2].toNat else d.gateOffset
    gateLength := if placement ∧ d.dtype = .gate then p[3].toNat else d.gateLength }

theorem modifyGroups_eq (d : Descriptor) (identity placement : Bool) {access : Bool}
    (h : access = true → p[1].toNat / 65536 % 256 ≤ 3 ∧ p[1].toNat / 16777216 ≤ 15) :
    modifyGroups p identity access placement d = d.modified p identity access placement := by
  have level (x : Fin 4) (ha : access = true) :
      (fin4Of (p[1].toNat / 65536 % 256)).getD x = Fin.ofNat 4 (p[1].toNat / 65536 % 256) := by
    have hv : (Fin.ofNat 4 (p[1].toNat / 65536 % 256)).val = p[1].toNat / 65536 % 256 := Nat.mod_eq_of_lt (by have := h ha; omega)
    rw [fin4Of_eq_some hv, Option.getD_some]
  have rights (x : Rights) (ha : access = true) :
      (rightsOf (p[1].toNat / 16777216)).getD x = BitVec.ofNat 4 (p[1].toNat / 16777216) := by
    rw [rightsOf_eq_some (h ha).2, Option.getD_some]
  unfold modifyGroups Descriptor.modified
  simp only [field_15_0, field_31_16, field_23_16, field_31_24, ofNat_low]
  cases placement with
  | false => cases identity <;> cases access <;> simp [level, rights]
  | true => by_cases hg : d.dtype = .gate <;> cases identity <;> cases access <;> simp [level, rights, hg]

theorem modifyChecks_badIndex (h : p[0].toNat % 65536 = 0 ∨ 255 < p[0].toNat % 65536) :
    modifyChecks p t = .error .badIndex := by
  unfold modifyChecks
  rw [field_15_0, usableIndex_eq_none h]

/-- The checks of MODIFY on a usable index, in their order. -/
theorem modifyChecks_eq (h0 : i ≠ 0) (hi : i.val = p[0].toNat % 65536) : modifyChecks p s =
    if ¬ (s.wt[i].state = .valid ∨ s.wt[i].state = .absent) then .error .badState
    else if ModifyBadFields p s.wt[i] then .error .badField
    else if ModifyBadTarget p s s.wt[i] then .error .gateTarget
    else if decide (p[0].toNat / 65536 % 256 / 4 % 2 = 1) = true ∧ 0 < s.wt[i].pins then .error .pinned
    else .ok (i, modifyGroups p (decide (p[0].toNat / 65536 % 256 % 2 = 1)) (decide (p[0].toNat / 65536 % 256 / 2 % 2 = 1))
      (decide (p[0].toNat / 65536 % 256 / 4 % 2 = 1))) := by
  have bit0 (n : Nat) : n.testBit 0 = decide (n % 2 = 1) := Nat.testBit_zero ..
  have bit1 (n : Nat) : n.testBit 1 = decide (n / 2 % 2 = 1) := by rw [Nat.testBit_eq_decide_div_mod_eq]
  have bit2 (n : Nat) : n.testBit 2 = decide (n / 4 % 2 = 1) := by rw [Nat.testBit_eq_decide_div_mod_eq]
  have noLevel : (fin4Of (p[1].toNat / 65536 % 256)).isNone = true ↔ 3 < p[1].toNat / 65536 % 256 := by
    unfold fin4Of; split <;> simp <;> omega
  have noRights : (rightsOf (p[1].toNat / 16777216)).isNone = true ↔ 15 < p[1].toNat / 16777216 := by
    unfold rightsOf; split <;> simp <;> omega
  unfold modifyChecks
  rw [field_15_0, usableIndex_eq_some h0 hi]
  simp only [bit0, bit1, bit2, field_23_16, field_31_24, field_15_0, field_31_16, noLevel, noRights, Bool.not_eq_true',
    placementOk_eq_false_iff, gateRangesOk_eq_false_iff, modifyGateOk_eq_false_iff, gt_iff_lt]
  rw [ite_or, ite_or, ite_or]
  simp only [not_or]

theorem modifyClaim_error {code : Code} (h : modifyChecks p t = .error code) : modifyClaim p t = completeWith code t := by
  rw [modifyClaim, h]

theorem modifyClaim_ok {f : Descriptor → Descriptor} (h : modifyChecks p t = .ok (i, f)) :
    modifyClaim p t = completeOk (t.updDesc i f) := by
  rw [modifyClaim, h]

/-- Settles O43, by the order of MODIFY's checks. -/
theorem modifyReplacesTheNamedGroups : Obligations.ModifyReplacesTheNamedGroups := by
  unfold Obligations.ModifyReplacesTheNamedGroups
  intro s h hs
  have fails {code : Code} (hc : code ≠ .ok) (he : modifyChecks s.engine.params (s.commanded 0x02) = .error code) :
      exec .modify s = .next (s.engineAnswers 0x02 code Results.zero) :=
    exec_fails rfl h hs hc (modifyClaim_error he)
  refine ⟨fun hi => fails (by decide) (modifyChecks_badIndex hi), fun i h0 hi => ?_⟩
  have checks := modifyChecks_eq (s := s.commanded 0x02) h0 hi
  refine ⟨fun hl => ?_, fun hl hb => ?_, fun hl hb ht => ?_, fun hl hb ht hp hpins => ?_, fun hl hb ht hp => ?_⟩
  · exact fails (by decide) (checks.trans (if_pos hl))
  · exact fails (by decide) (checks.trans ((if_neg (not_not.2 hl)).trans (if_pos hb)))
  · exact fails (by decide) (checks.trans ((if_neg (not_not.2 hl)).trans ((if_neg hb).trans (if_pos ht))))
  · exact fails (by decide)
      (checks.trans ((if_neg (not_not.2 hl)).trans ((if_neg hb).trans ((if_neg ht).trans (if_pos ⟨hp, hpins⟩)))))
  · have free : ¬ (decide (s.engine.params[0].toNat / 65536 % 256 / 4 % 2 = 1) = true ∧ 0 < s.wt[i].pins) := by
      rintro ⟨hplace, hpins⟩
      rcases hp with hp | hp
      · rw [hplace] at hp; cases hp
      · omega
    have pass := checks.trans ((if_neg (not_not.2 hl)).trans ((if_neg hb).trans ((if_neg ht).trans (if_neg free))))
    have groups := modifyGroups_eq (p := s.engine.params) s.wt[i] (decide (s.engine.params[0].toNat / 65536 % 256 % 2 = 1))
      (decide (s.engine.params[0].toNat / 65536 % 256 / 4 % 2 = 1))
      (access := decide (s.engine.params[0].toNat / 65536 % 256 / 2 % 2 = 1)) fun ha =>
        ⟨not_lt.1 fun x => hb (.inr (.inl ⟨ha, .inl x⟩)), not_lt.1 fun x => hb (.inr (.inl ⟨ha, .inr x⟩))⟩
    refine exec_takes rfl h hs ((modifyClaim_ok pass).trans ?_) rfl rfl
    unfold State.updDesc
    show completeOk { s.commanded 0x02 with wt := s.wt.set i (modifyGroups _ _ _ _ s.wt[i]) } = _
    rw [groups]
    rfl

/-! ### RETIRE -/

/-- A primary notes that a RETIRE FORCE of the descriptor waits for it (R30). -/
def Channel.noted (ch : Channel) (i : DIdx) : Channel :=
  { ch with primary := ch.primary.map fun p => { p with noted := p.noted || p.pins.any (·.index == i) } }

/-- A change made on every channel in turn. -/
theorem foldl_updChan_eq (f : Channel → Channel) (t : State) :
    ([0, 1, 2, 3] : List Chan).foldl (fun u c => u.updChan c f) t = { t with chans := Vector.ofFn fun c => f t.chans[c] } := by
  refine congrArg (fun v => { t with chans := v }) (Vector.ext fun k hk => ?_)
  obtain rfl | rfl | rfl | rfl : k = 0 ∨ k = 1 ∨ k = 2 ∨ k = 3 := by omega
  all_goals simp [State.updChan]

theorem noteChannels_eq (i : DIdx) (t : State) :
    noteChannels i t = { t with chans := Vector.ofFn fun c => t.chans[c].noted i } := foldl_updChan_eq (·.noted i) t

/-- Noting a channel changes none of its work. -/
theorem settle_noted {s t : State} (hs : Settled s) (hc : t.chans = Vector.ofFn fun c => s.chans[c].noted i)
    (hp : t.port = s.port) : settle t = t := by
  have ready : readyChannel t = none := by
    rw [readyChannel_eq_none]
    intro c
    have := readyChannel_eq_none.1 hs.1 c
    unfold isReady at this ⊢
    have hcc : t.chans[c] = s.chans[c].noted i := by rw [hc]; exact Vector.getElem_ofFn ..
    rw [hcc, Channel.noted, ← this]
    cases s.chans[c].primary <;> rfl
  exact Settled.settle_eq ⟨ready, by rw [hp]; exact hs.2⟩

theorem enterFree_awaited (h : t.engine.state = .busy (.retire i)) : enterFree i t = { t with
    wt := t.wt.set i t.wt[i].freed
    attn := { t.attn with pending := t.attn.pending ||| 0x200, retireLatch := i }
    engine := t.engine.finished } := by
  rw [enterFree_eq, if_pos h]

theorem retireDescriptor_freed (h : t.wt[i].pins = 0) : retireDescriptor i t =
    enterFree i { t with wt := t.wt.set i { t.wt[i].releaseLock with state := .retiring } } := by
  unfold retireDescriptor State.updDesc; dsimp only
  rw [get_set_self]
  exact if_pos h

theorem retireDescriptor_waits (h : 0 < t.wt[i].pins) : retireDescriptor i t =
    { t with wt := t.wt.set i { t.wt[i] with state := .retiring, holder := none, expiry := none } } := by
  unfold retireDescriptor State.updDesc; dsimp only
  rw [get_set_self]
  exact if_neg (Nat.pos_iff_ne_zero.1 h)

theorem retireClaim_badIndex (h : p[0].toNat % 65536 = 0 ∨ 255 < p[0].toNat % 65536) :
    retireClaim p t = completeWith .badIndex t := by
  rw [retireClaim, field_15_0, usableIndex_eq_none h]

/-- The claim of RETIRE on a usable index. -/
theorem retireClaim_eq (h0 : i ≠ 0) (hi : i.val = p[0].toNat % 65536) : retireClaim p t =
    if p[0].toNat / 65536 % 256 ≠ 1 ∧ p[0].toNat / 65536 % 256 ≠ 2 then completeWith .badField t
    else if t.wt[i].state = .free then completeWith .badState t
    else if t.wt[i].state = .retiring ∧ p[0].toNat / 65536 % 256 = 1 then completeWith .badState t
    else if p[0].toNat / 65536 % 256 = 1 then completeOk (retireDescriptor i t)
    else retireDescriptor i (noteChannels i (t.setEngine { t.engine with state := .busy (.retire i) })) := by
  rw [retireClaim, field_15_0, usableIndex_eq_some h0 hi, field_23_16]

/-- A RETIRE that does not force completes at once. -/
theorem completeOk_retire_freed {command : Byte} (h : s.wt[i].pins = 0) :
    completeOk (retireDescriptor i (s.commanded command)) = { s.engineAnswers command .ok Results.zero with
      wt := s.wt.set i s.wt[i].freed
      attn := { s.attn with pending := s.attn.pending ||| 0x200, retireLatch := i } } := by
  rw [retireDescriptor_freed (t := s.commanded command) h, enterFree_eq, if_neg (by simp)]
  dsimp only
  rw [get_set_self, set_set_self]
  rfl

/-- A RETIRE FORCE of a descriptor without pins completes in its own claim. -/
theorem retire_force_freed {command : Byte} (h : s.wt[i].pins = 0) :
    retireDescriptor i (noteChannels i ((s.commanded command).setEngine
      { (s.commanded command).engine with state := .busy (.retire i) })) = { s.engineAnswers command .ok Results.zero with
        wt := s.wt.set i s.wt[i].freed
        attn := { s.attn with pending := s.attn.pending ||| 0x200, retireLatch := i }
        chans := Vector.ofFn fun c => s.chans[c].noted i } := by
  rw [noteChannels_eq, retireDescriptor_freed (by exact h), enterFree_awaited (by rfl)]
  dsimp only [State.setEngine]
  rw [get_set_self, set_set_self]
  rfl

/-- Settles O45: the checks, then the two modes on a descriptor with pins and without. -/
theorem retireEndsADescriptor : Obligations.RetireEndsADescriptor := by
  unfold Obligations.RetireEndsADescriptor
  intro s h hs
  refine ⟨fun hi => exec_fails rfl h hs (by decide) (retireClaim_badIndex hi), fun i h0 hi => ?_⟩
  have claim := retireClaim_eq (t := s.commanded 0x05) h0 hi
  refine ⟨fun h1 h2 => ?_, fun hm hf => ?_, fun hm hr => ?_, fun hm hl => ⟨fun hp => ?_, fun hp => ?_⟩,
    fun hm hl => ⟨fun hp => ?_, fun hp => ?_⟩⟩
  · exact exec_fails rfl h hs (by decide) (claim.trans (if_pos ⟨h1, h2⟩))
  · exact exec_fails rfl h hs (by decide) (claim.trans ((if_neg (by omega)).trans (if_pos hf)))
  · have hf : s.wt[i].state ≠ .free := by rw [hr]; decide
    exact exec_fails rfl h hs (by decide)
      (claim.trans ((if_neg (by omega)).trans ((if_neg hf).trans (if_pos ⟨hr, hm⟩))))
  · have hf : s.wt[i].state ≠ .free ∧ s.wt[i].state ≠ .retiring := by rcases hl with e | e <;> rw [e] <;> decide
    have taken := claim.trans ((if_neg (by omega)).trans ((if_neg hf.1).trans ((if_neg (fun e => hf.2 e.1)).trans (if_pos hm))))
    exact exec_takes rfl h hs (taken.trans (completeOk_retire_freed hp)) rfl rfl
  · have hf : s.wt[i].state ≠ .free ∧ s.wt[i].state ≠ .retiring := by rcases hl with e | e <;> rw [e] <;> decide
    have taken := claim.trans ((if_neg (by omega)).trans ((if_neg hf.1).trans ((if_neg (fun e => hf.2 e.1)).trans (if_pos hm))))
    refine exec_takes rfl h hs (taken.trans ?_) rfl rfl
    rw [retireDescriptor_waits (t := s.commanded 0x05) hp]
    rfl
  · have taken := claim.trans ((if_neg (by omega)).trans ((if_neg hl).trans ((if_neg (by omega)).trans (if_neg (by omega)))))
    show Host.Outcome.next (takeCommand 0x05 retireClaim s) = _
    rw [takeCommand_idle h, taken, retire_force_freed hp]
    exact congrArg _ (settle_noted hs rfl rfl)
  · have taken := claim.trans ((if_neg (by omega)).trans ((if_neg hl).trans ((if_neg (by omega)).trans (if_neg (by omega)))))
    show Host.Outcome.next (takeCommand 0x05 retireClaim s) = _
    rw [takeCommand_idle h, taken, noteChannels_eq, retireDescriptor_waits (by exact hp)]
    exact congrArg _ (settle_noted hs rfl rfl)

end DescriptorCommands

end Sys2Proof.Machine

/-! The kinds of one claim but for CANCEL: CLOSE, QUERY, CHANNEL_STATUS and an unknown kind (R55, R87, R136, R161). -/

namespace Sys2Proof.Machine

section OneClaimServices

variable {s : State} {q : Request} {rest : List Request} {code : Code} {payload : List Byte} {h : Handle} {offset : Nat}

/-! ### How the whole service of the head request ends -/

/-- Its one claim is a violation that does not bar. -/
theorem exec_charged (hs : Settled s) (hq : AtHead s q rest) (hv : code.isViolation = true) (hl : s.su[q.slot].score ≤ 247)
    (hc : q.claim .begun (s.serving q rest) = failRequest code h offset (s.serving q rest)) :
    exec (q.body.row none) s = .next ((s.charged code q.slot none h offset).answered q rest code []) :=
  exec_answers hs hq ((carryOn_serving s q rest _).trans ((congrArg _ hc).trans
    (failRequest_serving_violation hq hv hl .begun _))) rfl rfl

/-- Its one claim reaches a code that credits nobody. -/
theorem exec_uncredited (hs : Settled s) (hq : AtHead s q rest) (hb : code ≠ .ok ∨ q.body.isQuery = true)
    (hc : q.claim .begun (s.serving q rest) = reach code payload (s.serving q rest)) :
    exec (q.body.row none) s = .next (s.answered q rest code payload) :=
  exec_answers hs hq ((carryOn_serving s q rest _).trans ((congrArg _ hc).trans
    (carryOn_reach_serving hq hb .begun _))) rfl rfl

/-- Its one claim reaches OK in a state that differs from the one before in what channels and port do not see. -/
theorem exec_credited {t : State} (hs : Settled s) (hq : AtHead s q rest) (ht : AtHead t q rest) (hb : q.body.isQuery = false)
    (hchans : t.chans = s.chans) (hport : t.port = s.port)
    (hc : q.claim .begun (s.serving q rest) = reach .ok payload (t.serving q rest)) :
    exec (q.body.row none) s = .next ((t.credited q.slot).answered q rest .ok payload) :=
  exec_answers hs hq ((carryOn_serving s q rest _).trans ((congrArg _ hc).trans
    (carryOn_reach_ok_serving ht hb .begun _))) hchans hport

/-! ### CLOSE -/

theorem closeClaim_error {slot : Slot} {t : State} (hc : checkHandle t slot h = .error code) :
    closeClaim slot h t = failRequest code h 0 t := by
  rw [closeClaim, hc]

theorem closeClaim_ok {slot : Slot} {t : State} {granted : Rights} (hc : checkHandle t slot h = .ok granted) :
    closeClaim slot h t = reach .ok [] (t.updDesc h.index fun d => d.without slot) := by
  rw [closeClaim, hc, show Descriptor.removeOpener slot = (·.without slot) from funext (removeOpener_eq_without · slot)]

/-- The codes of checks 1 to 3 are violations. -/
theorem checkHandle_error_isViolation {t : State} {slot : Slot} (hc : checkHandle t slot h = .error code) :
    code.isViolation = true := by
  unfold checkHandle at hc
  dsimp only at hc
  split at hc
  · cases hc; rfl
  · split at hc
    · cases hc; rfl
    · split at hc <;> cases hc; rfl

/-- Settles O12: the claim of a CLOSE makes the first three checks of the Resolver. -/
theorem closeIsAnswered : Obligations.CloseIsAnswered := by
  unfold Obligations.CloseIsAnswered
  refine ⟨fun s slot tag h rest hs hq h0 hf hg ho => ⟨?_, ?_⟩, fun s slot tag h rest code hs hq hl hc => ?_⟩
  · obtain ⟨granted, hr⟩ := Option.ne_none_iff_exists'.1 ho
    refine exec_credited (q := ⟨slot, tag, .closeWindow h⟩) (t := { s with wt := s.wt.set h.index (s.wt[h.index].without slot) })
      hs hq hq rfl rfl rfl ?_
    exact closeClaim_ok (t := s.serving _ rest) (checkHandle_open h0 (by rw [not_or, not_not]; exact ⟨hf, hg⟩) hr)
  · obtain ⟨granted, hr⟩ := Option.ne_none_iff_exists'.1 ho
    have claim := closeClaim_ok (t := s.serving ⟨slot, tag, .closeWindow h⟩ rest)
      (checkHandle_open h0 (by rw [not_or, not_not]; exact ⟨hf, hg⟩) hr)
    refine (exec_atHead hq (some 1)).trans (congrArg _ ?_)
    rw [Option.getD_some, carryOn_serving]
    exact (congrArg settle claim).trans (settle_of_same hs rfl rfl)
  · have checks : checkHandle s slot h = .error code := by
      rcases hc with ⟨h0, rfl⟩ | ⟨h0, h1, rfl⟩ | ⟨h0, hf, hg, ho, rfl⟩
      · exact checkHandle_null h0
      · exact checkHandle_stale h0 h1
      · exact checkHandle_notOpen h0 (by rw [not_or, not_not]; exact ⟨hf, hg⟩) ho
    exact exec_charged (q := ⟨slot, tag, .closeWindow h⟩) hs hq (checkHandle_error_isViolation checks) hl
      (closeClaim_error (t := s.serving _ rest) checks)

/-! ### QUERY -/

theorem beBytes_three (n : Nat) : beBytes 3 n = [BitVec.ofNat 8 (n / 65536), BitVec.ofNat 8 (n / 256), BitVec.ofNat 8 n] := by
  simp [beBytes]

theorem beBytes_four (n : Nat) : beBytes 4 n =
    [BitVec.ofNat 8 (n / 16777216), BitVec.ofNat 8 (n / 65536), BitVec.ofNat 8 (n / 256), BitVec.ofNat 8 n] := by
  simp [beBytes]

theorem queryClaim_error {slot : Slot} {t : State} (hc : checkHandle t slot h = .error code) :
    queryClaim slot h t = reach code [] t := by
  rw [queryClaim, hc]

theorem queryClaim_ok {slot : Slot} {t : State} {granted : Rights} (hc : checkHandle t slot h = .ok granted) :
    queryClaim slot h t = reach .ok (queryRecord t.wt[h.index] slot (queryRights t t.wt[h.index] granted)) t := by
  rw [queryClaim, hc]

theorem queryRights_eq (s : State) (d : Descriptor) (granted : Rights) : queryRights s d granted =
    if d.dtype = .gate then
      if s.wt[d.targetIndex].state ≠ .free ∧ s.wt[d.targetIndex].gen = d.targetGen ∧ s.wt[d.targetIndex].dtype = .data then
        granted &&& d.rights &&& s.wt[d.targetIndex].rights
      else 0
    else granted &&& d.rights := by
  have identity : targetIdentity s d = false ↔
      ¬ (s.wt[d.targetIndex].state ≠ .free ∧ s.wt[d.targetIndex].gen = d.targetGen ∧ s.wt[d.targetIndex].dtype = .data) := by
    rw [targetIdentity_eq_false_iff, not_and_or, not_and_or, not_not]
  unfold queryRights effectiveRights
  simp only [Bool.not_eq_true', identity]
  by_cases hg : d.dtype = .gate
  · simp only [hg, true_and, if_true, ite_not]
  · simp only [hg, false_and, if_false]

theorem queryRecord_eq (d : Descriptor) (asker : Slot) (effective : Rights) : queryRecord d asker effective =
    [BitVec.ofNat 8 d.state.toNat, BitVec.ofNat 8 d.dtype.toNat, d.gen, BitVec.ofNat 8 effective.toNat,
      BitVec.ofNat 8 (d.windowLength / 65536), BitVec.ofNat 8 (d.windowLength / 256), BitVec.ofNat 8 d.windowLength,
      BitVec.ofNat 8 (d.level.val + if d.holder = some asker then 128 else 0)] := by
  rw [queryRecord, beBytes_three]; rfl

/-- Settles O13: a QUERY makes the first three checks of the Resolver and charges nobody. -/
theorem queryDescribesTheWindow : Obligations.QueryDescribesTheWindow := by
  unfold Obligations.QueryDescribesTheWindow
  intro s slot tag h rest hs hq
  have fails {code : Code} (hc : checkHandle s slot h = .error code) :
      exec (.query none) s = .next (s.answered ⟨slot, tag, .query h⟩ rest code []) :=
    exec_uncredited (q := ⟨slot, tag, .query h⟩) hs hq (.inr rfl) (queryClaim_error (t := s.serving _ rest) hc)
  refine ⟨fun h0 => fails (checkHandle_null h0), fun h0 h1 => fails (checkHandle_stale h0 h1), fun h0 hf hg ho => fails ?_,
    fun granted h0 hf hg ho => ?_⟩
  · exact checkHandle_notOpen h0 (by rw [not_or, not_not]; exact ⟨hf, hg⟩) ho
  · have claim := queryClaim_ok (t := s.serving ⟨slot, tag, .query h⟩ rest)
      (checkHandle_open h0 (by rw [not_or, not_not]; exact ⟨hf, hg⟩) ho)
    rw [queryRights_eq, queryRecord_eq] at claim
    exact exec_uncredited (q := ⟨slot, tag, .query h⟩) hs hq (.inr rfl) claim

/-! ### CHANNEL_STATUS and an unknown kind -/

theorem channelStatusRecord_eq (c : Channel) : channelStatusRecord c =
    let p := c.primary
    let offset := p.elim 0 (·.offset)
    let done := p.elim 0 fun x => if x.step.isSome then x.bytesDone else 0
    let total := p.elim 0 (·.total.toNat)
    [BitVec.ofNat 8 c.state.toNat,
      BitVec.ofNat 8 ((p.bind (·.owner)).elim 255 (·.val)), BitVec.ofNat 8 (p.elim 0 (·.handle.index.val)),
      BitVec.ofNat 8 (offset / 65536), BitVec.ofNat 8 (offset / 256), BitVec.ofNat 8 offset,
      BitVec.ofNat 8 (done / 65536), BitVec.ofNat 8 (done / 256), BitVec.ofNat 8 done,
      BitVec.ofNat 8 (total / 16777216), BitVec.ofNat 8 (total / 65536), BitVec.ofNat 8 (total / 256), BitVec.ofNat 8 total,
      BitVec.ofNat 8 (c.backup.elim 255 (·.owner.val)), if c.outcome.valid then 1 else 0,
      BitVec.ofNat 8 c.outcome.owner.val, BitVec.ofNat 8 c.outcome.listIndex.val, BitVec.ofNat 8 c.outcome.code.toNat,
      BitVec.ofNat 8 (c.outcome.total.toNat / 16777216), BitVec.ofNat 8 (c.outcome.total.toNat / 65536),
      BitVec.ofNat 8 (c.outcome.total.toNat / 256), BitVec.ofNat 8 c.outcome.total.toNat,
      BitVec.ofNat 8 (c.outcome.offset / 65536), BitVec.ofNat 8 (c.outcome.offset / 256), BitVec.ofNat 8 c.outcome.offset] := by
  have owner : slotByte (c.backup.map (·.owner)) = c.backup.elim 255 (·.owner.val) := by cases c.backup <;> rfl
  unfold channelStatusRecord
  rw [owner]
  simp only [beBytes_three, beBytes_four, slotByte, List.cons_append, List.nil_append]

theorem serveChannelStatus_bad {channel : Byte} {t : State} (hb : 3 < channel.toNat) :
    serveChannelStatus channel t = failRequest .badRequest Handle.null 0 t := by
  rw [serveChannelStatus, chanOf_eq_none hb]

theorem serveChannelStatus_of {channel : Byte} {c : Chan} {t : State} (hb : channel.toNat = c.val) :
    serveChannelStatus channel t = reach .ok (channelStatusRecord t.chans[c]) t := by
  rw [serveChannelStatus, chanOf_eq_some hb.symm]

/-- Settles O14. -/
theorem channelStatusAndUnknownKindsAreAnswered : Obligations.ChannelStatusAndUnknownKindsAreAnswered := by
  unfold Obligations.ChannelStatusAndUnknownKindsAreAnswered
  refine ⟨fun s slot tag channel rest hs hq => ⟨fun c hc => ?_, fun hb hl => ?_⟩, channelStatusRecord_eq,
    fun s slot tag kind rest hs hq hl => ?_⟩
  · exact exec_credited (q := ⟨slot, tag, .channelStatus channel⟩) hs hq hq rfl rfl rfl
      (serveChannelStatus_of (t := s.serving _ rest) hc)
  · exact exec_charged (q := ⟨slot, tag, .channelStatus channel⟩) hs hq rfl hl
      (serveChannelStatus_bad (t := s.serving _ rest) hb)
  · exact exec_charged (q := ⟨slot, tag, .unknown kind⟩) hs hq rfl hl rfl

end OneClaimServices

end Sys2Proof.Machine

/-! OPEN (chapter 4): the search examines one descriptor a claim, and chooses the lowest that passes (R78 to R81). -/

namespace Sys2Proof.Machine

section OpenSearch

variable {s : State} {r : InService} {k : Search} {tag : BitVec 16} {wanted : Byte}

theorem Request.claim_open {q : Request} (hb : q.body = .openWindow tag wanted) :
    q.claim = openClaim q.slot tag wanted := by
  unfold Request.claim; rw [hb]

theorem handleBytes_eq (h : Handle) : handleBytes h = [h.gen, BitVec.ofNat 8 h.index.val] := by
  have hi := h.index.isLt
  have hg : (h.gen.toNat * 256 + h.index.val) / 256 = h.gen.toNat := by omega
  have high : BitVec.ofNat 8 ((h.gen.toNat * 256 + h.index.val) / 256) = h.gen := by rw [hg]; simp
  have low : BitVec.ofNat 8 (h.gen.toNat * 256 + h.index.val) = BitVec.ofNat 8 h.index.val :=
    BitVec.eq_of_toNat_eq (by simp)
  simp [handleBytes, handleNat, beBytes, high, low]

theorem lock_iff (granted : Rights) : granted &&& Rights.K = Rights.K ↔ granted.getLsbD 3 = true := by
  revert granted; decide

/-- An opener's entry, with the interlock it gives up where it has no LOCK (R13, R81). -/
theorem addOpener_eq (slot : Slot) (granted : Rights) (d : Descriptor) : Descriptor.addOpener slot granted d =
    if d.holder = some slot ∧ granted.getLsbD 3 = false then
      { d with openers := d.openers.set slot (some granted), holder := none, expiry := none }
    else { d with openers := d.openers.set slot (some granted) } := by
  unfold Descriptor.addOpener Descriptor.releaseIfHolder
  dsimp only
  by_cases hk : granted.getLsbD 3 = true
  · rw [if_pos ((lock_iff granted).2 hk), if_neg (fun h => by rw [hk] at h; cases h.2)]
  · rw [if_neg (fun h => hk ((lock_iff granted).1 h))]
    by_cases hh : d.holder = some slot
    · rw [if_pos hh, if_pos ⟨hh, by simpa using hk⟩]; rfl
    · rw [if_neg hh, if_neg (fun h => hh h.1)]

theorem candidate_iff (k : Search) (d : Descriptor) :
    Candidate k d ↔ (d.state = .valid ∨ d.state = .absent) ∧ d.tag = k.tag := by
  unfold Candidate
  rw [← and_assoc]
  refine and_congr_left fun _ => ?_
  cases d.state <;> decide

theorem admits_iff (k : Search) (d : Descriptor) :
    Admits k d ↔ ((d.state = .valid ∨ d.state = .absent) ∧ d.tag = k.tag) ∧ k.level ≤ d.level := by
  rw [Admits, candidate_iff]

theorem passes_iff (k : Search) (d : Descriptor) : Passes k d ↔
    (((d.state = .valid ∨ d.state = .absent) ∧ d.tag = k.tag) ∧ k.level ≤ d.level) ∧ k.wanted &&& d.rights = k.wanted := by
  rw [Passes, admits_iff, Rights.within, beq_iff_eq]

theorem setWidth_eq_ofNat (b : Byte) : b.setWidth 4 = BitVec.ofNat 4 b.toNat := BitVec.eq_of_toNat_eq (by simp)

theorem openClaim_checked {slot : Slot} (hw : wanted.toNat < 16) :
    openClaim slot tag wanted .checked s = beginSearch slot tag (wanted.setWidth 4) s := by
  show (match rightsOf wanted.toNat with
    | none => _
    | some w => beginSearch slot tag w s) = _
  rw [rightsOf_eq_some (by omega), ← setWidth_eq_ofNat]

/-- The claim that reads the level and the filters, and through them a visible tag (R78). -/
theorem openClaim_visible {slot : Slot} (hr : s.server = some r) (hw : wanted.toNat < 16)
    (hv : visible s.su[slot].filters tag = true) : openClaim slot tag wanted .checked s =
      { s with server := some { r with stage := .search (Search.begin s.su[slot] tag (wanted.setWidth 4)) } } :=
  (openClaim_checked hw).trans ((if_pos hv).trans (toStage_of hr))

/-- A tag that is not visible is not found (R78). -/
theorem openClaim_hidden {slot : Slot} (hw : wanted.toNat < 16) (hv : ¬ visible s.su[slot].filters tag = true) :
    openClaim slot tag wanted .checked s = failRequest .notFound Handle.null tag.toNat s :=
  (openClaim_checked hw).trans (if_neg hv)

theorem searching_eq (hr : s.server = some r) (hg : r.stage = .search k) : s.searching r k = s := by
  unfold State.searching
  rw [← hg]
  show { s with server := some r } = s
  rw [← hr]

/-- The search that ends with a violation that does not bar. -/
theorem searchOn_charged {slot : Slot} (hs : s.su[r.request.slot].score ≤ 247) (h : k.next = 255)
    (hv : k.verdict.toCode.isViolation = true) (hslot : r.request.slot = slot) (k' : Search) :
    searchOn k (s.searching r k') = { s.charged k.verdict.toCode slot none ⟨0, 0⟩ k.tag.toNat with
      server := some { r with stage := .ending k.verdict.toCode [] } } := by
  subst hslot
  rw [searchOn_last h, failRequest_violation (t := s.searching r k') (r := { r with stage := .search k' }) hv rfl hs]
  exact reach_of (s := (s.searching r k').charged _ _ _ _ _) (r := { r with stage := .search k' }) rfl

/-- The search that ends without a candidate. -/
theorem searchOn_notFound (h : k.next = 255) (hv : k.verdict = .notFound) (k' : Search) :
    searchOn k (s.searching r k') = { s with server := some { r with stage := .ending .notFound [] } } := by
  rw [searchOn_last h, hv]
  rw [failRequest_neutral (t := s.searching r k') (r := { r with stage := .search k' }) rfl rfl]
  exact reach_of (s := s.searching r k') (r := { r with stage := .search k' }) rfl

/-- One claim of an OPEN in service. -/
theorem exec_openClaim {u : State} (hs : Settled s) (hr : s.server = some r) (hb : r.request.body = .openWindow tag wanted)
    (hg : r.stage = .checked ∨ ∃ k, r.stage = .search k) (hu : openClaim r.request.slot tag wanted r.stage s = u)
    (hc : u.chans = s.chans) (hp : u.port = s.port) : exec (.openWindow (some 1)) s = .next u := by
  have e : (r.request.body.row (some 1)) = .openWindow (some 1) := by rw [hb]; rfl
  rw [← e]
  refine exec_claims hs hr ?_ ?_ (by rw [Request.claim_open hb]; exact hu) hc hp
  · rcases hg with h | ⟨k, h⟩ <;> rw [h] <;> exact nofun
  · rcases hg with h | ⟨k, h⟩ <;> rw [h] <;> exact nofun

/-- Claims of an OPEN between two examinations. -/
theorem exec_openClaims {u : State} (n : Nat) (hs : Settled s) (hr : s.server = some r)
    (hb : r.request.body = .openWindow tag wanted) (hg : r.stage = .search k)
    (hu : carryOn (openClaim r.request.slot tag wanted) n (s.searching r k) = u) (hc : u.chans = s.chans) (hp : u.port = s.port) :
    exec (.openWindow (some n)) s = .next u := by
  have e : (r.request.body.row (some n)) = .openWindow (some n) := by rw [hb]; rfl
  rw [← e, exec_inService hr (by rw [hg]; exact nofun), Option.getD_some, Request.claim_open hb, ← searching_eq hr hg, hu,
    settle_of_same hs hc hp]

theorem RunningVerdict.toCode_eq (v : RunningVerdict) :
    (v.toCode = .rights ↔ v = .rights) ∧ (v.toCode = .notFound ↔ v = .notFound) ∧
      (v.toCode = .notFound ∨ v.toCode = .level ∨ v.toCode = .rights) ∧
      (v.toCode.isViolation = false ↔ v = .notFound) := by
  cases v <;> decide

/-- The examination goes on, or ends the search, with this verdict (R79, R80). -/
theorem searchOn_goesOn (hs : Settled s) (hr : s.server = some r) (hb : r.request.body = .openWindow tag wanted)
    (hg : r.stage = .search k) {v : RunningVerdict}
    (hu : examine r.request.slot k (s.searching r k) = searchOn { k with verdict := v } (s.searching r k)) :
    (k.next ≠ 255 → exec (.openWindow (some 1)) s = .next { s with
      server := some { r with stage := .search { k with next := k.next + 1, verdict := v } } }) ∧
    (k.next = 255 → v = .notFound → exec (.openWindow (some 1)) s = .next { s with
      server := some { r with stage := .ending .notFound [] } }) ∧
    (k.next = 255 → s.su[r.request.slot].score ≤ 247 →
      (v = .level → exec (.openWindow (some 1)) s = .next { s.charged .level r.request.slot none ⟨0, 0⟩ k.tag.toNat with
        server := some { r with stage := .ending .level [] } }) ∧
      (v = .rights → exec (.openWindow (some 1)) s = .next { s.charged .rights r.request.slot none ⟨0, 0⟩ k.tag.toNat with
        server := some { r with stage := .ending .rights [] } })) := by
  have claim {u : State} (h : searchOn { k with verdict := v } (s.searching r k) = u) (hc : u.chans = s.chans)
      (hp : u.port = s.port) : exec (.openWindow (some 1)) s = .next u := by
    refine exec_openClaims 1 hs hr hb hg ?_ hc hp
    rw [carryOn_search 0, hu, h]; rfl
  refine ⟨fun hn => claim (searchOn_next (k' := { k with verdict := v }) hn) rfl rfl, fun hn hv => claim (searchOn_notFound (k := { k with verdict := v }) hn hv k) rfl rfl,
    fun hn hl => ⟨?_, ?_⟩⟩
  · rintro rfl
    exact claim (searchOn_charged (k := { k with verdict := .level }) hl hn rfl rfl k) rfl rfl
  · rintro rfl
    exact claim (searchOn_charged (k := { k with verdict := .rights }) hl hn rfl rfl k) rfl rfl

/-- Settles O10: the read of level and filters, one examination, and the whole search by induction on the indices left
(`search_chooses`, `search_fails`). -/
theorem openSearchChoosesTheLowestPassingDescriptor : Obligations.OpenSearchChoosesTheLowestPassingDescriptor := by
  unfold Obligations.OpenSearchChoosesTheLowestPassingDescriptor
  refine ⟨fun s r tag wanted hs hr hb hg hw => ?_, fun s r tag wanted k hs hr hb hg => ⟨?_, ?_, ?_, ?_⟩,
    fun s r tag wanted k hs hr hb hg => ⟨fun i hi hmin => ?_, fun hn hcharge => ?_⟩⟩
  · refine exec_openClaim hs hr hb (.inl hg) ?_ rfl rfl
    rw [hg]
    by_cases hv : visible s.su[r.request.slot].filters tag = true
    · rw [if_pos hv]; exact openClaim_visible hr hw hv
    · rw [if_neg hv]; exact (openClaim_hidden hw hv).trans ((failRequest_neutral rfl hr).trans (reach_of hr))
  · intro hc
    exact searchOn_goesOn hs hr hb hg (examine_skip fun h => hc ((candidate_iff k _).1 h))
  · intro hc hl
    have e : k.verdict.failsLevel = if k.verdict = .notFound then .level else k.verdict := by cases k.verdict <;> rfl
    rw [← e]
    exact searchOn_goesOn hs hr hb hg (examine_level ((candidate_iff k _).2 hc) (not_le.2 hl))
  · intro hc hl hw
    exact searchOn_goesOn hs hr hb hg (examine_rights ⟨(candidate_iff k _).2 hc, hl⟩ (beq_eq_false_iff_ne.2 hw))
  · intro hc hl hw
    refine exec_openClaims 1 hs hr hb hg ?_ rfl rfl
    rw [carryOn_search 0, examine_chosen ((passes_iff k _).2 ⟨⟨hc, hl⟩, hw⟩), addOpener_eq, handleBytes_eq]
    rfl
  · obtain ⟨⟨⟨hle, hc⟩, hl⟩, hw⟩ := hi
    rw [Fin.le_def] at hle
    have chooses := search_chooses (s := s) (r := r) (slot := r.request.slot) (tag := tag) (wanted := wanted) 0
      (i.val - k.next.val) k (by omega) ((passes_iff k _).2 ⟨⟨hc, hl⟩, hw⟩) fun j hj hji hp => by
        obtain ⟨⟨hc, hl⟩, hw⟩ := (passes_iff k _).1 hp
        exact hmin j hji ⟨⟨⟨hj, hc⟩, hl⟩, hw⟩
    rw [Nat.zero_add] at chooses
    refine ⟨_, exec_openClaims _ hs hr hb hg chooses rfl rfl, ?_, ?_, fun j hj => ?_⟩
    · rw [handleBytes_eq]; rfl
    · show (s.wt.set i _)[i].openers = _
      rw [get_set_self, addOpener_eq]
      split <;> rfl
    · show (s.wt.set i _)[j] = _
      rw [get_set, if_neg hj.symm]
  · have hk := k.next.isLt
    obtain ⟨last, v, e, hrights, hnone⟩ := search_fails (s := s) (r := r) (slot := r.request.slot) (tag := tag)
      (wanted := wanted) 0 (255 - k.next.val) k (by omega) fun j hj hp => by
        obtain ⟨⟨hc, hl⟩, hw⟩ := (passes_iff k _).1 hp
        exact hn j ⟨⟨⟨hj, hc⟩, hl⟩, hw⟩
    rw [show 0 + (255 - k.next.val + 1) = 256 - k.next.val by omega] at e
    obtain ⟨isRights, isNone, anyCode, neutral⟩ := v.toCode_eq
    have none' : v = .notFound ↔ k.verdict = .notFound ∧ ∀ i : DIdx,
        ¬ (k.next ≤ i ∧ (s.wt[i].state = .valid ∨ s.wt[i].state = .absent) ∧ s.wt[i].tag = k.tag) := by
      rw [hnone]
      exact and_congr_right fun _ => forall_congr' fun j => by rw [candidate_iff]; exact not_and.symm
    have rights' : v = .rights ↔ k.verdict = .rights ∨ ∃ i : DIdx,
        (k.next ≤ i ∧ (s.wt[i].state = .valid ∨ s.wt[i].state = .absent) ∧ s.wt[i].tag = k.tag) ∧ k.level ≤ s.wt[i].level := by
      rw [hrights]
      exact or_congr_right (exists_congr fun j => by rw [admits_iff]; exact and_assoc.symm)
    have ends : ∃ t, failRequest v.toCode Handle.null k.tag.toNat (s.searching r last) = t ∧
        t.server = some { r with stage := .ending v.toCode [] } ∧ t.wt = s.wt ∧ t.chans = s.chans ∧ t.port = s.port := by
      by_cases hv : v = .notFound
      · rw [failRequest_neutral (t := s.searching r last) (r := { r with stage := .search last }) (neutral.2 hv) rfl]
        exact ⟨_, rfl, rfl, rfl, rfl, rfl⟩
      · have hl : s.su[r.request.slot].score ≤ 247 := hcharge.resolve_right fun h => hv (none'.2 h)
        rw [failRequest_violation (t := s.searching r last) (r := { r with stage := .search last })
          (by rw [← Bool.not_eq_false, neutral]; exact hv) rfl hl]
        exact ⟨_, rfl, rfl, rfl, rfl, rfl⟩
    obtain ⟨t, ht, hserver, hwt, hc, hp⟩ := ends
    exact ⟨t, v.toCode, exec_openClaims _ hs hr hb hg (e.trans ht) hc hp, hserver, hwt, anyCode, isRights.trans rights',
      isNone.trans none'⟩

end OpenSearch

end Sys2Proof.Machine

/-! The whole service of an OPEN at the head of the queue (R78, R80, R81): checks, search, answer. -/

namespace Sys2Proof.Machine

section OpenService

variable {s : State} {slot : Slot} {tag : BitVec 3} {wtag : BitVec 16} {wanted : Byte} {rest : List Request}

/-- The two claims before the search: standing, then fields, level and filters. -/
theorem carryOn_open (hl : s.su[slot].standing ≠ .limited) (n : Nat) :
    carryOn (openClaim slot wtag wanted) (n + 2) (s.serving ⟨slot, tag, .openWindow wtag wanted⟩ rest) =
      carryOn (openClaim slot wtag wanted) n
        (openClaim slot wtag wanted .checked (s.servingAt ⟨slot, tag, .openWindow wtag wanted⟩ rest .checked)) := by
  rw [carryOn_serving]
  have begun : openClaim slot wtag wanted .begun (s.serving ⟨slot, tag, .openWindow wtag wanted⟩ rest) =
      s.servingAt ⟨slot, tag, .openWindow wtag wanted⟩ rest .checked := if_neg hl
  rw [begun, carryOn_checked]

/-- The search as it begins. -/
theorem carryOn_open_search (hl : s.su[slot].standing ≠ .limited) (hw : wanted.toNat < 16)
    (hv : visible s.su[slot].filters wtag = true) (n : Nat) :
    carryOn (openClaim slot wtag wanted) (n + 2) (s.serving ⟨slot, tag, .openWindow wtag wanted⟩ rest) =
      carryOn (openClaim slot wtag wanted) n
        ((s.serving ⟨slot, tag, .openWindow wtag wanted⟩ rest).searching (InService.begin ⟨slot, tag, .openWindow wtag wanted⟩)
          (Search.begin s.su[slot] wtag (wanted.setWidth 4))) := by
  rw [carryOn_open hl]
  exact congrArg _ (openClaim_visible (s := s.servingAt ⟨slot, tag, .openWindow wtag wanted⟩ rest .checked)
    (r := { InService.begin ⟨slot, tag, .openWindow wtag wanted⟩ with stage := .checked }) rfl hw hv)

theorem begin_le {i : DIdx} {r : Requester} {w : Rights} : (Search.begin r wtag w).next ≤ i ↔ i ≠ 0 := by
  show (1 : DIdx) ≤ i ↔ _
  rw [Fin.le_def, ne_eq, Fin.ext_iff]
  show 1 ≤ i.val ↔ ¬ i.val = 0
  omega

/-- The descriptors that the search of a slot chooses among (R79). -/
theorem passes_begin_iff {r : Requester} {d : Descriptor} :
    Passes (Search.begin r wtag (wanted.setWidth 4)) d ↔
      (d.state = .valid ∨ d.state = .absent) ∧ d.tag = wtag ∧ r.level ≤ d.level ∧
        wanted.setWidth 4 &&& d.rights = wanted.setWidth 4 := by
  rw [passes_iff, and_assoc, and_assoc]
  rfl

/-- The first descriptor that passes is opened, and the slot is credited. -/
theorem exec_open_chooses {i : DIdx} (hs : Settled s) (hq : AtHead s ⟨slot, tag, .openWindow wtag wanted⟩ rest)
    (hl : s.su[slot].standing ≠ .limited) (hw : wanted.toNat < 16) (hv : visible s.su[slot].filters wtag = true)
    (hi0 : i ≠ 0) (hi : Passes (Search.begin s.su[slot] wtag (wanted.setWidth 4)) s.wt[i])
    (hmin : ∀ j : DIdx, j ≠ 0 → j < i → ¬ Passes (Search.begin s.su[slot] wtag (wanted.setWidth 4)) s.wt[j]) :
    exec (.openWindow none) s = .next
      { (s.credited slot).answered ⟨slot, tag, .openWindow wtag wanted⟩ rest .ok [s.wt[i].gen, BitVec.ofNat 8 i.val] with
        wt := s.wt.set i (Descriptor.addOpener slot (wanted.setWidth 4) s.wt[i]) } := by
  have hi1 : i.val ≠ 0 := fun e => hi0 (Fin.ext e)
  have hi255 := i.isLt
  refine exec_answers (q := ⟨slot, tag, .openWindow wtag wanted⟩) hs hq ?_ rfl rfl
  refine (carryOn_open_search hl hw hv 258).trans ?_
  have chooses := search_chooses (s := s.serving ⟨slot, tag, .openWindow wtag wanted⟩ rest)
    (r := InService.begin ⟨slot, tag, .openWindow wtag wanted⟩) (slot := slot) (tag := wtag) (wanted := wanted)
    (257 - i.val + 1) (i.val - 1) (Search.begin s.su[slot] wtag (wanted.setWidth 4)) (by show 1 + _ = _; omega) hi
    fun j hj hji => hmin j (begin_le.1 hj) hji
  rw [show 257 - i.val + 1 + (i.val - 1 + 1) = 258 by omega, handleBytes_eq] at chooses
  rw [chooses]
  rw [carryOn_ending (r := { InService.begin ⟨slot, tag, .openWindow wtag wanted⟩ with
    stage := .ending .ok [s.wt[i].gen, BitVec.ofNat 8 i.val] }) rfl rfl]
  exact endService_ok_serving (s := { s with wt := s.wt.set i (Descriptor.addOpener slot (wanted.setWidth 4) s.wt[i]) }) hq rfl _

/-- A search that nothing passes is answered with the furthest test that a candidate reached. -/
theorem exec_open_fails (hs : Settled s) (hq : AtHead s ⟨slot, tag, .openWindow wtag wanted⟩ rest)
    (hl : s.su[slot].standing ≠ .limited) (hw : wanted.toNat < 16) (hv : visible s.su[slot].filters wtag = true)
    (hn : ∀ j : DIdx, j ≠ 0 → ¬ Passes (Search.begin s.su[slot] wtag (wanted.setWidth 4)) s.wt[j]) :
    ∃ v : RunningVerdict,
      (v = .rights ↔ ∃ j : DIdx, j ≠ 0 ∧ Admits (Search.begin s.su[slot] wtag (wanted.setWidth 4)) s.wt[j]) ∧
      (v = .notFound ↔ ∀ j : DIdx, j ≠ 0 → ¬ Candidate (Search.begin s.su[slot] wtag (wanted.setWidth 4)) s.wt[j]) ∧
      (v = .notFound → exec (.openWindow none) s = .next
        (s.answered ⟨slot, tag, .openWindow wtag wanted⟩ rest .notFound [])) ∧
      (v ≠ .notFound → s.su[slot].score ≤ 247 → exec (.openWindow none) s = .next
        ((s.charged v.toCode slot none ⟨0, 0⟩ wtag.toNat).answered ⟨slot, tag, .openWindow wtag wanted⟩ rest v.toCode [])) := by
  obtain ⟨last, v, e, hrights, hnone⟩ := search_fails (s := s.serving ⟨slot, tag, .openWindow wtag wanted⟩ rest)
    (r := InService.begin ⟨slot, tag, .openWindow wtag wanted⟩) (slot := slot) (tag := wtag) (wanted := wanted) 3 254
    (Search.begin s.su[slot] wtag (wanted.setWidth 4)) rfl fun j hj => hn j (begin_le.1 hj)
  have start := (carryOn_open_search (tag := tag) (rest := rest) hl hw hv 258).trans e
  refine ⟨v, hrights.trans ?_, hnone.trans ?_, ?_, fun hne hscore => ?_⟩
  · rw [or_iff_right (by exact nofun)]
    exact exists_congr fun j => by rw [begin_le]
  · rw [and_iff_right (by rfl)]
    exact forall_congr' fun j => by rw [begin_le]
  · rintro rfl
    exact exec_answers (q := ⟨slot, tag, .openWindow wtag wanted⟩) hs hq
      (start.trans (failRequest_serving_neutral hq rfl (by decide) (.search last) 2)) rfl rfl
  · have violation : v.toCode.isViolation = true := by rw [← Bool.not_eq_false, v.toCode_eq.2.2.2]; exact hne
    exact exec_answers (q := ⟨slot, tag, .openWindow wtag wanted⟩) hs hq
      (start.trans (failRequest_serving_violation hq violation hscore (.search last) 2)) rfl rfl

/-- Settles O11, by the stage that answers the OPEN. -/
theorem openIsAnswered : Obligations.OpenIsAnswered := by
  unfold Obligations.OpenIsAnswered
  refine ⟨fun s slot tag wtag wanted rest i hs hq hl hw hv hi hmin => ?_, fun s slot tag wtag wanted rest hs hq =>
    ⟨fun hl => ?_, fun hl hw hscore => ?_, fun hl hw => ⟨fun hv => ?_, fun hv hn => ⟨fun hc => ?_, fun hc ha hscore => ?_,
      fun ha hscore => ?_⟩⟩⟩⟩
  · rw [exec_open_chooses hs hq hl hw hv hi.1 (passes_begin_iff.2 hi.2)
      fun j hj hji hp => hmin j hji ⟨hj, passes_begin_iff.1 hp⟩, addOpener_eq, BitVec.getLsbD_setWidth]
    rfl
  · refine exec_answers (q := ⟨slot, tag, .openWindow wtag wanted⟩) hs hq ?_ rfl rfl
    refine (carryOn_serving _ _ _ _).trans ((congrArg _ ?_).trans (failRequest_serving_neutral (h := Handle.null) (offset := 0)
      hq rfl (by decide) .begun _))
    exact if_pos hl
  · refine exec_answers (q := ⟨slot, tag, .openWindow wtag wanted⟩) hs hq ?_ rfl rfl
    refine (carryOn_open hl 258).trans ((congrArg _ ?_).trans (failRequest_serving_violation (h := Handle.null) (offset := 0)
      hq rfl hscore .checked _))
    show (match rightsOf wanted.toNat with | none => _ | some w => _) = _
    rw [rightsOf_eq_none (by omega)]
  · refine exec_answers (q := ⟨slot, tag, .openWindow wtag wanted⟩) hs hq ?_ rfl rfl
    have hidden := openClaim_hidden (s := s.servingAt ⟨slot, tag, .openWindow wtag wanted⟩ rest .checked) (slot := slot)
      (tag := wtag) hw (by rw [Bool.not_eq_true]; exact hv)
    exact (carryOn_open hl 258).trans ((congrArg _ hidden).trans (failRequest_serving_neutral hq rfl (by decide) .checked 257))
  all_goals
    obtain ⟨v, hrights, hnone, free, charged⟩ := exec_open_fails hs hq hl hw hv fun j hj hp => by
      obtain ⟨hc, ht, hlev, hr⟩ := passes_begin_iff.1 hp
      exact hn j ⟨⟨⟨hj, hc, ht⟩, hlev⟩, hr⟩
  · exact free (hnone.2 fun j hj h => hc j ⟨hj, (candidate_iff _ _).1 h⟩)
  · have isLevel : v = .level := by
      have hr : v ≠ .rights := fun h => by
        obtain ⟨j, hj, h⟩ := hrights.1 h
        obtain ⟨hc, hlev⟩ := (admits_iff _ _).1 h
        exact ha j ⟨⟨hj, hc⟩, hlev⟩
      have hnf : v ≠ .notFound := fun h => by
        obtain ⟨j, hj, hc⟩ := hc
        exact hnone.1 h j hj ((candidate_iff _ _).2 hc)
      cases v with
      | notFound => exact absurd rfl hnf
      | level => rfl
      | rights => exact absurd rfl hr
    subst isLevel
    exact charged (by decide) hscore
  · have isRights : v = .rights := by
      obtain ⟨j, ⟨hj, hc⟩, hlev⟩ := ha
      exact hrights.2 ⟨j, hj, (admits_iff _ _).2 ⟨hc, hlev⟩⟩
    subst isRights
    exact charged (by decide) hscore

end OpenService

end Sys2Proof.Machine

/-! Direct accesses, claim by claim (chapter 5): the checks, the resolution with the interlock's step, the translation. The four
kinds differ in the rights they need, in what a LIMITED slot comes to, in what follows a passing resolution and in their
bursts. -/

namespace Sys2Proof.Machine

/-- A direct access at a handle and offset, with its number of bytes and the rights it needs (R91). -/
inductive ReqBody.Accesses (h : Handle) (offset : Nat) : ReqBody → Nat → Rights → Prop
  | read (n : Byte) : Accesses h offset (.read h offset n) n.toNat Rights.R
  | write (data : List Byte) : Accesses h offset (.write h offset data) data.length Rights.W
  | readLock (n : Byte) : Accesses h offset (.readLock h offset n) n.toNat (Rights.R ||| Rights.K)
  | writeUnlock (data : List Byte) : Accesses h offset (.writeUnlock h offset data) data.length (Rights.W ||| Rights.K)

/-- What a LIMITED slot's access comes to (R92). -/
def ReqBody.whenLimited (slot : Slot) (h : Handle) (offset : Nat) : ReqBody → State → State
  | .write _ _ _ | .readLock _ _ _ => failRequest .limited h offset
  | .writeUnlock _ _ _ => fun s => failRequest .limited h offset (limitedRelease slot h s)
  | _ => toStage .checked

/-- What follows a passing resolution in its claim (R93, R99, R102). -/
def ReqBody.whenResolved (slot : Slot) (h : Handle) (offset : Nat) : ReqBody → State → State
  | .readLock _ _ _ => lockStep slot h offset
  | .writeUnlock _ _ _ => unlockStep slot h offset
  | _ => toStage .translation

/-- The bursts of an access's translated pieces (R95). -/
def ReqBody.bursts : ReqBody → List (Nat × Nat) → List Burst
  | .write _ _ data | .writeUnlock _ _ data => (writeBursts · data)
  | _ => readBursts

section DirectAccess

variable {s t : State} {r : InService} {q : Request} {rest : List Request} {h : Handle} {offset m : Nat} {needed : Rights}
  {w : Resolved} {code : Code} {touched : Option DIdx}

theorem Request.claim_access (ha : q.body.Accesses h offset m needed) : q.claim =
    accessClaims (accessChecks q.slot h offset m (q.body.whenLimited q.slot h offset))
      (resolveThen q.slot h offset m needed (q.body.whenResolved q.slot h offset)) (translateAndBurst q.body.bursts) := by
  obtain ⟨slot, tag, body⟩ := q
  cases ha <;> rfl

variable {body : ReqBody}

theorem ReqBody.Accesses.whenLimited_read {slot : Slot} (ha : body.Accesses h offset m needed)
    (hi : body.row (some 1) = .read (some 1)) : body.whenLimited slot h offset = toStage .checked := by
  cases ha with
  | read => rfl
  | write | readLock | writeUnlock => cases hi

theorem ReqBody.Accesses.whenResolved_plain {slot : Slot} (ha : body.Accesses h offset m needed)
    (hi : body.row (some 1) = .read (some 1) ∨ body.row (some 1) = .write (some 1)) :
    body.whenResolved slot h offset = toStage .translation := by
  cases ha with
  | read | write => rfl
  | readLock | writeUnlock => rcases hi with e | e <;> cases e

/-! ### The checks -/

theorem accessFieldsOk_iff : accessFieldsOk offset m = true ↔ offset ≤ 8388607 ∧ 1 ≤ m ∧ m ≤ 64 := by
  simp only [accessFieldsOk, Bool.and_eq_true, decide_eq_true_eq, Config.maxOffset, and_assoc]

theorem accessChecks_badRequest {slot : Slot} {limited : State → State} (hf : ¬ accessFieldsOk offset m = true) :
    accessChecks slot h offset m limited s = failRequest .badRequest h offset s := by
  unfold accessChecks; rw [if_pos (by simpa using hf)]

theorem accessChecks_pass {slot : Slot} {limited : State → State} (hf : accessFieldsOk offset m = true)
    (hl : limited = toStage .checked ∨ s.su[slot].standing ≠ .limited) :
    accessChecks slot h offset m limited s = toStage .checked s := by
  unfold accessChecks; rw [if_neg (by simp [hf])]
  by_cases hs : s.su[slot].standing = .limited
  · rw [if_pos hs, hl.resolve_right (not_not.2 hs)]
  · rw [if_neg hs]

theorem accessChecks_limited {slot : Slot} {limited : State → State} (hf : accessFieldsOk offset m = true)
    (hl : s.su[slot].standing = .limited) : accessChecks slot h offset m limited s = limited s := by
  unfold accessChecks; rw [if_neg (by simp [hf]), if_pos hl]

/-- The table after the release that a LIMITED slot's WRITE_UNLOCK takes (R92). -/
theorem limitedRelease_eq (slot : Slot) (h : Handle) (s : State) : limitedRelease slot h s = { s with
    wt := if h.index ≠ 0 ∧ s.wt[h.index].state ≠ .free ∧ s.wt[h.index].gen = h.gen ∧ s.wt[h.index].holder = some slot then
        s.wt.set h.index { s.wt[h.index] with holder := none, expiry := none }
      else s.wt } := by
  unfold limitedRelease
  dsimp only
  by_cases hh : s.wt[h.index].holder = some slot
  · by_cases hl : h.index ≠ 0 ∧ s.wt[h.index].state ≠ .free ∧ s.wt[h.index].gen = h.gen
    · rw [if_pos hl, if_pos ⟨hl.1, hl.2.1, hl.2.2, hh⟩]
      simp only [State.updDesc, Descriptor.releaseIfHolder, hh, if_true, Descriptor.releaseLock]
    · rw [if_neg hl, if_neg fun e => hl ⟨e.1, e.2.1, e.2.2.1⟩]
  · rw [if_neg (c := _ ∧ _ ∧ _ ∧ _) fun e => hh e.2.2.2]
    split
    · simp only [State.updDesc, Descriptor.releaseIfHolder, hh, if_false, set_get_self]
    · rfl

/-- The claim that answers a LIMITED slot's access (R92). -/
theorem ReqBody.Accesses.whenLimited_of {slot : Slot} (ha : body.Accesses h offset m needed)
    (hi : body.row (some 1) ≠ .read (some 1)) (hr : s.server = some r) : body.whenLimited slot h offset s = { s with
      wt := if body.row (some 1) = .writeUnlock (some 1) ∧ h.index ≠ 0 ∧ s.wt[h.index].state ≠ .free ∧
            s.wt[h.index].gen = h.gen ∧ s.wt[h.index].holder = some slot then
          s.wt.set h.index { s.wt[h.index] with holder := none, expiry := none }
        else s.wt
      server := some { r with stage := .ending .limited [] } } := by
  cases ha with
  | read => exact absurd rfl hi
  | write | readLock =>
    rw [if_neg (fun e => by cases e.1)]
    exact (failRequest_neutral rfl hr).trans (reach_of hr)
  | writeUnlock data =>
    have e := limitedRelease_eq slot h s
    have hu : (limitedRelease slot h s).server = some r := by rw [e]; exact hr
    refine ((failRequest_neutral rfl hu).trans (reach_of hu)).trans ?_
    rw [e]
    refine congrArg (fun v => { s with wt := v, server := some { r with stage := .ending .limited [] } }) ?_
    exact if_congr (by simp [ReqBody.row]) rfl rfl

/-! ### The resolution -/

/-- A failing verdict is the service's result, the notice taken with it (R41, R53). -/
theorem failRequest_touched (hr : t.server = some r) (hc : code.isViolation = true → t.su[r.request.slot].score ≤ 247) :
    failRequest code h offset (touchAbsent touched t) = { t.failing code touched r.request.slot none h offset with
      server := some { r with stage := .ending code [] } } := by
  let u : State := { t with attn := touched.elim t.attn fun i =>
    { t.attn with pending := t.attn.pending ||| 0x040, absentLatch := i } }
  have e : touchAbsent touched t = u := by cases touched <;> rfl
  have hu : u.server = some r := hr
  rw [e]
  unfold State.failing
  by_cases hv : code.isViolation = true
  · rw [if_pos hv, failRequest_violation hv hu (hc hv), reach_of (s := u.charged _ _ _ _ _) hu]
  · rw [if_neg hv, failRequest_neutral (eq_false_of_ne_true hv) hu, reach_of hu]

theorem resolveThen_fails {slot : Slot} {go : State → State} (hslot : r.request.slot = slot) (hr : s.server = some r)
    (hc : code.isViolation = true → s.su[slot].score ≤ 247)
    (hw : resolve s slot h offset m needed false false = .error (code, touched)) :
    resolveThen slot h offset m needed go s = { s.failing code touched slot none h offset with
      server := some { r with stage := .ending code [] } } := by
  subst hslot
  unfold resolveThen; rw [hw]
  exact failRequest_touched hr hc

theorem resolveThen_passes {slot : Slot} {go : State → State} (hr : s.server = some r)
    (hw : resolve s slot h offset m needed false false = .ok w) :
    resolveThen slot h offset m needed go s = go { s with
      wt := withPins s.wt w.pinned
      server := some { r with resolved := some w, pins := r.pins ++ w.pinned } } := by
  unfold resolveThen; rw [hw]
  exact congrArg go (noteResolved_of w hr)

/-! ### The translation -/

theorem translate_resolvedAt {g : Stage} {base : DIdx} {o n : Nat} :
    translate (s.resolvedAt q rest w g) base o n = translate s base o n :=
  translate_alike (s := s) (t := s.resolvedAt q rest w g) (withPins_alike w.pinned s.wt) rfl base o n

theorem translateAndBurst_fails {f : List (Nat × Nat) → List Burst} {entry : Nat} (hr : s.server = some r)
    (hw : r.resolved = some w) (ht : translate s w.base w.baseOffset w.length = .error entry) :
    translateAndBurst f s = { s with
      attn := { s.attn with pending := s.attn.pending ||| 0x080, holeLatch := entry }
      server := some { r with stage := .ending .mapHole [] } } := by
  rw [translateAndBurst_hole hr hw ht, reach_of (s := raiseMapHole entry s) hr]
  rfl

/-! ### One claim of an access in service -/

section OneClaim

variable (hs : Settled s) (hr : s.server = some r) (ha : r.request.body.Accesses h offset m needed)

include hr ha

/-- The row of one claim takes the claim of the stage. -/
theorem exec_access (hb : r.stage ≠ .bursts) (he : ∀ code payload, r.stage ≠ .ending code payload) :
    exec (r.request.body.row (some 1)) s = .next (settle
      (accessClaims (accessChecks r.request.slot h offset m (r.request.body.whenLimited r.request.slot h offset))
        (resolveThen r.request.slot h offset m needed (r.request.body.whenResolved r.request.slot h offset))
        (translateAndBurst r.request.body.bursts) r.stage s)) := by
  rw [exec_oneClaim hr hb he, Request.claim_access ha]

include hs

theorem exec_access_begun (hg : r.stage = .begun)
    (hu : accessChecks r.request.slot h offset m (r.request.body.whenLimited r.request.slot h offset) s = t)
    (hc : t.chans = s.chans) (hp : t.port = s.port) : exec (r.request.body.row (some 1)) s = .next t := by
  rw [exec_access hr ha (by rw [hg]; exact nofun) (by rw [hg]; exact nofun), hg]
  exact congrArg _ ((congrArg settle hu).trans (settle_of_same hs hc hp))

theorem exec_access_checked (hg : r.stage = .checked)
    (hu : resolveThen r.request.slot h offset m needed (r.request.body.whenResolved r.request.slot h offset) s = t)
    (hc : t.chans = s.chans) (hp : t.port = s.port) : exec (r.request.body.row (some 1)) s = .next t := by
  rw [exec_access hr ha (by rw [hg]; exact nofun) (by rw [hg]; exact nofun), hg]
  exact congrArg _ ((congrArg settle hu).trans (settle_of_same hs hc hp))

theorem exec_access_hole {entry : Nat} (hg : r.stage = .translation) (hw : r.resolved = some w)
    (ht : translate s w.base w.baseOffset w.length = .error entry) :
    exec (r.request.body.row (some 1)) s = .next { s with
      attn := { s.attn with pending := s.attn.pending ||| 0x080, holeLatch := entry }
      server := some { r with stage := .ending .mapHole [] } } := by
  rw [exec_access hr ha (by rw [hg]; exact nofun) (by rw [hg]; exact nofun), hg]
  exact congrArg _ ((congrArg settle (translateAndBurst_fails hr hw ht)).trans (settle_of_same hs rfl rfl))

theorem exec_access_burst {pieces : List (Nat × Nat)} {first : Burst} {more : List Burst} (hg : r.stage = .translation)
    (hw : r.resolved = some w) (ht : translate s w.base w.baseOffset w.length = .ok pieces)
    (hf : r.request.body.bursts pieces = first :: more) :
    exec (r.request.body.row (some 1)) s = .next { s with
      server := some { r with stage := .bursts, rest := more }, port := s.port.requested Claimant.rs first } := by
  rw [exec_access hr ha (by rw [hg]; exact nofun) (by rw [hg]; exact nofun), hg]
  exact congrArg _ (settle_translateAndBurst (claim := fun _ => id) hs rfl rfl hr hw ht hf 0)

end OneClaim

/-! ### The whole service of an access at the head of the queue -/

/-- An access whose fields and standing pass goes on with its resolution. -/
theorem carryOn_access (ha : q.body.Accesses h offset m needed) (hf : accessFieldsOk offset m = true)
    (hl : s.su[q.slot].standing ≠ .limited ∨ q.body.whenLimited q.slot h offset = toStage .checked) (n : Nat) :
    carryOn q.claim (n + 2) (s.serving q rest) = carryOn q.claim n
      (resolveThen q.slot h offset m needed (q.body.whenResolved q.slot h offset) (s.servingAt q rest .checked)) := by
  rw [Request.claim_access ha, carryOn_accessChecks hf hl]

/-- A passing resolution and translation request the first burst. -/
theorem exec_access_taken {pieces : List (Nat × Nat)} {first : Burst} {more : List Burst} {r : InService} (hs : Settled s)
    (hq : AtHead s q rest) (ha : q.body.Accesses h offset m needed) (hf : accessFieldsOk offset m = true)
    (hl : s.su[q.slot].standing ≠ .limited ∨ q.body.whenLimited q.slot h offset = toStage .checked)
    (hw : resolve s q.slot h offset m needed false false = .ok w)
    (hgo : q.body.whenResolved q.slot h offset (s.resolvedAt q rest w .checked) = t)
    (hchans : t.chans = s.chans) (hport : t.port = s.port) (hr : t.server = some r) (hg : r.stage = .translation)
    (hrw : r.resolved = some w) (ht : translate t w.base w.baseOffset w.length = .ok pieces)
    (hb : q.body.bursts pieces = first :: more) :
    exec (q.body.row none) s = .next { t with
      server := some { r with stage := .bursts, rest := more }, port := s.port.requested Claimant.rs first } := by
  rw [exec_whole hq, carryOn_access ha hf hl 258, resolveThen_ok hw, hgo, Request.claim_access ha,
    carryOn_translation hr hg 257]
  exact congrArg _ (settle_translateAndBurst hs hchans hport hr hrw ht hb 257)

end DirectAccess

/-- Settles O17: the whole service of a READ and a WRITE, then each claim of the four kinds. -/
theorem readAndWriteRequestTheirFirstBurst : Obligations.ReadAndWriteRequestTheirFirstBurst := by
  unfold Obligations.ReadAndWriteRequestTheirFirstBurst
  refine ⟨fun s slot tag h offset rest w pieces first more hs ho ht => ⟨fun n h1 h64 hq hw hb => ?_,
    fun data h1 h64 hq hl hw hb => ?_⟩, fun s r h offset i m needed hs hr hkind => ?_⟩
  · exact exec_access_taken (q := ⟨slot, tag, .read h offset n⟩) hs hq (.read n) (accessFieldsOk_iff.2 ⟨ho, h1, h64⟩) (.inr rfl) hw
      (t := s.resolvedAt ⟨slot, tag, .read h offset n⟩ rest w .translation) rfl rfl rfl rfl rfl rfl (translate_resolvedAt.trans ht) hb
  · exact exec_access_taken (q := ⟨slot, tag, .write h offset data⟩) hs hq (.write data) (accessFieldsOk_iff.2 ⟨ho, h1, h64⟩)
      (.inl hl) hw (t := s.resolvedAt ⟨slot, tag, .write h offset data⟩ rest w .translation) rfl rfl rfl rfl rfl rfl (translate_resolvedAt.trans ht) hb
  · have ha : r.request.body.Accesses h offset m needed ∧ i = r.request.body.row (some 1) := by
      rcases hkind with ⟨n, hb, rfl, rfl, rfl⟩ | ⟨data, hb, rfl, rfl, rfl⟩ | ⟨n, hb, rfl, rfl, rfl⟩ | ⟨data, hb, rfl, rfl, rfl⟩ <;>
        rw [hb]
      · exact ⟨.read n, rfl⟩
      · exact ⟨.write data, rfl⟩
      · exact ⟨.readLock n, rfl⟩
      · exact ⟨.writeUnlock data, rfl⟩
    obtain ⟨ha, rfl⟩ := ha
    refine ⟨fun hg ho h1 h64 hl => ?_, fun hg ho h1 h64 hi hl => ?_, fun w hg hi hw => ?_, fun code touched hg hc hw => ?_,
      fun w entry hg hw ht => exec_access_hole hs hr ha hg hw ht, fun w pieces first more hg hw ht hb =>
        exec_access_burst hs hr ha hg hw ht ?_⟩
    · refine exec_access_begun hs hr ha hg ((accessChecks_pass (accessFieldsOk_iff.2 ⟨ho, h1, h64⟩) ?_).trans (toStage_of hr)) rfl rfl
      exact hl.imp_left ha.whenLimited_read
    · exact exec_access_begun hs hr ha hg ((accessChecks_limited (accessFieldsOk_iff.2 ⟨ho, h1, h64⟩) hl).trans
        (ha.whenLimited_of hi hr)) rfl rfl
    · refine exec_access_checked hs hr ha hg ((resolveThen_passes hr hw).trans ?_) rfl rfl
      rw [ha.whenResolved_plain hi]
      exact toStage_of (r := { r with resolved := some w, pins := r.pins ++ w.pinned }) rfl
    · have frame := s.failing_frame code touched r.request.slot none h offset
      exact exec_access_checked hs hr ha hg (resolveThen_fails rfl hr hc hw) frame.1 frame.2.1
    · rcases hb with ⟨data, hb | hb, e⟩ | ⟨n, hb | hb, e⟩ <;> rw [hb] <;> exact e

end Sys2Proof.Machine

/-! Direct accesses that take or release the interlock, and those that are turned away or meet a hole (R91 to R103). -/

namespace Sys2Proof.Machine

section Interlock

variable {s t : State} {r : InService} {q : Request} {rest : List Request} {h : Handle} {offset m : Nat} {needed : Rights}
  {w : Resolved} {slot : Slot}

/-! ### The interlock's steps -/

theorem lockStep_takes (hr : s.server = some r) (hh : s.wt[h.index].holder = none ∨ s.wt[h.index].holder = some slot) :
    lockStep slot h offset s = { s with
      wt := s.wt.set h.index { s.wt[h.index] with
        holder := some slot, expiry := some (s.now + s.engine.timeout), expiredHolder := none }
      server := some { r with lockTaken := true, stage := .translation } } := by
  unfold lockStep; dsimp only
  rw [if_pos hh, hr]; rfl

theorem lockStep_busy (hr : s.server = some r) (h1 : s.wt[h.index].holder ≠ none) (h2 : s.wt[h.index].holder ≠ some slot) :
    lockStep slot h offset s = { s with server := some { r with stage := .ending .lockBusy [] } } := by
  unfold lockStep; dsimp only
  rw [if_neg (not_or.2 ⟨h1, h2⟩)]
  exact (failRequest_neutral rfl hr).trans (reach_of hr)

theorem unlockStep_releases (hr : s.server = some r) (hh : s.wt[h.index].holder = some slot) :
    unlockStep slot h offset s = { s with
      wt := s.wt.set h.index { s.wt[h.index] with holder := none, expiry := none }
      server := some { r with stage := .translation } } := by
  unfold unlockStep; dsimp only
  rw [if_pos hh]
  exact toStage_of (s := s.updDesc h.index Descriptor.releaseLock) hr

theorem unlockStep_lost (hr : s.server = some r) (hh : s.wt[h.index].holder = none)
    (he : s.wt[h.index].expiredHolder = some slot) : unlockStep slot h offset s = { s with
      wt := s.wt.set h.index { s.wt[h.index] with expiredHolder := none }
      server := some { r with stage := .ending .lockLost [] } } := by
  unfold unlockStep; dsimp only
  rw [if_neg (by rw [hh]; exact nofun), if_pos ⟨hh, he⟩]
  exact (failRequest_neutral (t := s.updDesc h.index fun d => { d with expiredHolder := none }) rfl hr).trans
    (reach_of (s := s.updDesc h.index fun d => { d with expiredHolder := none }) hr)

theorem unlockStep_refused (hslot : r.request.slot = slot) (hr : s.server = some r) (h1 : s.wt[h.index].holder ≠ some slot)
    (h2 : s.wt[h.index].holder ≠ none ∨ s.wt[h.index].expiredHolder ≠ some slot) (hl : s.su[slot].score ≤ 247) :
    unlockStep slot h offset s = { s.charged .notHolder slot none h offset with
      server := some { r with stage := .ending .notHolder [] } } := by
  subst hslot
  unfold unlockStep; dsimp only
  rw [if_neg h1, if_neg (fun e => h2.elim (absurd e.1) (absurd e.2))]
  exact (failRequest_violation rfl hr hl).trans (reach_of (s := s.charged .notHolder r.request.slot none h offset) hr)

/-! ### The table under pins -/

/-- A change of a descriptor that does not look at its pins may be made before pins are placed or after. -/
theorem withPins_set {f : Descriptor → Descriptor} (hf : ∀ d n, f { d with pins := n } = { f d with pins := n })
    (v : Vector Descriptor 256) (is : List DIdx) (i : DIdx) :
    (withPins v is).set i (f (withPins v is)[i]) = withPins (v.set i (f v[i])) is := by
  have pins (d : Descriptor) : (f d).pins = d.pins := (congrArg Descriptor.pins (hf d d.pins) :)
  refine AlikeButPins.eq (fun j => ?_) fun j => ?_
  · rw [withPins_alike is (v.set i (f v[i])) j, get_set, get_set]
    split
    · rw [← hf, ← hf, withPins_alike is v i]
    · exact withPins_alike is v j
  · rw [withPins_pins, get_set, get_set]
    split
    · rename_i e; subst e; rw [pins, pins, withPins_pins]
    · rw [withPins_pins]

theorem withPins_holder (v : Vector Descriptor 256) (is : List DIdx) (i : DIdx) :
    (withPins v is)[i].holder = v[i].holder ∧ (withPins v is)[i].expiredHolder = v[i].expiredHolder := by
  have alike : { (withPins v is)[i] with pins := 0 } = { v[i] with pins := 0 } := withPins_alike is v i
  exact ⟨(congrArg Descriptor.holder alike :), (congrArg Descriptor.expiredHolder alike :)⟩

/-- A translation does not look at interlocks. -/
theorem translate_set {u : State} {i base : DIdx} {d : Descriptor} {o n : Nat} (hw : u.wt = s.wt.set i d) (hp : u.pm = s.pm)
    (hm : d.mapStart = s.wt[i].mapStart) (hf : d.firstOffset = s.wt[i].firstOffset) :
    translate u base o n = translate s base o n := by
  have at_ : u.wt[base].mapStart = s.wt[base].mapStart ∧ u.wt[base].firstOffset = s.wt[base].firstOffset := by
    rw [hw, get_set]
    split
    · rename_i e; subst e; exact ⟨hm, hf⟩
    · exact ⟨rfl, rfl⟩
  exact translate_congr at_.1 at_.2 hp o n

/-- The service in progress has passed its resolution: its pins are placed, the window is kept. -/
abbrev State.resolvedBy (s : State) (r : InService) (w : Resolved) : State :=
  { s with wt := withPins s.wt w.pinned, server := some { r with resolved := some w, pins := r.pins ++ w.pinned } }

/-- The claim that resolves a READ_LOCK in service and takes the interlock's step. -/
theorem exec_readLock_resolved {n : Byte} (hs : Settled s) (hr : s.server = some r) (hg : r.stage = .checked)
    (hb : r.request.body = .readLock h offset n)
    (hw : resolve s r.request.slot h offset n.toNat (Rights.R ||| Rights.K) false false = .ok w)
    (hgo : lockStep r.request.slot h offset (s.resolvedBy r w) = t)
    (hc : t.chans = s.chans) (hp : t.port = s.port) : exec (.readLock (some 1)) s = .next t := by
  have ha : r.request.body.Accesses h offset n.toNat (Rights.R ||| Rights.K) := by rw [hb]; exact .readLock n
  have done := exec_access_checked hs hr ha hg ((resolveThen_passes hr hw).trans (by rw [hb]; exact hgo)) hc hp
  rw [hb] at done
  exact done

/-- The claim that resolves a WRITE_UNLOCK in service and takes the interlock's step. -/
theorem exec_writeUnlock_resolved {data : List Byte} (hs : Settled s) (hr : s.server = some r) (hg : r.stage = .checked)
    (hb : r.request.body = .writeUnlock h offset data)
    (hw : resolve s r.request.slot h offset data.length (Rights.W ||| Rights.K) false false = .ok w)
    (hgo : unlockStep r.request.slot h offset (s.resolvedBy r w) = t)
    (hc : t.chans = s.chans) (hp : t.port = s.port) : exec (.writeUnlock (some 1)) s = .next t := by
  have ha : r.request.body.Accesses h offset data.length (Rights.W ||| Rights.K) := by rw [hb]; exact .writeUnlock data
  have done := exec_access_checked hs hr ha hg ((resolveThen_passes hr hw).trans (by rw [hb]; exact hgo)) hc hp
  rw [hb] at done
  exact done

end Interlock

/-- Settles O18: the whole service with its translation, then the claim that resolves and takes the interlock's step. -/
theorem lockedAccessesTakeAndReleaseTheInterlock : Obligations.LockedAccessesTakeAndReleaseTheInterlock := by
  unfold Obligations.LockedAccessesTakeAndReleaseTheInterlock
  refine ⟨fun s slot tag h offset rest w pieces first more hs ho hl ht => ⟨fun n h1 h64 hq hw hh hb => ?_,
    fun data h1 h64 hq hw hh hb => ?_⟩, fun s r h offset w hs hr hg => ⟨fun n hbody hw => ⟨fun hh => ?_, fun hn hh => ?_⟩,
    fun data hbody hw => ⟨fun hh => ?_, fun hn he => ?_, fun hn he hscore => ?_⟩⟩⟩
  · have under := (withPins_holder s.wt w.pinned h.index).1
    have step := lockStep_takes (offset := offset) (slot := slot) (h := h)
      (s := s.resolvedAt ⟨slot, tag, .readLock h offset n⟩ rest w .checked) rfl (by rw [← under] at hh; exact hh)
    have sameTranslation := translate_set (s := s.resolvedAt ⟨slot, tag, .readLock h offset n⟩ rest w .checked)
      (u := { s.resolvedAt ⟨slot, tag, .readLock h offset n⟩ rest w .checked with
        wt := (withPins s.wt w.pinned).set h.index { (withPins s.wt w.pinned)[h.index] with
          holder := some slot, expiry := some (s.now + s.engine.timeout), expiredHolder := none } })
      (base := w.base) (o := w.baseOffset) (n := w.length) (i := h.index) rfl rfl rfl rfl
    have taken := exec_access_taken (q := ⟨slot, tag, .readLock h offset n⟩) hs hq (.readLock n)
      (accessFieldsOk_iff.2 ⟨ho, h1, h64⟩) (.inl hl) hw step rfl rfl rfl rfl rfl
      (sameTranslation.trans (translate_resolvedAt.trans ht)) hb
    exact taken
  · have under := (withPins_holder s.wt w.pinned h.index).1
    have step := unlockStep_releases (offset := offset) (slot := slot) (h := h)
      (s := s.resolvedAt ⟨slot, tag, .writeUnlock h offset data⟩ rest w .checked) rfl (by rw [← under] at hh; exact hh)
    have sameTranslation := translate_set (s := s.resolvedAt ⟨slot, tag, .writeUnlock h offset data⟩ rest w .checked)
      (u := { s.resolvedAt ⟨slot, tag, .writeUnlock h offset data⟩ rest w .checked with
        wt := (withPins s.wt w.pinned).set h.index { (withPins s.wt w.pinned)[h.index] with holder := none, expiry := none } })
      (base := w.base) (o := w.baseOffset) (n := w.length) (i := h.index) rfl rfl rfl rfl
    have taken := exec_access_taken (q := ⟨slot, tag, .writeUnlock h offset data⟩) hs hq (.writeUnlock data)
      (accessFieldsOk_iff.2 ⟨ho, h1, h64⟩) (.inl hl) hw step rfl rfl rfl rfl rfl
      (sameTranslation.trans (translate_resolvedAt.trans ht)) hb
    exact taken
  all_goals
    obtain ⟨underHolder, underExpired⟩ := withPins_holder s.wt w.pinned h.index
  · have step := lockStep_takes (s := s.resolvedBy r w) (h := h) (offset := offset) (slot := r.request.slot) rfl
      (by rw [← underHolder] at hh; exact hh)
    exact exec_readLock_resolved hs hr hg hbody hw step rfl rfl
  · have step := lockStep_busy (s := s.resolvedBy r w) (h := h) (offset := offset) (slot := r.request.slot) rfl
      (by rw [← underHolder] at hn; exact hn) (by rw [← underHolder] at hh; exact hh)
    exact exec_readLock_resolved hs hr hg hbody hw step rfl rfl
  · have step := unlockStep_releases (s := s.resolvedBy r w) (h := h) (offset := offset) (slot := r.request.slot) rfl
      (by rw [← underHolder] at hh; exact hh)
    exact exec_writeUnlock_resolved hs hr hg hbody hw step rfl rfl
  · have step := unlockStep_lost (s := s.resolvedBy r w) (h := h) (offset := offset) (slot := r.request.slot) rfl
      (by rw [← underHolder] at hn; exact hn) (by rw [← underExpired] at he; exact he)
    exact exec_writeUnlock_resolved hs hr hg hbody hw step rfl rfl
  · have step := unlockStep_refused (s := s.resolvedBy r w) (h := h) (offset := offset)
      (r := { r with resolved := some w, pins := r.pins ++ w.pinned }) rfl rfl
      (by rw [← underHolder] at hn; exact hn) (by rw [← underHolder, ← underExpired] at he; exact he) hscore
    exact exec_writeUnlock_resolved hs hr hg hbody hw step rfl rfl

end Sys2Proof.Machine

/-! Direct accesses that end without a burst: at their checks, at their resolution, at the interlock, at a hole (R91 to R103). -/

namespace Sys2Proof.Machine

section TurnedAway

variable {s t u : State} {r : InService} {q : Request} {rest : List Request} {h : Handle} {offset m : Nat} {needed : Rights}
  {w : Resolved} {code : Code} {touched : Option DIdx}

/-! ### The whole service -/

/-- It ends in the claim of its resolution. -/
theorem exec_access_ended (hs : Settled s) (hq : AtHead s q rest) (ha : q.body.Accesses h offset m needed)
    (hf : accessFieldsOk offset m = true)
    (hl : s.su[q.slot].standing ≠ .limited ∨ q.body.whenLimited q.slot h offset = toStage .checked)
    (hgo : resolveThen q.slot h offset m needed (q.body.whenResolved q.slot h offset) (s.servingAt q rest .checked) = t)
    (hr : t.server = some r) (hg : r.stage = .ending code []) (hu : endService code [] t = u) (hc : u.chans = s.chans)
    (hp : u.port = s.port) : exec (q.body.row none) s = .next u :=
  exec_answers hs hq (by rw [carryOn_access ha hf hl 258, hgo, carryOn_ending hr hg 257, hu]) hc hp

/-- Its resolution fails. -/
theorem exec_access_error (hs : Settled s) (hq : AtHead s q rest) (ha : q.body.Accesses h offset m needed)
    (hf : accessFieldsOk offset m = true)
    (hl : s.su[q.slot].standing ≠ .limited ∨ q.body.whenLimited q.slot h offset = toStage .checked)
    (hc : code.isViolation = true → s.su[q.slot].score ≤ 247)
    (hw : resolve s q.slot h offset m needed false false = .error (code, touched)) :
    exec (q.body.row none) s = .next ((s.failing code touched q.slot none h offset).answered q rest code []) := by
  have fails := resolveThen_fails (s := s.servingAt q rest .checked) (go := q.body.whenResolved q.slot h offset)
    (r := { InService.begin q with stage := .checked }) rfl rfl hc hw
  obtain ⟨chans, port, wt, server⟩ := s.failing_frame code touched q.slot none h offset
  have rq : (s.failing code touched q.slot none h offset).rq = s.rq := by unfold State.failing; dsimp only; split <;> rfl
  have serving : { (s.servingAt q rest .checked).failing code touched q.slot none h offset with
      server := some { InService.begin q with stage := .ending code [] } } =
      (s.failing code touched q.slot none h offset).servingAt q rest (.ending code []) := by
    unfold State.failing; dsimp only; split <;> rfl
  exact exec_access_ended hs hq ha hf hl (fails.trans serving) rfl rfl
    (endService_serving (s := s.failing code touched q.slot none h offset) ⟨server.trans hq.1, rq.trans hq.2⟩
      (.inl (resolve_error hw)) (.ending code [])) chans port

/-- The claim that ends a service whose table has changed. -/
theorem carryOn_ended_serving {claim : Stage → State → State} (v : Vector Descriptor 256) (hq : AtHead s q rest)
    (hc : code ≠ .ok) (n : Nat) :
    carryOn claim (n + 1) ({ s with wt := v, rq := rest, server := some { InService.begin q with stage := .ending code [] } }) =
      State.answered { s with wt := v } q rest code [] :=
  (carryOn_ending rfl rfl n).trans (endService_serving (s := { s with wt := v }) hq (.inl hc) (.ending code []))

/-- Its slot is LIMITED, and a release of the interlock may fall in the claim (R92). -/
theorem exec_access_limited (hs : Settled s) (hq : AtHead s q rest) (ha : q.body.Accesses h offset m needed)
    (hf : accessFieldsOk offset m = true) (hl : s.su[q.slot].standing = .limited)
    (hi : q.body.row (some 1) ≠ .read (some 1)) : exec (q.body.row none) s = .next (State.answered { s with
      wt := if q.body.row (some 1) = .writeUnlock (some 1) ∧ h.index ≠ 0 ∧ s.wt[h.index].state ≠ .free ∧
            s.wt[h.index].gen = h.gen ∧ s.wt[h.index].holder = some q.slot then
          s.wt.set h.index { s.wt[h.index] with holder := none, expiry := none }
        else s.wt } q rest .limited []) := by
  have claim := (accessChecks_limited (s := s.serving q rest) (h := h) hf hl).trans
    (ha.whenLimited_of (slot := q.slot) hi (s := s.serving q rest) (r := InService.begin q) rfl)
  refine exec_answers hs hq ((carryOn_serving s q rest 259).trans ?_) rfl rfl
  rw [Request.claim_access ha]
  exact (congrArg _ claim).trans (carryOn_ended_serving _ hq (by decide) 258)

/-- Its fields are out of their ranges (R161). -/
theorem exec_access_badRequest (hs : Settled s) (hq : AtHead s q rest) (ha : q.body.Accesses h offset m needed)
    (hf : ¬ accessFieldsOk offset m = true) (hl : s.su[q.slot].score ≤ 247) :
    exec (q.body.row none) s = .next ((s.charged .badRequest q.slot none h offset).answered q rest .badRequest []) :=
  exec_charged hs hq rfl hl (by rw [Request.claim_access ha]; exact accessChecks_badRequest hf)

end TurnedAway

/-- Settles O20, by the stage that turns the access away. -/
theorem directAccessIsTurnedAway : Obligations.DirectAccessIsTurnedAway := by
  unfold Obligations.DirectAccessIsTurnedAway
  refine ⟨fun s slot tag h offset rest n data hs => ⟨fun hb => ⟨fun hl hq => ?_, fun hl hq => ?_⟩,
    fun hb => ⟨fun hl hq => ?_, fun hl hq => ?_⟩, fun hb hl hq => ?_, fun hb hl => ⟨fun hq => ?_, fun hq => ?_⟩⟩,
    fun s slot tag h offset rest n data code touched hs ho hc => ⟨fun hq h1 h64 hw => ?_, fun hl =>
      ⟨fun hq h1 h64 hw => ?_, fun hq h1 h64 hw => ?_, fun hq h1 h64 hw => ?_⟩⟩⟩
  · exact exec_access_badRequest (q := ⟨slot, tag, .read h offset n⟩) hs hq (.read n) (by rw [accessFieldsOk_iff]; omega) hl
  · exact exec_access_badRequest (q := ⟨slot, tag, .readLock h offset n⟩) hs hq (.readLock n) (by rw [accessFieldsOk_iff]; omega) hl
  · exact exec_access_badRequest (q := ⟨slot, tag, .write h offset data⟩) hs hq (.write data) (by rw [accessFieldsOk_iff]; omega) hl
  · exact exec_access_badRequest (q := ⟨slot, tag, .writeUnlock h offset data⟩) hs hq (.writeUnlock data)
      (by rw [accessFieldsOk_iff]; omega) hl
  · exact exec_access_limited (q := ⟨slot, tag, .readLock h offset n⟩) hs hq (.readLock n) (by rw [accessFieldsOk_iff]; omega) hl
      nofun
  · exact exec_access_limited (q := ⟨slot, tag, .write h offset data⟩) hs hq (.write data) (by rw [accessFieldsOk_iff]; omega) hl
      nofun
  · refine (exec_access_limited (q := ⟨slot, tag, .writeUnlock h offset data⟩) hs hq (.writeUnlock data)
      (by rw [accessFieldsOk_iff]; omega) hl nofun).trans ?_
    congr 2
    by_cases hr : h.index ≠ 0 ∧ s.wt[h.index].state ≠ .free ∧ s.wt[h.index].gen = h.gen ∧ s.wt[h.index].holder = some slot
    · rw [if_pos ⟨rfl, hr⟩, if_pos hr]
    · rw [if_neg fun e => hr e.2, if_neg hr]
  · exact exec_access_error (q := ⟨slot, tag, .read h offset n⟩) hs hq (.read n) (accessFieldsOk_iff.2 ⟨ho, h1, h64⟩) (.inr rfl) hc hw
  · exact exec_access_error (q := ⟨slot, tag, .write h offset data⟩) hs hq (.write data) (accessFieldsOk_iff.2 ⟨ho, h1, h64⟩)
      (.inl hl) hc hw
  · exact exec_access_error (q := ⟨slot, tag, .readLock h offset n⟩) hs hq (.readLock n) (accessFieldsOk_iff.2 ⟨ho, h1, h64⟩)
      (.inl hl) hc hw
  · exact exec_access_error (q := ⟨slot, tag, .writeUnlock h offset data⟩) hs hq (.writeUnlock data)
      (accessFieldsOk_iff.2 ⟨ho, h1, h64⟩) (.inl hl) hc hw

/-- Settles O19: the interlock's step ends the service, whose pins fall again. -/
theorem lockedAccessesAreRefusedByOthersInterlocks : Obligations.LockedAccessesAreRefusedByOthersInterlocks := by
  unfold Obligations.LockedAccessesAreRefusedByOthersInterlocks
  refine fun s slot tag h offset rest w hs ho hl => ⟨fun n h1 h64 hw hn hh hq => ?_,
    fun data h1 h64 hw hh => ⟨fun hn he hq => ?_, fun he hscore hq => ?_⟩⟩
  all_goals obtain ⟨underHolder, underExpired⟩ := withPins_holder s.wt w.pinned h.index
  · have step := lockStep_busy (s := s.resolvedAt ⟨slot, tag, .readLock h offset n⟩ rest w .checked) (h := h) (offset := offset)
      (slot := slot) rfl (by rw [← underHolder] at hn; exact hn) (by rw [← underHolder] at hh; exact hh)
    exact exec_access_ended (q := ⟨slot, tag, .readLock h offset n⟩) hs hq (.readLock n) (accessFieldsOk_iff.2 ⟨ho, h1, h64⟩)
      (.inl hl) ((resolveThen_ok hw).trans step) rfl rfl
      (endService_resolved (g := .ending .lockBusy []) hq (by decide) (resolve_pinned hw) rfl) rfl rfl
  · have step := unlockStep_lost (s := s.resolvedAt ⟨slot, tag, .writeUnlock h offset data⟩ rest w .checked) (h := h)
      (offset := offset) (slot := slot) rfl (by rw [← underHolder] at hn; exact hn) (by rw [← underExpired] at he; exact he)
    have unmarked := withPins_set (f := fun d => { d with expiredHolder := none }) (fun _ _ => rfl) s.wt w.pinned h.index
    have states : ∀ i ∈ w.pinned, (s.wt.set h.index { s.wt[h.index] with expiredHolder := none })[i].state = .valid := fun i hi => by
      rw [get_set]
      split
      · rename_i e; subst e; exact resolve_pinned hw _ hi
      · exact resolve_pinned hw i hi
    exact exec_access_ended (q := ⟨slot, tag, .writeUnlock h offset data⟩) hs hq (.writeUnlock data)
      (accessFieldsOk_iff.2 ⟨ho, h1, h64⟩) (.inl hl) ((resolveThen_ok hw).trans step) rfl rfl
      (endService_resolved (s := { s with wt := s.wt.set h.index { s.wt[h.index] with expiredHolder := none } })
        (g := .ending .lockLost []) hq (by decide) states (congrArg (fun v => ({ s with
          rq := rest, wt := v, server := some { InService.begin ⟨slot, tag, .writeUnlock h offset data⟩ with
            stage := .ending .lockLost [], resolved := some w, pins := w.pinned } } : State)) unmarked)) rfl rfl
  · have step := unlockStep_refused (s := s.resolvedAt ⟨slot, tag, .writeUnlock h offset data⟩ rest w .checked) (h := h)
      (offset := offset) (slot := slot) (r := { InService.begin ⟨slot, tag, .writeUnlock h offset data⟩ with
        stage := .checked, resolved := some w, pins := w.pinned }) rfl rfl (by rw [← underHolder] at hh; exact hh)
      (by rw [← underHolder, ← underExpired] at he; exact he) hscore
    exact exec_access_ended (q := ⟨slot, tag, .writeUnlock h offset data⟩) hs hq (.writeUnlock data)
      (accessFieldsOk_iff.2 ⟨ho, h1, h64⟩) (.inl hl) ((resolveThen_ok hw).trans step) rfl rfl
      (endService_resolved (g := .ending .notHolder []) hq (by decide) (resolve_pinned hw) rfl) rfl rfl

end Sys2Proof.Machine

/-! A direct access that meets a hole (R96, R103), and one whose burst completes (R95, R96). -/

namespace Sys2Proof.Machine

section Holes

variable {s t u : State} {r : InService} {q : Request} {rest : List Request} {h : Handle} {offset m : Nat} {needed : Rights}
  {w : Resolved}

/-- The state in which a translation has met a hole. -/
abbrev State.holed (t : State) (r : InService) (entry : Nat) : State :=
  { t with
    attn := { t.attn with pending := t.attn.pending ||| 0x080, holeLatch := entry }
    server := some { r with stage := .ending .mapHole [] } }

theorem exec_access_meetsHole {entry : Nat} (hs : Settled s) (hq : AtHead s q rest) (ha : q.body.Accesses h offset m needed)
    (hf : accessFieldsOk offset m = true)
    (hl : s.su[q.slot].standing ≠ .limited ∨ q.body.whenLimited q.slot h offset = toStage .checked)
    (hw : resolve s q.slot h offset m needed false false = .ok w)
    (hgo : q.body.whenResolved q.slot h offset (s.resolvedAt q rest w .checked) = t)
    (hr : t.server = some r) (hg : r.stage = .translation) (hrw : r.resolved = some w)
    (ht : translate t w.base w.baseOffset w.length = .error entry) (hu : endService .mapHole [] (t.holed r entry) = u)
    (hc : u.chans = s.chans) (hp : u.port = s.port) : exec (q.body.row none) s = .next u := by
  refine exec_answers hs hq ?_ hc hp
  rw [carryOn_access ha hf hl 258, resolveThen_ok hw, hgo, Request.claim_access ha, carryOn_translation hr hg 257,
    translateAndBurst_fails hr hrw ht, carryOn_ending (r := { r with stage := .ending .mapHole [] }) rfl rfl 256]
  exact hu

/-- The claim that ends it, the interlock's step of its resolution aside. -/
theorem endService_holed {f : Descriptor → Descriptor} {entry : Nat} (hq : AtHead s q rest)
    (hw : resolve s q.slot h offset m needed false false = .ok w)
    (hf : ∀ d n, f { d with pins := n } = { f d with pins := n }) (hstate : ∀ d, (f d).state = d.state) :
    endService .mapHole [] { s with
      rq := rest
      wt := (withPins s.wt w.pinned).set h.index (f (withPins s.wt w.pinned)[h.index])
      attn := { s.attn with pending := s.attn.pending ||| 0x080, holeLatch := entry }
      server := some { InService.begin q with stage := .ending .mapHole [], resolved := some w, pins := w.pinned } } =
    State.answered { s with
      attn := { s.attn with pending := s.attn.pending ||| 0x080, holeLatch := entry }
      wt := s.wt.set h.index (f s.wt[h.index]) } q rest .mapHole [] := by
  rw [withPins_set hf]
  have states : ∀ i ∈ w.pinned, (s.wt.set h.index (f s.wt[h.index]))[i].state = .valid := fun i hi => by
    rw [get_set]
    split
    · rename_i e; subst e; rw [hstate]; exact resolve_pinned hw _ hi
    · exact resolve_pinned hw i hi
  exact endService_resolved (s := { s with wt := s.wt.set h.index (f s.wt[h.index]) }) (w := w) (g := .ending .mapHole [])
    hq (by decide) states rfl

end Holes

/-- Settles O21: a READ_LOCK gives up the interlock it took, a WRITE_UNLOCK has released it. -/
theorem holeEndsADirectAccess : Obligations.HoleEndsADirectAccess := by
  unfold Obligations.HoleEndsADirectAccess
  refine fun s slot tag h offset rest n data w entry hs ho ht => ⟨fun hq h1 h64 hw => ?_, fun hl => ⟨fun hq h1 h64 hw => ?_,
    fun hh hq h1 h64 hw => ?_, fun hh hq h1 h64 hw => ?_⟩⟩
  all_goals obtain ⟨underHolder, underExpired⟩ := withPins_holder s.wt w.pinned h.index
  · have ended := endService_holed (f := id) (entry := entry) hq hw (fun _ _ => rfl) (fun _ => rfl)
    rw [id, id, set_get_self] at ended
    exact exec_access_meetsHole (q := ⟨slot, tag, .read h offset n⟩) (t := s.resolvedAt ⟨slot, tag, .read h offset n⟩ rest w
      .translation) hs hq (.read n) (accessFieldsOk_iff.2 ⟨ho, h1, h64⟩) (.inr rfl) hw rfl rfl rfl rfl
      (translate_resolvedAt.trans ht) ended rfl rfl
  · have ended := endService_holed (f := id) (entry := entry) hq hw (fun _ _ => rfl) (fun _ => rfl)
    rw [id, id, set_get_self] at ended
    exact exec_access_meetsHole (q := ⟨slot, tag, .write h offset data⟩) (t := s.resolvedAt ⟨slot, tag, .write h offset data⟩ rest w
      .translation) hs hq (.write data) (accessFieldsOk_iff.2 ⟨ho, h1, h64⟩) (.inl hl) hw rfl rfl rfl rfl
      (translate_resolvedAt.trans ht) ended rfl rfl
  · have step := lockStep_takes (offset := offset) (slot := slot) (h := h)
      (s := s.resolvedAt ⟨slot, tag, .readLock h offset n⟩ rest w .checked) rfl (by rw [← underHolder] at hh; exact hh)
    have sameTranslation := translate_set (s := s.resolvedAt ⟨slot, tag, .readLock h offset n⟩ rest w .checked)
      (u := { s.resolvedAt ⟨slot, tag, .readLock h offset n⟩ rest w .checked with
        wt := (withPins s.wt w.pinned).set h.index { (withPins s.wt w.pinned)[h.index] with
          holder := some slot, expiry := some (s.now + s.engine.timeout), expiredHolder := none } })
      (base := w.base) (o := w.baseOffset) (n := w.length) (i := h.index) rfl rfl rfl rfl
    refine exec_access_meetsHole (q := ⟨slot, tag, .readLock h offset n⟩) hs hq (.readLock n)
      (accessFieldsOk_iff.2 ⟨ho, h1, h64⟩) (.inl hl) hw step rfl rfl rfl (sameTranslation.trans (translate_resolvedAt.trans ht))
      ?_ rfl rfl
    refine (endService_locked (w := w) (by decide) rfl rfl rfl).trans ?_
    refine Eq.trans ?_ (endService_holed (f := fun d => { d with holder := none, expiry := none, expiredHolder := none }) hq hw
      (fun _ _ => rfl) (fun _ => rfl))
    refine congrArg (endService .mapHole []) ?_
    simp only [State.updDesc, State.setServer, (resolve_ok hw).1, get_set_self, set_set_self, Descriptor.releaseIfHolder,
      InService.begin, if_true, Descriptor.releaseLock]
  · have step := unlockStep_releases (offset := offset) (slot := slot) (h := h)
      (s := s.resolvedAt ⟨slot, tag, .writeUnlock h offset data⟩ rest w .checked) rfl (by rw [← underHolder] at hh; exact hh)
    have sameTranslation := translate_set (s := s.resolvedAt ⟨slot, tag, .writeUnlock h offset data⟩ rest w .checked)
      (u := { s.resolvedAt ⟨slot, tag, .writeUnlock h offset data⟩ rest w .checked with
        wt := (withPins s.wt w.pinned).set h.index { (withPins s.wt w.pinned)[h.index] with holder := none, expiry := none } })
      (base := w.base) (o := w.baseOffset) (n := w.length) (i := h.index) rfl rfl rfl rfl
    exact exec_access_meetsHole (q := ⟨slot, tag, .writeUnlock h offset data⟩) hs hq (.writeUnlock data)
      (accessFieldsOk_iff.2 ⟨ho, h1, h64⟩) (.inl hl) hw step rfl rfl rfl (sameTranslation.trans (translate_resolvedAt.trans ht))
      (endService_holed (f := fun d => { d with holder := none, expiry := none }) hq hw (fun _ _ => rfl) (fun _ => rfl))
      rfl rfl

end Sys2Proof.Machine

/-! What a burst's completion does to the direct access it belongs to (R95, R96), and the claim that ends a service (R90). -/

namespace Sys2Proof.Machine

section Completion

variable {s u : State} {r : InService} {b : Burst} {st : BurstStatus} {data : List Byte}

/-- The state after a burst, the DRAM free. -/
abbrev State.freed (u : State) : State := { u with port := { u.port with granted := none } }

theorem burstComplete_server (hg : s.port.granted = some (Claimant.rs, b)) (hp : performBurst b s = (st, data, u)) :
    exec (.burstComplete []) s = .next (settle (serverBurstDone st data u.freed)) := by
  show Host.Outcome.next (burstComplete [] s) = _
  unfold burstComplete
  rw [hg]; dsimp only [List.foldl_nil]
  rw [hp]; rfl

theorem burstComplete_channel {c : Chan} (hg : s.port.granted = some (Claimant.ch c, b)) (hp : performBurst b s = (st, data, u)) :
    exec (.burstComplete []) s = .next (settle (channelBurstDone c st data u.freed)) := by
  show Host.Outcome.next (burstComplete [] s) = _
  unfold burstComplete
  rw [hg]; dsimp only [List.foldl_nil]
  rw [hp]; dsimp only
  rw [dif_neg (Fin.succ_ne_zero c)]
  rfl

theorem performBurst_server (hp : performBurst b s = (st, data, u)) : u.freed.server = s.server := by
  have := congrArg Inside.server (performBurst_inside (b := b) (s := s))
  rw [hp] at this
  exact this

/-! ### The completion at the Request Server -/

theorem serverBurstDone_uncorrectable (hr : u.server = some r) :
    serverBurstDone .uncorrectable data u = (u.lockGivenUp r .memoryError).ended r .memoryError [] := by
  unfold serverBurstDone; rw [hr]
  exact endService_eq _ _ hr

theorem serverBurstDone_last (hr : u.server = some r) (hst : st ≠ .uncorrectable) (hrest : r.rest = []) :
    serverBurstDone st data u =
      (u.lockGivenUp r .ok).ended r .ok (directPayload r.request.body (r.data ++ data)) := by
  unfold serverBurstDone; rw [hr]; dsimp only
  rw [if_neg hst, hrest]
  exact endService_eq _ _ hr

theorem serverBurstDone_more {next : Burst} {more : List Burst} (hr : u.server = some r) (hst : st ≠ .uncorrectable)
    (hrest : r.rest = next :: more) : serverBurstDone st data u = { u with
      server := some { r with stage := .bursts, rest := more, data := r.data ++ data }
      port := { u.port with waiting := u.port.waiting.set Claimant.rs (some next) } } := by
  unfold serverBurstDone; rw [hr]; dsimp only
  rw [if_neg hst, hrest]; rfl

/-! ### The claim that ends a service -/

theorem removePins_engine (h : ∀ i, s.engine.state ≠ .busy (.retire i)) (is : List DIdx) :
    (removePins is s).engine = s.engine := by
  have one (t : State) (ht : t.engine = s.engine) (i : DIdx) : (removePin i t).engine = s.engine := by
    unfold removePin; dsimp only
    split
    · rw [enterFree_eq, if_neg (by rw [show (t.updDesc i _).engine = s.engine from ht]; exact h i)]; exact ht
    · exact ht
  unfold removePins
  suffices ∀ t : State, t.engine = s.engine → (is.foldl (fun t i => removePin i t) t).engine = s.engine from this s rfl
  induction is with
  | nil => exact fun t ht => ht
  | cons i is ih => exact fun t ht => ih _ (one t ht i)

theorem lockGivenUp_wt_only (s : State) (r : InService) (code : Code) :
    s.lockGivenUp r code = { s with wt := (s.lockGivenUp r code).wt } := by
  unfold State.lockGivenUp
  split
  · split <;> rfl
  · rfl

theorem waitsFor_false (e : Engine) (lists : Vector Bool 4) : e.waitsFor lists false =
    if (∀ c : Chan, lists[c] = false) then e.finished else { e with state := .busy (.link lists false) } := by
  have hall : lists = Vector.replicate 4 false ↔ ∀ c : Chan, lists[c] = false := by
    constructor
    · rintro rfl c; simp
    · intro h
      ext k hk
      rw [Vector.getElem_replicate]
      exact h ⟨k, hk⟩
  unfold Engine.waitsFor
  simp only [hall, and_true]

/-- The end of a detached request reaches a LINK_RESET that waits. -/
theorem ended_link {code : Code} {payload : List Byte} {lists : Vector Bool 4} {detached : Bool} (hd : r.detached = true)
    (he : s.engine.state = .busy (.link lists detached)) : ((s.lockGivenUp r code).ended r code payload).engine =
      if (∀ c : Chan, lists[c] = false) then s.engine.finished else { s.engine with state := .busy (.link lists false) } := by
  have engine : (removePins r.pins { s.lockGivenUp r code with server := none }).engine = s.engine := by
    rw [lockGivenUp_wt_only]
    exact removePins_engine (by rw [he]; exact nofun) r.pins
  show (if r.detached then (removePins r.pins { s.lockGivenUp r code with server := none }).engine.detachedEnded
    else (removePins r.pins { s.lockGivenUp r code with server := none }).engine) = _
  rw [if_pos hd, engine, ← waitsFor_false]
  unfold Engine.detachedEnded
  rw [he]

theorem leaves_uncredited {code : Code} (h : r.disposition ≠ .send ∨ code ≠ .ok) (q : Requester) :
    r.leaves code q = { q with outstanding := if r.detached then q.outstanding else q.outstanding - 1 } := by
  have uncredited : ¬ (r.disposition = .send ∧ code = .ok ∧ r.request.body.isQuery = false) :=
    fun e => h.elim (absurd e.1) (absurd e.2.1)
  unfold InService.leaves
  simp only [if_neg uncredited]
  split <;> rfl

end Completion

/-- Settles O22: the three ways a burst's completion goes, and the claim that ends a service for each disposition. -/
theorem burstCompletionAdvancesADirectAccess : Obligations.BurstCompletionAdvancesADirectAccess := by
  unfold Obligations.BurstCompletionAdvancesADirectAccess
  refine ⟨fun s u r b st data hr hg hp => ⟨fun hst => ?_, fun hst hrest => ⟨fun h offset n hb => ?_, fun h offset bytes hb => ?_⟩,
    fun hst next more hrest => ?_⟩, fun s r code payload claims hs hr hg hcl => ?_⟩
  · subst hst
    rw [burstComplete_server hg hp, serverBurstDone_uncorrectable ((performBurst_server hp).trans hr)]
  · rw [burstComplete_server hg hp, serverBurstDone_last ((performBurst_server hp).trans hr) hst hrest]
    rcases hb with hb | hb <;> rw [hb] <;> rfl
  · rw [burstComplete_server hg hp, serverBurstDone_last ((performBurst_server hp).trans hr) hst hrest]
    rcases hb with hb | hb <;> rw [hb] <;> rfl
  · rw [burstComplete_server hg hp, serverBurstDone_more ((performBurst_server hp).trans hr) hst hrest]
  · obtain ⟨server, linkOut, chans, port⟩ := s.ended_facts r code payload
    have row : exec (r.request.body.row claims) s = .next ((s.lockGivenUp r code).ended r code payload) := by
      obtain ⟨n, hn⟩ : ∃ n, claims.getD serviceBound = n + 1 := by
        cases claims with
        | none => exact ⟨259, rfl⟩
        | some k =>
          cases k with
          | zero => exact absurd rfl hcl
          | succ n => exact ⟨n, rfl⟩
      rw [exec_inService hr (by rw [hg]; exact nofun), hn, carryOn_ending hr hg, endService_eq _ _ hr,
        settle_of_same hs chans port]
    refine ⟨row, server, fun hd => ?_, fun hd => ?_, fun hd => ?_, fun hd => ?_, fun h => ?_, fun lists detached hd he =>
      ended_link hd he⟩
    · rw [linkOut, List.append_assoc]; unfold InService.replies; rw [hd]
    · rw [linkOut]; unfold InService.replies; rw [hd]; rfl
    · rw [linkOut, List.append_assoc]; unfold InService.replies; rw [hd]
    · rw [linkOut, List.append_assoc]; unfold InService.replies; rw [hd]
    · rw [s.ended_su, get_set_self, leaves_uncredited h]

end Sys2Proof.Machine

/-! Bursts over shared DRAM (R71 to R73): which words a burst checks, what it delivers and stores, and what it raises. -/

namespace Sys2Proof.Machine

section Bursts

variable {s t : State} {b : Burst} {a n : Nat} {ws : List Nat}

/-- The address at which a burst begins. -/
def Burst.addr : Burst → Nat
  | .read a _ | .write a _ => a

/-- The words whose check a burst makes: all that it reads, and of those it writes the ones it merges with (R71). -/
def Burst.checked : Burst → List Nat
  | .read a n => wordsOf a n
  | .write a bytes => partialWords a bytes.length

/-! ### The check -/

theorem checkWords_uncorrectable_iff : checkWords s ws = .uncorrectable ↔ ∃ w ∈ ws, Sparse.find s.ecc w = some .multi := by
  have any : (ws.any fun w => Sparse.find s.ecc w == some .multi) = true ↔ ∃ w ∈ ws, Sparse.find s.ecc w = some .multi := by
    simp only [List.any_eq_true, beq_iff_eq]
  unfold checkWords
  rw [← any]
  split
  · rename_i h; exact iff_of_true rfl h
  · rename_i h
    refine iff_of_false ?_ h
    split <;> exact nofun

theorem checkWords_good (h : ∀ w ∈ ws, Sparse.find s.ecc w = none) : checkWords s ws = .good := by
  have nothing (f : Option WordErr → Bool) (hf : f none = false) : ¬ (ws.any fun w => f (Sparse.find s.ecc w)) = true := by
    rw [List.any_eq_true]
    rintro ⟨w, hw, e⟩
    rw [h w hw, hf] at e
    cases e
  unfold checkWords
  rw [if_neg (nothing (· == some .multi) rfl), if_neg (nothing Option.isSome rfl)]

theorem checkWords_corrected (hm : ∀ w ∈ ws, Sparse.find s.ecc w ≠ some .multi) (h : ∃ w ∈ ws, Sparse.find s.ecc w ≠ none) :
    checkWords s ws = .corrected := by
  unfold checkWords
  rw [if_neg, if_pos]
  · obtain ⟨w, hw, hne⟩ := h
    rw [List.any_eq_true]
    exact ⟨w, hw, Option.isSome_iff_ne_none.2 hne⟩
  · rw [List.any_eq_true]
    rintro ⟨w, hw, e⟩
    exact hm w hw (beq_iff_eq.1 e)

/-! ### The outcome of a burst -/

theorem installed_iff : installed s a = true ↔ a / 4096 < s.port.installedFrames := decide_eq_true_iff

theorem performBurst_beyond (h : ¬ installed s b.addr = true) : performBurst b s = (.uncorrectable, [], s) := by
  cases b <;> exact if_neg h

theorem performBurst_bad (hi : installed s b.addr = true) (hc : checkWords s b.checked = .uncorrectable) :
    performBurst b s = (.uncorrectable, [], noteCorrected s b.checked) := by
  cases b with
  | read a n =>
    have hc' : checkWords s (wordsOf a n) = .uncorrectable := hc
    refine (if_pos hi).trans ?_
    rw [hc']; rfl
  | write a bytes =>
    have hc' : checkWords s (partialWords a bytes.length) = .uncorrectable := hc
    refine (if_pos hi).trans ?_
    rw [hc']; rfl

theorem performBurst_read (hi : installed s a = true) (hc : checkWords s (wordsOf a n) ≠ .uncorrectable) :
    performBurst (.read a n) s =
      (checkWords s (wordsOf a n), (List.range' a n).map (delivered s), noteCorrected s (wordsOf a n)) := by
  unfold performBurst; dsimp only
  rw [if_pos hi]
  split
  · rename_i e; exact absurd e hc
  · rfl

theorem performBurst_write {bytes : List Byte} (hi : installed s a = true)
    (hc : checkWords s (partialWords a bytes.length) ≠ .uncorrectable) : performBurst (.write a bytes) s =
      (checkWords s (partialWords a bytes.length), [],
        ((wordsOf a bytes.length).foldl healWord (noteCorrected s (partialWords a bytes.length))).setMem
          (Memory.writeAll ((wordsOf a bytes.length).foldl healWord (noteCorrected s (partialWords a bytes.length))).mem
            a bytes)) := by
  unfold performBurst; dsimp only
  rw [if_pos hi]
  split
  · rename_i e; exact absurd e hc
  · rfl

theorem performBurst_status (hi : installed s b.addr = true) : (performBurst b s).1 = checkWords s b.checked := by
  by_cases hc : checkWords s b.checked = .uncorrectable
  · rw [performBurst_bad hi hc, hc]
  · cases b with
    | read a n => rw [performBurst_read (a := a) hi hc]; rfl
    | write a bytes => rw [performBurst_write (a := a) hi hc]; rfl

/-! ### The words in hand -/

theorem mem_partialWords {w : Nat} : w ∈ partialWords a n ↔
    (a / 8 ≤ w ∧ w ≤ (a + n - 1) / 8) ∧ ¬ (a ≤ 8 * w ∧ 8 * w + 8 ≤ a + n) := by
  unfold partialWords
  rw [List.mem_filter, mem_wordsOf]
  refine and_congr_right fun _ => ?_
  rw [Bool.not_eq_true', Bool.and_eq_false_iff, decide_eq_false_iff_not, decide_eq_false_iff_not, not_and_or]

/-- A burst within a frame checks words of that frame. -/
theorem frame_of_mem {w : Nat} (hf : a / 4096 = (a + n - 1) / 4096) (h1 : a / 8 ≤ w) (h2 : w ≤ (a + n - 1) / 8) :
    w / 512 = a / 4096 := by omega

theorem delivered_of_clean {x : Nat} (h : Sparse.find s.ecc (x / 8) = none) : delivered s x = Memory.read s.mem x := by
  unfold delivered; rw [h]

theorem delivered_of_dataBit {x : Nat} {i : Fin 64} (h : Sparse.find s.ecc (x / 8) = some (.dataBit i)) :
    delivered s x = if i.val / 8 = x % 8 then Memory.read s.mem x ^^^ BitVec.ofNat 8 (2 ^ (i.val % 8))
      else Memory.read s.mem x := by
  unfold delivered; rw [h]; rfl

theorem delivered_of_checkBit {x : Nat} (h : Sparse.find s.ecc (x / 8) = some .checkBit) :
    delivered s x = Memory.read s.mem x := by
  unfold delivered; rw [h]

end Bursts

/-- Settles O24. -/
theorem readBurstDeliversCorrectedBytes : Obligations.ReadBurstDeliversCorrectedBytes := by
  unfold Obligations.ReadBurstDeliversCorrectedBytes
  refine ⟨fun s a n hn hf hi => ⟨fun hc => ?_, fun hm hc => ?_, fun x b h => delivered_of_dataBit h, fun x h => ?_⟩,
    fun s b a n hb hn hf => ?_⟩
  · have clean : ∀ w ∈ wordsOf a n, Sparse.find s.ecc w = none := fun w hw => hc w (mem_wordsOf.1 hw)
    rw [performBurst_read (installed_iff.2 hi) (by rw [checkWords_good clean]; exact nofun), checkWords_good clean,
      noteCorrected_of_none fun w hw => .inl (clean w hw)]
    refine congrArg (fun l => (BurstStatus.good, l, s)) (List.map_congr_left fun x hx => ?_)
    rw [List.mem_range'_1] at hx
    exact delivered_of_clean (hc _ (by omega))
  · have hm' : ∀ w ∈ wordsOf a n, Sparse.find s.ecc w ≠ some .multi := fun w hw => hm w (mem_wordsOf.1 hw)
    obtain ⟨w, hw, hne⟩ := hc
    have status := checkWords_corrected hm' ⟨w, mem_wordsOf.2 hw, hne⟩
    rw [performBurst_read (installed_iff.2 hi) (by rw [status]; exact nofun), status,
      noteCorrected_of_some (a / 4096) (fun v hv => frame_of_mem hf (mem_wordsOf.1 hv).1 (mem_wordsOf.1 hv).2)
        ⟨w, mem_wordsOf.2 hw, hne, hm w hw⟩]
    rfl
  · rcases h with h | h
    · exact delivered_of_clean h
    · exact delivered_of_checkBit h
  · have addr : b.addr = a := by rcases hb with rfl | ⟨bytes, rfl, -⟩ <;> rfl
    have checked (w : Nat) : w ∈ b.checked ↔
        (a / 8 ≤ w ∧ w ≤ (a + n - 1) / 8) ∧ (b = .read a n ∨ ¬ (a ≤ 8 * w ∧ 8 * w + 8 ≤ a + n)) := by
      rcases hb with rfl | ⟨bytes, rfl, rfl⟩
      · exact mem_wordsOf.trans (by simp)
      · exact mem_partialWords.trans (by simp)
    have beyond : ¬ installed s b.addr = true ↔ s.port.installedFrames ≤ a / 4096 := by rw [addr, installed_iff, not_lt]
    have bad : checkWords s b.checked = .uncorrectable ↔ ∃ w, a / 8 ≤ w ∧ w ≤ (a + n - 1) / 8 ∧
        Sparse.find s.ecc w = some .multi ∧ (b = .read a n ∨ ¬ (a ≤ 8 * w ∧ 8 * w + 8 ≤ a + n)) := by
      rw [checkWords_uncorrectable_iff]
      refine exists_congr fun w => ?_
      rw [checked]
      tauto
    refine ⟨?_, fun h => ?_, fun h => performBurst_beyond (beyond.2 h), fun hn hb' => ⟨fun hno => ?_, fun hco => ?_⟩⟩
    · by_cases hi : installed s b.addr = true
      · rw [performBurst_status hi, bad, or_iff_right (beyond.not.1 (not_not.2 hi))]
      · rw [performBurst_beyond hi]
        exact iff_of_true rfl (.inl (beyond.1 hi))
    · by_cases hi : installed s b.addr = true
      · rw [performBurst_bad hi (bad.2 (h.resolve_left (beyond.not.1 (not_not.2 hi))))]
        exact ⟨rfl, noteCorrected_mem _ _⟩
      · rw [performBurst_beyond hi]
        exact ⟨rfl, rfl, rfl⟩
    · rw [performBurst_bad (not_not.1 (beyond.not.2 hn)) (bad.2 hb'), noteCorrected_of_none fun w hw => ?_]
      by_contra hne
      obtain ⟨hw, hc⟩ := (checked w).1 hw
      exact hno ⟨w, hw.1, hw.2, hc, (not_or.1 hne).1, (not_or.1 hne).2⟩
    · obtain ⟨w, h1, h2, hc, hne, hmulti⟩ := hco
      rw [performBurst_bad (not_not.1 (beyond.not.2 hn)) (bad.2 hb'),
        noteCorrected_of_some (a / 4096) (fun v hv => ?_) ⟨w, (checked w).2 ⟨⟨h1, h2⟩, hc⟩, hne, hmulti⟩]
      · rfl
      · exact frame_of_mem hf ((checked v).1 hv).1.1 ((checked v).1 hv).1.2

end Sys2Proof.Machine

/-! A write burst stores its bytes and heals the words it merges with (R71, R72); a bit error that comes about. -/

namespace Sys2Proof.Machine

section WriteBursts

variable {s t : State}

/-! ### Words written back -/

theorem delivered_congr {x : Nat} (he : Sparse.find t.ecc (x / 8) = Sparse.find s.ecc (x / 8))
    (hm : Memory.read t.mem x = Memory.read s.mem x) : delivered t x = delivered s x := by
  unfold delivered; rw [he, hm]

theorem healWord_ecc (h : CanonicalMemory s) (w j : Nat) :
    Sparse.find (healWord s w).ecc j = if j = w then none else Sparse.find s.ecc j := by
  have e : (healWord s w).ecc = Sparse.put s.ecc w none := by unfold healWord; dsimp only; split <;> rfl
  rw [e, Ecc.find_put h.2]

/-- A word written back holds what its read delivers. -/
theorem healWord_read (h : CanonicalMemory s) (w x : Nat) :
    Memory.read (healWord s w).mem x = if x / 8 = w then delivered s x else Memory.read s.mem x := by
  cases e : Sparse.find s.ecc w with
  | none =>
    have hm : (healWord s w).mem = s.mem := by unfold healWord; rw [e]; rfl
    rw [hm]
    split
    · rename_i hx; subst hx; rw [delivered_of_clean e]
    · rfl
  | some err =>
    cases err with
    | checkBit =>
      have hm : (healWord s w).mem = s.mem := by unfold healWord; rw [e]; rfl
      rw [hm]
      split
      · rename_i hx; subst hx; rw [delivered_of_checkBit e]
      · rfl
    | multi =>
      have hm : (healWord s w).mem = s.mem := by unfold healWord; rw [e]; rfl
      rw [hm]
      split
      · rename_i hx; subst hx; unfold delivered; rw [e]
      · rfl
    | dataBit i =>
      have hm : (healWord s w).mem = Memory.write s.mem (8 * w + i.val / 8)
          (Memory.read s.mem (8 * w + i.val / 8) ^^^ BitVec.ofNat 8 (2 ^ (i.val % 8))) := by unfold healWord; rw [e]; rfl
      have hi := i.isLt
      rw [hm, Memory.read_write h.1]
      by_cases hx : x = 8 * w + i.val / 8
      · have hword : x / 8 = w := by omega
        rw [if_pos hx, if_pos hword, delivered_of_dataBit (by rw [hword]; exact e), if_pos (by omega), hx]
      · rw [if_neg hx]
        split
        · rename_i hword
          rw [delivered_of_dataBit (by rw [hword]; exact e), if_neg (by omega)]
        · rfl

theorem healWord_delivered (h : CanonicalMemory s) (w x : Nat) : delivered (healWord s w) x = delivered s x := by
  by_cases hx : x / 8 = w
  · rw [delivered_of_clean (by rw [healWord_ecc h, if_pos hx]), healWord_read h, if_pos hx]
  · exact delivered_congr (by rw [healWord_ecc h, if_neg hx]) (by rw [healWord_read h, if_neg hx])

/-- Words written back agree with their check bits, deliver what they did, and leave the others alone. -/
theorem healWords_spec (h : CanonicalMemory s) (ws : List Nat) :
    (∀ j, Sparse.find (ws.foldl healWord s).ecc j = if j ∈ ws then none else Sparse.find s.ecc j) ∧
    (∀ x, delivered (ws.foldl healWord s) x = delivered s x) ∧
    (∀ x, x / 8 ∉ ws → Memory.read (ws.foldl healWord s).mem x = Memory.read s.mem x) := by
  induction ws generalizing s with
  | nil => exact ⟨fun _ => rfl, fun _ => rfl, fun _ _ => rfl⟩
  | cons w ws ih =>
    obtain ⟨ecc, same, mem⟩ := ih (canonical_healWord h w)
    rw [List.foldl_cons]
    refine ⟨fun j => ?_, fun x => (same x).trans (healWord_delivered h w x), fun x hx => ?_⟩
    · rw [ecc, healWord_ecc h]
      by_cases hw : j = w <;> by_cases hs : j ∈ ws <;> simp [hw, hs]
    · rw [List.mem_cons, not_or] at hx
      rw [mem x hx.2, healWord_read h, if_neg hx.1]

/-! ### The write -/

/-- A write burst that is not uncorrectable: its status and the state it leaves. -/
theorem performBurst_write_eq {a : Nat} {bytes got : List Byte} {st : BurstStatus}
    (hp : performBurst (.write a bytes) s = (st, got, t)) (hst : st ≠ .uncorrectable) :
    checkWords s (partialWords a bytes.length) = st ∧
    t = ((wordsOf a bytes.length).foldl healWord (noteCorrected s (partialWords a bytes.length))).setMem
      (Memory.writeAll ((wordsOf a bytes.length).foldl healWord (noteCorrected s (partialWords a bytes.length))).mem
        a bytes) := by
  by_cases hi : installed s (Burst.write a bytes).addr = true
  · have status := performBurst_status hi
    rw [hp] at status
    have hc : checkWords s (partialWords a bytes.length) ≠ .uncorrectable := fun e => hst (status.trans e)
    have done := (performBurst_write (a := a) hi hc).symm.trans hp
    simp only [Prod.mk.injEq] at done
    exact ⟨done.1, done.2.2.symm⟩
  · rw [performBurst_beyond hi] at hp
    exact absurd (congrArg Prod.fst hp).symm hst

/-! ### A bit error -/

variable {u : Upset}

theorem applyUpset_beyond (h : ¬ u.word < 67108864) : applyUpset s u = s := if_neg h

/-- What an upset makes of the record of its word's errors. -/
def wordAfter (old : Option WordErr) (new : WordErr) : Option WordErr :=
  match old with
  | none => some new
  | some e => if (∃ b, e = .dataBit b) ∧ new = e then none else some .multi

theorem applyUpset_eq (h : u.word < 67108864) : (applyUpset s u).ecc =
      Sparse.put s.ecc u.word (wordAfter (Sparse.find s.ecc u.word) u.err) ∧
    (applyUpset s u).mem = match u.err with
      | .dataBit b => Memory.write s.mem (8 * u.word + b.val / 8)
          (Memory.read s.mem (8 * u.word + b.val / 8) ^^^ BitVec.ofNat 8 (2 ^ (b.val % 8)))
      | _ => s.mem := by
  unfold applyUpset
  rw [if_pos h]; dsimp only
  cases ho : Sparse.find s.ecc u.word with
  | none => cases u.err <;> exact ⟨rfl, rfl⟩
  | some e =>
    have multi {new : WordErr} (hn : ¬ ((∃ b, e = .dataBit b) ∧ new = e)) : some WordErr.multi = wordAfter (some e) new :=
      (if_neg hn).symm
    cases herr : u.err with
    | dataBit b =>
      cases e with
      | dataBit b' =>
        refine ⟨congrArg (Sparse.put s.ecc u.word) ?_, rfl⟩
        unfold wordAfter
        simp
      | checkBit => exact ⟨congrArg _ (multi (by rintro ⟨-, e⟩; cases e)), rfl⟩
      | multi => exact ⟨congrArg _ (multi (by rintro ⟨-, e⟩; cases e)), rfl⟩
    | checkBit =>
      cases e <;>
        exact ⟨congrArg (Sparse.put s.ecc u.word) (multi fun ⟨⟨_, e1⟩, e2⟩ => nomatch e2.trans e1), rfl⟩
    | multi =>
      cases e <;>
        exact ⟨congrArg (Sparse.put s.ecc u.word) (multi fun ⟨⟨_, e1⟩, e2⟩ => nomatch e2.trans e1), rfl⟩

theorem applyUpset_frame (u : Upset) (s : State) :
    applyUpset s u = { s with mem := (applyUpset s u).mem, ecc := (applyUpset s u).ecc } := by
  obtain ⟨mem, ecc, e⟩ := applyUpset_kept u s
  rw [e]

theorem applyUpsets_port (upsets : List Upset) (s : State) : (upsets.foldl applyUpset s).port = s.port := by
  induction upsets generalizing s with
  | nil => rfl
  | cons u us ih => rw [List.foldl_cons, ih, applyUpset_frame]

end WriteBursts

/-- Settles O23: the burst heals the words it touches and then stores its bytes; an upset turns one bit and notes it. -/
theorem writeBurstStoresItsBytes : Obligations.WriteBurstStoresItsBytes := by
  unfold Obligations.WriteBurstStoresItsBytes
  refine ⟨fun s t a bytes st got hcan hne hp hst => ?_, fun s upsets => ⟨fun hg => ?_, fun hg => ?_⟩, fun s u hcan =>
    ⟨fun hw => ?_, fun hw => ⟨applyUpset_frame u s, fun w hne => ?_, fun b hb x => ?_, fun hb => ?_, fun hc => ?_, fun e hc => ?_⟩⟩⟩
  · obtain ⟨hcheck, ht⟩ := performBurst_write_eq hp hst
    have hlen : 1 ≤ bytes.length := List.length_pos_iff.2 hne
    obtain ⟨memNoted, eccNoted⟩ := noteCorrected_mem (partialWords a bytes.length) s
    have canNoted := hcan.congr memNoted eccNoted
    obtain ⟨ecc, same, mem⟩ := healWords_spec canNoted (wordsOf a bytes.length)
    have canHealed := canonical_healWords canNoted (wordsOf a bytes.length)
    have kept : t.attn = (noteCorrected s (partialWords a bytes.length)).attn ∧
        t.port = (noteCorrected s (partialWords a bytes.length)).port := by
      obtain ⟨m, e, hk⟩ := healWords_kept (wordsOf a bytes.length) (noteCorrected s (partialWords a bytes.length))
      rw [ht, hk]
      exact ⟨rfl, rfl⟩
    generalize hu : (wordsOf a bytes.length).foldl healWord (noteCorrected s (partialWords a bytes.length)) = u at *
    have eccEq (j : Nat) : Sparse.find t.ecc j = if j ∈ wordsOf a bytes.length then none else Sparse.find s.ecc j := by
      rw [ht, ← eccNoted]; exact ecc j
    have memEq (x : Nat) : Memory.read t.mem x =
        if a ≤ x ∧ x < a + bytes.length then bytes.getD (x - a) 0 else Memory.read u.mem x := by
      rw [ht]; exact Memory.read_writeAll bytes a x canHealed.1
    refine ⟨fun k => ?_, fun w h1 h2 => ?_, fun w hw => ?_, fun x hx => ?_, fun x hx => ?_, ?_, fun hnone => ?_, fun w hw hf => ?_⟩
    · have hk := k.isLt
      rw [memEq, if_pos (by omega), Nat.add_sub_cancel_left]
      exact List.getD_eq_getElem _ _ hk
    · rw [eccEq, if_pos (mem_wordsOf.2 ⟨h1, h2⟩)]
    · rw [eccEq, if_neg (by rw [mem_wordsOf]; omega)]
    · have healed : delivered u x = delivered s x := (same x).trans (delivered_congr (by rw [eccNoted]) (by rw [memNoted]))
      refine (delivered_congr ?_ ?_).trans healed
      · rw [ht]; rfl
      · rw [memEq, if_neg (by omega)]
    · rw [memEq, if_neg (by omega), mem x (by rw [mem_wordsOf]; omega), memNoted]
    · obtain ⟨m, e, attn, latch, hk⟩ := performBurst_kept (.write a bytes) s
      rw [hp] at hk
      change t = _ at hk
      rw [hk]
    · have clean : ∀ w ∈ partialWords a bytes.length, Sparse.find s.ecc w = none := fun w hw => by
        obtain ⟨⟨h1, h2⟩, h3⟩ := mem_partialWords.1 hw
        by_contra hc
        exact hnone w ⟨h1, h2, h3, hc⟩
      rw [kept.1, kept.2, noteCorrected_of_none fun w hw => .inl (clean w hw)]
      exact ⟨hcheck.symm.trans (checkWords_good clean), rfl, rfl⟩
    · obtain ⟨h1, h2, h3, hc⟩ := hw
      have inHand := mem_partialWords.2 ⟨⟨h1, h2⟩, h3⟩
      have single : ∀ v ∈ partialWords a bytes.length, Sparse.find s.ecc v ≠ some .multi := fun v hv hm =>
        hst (hcheck.symm.trans (checkWords_uncorrectable_iff.2 ⟨v, hv, hm⟩))
      rw [kept.1, kept.2, noteCorrected_of_some (a / 4096) (fun v hv => ?_) ⟨w, inHand, hc, single w inHand⟩]
      · exact ⟨hcheck.symm.trans (checkWords_corrected single ⟨w, inHand, hc⟩), rfl, rfl⟩
      · obtain ⟨⟨v1, v2⟩, -⟩ := mem_partialWords.1 hv
        exact frame_of_mem hf v1 v2
  · show Host.Outcome.next (burstComplete upsets s) = _
    unfold burstComplete; rw [hg]
  · obtain ⟨⟨cl, b⟩, hg⟩ := Option.ne_none_iff_exists'.1 hg
    show Host.Outcome.next (burstComplete upsets s) = .next (burstComplete [] (upsets.foldl applyUpset s))
    unfold burstComplete
    rw [applyUpsets_port, hg]
    rfl
  · exact applyUpset_beyond (by omega)
  · rw [(applyUpset_eq hw).1, Ecc.find_put hcan.2, if_neg hne]
  · rw [(applyUpset_eq hw).2, hb]
    dsimp only
    rw [Memory.read_write hcan.1]
    split
    · rename_i e; rw [e]
    · rfl
  · rw [(applyUpset_eq hw).2]
    split
    · rename_i b e; exact absurd e (hb b)
    · rfl
  · rw [(applyUpset_eq hw).1, Ecc.find_put hcan.2, if_pos rfl, hc]; rfl
  · rw [(applyUpset_eq hw).1, Ecc.find_put hcan.2, if_pos rfl, hc]; rfl

end Sys2Proof.Machine

/-! What a burst's completion does to the channel it belongs to (R116, R120, R123 to R125, R131). -/

namespace Sys2Proof.Machine

section ChannelCompletion

variable {s t u : State} {c : Chan} {p : Primary} {m : Mark} {b : Burst} {st : BurstStatus} {data : List Byte}

theorem performBurst_chans (hp : performBurst b s = (st, data, u)) : u.chans = s.chans := by
  have := congrArg Inside.chans (performBurst_inside (b := b) (s := s))
  rw [hp] at this
  exact this

theorem freed_chans (hp : performBurst b s = (st, data, u)) : u.freed.chans = s.chans := by
  exact performBurst_chans (u := u) hp

theorem freed_granted (u : State) {cl : Claimant} (b : Burst) : u.freed.port.granted ≠ some (cl, b) := nofun

theorem performBurst_primary (hp : performBurst b s = (st, data, u)) (hc : s.chans[c].primary = some p) :
    u.freed.chans[c].primary = some p := by
  rw [freed_chans hp]; exact hc

/-! ### A list at its boundary -/

theorem endAtBoundary_granted (hg : ∃ b, s.port.granted = some (Claimant.ch c, b)) : endAtBoundary c s = s := by
  unfold endAtBoundary
  split
  · rw [if_pos (hasGrant_iff.mpr hg)]
  · rfl

theorem endAtBoundary_ends (hc : s.chans[c].primary = some p) (hm : p.mark = some m)
    (hg : ∀ b, s.port.granted ≠ some (Claimant.ch c, b)) : endAtBoundary c s = endList c m.result s := by
  unfold endAtBoundary
  rw [hc, Option.bind_some, hm]
  exact if_neg fun e => absurd (hasGrant_iff.mp e) (not_exists.mpr hg)

/-! ### The ways a completion goes -/

theorem channelBurstDone_marked (hc : t.chans[c].primary = some p) (hm : p.mark = some m)
    (h : (∀ n, p.work ≠ .unitWrite n) ∨ st = .uncorrectable) : channelBurstDone c st data t = endAtBoundary c t := by
  unfold channelBurstDone; rw [hc]; dsimp only
  split
  case h_1 n hw =>
    rw [if_pos (h.resolve_left fun e => e n hw), hm]; rfl
  case h_2 => rw [hm]; rfl

theorem channelBurstDone_uncorrectable (hc : t.chans[c].primary = some p) (hm : p.mark = none) :
    channelBurstDone c .uncorrectable data t = endList c .memoryError t := by
  unfold channelBurstDone; rw [hc]; dsimp only
  split <;> rw [hm] <;> rfl

theorem channelBurstDone_unitWrite {n : Nat} (hc : t.chans[c].primary = some p) (hw : p.work = .unitWrite n)
    (hst : st ≠ .uncorrectable) : channelBurstDone c st data t = unitWritten c p n t := by
  unfold channelBurstDone; rw [hc]; dsimp only; rw [hw]
  exact if_neg hst

theorem channelBurstDone_fetched {owner : Slot} {got : List Byte} (hc : t.chans[c].primary = some p) (hm : p.mark = none)
    (ho : p.owner = some owner) (hst : st ≠ .uncorrectable) (hw : p.work = .fetchBurst [] got) :
    channelBurstDone c st data t = stepRead c p owner (got ++ data) t := by
  unfold channelBurstDone; rw [hc]; dsimp only; rw [hw, hm, ho]
  exact if_neg hst

theorem channelBurstDone_fetchMore {next : Burst} {more : List Burst} {got : List Byte} (hc : t.chans[c].primary = some p)
    (hm : p.mark = none) (hst : st ≠ .uncorrectable) (hw : p.work = .fetchBurst (next :: more) got) :
    channelBurstDone c st data t = channelBurst c next (.fetchBurst more (got ++ data)) t := by
  unfold channelBurstDone; rw [hc]; dsimp only; rw [hw, hm]
  exact if_neg hst

theorem channelBurstDone_unitRead {n a : Nat} (hc : t.chans[c].primary = some p)
    (hm : p.mark = none) (hst : st ≠ .uncorrectable) (hw : p.work = .unitRead n a) :
    channelBurstDone c st data t = channelBurst c (.write a data) (.unitWrite n) t := by
  unfold channelBurstDone; rw [hc]; dsimp only; rw [hw, hm]
  exact if_neg hst

theorem channelBurstDone_recordMore {next : Burst} {more : List Burst} (hc : t.chans[c].primary = some p)
    (hm : p.mark = none) (hst : st ≠ .uncorrectable) (hw : p.work = .recordBurst (next :: more)) :
    channelBurstDone c st data t = channelBurst c next (.recordBurst more) t := by
  unfold channelBurstDone; rw [hc]; dsimp only; rw [hw, hm]
  exact if_neg hst

theorem channelBurstDone_recorded (hc : t.chans[c].primary = some p)
    (hm : p.mark = none) (hst : st ≠ .uncorrectable) (hw : p.work = .recordBurst []) :
    channelBurstDone c st data t = endList c .ok t := by
  unfold channelBurstDone; rw [hc]; dsimp only; rw [hw, hm]
  exact if_neg hst

/-! ### A channel's record updated -/

theorem updPrimary_eq (hc : t.chans[c].primary = some p) (f : Primary → Primary) :
    updPrimary c f t = { t with chans := t.chans.set c { t.chans[c] with primary := some (f p) } } := by
  show { t with chans := t.chans.set c { t.chans[c] with primary := t.chans[c].primary.map f } } = _
  rw [hc]; rfl

theorem channelBurst_eq (hc : t.chans[c].primary = some p) (b : Burst) (w : Work) : channelBurst c b w t = { t with
    chans := t.chans.set c { t.chans[c] with primary := some { p with work := w } }
    port := { t.port with waiting := t.port.waiting.set (Claimant.ch c) (some b) } } := by
  unfold channelBurst
  rw [updPrimary_eq hc]; rfl

/-- A unit's bytes counted: the list goes on to its next unit. -/
def Primary.counted (p : Primary) (n : Nat) : Primary :=
  { p with bytesDone := p.bytesDone + n, total := p.total + BitVec.ofNat 32 n, work := .unit }

theorem unitWritten_marked {n : Nat} (hc : t.chans[c].primary = some p) (hm : p.mark = some m) :
    unitWritten c p n t =
      endAtBoundary c { t with chans := t.chans.set c { t.chans[c] with primary := some (p.counted n) } } := by
  cases p
  cases hm
  unfold unitWritten; dsimp only
  rw [updPrimary_eq hc]; rfl

theorem unitWritten_move {n count : Nat} {src dst : Handle} {so d : Nat} {fill : Byte} {last down : Bool}
    (hc : t.chans[c].primary = some p) (hm : p.mark = none) (hs : p.step = some (.move src so dst d count fill last down)) :
    unitWritten c p n t =
      let v : State := { t with chans := t.chans.set c { t.chans[c] with primary := some (p.counted n) } }
      if count ≤ p.bytesDone + n then stepComplete c p last v else v := by
  cases p
  cases hm; cases hs
  unfold unitWritten; dsimp only
  rw [updPrimary_eq hc]; rfl

/-- The pins of a primary slot's list handle alone stay, and its step is gone. -/
def Primary.stepDone (p : Primary) : Primary :=
  { p with pins := p.pins.filter (·.purpose == .list), step := none, bytesDone := 0, source := none, dest := none,
           completion := none }

theorem not_isStepPin (x : ChanPin) : (!isStepPin x) = (x.purpose == .list) := by
  unfold isStepPin
  rw [bne, Bool.not_not]

/-- The Window Table, attention and engine after pins have fallen do not depend on the channels. -/
theorem removePin_setChans (i : DIdx) (s : State) (v : Vector Channel 4) :
    removePin i { s with chans := v } = { removePin i s with chans := v } := by
  unfold removePin; dsimp only [State.updDesc]
  split
  · rw [enterFree_eq, enterFree_eq]
  · rfl

theorem removePins_setChans (is : List DIdx) (s : State) (v : Vector Channel 4) :
    removePins is { s with chans := v } = { removePins is s with chans := v } := by
  unfold removePins
  induction is generalizing s with
  | nil => rfl
  | cons i is ih => rw [List.foldl_cons, List.foldl_cons, removePin_setChans, ih]

theorem removePins_chans (is : List DIdx) (s : State) : (removePins is s).chans = s.chans :=
  (congrArg State.chans (removePins_frame is s) :)

theorem stepComplete_eq (p q : Primary) (last : Bool) (hc : t.chans[c].primary = some q) :
    stepComplete c p last t =
      let unpinned := removePins ((p.pins.filter (·.purpose != .list)).map (·.index)) t
      if last then endList c .ok { unpinned with chans := t.chans.set c { t.chans[c] with primary := some q.stepDone } }
      else { unpinned with chans := t.chans.set c { t.chans[c] with
        primary := some { q.stepDone with offset := q.offset + 16, work := .fetch }, state := .fetch } } := by
  unfold stepComplete; dsimp only
  rw [updPrimary_eq (by rw [removePins_chans]; exact hc), removePins_chans]
  simp only [not_isStepPin]
  split
  · rfl
  · rw [updPrimary_eq (by rw [get_set_self])]
    simp only [State.updChan, get_set_self, set_set_self]
    rfl

end ChannelCompletion

/-- Settles O34: the boundary of a marked list, the end of one whose burst fails, the bursts that follow of one that goes on. -/
theorem burstBoundaryEndsMarkedAndFailedLists : Obligations.BurstBoundaryEndsMarkedAndFailedLists := by
  unfold Obligations.BurstBoundaryEndsMarkedAndFailedLists
  refine ⟨fun s u c p b st data hg hc hp => ⟨fun m hm h => ?_, fun m n hm hw hst => ?_, fun hm hst => ?_⟩,
    fun s u c p b st data hg hc hm hp hst => ?_⟩
  · have hc' := performBurst_primary hp hc
    rw [burstComplete_channel hg hp, channelBurstDone_marked hc' hm h, endAtBoundary_ends hc' hm (freed_granted u)]
  · have hc' := performBurst_primary hp hc
    rw [burstComplete_channel hg hp, channelBurstDone_unitWrite hc' hw hst, unitWritten_marked hc' hm,
      endAtBoundary_ends (p := p.counted n) (by rw [get_set_self]) hm (fun b => by exact freed_granted u b)]
    dsimp only [State.freed]
    rw [performBurst_chans hp]; rfl
  · subst hst
    have hc' := performBurst_primary hp hc
    rw [burstComplete_channel hg hp, channelBurstDone_uncorrectable hc' hm]
  · have hc' := performBurst_primary hp hc
    dsimp only
    rw [burstComplete_channel hg hp]
    refine ⟨fun next more got hw => ?_, fun next more hw => ?_, fun hw => ?_⟩
    · rw [channelBurstDone_fetchMore hc' hm hst hw, channelBurst_eq hc']
      dsimp only [State.freed]
      rw [performBurst_chans hp]
    · rw [channelBurstDone_recordMore hc' hm hst hw, channelBurst_eq hc']
      dsimp only [State.freed]
      rw [performBurst_chans hp]
    · rw [channelBurstDone_recorded hc' hm hst hw]

/-- Settles O33: a unit's read is followed by its write, which is counted; a step whose bytes are all written is complete. -/
theorem unitIsReadWrittenAndCounted : Obligations.UnitIsReadWrittenAndCounted := by
  unfold Obligations.UnitIsReadWrittenAndCounted
  intro s u c p owner b st data src dst so d count fill last down hg hc hm _ hs hp hst
  have hc' := performBurst_primary hp hc
  dsimp only
  rw [burstComplete_channel hg hp]
  refine ⟨fun n a hw => ?_, fun n hw => ?_⟩
  · rw [channelBurstDone_unitRead hc' hm hst hw, channelBurst_eq hc']
    dsimp only [State.freed]
    rw [performBurst_chans hp]
  rw [channelBurstDone_unitWrite hc' hw hst, unitWritten_move hc' hm hs]
  dsimp only
  have counted : ({ u.freed with chans := u.chans.set c { u.chans[c] with primary := some (p.counted n) } } : State).chans[c].primary
      = some (p.counted n) := by rw [get_set_self]
  refine ⟨fun h => ?_, fun h hl => ?_, fun h hl => ?_⟩
  · rw [if_neg (by omega), performBurst_chans hp]; rfl
  · subst hl
    rw [if_pos h, stepComplete_eq p _ _ counted, if_neg nofun, removePins_setChans]
    dsimp only
    rw [set_set_self, get_set_self, ← performBurst_chans hp]; rfl
  · subst hl
    rw [if_pos h, stepComplete_eq p _ _ counted, if_pos rfl, removePins_setChans]
    dsimp only
    rw [set_set_self, get_set_self, ← performBurst_chans hp]; rfl

end Sys2Proof.Machine

/-! The violation that bars its slot (R53, R147), and the list that ends with a failing code (R126). -/

namespace Sys2Proof.Machine

section Barring

variable {s t u : State} {reason code : Code} {slot owner : Slot} {source : Option Chan} {h : Handle} {offset : Nat}
  {c : Chan} {p : Primary}

/-! ### The violation that bars -/

/-- A violation notice before its teardown: the record, the score and the attentions move. -/
theorem chargeScore_offerFault_eq (reason : Code) (slot : Slot) (source : Option Chan) (h : Handle) (offset : Nat) (s : State) :
    chargeScore slot (offerFault reason slot source h offset s) = s.charged reason slot source h offset := by
  have e : (offerFault reason slot source h offset s).su = s.su := by
    unfold offerFault; split <;> rfl
  unfold chargeScore
  simp only [e, Requester.withScore, scoreUp, State.charged, Requester.charged]
  unfold offerFault Attention.notified
  split <;> split <;> simp_all [State.updSlot, State.setAttn, raiseStanding, Attention.raise, causeBit]

theorem violation_teardown (hs : 248 ≤ s.su[slot].score) (hb : s.su[slot].standing ≠ .barred) (own : Bool) :
    violation reason slot source h offset own s =
      teardown .barring slot own source (s.charged reason slot source h offset) := by
  rw [violation_bars hs hb, chargeScore_offerFault_eq]

/-- What a teardown leaves counts from the state before the charge. -/
theorem TornDown.of_charged {mark : MarkCode} {own : Option Chan}
    (ht : TornDown (s.charged reason slot source h offset) u slot mark own) : TornDown s u slot mark own := by
  obtain ⟨chans, wt, rq, outstanding, others, rest⟩ := ht
  refine ⟨chans, wt, rq, outstanding.trans ?_, fun other ho => (others other ho).trans ?_, rest⟩
  · show (s.su.set slot s.su[slot].charged)[slot].outstanding - _ - _ = _
    rw [get_set_self]; rfl
  · exact get_set_ne _ (Ne.symm ho) _

theorem Requester.charged_high {r : Requester} (h : 248 ≤ r.score) :
    r.charged = { r with score := 256, standing := .barred } := by
  unfold Requester.charged
  rw [Nat.min_eq_right (by omega)]; rfl

/-- An entry into BARRED is upward, whatever standing it leaves. -/
theorem Standing.toNat_lt_barred {x : Standing} (h : x ≠ .barred) : x.toNat < Standing.barred.toNat := by
  cases x
  · decide
  · decide
  · decide
  · exact absurd rfl h

/-- The attentions after the notice that bars. -/
theorem Attention.notified_barring (a : Attention) (n : FaultRecord) {before : Standing} (hb : before ≠ .barred) :
    (a.notified n before .barred).fault = (if a.fault.valid then { a.fault with lost := true } else n) ∧
    (a.fault.valid = false → (a.notified n before .barred).pending.getLsbD 0 = true) ∧
    (a.notified n before .barred).pending.getLsbD 1 = true ∧ (a.notified n before .barred).standingLatch = n.slot := by
  unfold Attention.notified
  simp only [if_pos (Standing.toNat_lt_barred hb)]
  cases hv : a.fault.valid
  · simp
  · simp

theorem violation_barsItsSlot (hs : 248 ≤ s.su[slot].score) (hb : s.su[slot].standing ≠ .barred) (own : Bool) :
    BarsItsSlot s (violation reason slot source h offset own s) ⟨true, false, reason, slot, source, h, offset⟩ := by
  obtain ⟨torn, attn⟩ := teardown_tornDown .barring slot own source (s.charged reason slot source h offset)
  have record := teardown_record (cause := .barring) nofun slot own source (s.charged reason slot source h offset)
  rw [violation_teardown hs hb]
  generalize teardown .barring slot own source (s.charged reason slot source h offset) = u at *
  have charged : (s.charged reason slot source h offset).su[slot] = { s.su[slot] with score := 256, standing := .barred } := by
    rw [← Requester.charged_high hs]; exact get_set_self _ _ _
  obtain ⟨fault, pending, standing, latch⟩ :=
    s.attn.notified_barring ⟨true, false, reason, slot, source, h, offset⟩ hb
  have notified : (s.charged reason slot source h offset).attn =
      s.attn.notified ⟨true, false, reason, slot, source, h, offset⟩ s.su[slot].standing .barred := by
    show s.attn.notified _ _ s.su[slot].charged.standing = _
    rw [Requester.charged_high hs]
  rw [notified] at attn
  obtain ⟨attn, more⟩ := attn
  refine ⟨?_, torn.holdsNothing, ?_, fun hv => more 0 (pending hv), more 1 standing, ?_, torn.of_charged⟩
  · rw [record, charged]
  · rw [attn]; exact fault
  · rw [attn]; exact latch

theorem violation_reaches (hs : 248 ≤ s.su[slot].score) (hb : s.su[slot].standing ≠ .barred) :
    BarringReaches s (violation reason slot source h offset false s) slot := by
  have reaches := teardown_reaches .barring slot source (s.charged reason slot source h offset)
  have disposition : (nextDisposition · .barring false) =
      fun r : InService => if r.disposition = .discard then .discard else .barred := by
    funext r
    unfold nextDisposition
    cases r.disposition <;> rfl
  rw [disposition] at reaches
  rw [violation_teardown hs hb]
  exact reaches.congr rfl rfl

/-! ### A list that fails -/

theorem endEvent_violation (hv : code.isViolation = true) : endEvent code = .fault := by
  revert hv; cases code <;> decide

theorem HoldsNothing.endList (hn : HoldsNothing s slot) (hp : s.chans[c].primary = some p) (hc : code ≠ .ok) :
    HoldsNothing (endList c code s) slot := by
  obtain ⟨table, lists, queue⟩ := hn
  obtain ⟨chans, -, -, wt, -, -⟩ := endList_neutral hp hc
  refine ⟨fun i => ?_, fun d => ?_, ?_⟩
  · obtain ⟨opener, holder, mark⟩ := table i
    rw [wt]
    unfold Descriptor.unpinned
    split
    · exact ⟨by simp, nofun, nofun⟩
    · exact ⟨opener, holder, mark⟩
  · rw [chans]
    by_cases hd : c = d
    · subst hd
      rw [get_set_self]
      refine ⟨fun q hq => ?_, fun b hb => (nomatch hb)⟩
      obtain ⟨b, hb, rfl⟩ := Option.map_eq_some_iff.mp hq
      exact fun e => (lists c).2 b hb (Option.some.inj e)
    · rw [get_set_ne _ hd]; exact lists d
  · rw [endList_frame]; exact queue

/-- The list whose own violation bars its owner ends with the violation's code. -/
theorem listBars_endList (hp : s.chans[c].primary = some p) (hm : p.mark = none) (ho : p.owner = some owner)
    (hv : code.isViolation = true) (hs : 248 ≤ s.su[owner].score) (hb : s.su[owner].standing ≠ .barred) :
    ListBars s (endList c code (violation code owner (some c) h offset false s)) c p owner code h offset := by
  have bars := violation_barsItsSlot (reason := code) (source := some c) (h := h) (offset := offset) hs hb false
  have reaches := violation_reaches (reason := code) (source := some c) (h := h) (offset := offset) hs hb
  obtain ⟨-, nothing, -, -, -, -, torn⟩ := id bars
  have mine := ((torn.1 c).2 p ⟨.ownerBarred, owner⟩ hp ho (by rw [hm]; rfl)).1 (.inr rfl)
  have hc : code ≠ .ok := by rintro rfl; cases hv
  refine ⟨_, bars, reaches, rfl, ?_⟩
  generalize violation code owner (some c) h offset false s = u at *
  have primary : u.chans[c].primary = some { p with mark := some ⟨.ownerBarred, owner⟩, owner := none } := by
    rw [mine.1]
  obtain ⟨chans, -⟩ := endList_neutral primary hc
  refine ⟨nothing.endList primary hc, ?_, ?_⟩
  · rw [chans, get_set_self]; rfl
  · rw [chans, get_set_self]; exact congrArg some (endEvent_violation hv)

theorem touchAbsent_eq (touched : Option DIdx) (s : State) : touchAbsent touched s = { s with
    attn := touched.elim s.attn fun i =>
      { s.attn with pending := s.attn.pending ||| 0x040, absentLatch := i } } := by
  cases touched <;> rfl

/-- A violation is no touch of an ABSENT window (R41). -/
theorem resolve_violation_touched {length : Nat} {needed : Rights} {needsList : NeedsList} {aligned : Bool}
    {touched : Option DIdx} (hv : code.isViolation = true)
    (hr : resolve s slot h offset length needed needsList aligned = .error (code, touched)) : touched = none := by
  have states {i : DIdx} {f : Code × Option DIdx} (e : checkStates s i = some f) : f.1.isViolation = true → f.2 = none := by
    unfold checkStates at e; dsimp only at e
    repeat' split at e
    all_goals cases e <;> simp [Code.isViolation]
  unfold resolve at hr
  split at hr
  · cases hr; rfl
  · split at hr
    · rename_i f hf
      cases hr; exact states hf hv
    · dsimp only at hr
      repeat' split at hr
      all_goals cases hr <;> rfl

theorem failList_fails {touched : Option DIdx} (hp : s.chans[c].primary = some p) (hm : p.mark = none)
    (ho : p.owner = some owner) (ht : code.isViolation = true → touched = none) :
    ListFails s (failList c code owner h offset (touchAbsent touched s)) c p owner code touched h offset := by
  refine ⟨fun hlow => ?_, fun hv hs hb => ?_⟩
  · unfold failList State.failing
    rw [touchAbsent_eq]
    split
    · rename_i hv
      exact congrArg (endList c code) (violation_of_low (s := { s with attn := _ }) (hlow hv))
    · rfl
  · rw [ht hv]
    unfold failList
    rw [if_pos hv]
    exact listBars_endList hp hm ho hv hs hb

end Barring

end Sys2Proof.Machine

/-! A step that has been fetched is taken up (R117, R118). -/

namespace Sys2Proof.Machine

/-- Settles O29: the decoded step says how the list goes on; a step of no form and a ninth jump are failures of the list. -/
theorem fetchedStepIsTakenUp : Obligations.FetchedStepIsTakenUp := by
  unfold Obligations.FetchedStepIsTakenUp
  intro s u c p owner got data b st hg hc hw hm ho hp hst
  have hc' := performBurst_primary hp hc
  have fails (code : Code) : ListFails u.freed (failList c code owner p.handle p.offset u.freed) c p owner code none
      p.handle p.offset := failList_fails (touched := none) hc' hm ho fun _ => rfl
  have goes (f : Primary → Primary) : updPrimary c f u.freed =
      { u.freed with chans := s.chans.set c { s.chans[c] with primary := some (f p) } } := by
    rw [updPrimary_eq hc', freed_chans hp]
  dsimp only
  rw [burstComplete_channel hg hp, channelBurstDone_fetched hc' hm ho hst hw]
  unfold stepRead
  refine ⟨fun h => ?_, fun target h => ⟨fun hj => ?_, fun hj => ?_⟩, fun src so dst d n f l dn h => ?_, fun h' o h => ?_⟩
  · rw [h]; exact ⟨_, rfl, fails .listFormat⟩
  · rw [h]; dsimp only
    rw [if_neg (by omega), goes]
  · rw [h]; dsimp only
    rw [if_pos (by omega)]
    exact ⟨_, rfl, fails .listLoop⟩
  · rw [h]; dsimp only
    rw [goes]
  · rw [h]; dsimp only
    rw [goes]

end Sys2Proof.Machine

/-! The checks of a list at its promotion, at a step fetch and at CHANNEL_RESUME (R115, R116, R128, R129). -/

namespace Sys2Proof.Machine

section ListChecks

variable {s : State} {c : Chan} {p : Primary} {owner : Slot}

/-! ### A channel stops -/

/-- The state after a channel has stopped, these attentions having been noted first (R128). -/
def State.listStopped (s : State) (c : Chan) (p : Primary) (a : Attention) : State := { s with
  chans := s.chans.set c { s.chans[c] with
    state := .stopped, primary := some { p with work := .stopped }, event := some .stop }
  attn := { a with pending := a.pending ||| BitVec.ofNat 12 (2 ^ (c.val + 2)) } }

theorem causeBit_cChan (c : Chan) : causeBit (cChan c) = BitVec.ofNat 12 (2 ^ (c.val + 2)) := by
  unfold causeBit
  rw [show cChan c - 1 = c.val + 2 by unfold cChan; omega]

theorem stopChannel_eq (hc : s.chans[c].primary = some p) : stopChannel c s = s.listStopped c p s.attn := by
  unfold stopChannel State.listStopped
  rw [updPrimary_eq (p := p) (by simp only [State.updChan, get_set_self]; exact hc), ← causeBit_cChan]
  simp only [channelEvent, raiseChan, Attention.raise, State.updChan, State.setAttn, get_set_self, set_set_self]

theorem verdictFails_absent (hc : s.chans[c].primary = some p) (i : DIdx) (h : Handle) (offset : Nat) :
    verdictFails c (.absent, some i) owner h offset s =
      s.listStopped c p { s.attn with pending := s.attn.pending ||| 0x040, absentLatch := i } := by
  unfold verdictFails
  rw [if_pos rfl]
  exact stopChannel_eq (s := touchAbsent (some i) s) hc

theorem verdictFails_ends {code : Code} (hc : s.chans[c].primary = some p) (hm : p.mark = none) (ho : p.owner = some owner)
    (hcode : code ≠ .absent) (h : Handle) (offset : Nat) :
    ListFails s (verdictFails c (code, none) owner h offset s) c p owner code none h offset := by
  unfold verdictFails
  rw [if_neg hcode]
  exact failList_fails (touched := none) hc hm ho fun _ => rfl

theorem holeStops_eq (hc : s.chans[c].primary = some p) (entry : Nat) : holeStops c entry s =
    s.listStopped c p { s.attn with pending := s.attn.pending ||| 0x080, holeLatch := entry } :=
  stopChannel_eq (s := raiseMapHole entry s) hc

/-! ### The work of an unmarked list -/

/-- A channel's primary is an unmarked list with this owner. -/
structure Runs (s : State) (c : Chan) (p : Primary) (owner : Slot) : Prop where
  primary : s.chans[c].primary = some p
  mark : p.mark = none
  owner : p.owner = some owner

variable (hr : Runs s c p owner)
include hr

theorem advance_promote (hw : p.work = .promote) : advance c s = advancePromote c p owner s := by
  unfold advance; rw [hr.primary]; dsimp only; rw [hr.mark, hr.owner, hw]

theorem advance_fetch (hw : p.work = .fetch) : advance c s = advanceFetch c p owner s := by
  unfold advance; rw [hr.primary]; dsimp only; rw [hr.mark, hr.owner, hw]

theorem advance_resume (hw : p.work = .resume) : advance c s = advanceResume c p owner s := by
  unfold advance; rw [hr.primary]; dsimp only; rw [hr.mark, hr.owner, hw]

theorem advance_resolve (hw : p.work = .resolve) : advance c s = advanceResolve c p owner s := by
  unfold advance; rw [hr.primary]; dsimp only; rw [hr.mark, hr.owner, hw]

theorem advance_unit (hw : p.work = .unit) : advance c s = advanceUnit c p s := by
  unfold advance; rw [hr.primary]; dsimp only; rw [hr.mark, hr.owner, hw]

theorem advance_record (hw : p.work = .record) : advance c s = advanceRecord c p owner s := by
  unfold advance; rw [hr.primary]; dsimp only; rw [hr.mark, hr.owner, hw]

theorem Runs.stops (i : DIdx) (h : Handle) (offset : Nat) : verdictFails c (.absent, some i) owner h offset s =
    s.listStopped c p { s.attn with pending := s.attn.pending ||| 0x040, absentLatch := i } :=
  verdictFails_absent hr.primary i h offset

theorem Runs.ends {code : Code} (hcode : code ≠ .absent) (h : Handle) (offset : Nat) :
    ListFails s (verdictFails c (code, none) owner h offset s) c p owner code none h offset :=
  verdictFails_ends hr.primary hr.mark hr.owner hcode h offset

theorem Runs.updPrimary (f : Primary → Primary) :
    updPrimary c f s = { s with chans := s.chans.set c { s.chans[c] with primary := some (f p) } } :=
  updPrimary_eq hr.primary f

/-! ### Promotion, fetch and resume -/

theorem advancePromote_fails {code : Code} {touched : Option DIdx} (hl : s.su[owner].standing ≠ .limited)
    (hv : resolve s owner p.handle p.offset 1 Rights.F true true = .error (code, touched)) :
    ListFails s (advancePromote c p owner s) c p owner code touched p.handle p.offset := by
  unfold advancePromote
  rw [if_neg hl, hv]
  exact failList_fails hr.primary hr.mark hr.owner fun h => resolve_violation_touched h hv

theorem advancePromote_passes {w : Resolved} (hl : s.su[owner].standing ≠ .limited)
    (hv : resolve s owner p.handle p.offset 1 Rights.F true true = .ok w) :
    advancePromote c p owner s = { s with
      wt := withPins s.wt [p.handle.index]
      chans := s.chans.set c { s.chans[c] with
        primary := some { p with pins := [⟨p.handle.index, .list⟩], work := .fetch } } } := by
  unfold advancePromote
  rw [if_neg hl, hv]; dsimp only
  rw [(resolve_ok hv).1, placePins_eq]
  exact updPrimary_eq (t := { s with wt := withPins s.wt [p.handle.index] }) hr.primary _

omit hr in
theorem advanceFetch_fails {f : Code × Option DIdx}
    (hv : resolve s owner p.handle p.offset 16 Rights.F true false = .error f) :
    advanceFetch c p owner s = verdictFails c f owner p.handle p.offset s := by
  unfold advanceFetch recheckList; rw [hv]

theorem advanceFetch_hole {w : Resolved} {entry : Nat}
    (hv : resolve s owner p.handle p.offset 16 Rights.F true false = .ok w)
    (ht : translate s w.base w.baseOffset 16 = .error entry) : advanceFetch c p owner s =
      s.listStopped c p { s.attn with pending := s.attn.pending ||| 0x080, holeLatch := entry } := by
  unfold advanceFetch recheckList; rw [hv]; dsimp only; rw [ht]
  exact holeStops_eq hr.primary entry

theorem advanceFetch_requests {w : Resolved} {pieces : List (Nat × Nat)} {first : Burst} {more : List Burst}
    (hv : resolve s owner p.handle p.offset 16 Rights.F true false = .ok w)
    (ht : translate s w.base w.baseOffset 16 = .ok pieces) (hb : readBursts pieces = first :: more) :
    advanceFetch c p owner s = { s with
      chans := s.chans.set c { s.chans[c] with primary := some { p with work := .fetchBurst more [] } }
      port := { s.port with waiting := s.port.waiting.set (Claimant.ch c) (some first) } } := by
  unfold advanceFetch recheckList; rw [hv]; dsimp only; rw [ht]; dsimp only; rw [hb]
  exact channelBurst_eq hr.primary _ _

omit hr in
theorem advanceResume_fails {f : Code × Option DIdx}
    (hv : resolve s owner p.handle p.offset 16 Rights.F true false = .error f) :
    advanceResume c p owner s = verdictFails c f owner p.handle p.offset s := by
  unfold advanceResume recheckList; rw [hv]

theorem advanceResume_passes {w : Resolved} (hv : resolve s owner p.handle p.offset 16 Rights.F true false = .ok w) :
    advanceResume c p owner s = { s with chans := s.chans.set c { s.chans[c] with
      primary := some { p with work := if p.step = none then .fetch else .resolve } } } := by
  unfold advanceResume recheckList; rw [hv]; dsimp only
  rw [hr.updPrimary]
  cases p.step <;> rfl

end ListChecks

/-- Settles O30: promotion, fetch and resume each pass, stop the channel or end the list, by their verdict. -/
theorem listIsCheckedAtPromotionAndFetch : Obligations.ListIsCheckedAtPromotionAndFetch := by
  unfold Obligations.ListIsCheckedAtPromotionAndFetch
  refine ⟨fun s c p owner hc hw hm ho => ?_, fun s c p owner hc hw hm ho => ?_, fun s c p owner hc hw hm ho => ?_⟩
  · have hr : Runs s c p owner := ⟨hc, hm, ho⟩
    rw [advance_promote hr hw]
    refine ⟨fun hl => ?_, fun hl => ⟨fun code touched hv => advancePromote_fails hr hl hv,
      fun w hv => advancePromote_passes hr hl hv⟩⟩
    unfold advancePromote
    exact if_pos hl
  · have hr : Runs s c p owner := ⟨hc, hm, ho⟩
    dsimp only
    rw [advance_fetch hr hw]
    refine ⟨fun i hv => ?_, fun code hv hcode => ?_, fun w hv => ⟨fun entry ht => ?_, fun pieces first more ht hb =>
      advanceFetch_requests hr hv ht hb⟩⟩
    · rw [advanceFetch_fails hv]; exact hr.stops i _ _
    · rw [advanceFetch_fails hv]; exact hr.ends hcode _ _
    · exact advanceFetch_hole hr hv ht
  · have hr : Runs s c p owner := ⟨hc, hm, ho⟩
    dsimp only
    rw [advance_resume hr hw]
    refine ⟨fun i hv => ?_, fun code hv hcode => ?_, fun w hv => advanceResume_passes hr hv⟩
    · rw [advanceResume_fails hv]; exact hr.stops i _ _
    · rw [advanceResume_fails hv]; exact hr.ends hcode _ _

end Sys2Proof.Machine

/-! The handles of a step, resolved in their order (R119, R125, R129). -/

namespace Sys2Proof.Machine

section StepHandles

variable {s t : State} {c : Chan} {p x : Primary} {owner : Slot} {w : Resolved}

/-- The step being resolved, with this table and this record of the run so far. -/
def State.resolving (s : State) (c : Chan) (wt : Vector Descriptor 256) (x : Primary) : State :=
  { s with wt := wt, chans := s.chans.set c { s.chans[c] with primary := some x } }

theorem State.resolving_self (hc : s.chans[c].primary = some p) : s.resolving c s.wt p = s := by
  have same : ({ s.chans[c] with primary := some p } : Channel) = s.chans[c] := by rw [← hc]
  unfold State.resolving
  rw [same, set_get_self]

theorem State.resolving_primary (s : State) (c : Chan) (wt : Vector Descriptor 256) (x : Primary) :
    (s.resolving c wt x).chans[c] = { s.chans[c] with primary := some x } := get_set_self _ _ _

/-- The pins of a run after a passing resolution of one of its step's handles: those that it has already, or those and the
ones placed (R109, R129). -/
def Primary.pinsAfter (p x : Primary) (w : Resolved) (named target : Purpose) : List ChanPin :=
  if p.pins.any (·.purpose == named) then x.pins else x.pins ++ stepPins w named target

/-- The table after it. -/
def Primary.tableAfter (p : Primary) (wt : Vector Descriptor 256) (w : Resolved) (named : Purpose) : Vector Descriptor 256 :=
  if p.pins.any (·.purpose == named) then wt else withPins wt w.pinned

theorem Primary.tableAfter_alike (p : Primary) (wt : Vector Descriptor 256) (w : Resolved) (named : Purpose) :
    AlikeButPins (p.tableAfter wt w named) wt := by
  unfold Primary.tableAfter
  split
  · exact .refl _
  · exact withPins_alike _ _

theorem notePass_eq (hx : t.chans[c].primary = some x) (w : Resolved) (named target : Purpose) (f : Primary → Primary) :
    notePass c p w named target f t = { t with
      wt := p.tableAfter t.wt w named
      chans := t.chans.set c { t.chans[c] with
        primary := some (f { x with pins := p.pinsAfter x w named target }) } } := by
  unfold notePass Primary.tableAfter Primary.pinsAfter
  by_cases h : p.pins.any (·.purpose == named) = true
  · simp only [if_pos h]
    exact updPrimary_eq hx f
  · simp only [if_neg h, placePins_eq]
    exact updPrimary_eq (t := { t with wt := withPins t.wt w.pinned }) hx _

/-! ### The destination of a MOVE -/

variable {dst : Handle} {d count : Nat}

theorem resolveDest_fails {f : Code × Option DIdx} (hv : resolve t owner dst d count Rights.W false false = .error f) :
    resolveDest c p owner dst d count t = verdictFails c f owner dst d t := by
  unfold resolveDest; rw [hv]

theorem resolveDest_passes (hx : t.chans[c].primary = some x)
    (hv : resolve t owner dst d count Rights.W false false = .ok w) :
    resolveDest c p owner dst d count t = { t with
      wt := p.tableAfter t.wt w .destination
      chans := t.chans.set c { t.chans[c] with
        state := .move
        primary := some { x with
          pins := p.pinsAfter x w .destination .destinationTarget, dest := some w, work := .unit } } } := by
  unfold resolveDest; rw [hv]; dsimp only
  rw [notePass_eq hx]
  simp only [State.updChan, get_set_self, set_set_self]

/-- How the resolution of a MOVE's destination ends, after its source has been resolved or is none. -/
def DestResolved (s u : State) (c : Chan) (p x : Primary) (owner : Slot) (wt : Vector Descriptor 256) (dst : Handle)
    (d count : Nat) : Prop :=
  (∀ w, resolve s owner dst d count Rights.W false false = .ok w → u = { s with
    wt := p.tableAfter wt w .destination
    chans := s.chans.set c { s.chans[c] with
      state := .move
      primary := some { x with
        pins := p.pinsAfter x w .destination .destinationTarget, dest := some w, work := .unit } } }) ∧
  (∀ i, resolve s owner dst d count Rights.W false false = .error (.absent, some i) → u = { s with
    wt := wt
    chans := s.chans.set c { s.chans[c] with
      state := .stopped, primary := some { x with work := .stopped }, event := some .stop }
    attn := { s.attn with
      pending := s.attn.pending ||| 0x040 ||| BitVec.ofNat 12 (2 ^ (c.val + 2)), absentLatch := i } }) ∧
  (∀ code, resolve s owner dst d count Rights.W false false = .error (code, none) → code ≠ .absent →
    ListFails (s.resolving c wt x) u c x owner code none dst d)

theorem resolveDest_resolves {wt : Vector Descriptor 256} (hwt : AlikeButPins wt s.wt) (hm : x.mark = none)
    (ho : x.owner = some owner) :
    DestResolved s (resolveDest c p owner dst d count (s.resolving c wt x)) c p x owner wt dst d count := by
  have hr : Runs (s.resolving c wt x) c x owner := ⟨by rw [State.resolving_primary], hm, ho⟩
  have same := resolve_alike (t := s.resolving c wt x) hwt owner dst d count Rights.W false false
  refine ⟨fun w hv => ?_, fun i hv => ?_, fun code hv hcode => ?_⟩
  · rw [resolveDest_passes hr.primary (same.trans hv), State.resolving_primary]
    simp only [State.resolving, set_set_self]
  · rw [resolveDest_fails (same.trans hv), hr.stops, State.listStopped, State.resolving_primary]
    simp only [State.resolving, set_set_self]
  · rw [resolveDest_fails (same.trans hv)]
    exact hr.ends hcode _ _

/-! ### The source of a MOVE -/

variable {src : Handle} {so : Nat} {fill : Byte} {last down : Bool}

theorem advanceResolve_noSource (hs : p.step = some (.move src so dst d count fill last down)) (h0 : src.index = 0) :
    advanceResolve c p owner s = resolveDest c p owner dst d count s := by
  unfold advanceResolve; rw [hs]; exact if_pos h0

theorem advanceResolve_sourceFails {f : Code × Option DIdx} (hs : p.step = some (.move src so dst d count fill last down))
    (h0 : src.index ≠ 0) (hv : resolve s owner src so count Rights.R false false = .error f) :
    advanceResolve c p owner s = verdictFails c f owner src so s := by
  unfold advanceResolve; rw [hs]; dsimp only
  rw [if_neg h0, hv]

theorem advanceResolve_source {v : Resolved} (hc : s.chans[c].primary = some p)
    (hs : p.step = some (.move src so dst d count fill last down)) (h0 : src.index ≠ 0)
    (hv : resolve s owner src so count Rights.R false false = .ok v) :
    advanceResolve c p owner s = resolveDest c p owner dst d count (s.resolving c (p.tableAfter s.wt v .source)
      { p with source := some v, pins := p.pinsAfter p v .source .sourceTarget }) := by
  unfold advanceResolve; rw [hs]; dsimp only
  rw [if_neg h0, hv]; dsimp only
  rw [notePass_eq hc, hs]; rfl

/-! ### The completion window of a HALT -/

variable {comp : Handle} {offset : Nat}

theorem advanceResolve_haltFails {f : Code × Option DIdx} (hs : p.step = some (.halt comp offset)) (h0 : comp.index ≠ 0)
    (hv : resolve s owner comp offset 8 Rights.W false false = .error f) :
    advanceResolve c p owner s = verdictFails c f owner comp offset s := by
  unfold advanceResolve; rw [hs]; dsimp only
  rw [if_neg h0, hv]

theorem advanceResolve_halt (hc : s.chans[c].primary = some p) (hs : p.step = some (.halt comp offset))
    (h0 : comp.index ≠ 0) (hv : resolve s owner comp offset 8 Rights.W false false = .ok w) :
    advanceResolve c p owner s = { s with
      wt := p.tableAfter s.wt w .completion
      chans := s.chans.set c { s.chans[c] with
        state := .halting
        primary := some { p with
          pins := p.pinsAfter p w .completion .completionTarget, completion := some w, work := .record } } } := by
  unfold advanceResolve; rw [hs]; dsimp only
  rw [if_neg h0, hv]; dsimp only
  rw [notePass_eq hc]
  simp only [State.updChan, get_set_self, set_set_self]
  rw [hs]

theorem advanceRecord_hole {entry : Nat} (hc : s.chans[c].primary = some p) (hw : p.completion = some w)
    (ht : translate s w.base w.baseOffset 8 = .error entry) : advanceRecord c p owner s =
      s.listStopped c p { s.attn with pending := s.attn.pending ||| 0x080, holeLatch := entry } := by
  unfold advanceRecord; rw [hw]; dsimp only; rw [ht]
  exact holeStops_eq hc entry

theorem completionRecord_eq (total : BitVec 32) (offset : Nat) (c : Chan) (owner : Slot) :
    completionRecord total offset c owner =
      [BitVec.ofNat 8 (total.toNat / 16777216), BitVec.ofNat 8 (total.toNat / 65536),
        BitVec.ofNat 8 (total.toNat / 256), BitVec.ofNat 8 total.toNat,
        BitVec.ofNat 8 (offset / 65536), BitVec.ofNat 8 (offset / 256), BitVec.ofNat 8 offset,
        BitVec.ofNat 8 (c.val * 16 + owner.val)] := by
  unfold completionRecord
  rw [beBytes_four, beBytes_three]; rfl

theorem advanceRecord_requests {pieces : List (Nat × Nat)} {first : Burst} {more : List Burst}
    (hc : s.chans[c].primary = some p) (hw : p.completion = some w)
    (ht : translate s w.base w.baseOffset 8 = .ok pieces)
    (hb : writeBursts pieces (completionRecord p.total p.offset c owner) = first :: more) :
    advanceRecord c p owner s = { s with
      chans := s.chans.set c { s.chans[c] with primary := some { p with work := .recordBurst more } }
      port := { s.port with waiting := s.port.waiting.set (Claimant.ch c) (some first) } } := by
  refine Eq.trans ?_ (channelBurst_eq hc first (.recordBurst more))
  unfold advanceRecord; rw [hw]; dsimp only; rw [ht]; dsimp only; rw [hb]; rfl

end StepHandles

/-- Settles O31: the handles of a MOVE and of a HALT resolve in their order; each passes, stops the channel or ends the list. -/
theorem stepResolvesItsHandles : Obligations.StepResolvesItsHandles := by
  unfold Obligations.StepResolvesItsHandles
  refine ⟨fun s c p owner src dst so d count fill last down hc hw hm ho hs => ?_,
    fun s c p owner comp offset hc hm ho hs => ?_⟩
  · have hr : Runs s c p owner := ⟨hc, hm, ho⟩
    dsimp only
    rw [advance_resolve hr hw]
    refine ⟨fun h0 => ?_, fun h0 => ⟨fun i hv => ?_, fun code hv hcode => ?_, fun v hv => ?_⟩⟩
    · have dest := resolveDest_resolves (c := c) (p := p) (dst := dst) (d := d) (count := count) (.refl s.wt) hm ho
      rw [State.resolving_self hc] at dest
      rw [advanceResolve_noSource hs h0]
      exact dest
    · rw [advanceResolve_sourceFails hs h0 hv]; exact hr.stops i _ _
    · rw [advanceResolve_sourceFails hs h0 hv]
      have self := State.resolving_self hc
      unfold State.resolving at self
      rw [self]
      exact hr.ends hcode _ _
    · rw [advanceResolve_source hc hs h0 hv]
      exact resolveDest_resolves (p.tableAfter_alike _ _ _) hm ho
  · have hr : Runs s c p owner := ⟨hc, hm, ho⟩
    refine ⟨fun hw h0 => ?_, fun w hw h0 hv => ?_, fun i hw h0 hv => ?_, fun code hw h0 hv hcode => ?_,
      fun w entry hw hcw ht => ?_, fun w pieces first more hw hcw ht hb => ?_⟩
    · rw [advance_resolve hr hw]
      unfold advanceResolve; rw [hs]
      exact if_pos h0
    · rw [advance_resolve hr hw, advanceResolve_halt hc hs h0 hv]; rfl
    · rw [advance_resolve hr hw, advanceResolve_haltFails hs h0 hv]; exact hr.stops i _ _
    · rw [advance_resolve hr hw, advanceResolve_haltFails hs h0 hv]; exact hr.ends hcode _ _
    · rw [advance_record hr hw]; exact advanceRecord_hole hc hcw ht
    · rw [advance_record hr hw]
      exact advanceRecord_requests hc hcw ht ((completionRecord_eq _ _ _ _).symm ▸ hb)

end Sys2Proof.Machine

/-! The transfer unit: how large it may be, where it lies, and the bursts it requests (R61, R63, R120, R121). -/

namespace Sys2Proof.Machine

section TransferUnit

variable {s : State} {r dest : Resolved} {source : Option Resolved} {count done m : Nat} {down : Bool}

/-! ### The size of a unit (R61) -/

/-- Bytes from a place upwards lie in its page as long as they do not reach the page's end. -/
theorem onePage_up (x m : Nat) : (∀ k, 1 ≤ k → k ≤ m → (x + (k - 1)) / 4096 = x / 4096) ↔ m ≤ 4096 - x % 4096 := by
  constructor
  · intro h
    by_contra hm
    have := h (4096 - x % 4096 + 1) (by omega) (by omega)
    omega
  · intro h k h1 hk
    omega

/-- Bytes from a place downwards lie in its page as long as they do not pass the page's start. -/
theorem onePage_down {x m : Nat} (hx : m ≤ x + 1) :
    (∀ k, 1 ≤ k → k ≤ m → (x - (k - 1)) / 4096 = x / 4096) ↔ m ≤ x % 4096 + 1 := by
  constructor
  · intro h
    by_contra hm
    have := h (x % 4096 + 2) (by omega) (by omega)
    omega
  · intro h k h1 hk
    omega

/-- The room of a unit on one side, to the end of the page or from its start. -/
def unitRoom (s : State) (r : Resolved) (count done : Nat) (down : Bool) : Nat :=
  if down then roomDown s.wt[r.base] (r.baseOffset + (count - done) - 1) else roomUp s.wt[r.base] (r.baseOffset + done)

theorem unitSize_eq : unitSize s source dest count done down =
    min (min 64 (count - done)) (min (unitRoom s dest count done down)
      (source.elim 64 fun r => unitRoom s r count done down)) := rfl

/-- Where on a side the k-th byte of the next unit lies, in the order in which the units take them. -/
def unitPosition (s : State) (r : Resolved) (count done : Nat) (down : Bool) (k : Nat) : Nat :=
  s.wt[r.base].firstOffset + r.baseOffset + (if down then count - done - k else done + k - 1)

theorem unitRoom_pos : 1 ≤ unitRoom s r count done down := by
  unfold unitRoom roomUp roomDown placeOf
  dsimp only [Config.frameBytes]
  split <;> omega

theorem onePage_iff (hd : done < count) (hm : m ≤ count - done) :
    (∀ k, 1 ≤ k → k ≤ m → unitPosition s r count done down k / 4096 = unitPosition s r count done down 1 / 4096) ↔
      m ≤ unitRoom s r count done down := by
  unfold unitPosition unitRoom roomUp roomDown placeOf
  dsimp only [Config.frameBytes]
  generalize s.wt[r.base].firstOffset = first
  cases down
  · simp only [Bool.false_eq_true, if_false]
    have up := onePage_up (first + r.baseOffset + done) m
    rw [show first + (r.baseOffset + done) = first + r.baseOffset + done by omega, ← up]
    refine forall_congr' fun k => forall_congr' fun h1 => ?_
    rw [show first + r.baseOffset + (done + k - 1) = first + r.baseOffset + done + (k - 1) by omega,
      show first + r.baseOffset + (done + 1 - 1) = first + r.baseOffset + done by omega]
  · simp only [if_true]
    have dn := onePage_down (x := first + r.baseOffset + (count - done - 1)) (m := m) (by omega)
    rw [show first + (r.baseOffset + (count - done) - 1) = first + r.baseOffset + (count - done - 1) by omega, ← dn]
    refine forall_congr' fun k => forall_congr' fun h1 => forall_congr' fun hk => ?_
    rw [show first + r.baseOffset + (count - done - k) = first + r.baseOffset + (count - done - 1) - (k - 1) by omega]

theorem le_unitSize_iff : m ≤ unitSize s source dest count done down ↔
    m ≤ 64 ∧ m ≤ count - done ∧ m ≤ unitRoom s dest count done down ∧
      ∀ r, source = some r → m ≤ unitRoom s r count done down := by
  rw [unitSize_eq]
  cases source with
  | none =>
    simp only [le_min_iff, Option.elim_none, reduceCtorEq, false_implies, implies_true, and_true]
    exact ⟨fun ⟨⟨a, b⟩, d, _⟩ => ⟨a, b, d⟩, fun ⟨a, b, d⟩ => ⟨⟨a, b⟩, d, a⟩⟩
  | some r =>
    simp only [le_min_iff, Option.elim_some, Option.some.injEq, forall_eq', and_assoc]

theorem unitSize_pos (hd : done < count) : 1 ≤ unitSize s source dest count done down :=
  le_unitSize_iff.mpr ⟨by omega, by omega, unitRoom_pos, fun _ _ => unitRoom_pos⟩

/-- The unit lies in one page of a side whose room it does not exceed. -/
theorem unit_translates {n : Nat} {pieces : List (Nat × Nat)} (hn : 1 ≤ n) (hleft : n ≤ count - done)
    (hroom : n ≤ unitRoom s r count done down)
    (ht : translate s r.base (unitOffset r count done n down) n = .ok pieces) : ∃ a, pieces = [(a, n)] := by
  have fits : n ≤ 4096 - (s.wt[r.base].firstOffset + unitOffset r count done n down) % 4096 := by
    unfold unitRoom roomUp roomDown placeOf at hroom
    dsimp only [Config.frameBytes] at hroom
    unfold unitOffset
    generalize s.wt[r.base].firstOffset = first at *
    cases down
    · exact hroom
    · simp only [if_true] at hroom ⊢
      omega
  rw [translate_eq] at ht
  dsimp only at ht
  split at ht
  · cases ht
  · cases ht
    exact ⟨_, rfl⟩

/-! ### What a unit requests (R120) -/

variable {c : Chan} {p : Primary} {src dst : Handle} {so d : Nat} {fill : Byte} {last : Bool} {entry n : Nat}

theorem unitAddr_ok {offset a : Nat} {more : List (Nat × Nat)} {k : Nat}
    (h : translate s r.base offset n = .ok ((a, k) :: more)) : unitAddr s r offset n = .ok a := by
  unfold unitAddr; rw [h]; rfl

theorem unitAddr_hole {offset : Nat} (h : translate s r.base offset n = .error entry) :
    unitAddr s r offset n = .error entry := by
  unfold unitAddr; rw [h]

theorem unitAddr_isOk {offset : Nat} {pieces : List (Nat × Nat)} (h : translate s r.base offset n = .ok pieces) :
    ∃ a, unitAddr s r offset n = .ok a := by
  unfold unitAddr; rw [h]; exact ⟨_, rfl⟩

/-- The unit of a step with a source: its read, or the hole that is met first. -/
theorem advanceUnit_source (hs : p.step = some (.move src so dst d count fill last down)) (hd : p.dest = some dest)
    (hr : p.source = some r) : advanceUnit c p s =
      let n := unitSize s p.source dest count p.bytesDone down
      match unitAddr s r (unitOffset r count p.bytesDone n down) n,
        unitAddr s dest (unitOffset dest count p.bytesDone n down) n with
      | .error entry, _ => holeStops c entry s
      | .ok _, .error entry => holeStops c entry s
      | .ok a, .ok b => channelBurst c (.read a n) (.unitRead n b) s := by
  unfold advanceUnit; rw [hs, hd]; dsimp only; rw [hr] <;> rfl

/-- The unit of a step without one: its write, or the hole that is met. -/
theorem advanceUnit_fill (hs : p.step = some (.move src so dst d count fill last down)) (hd : p.dest = some dest)
    (hr : p.source = none) : advanceUnit c p s =
      let n := unitSize s p.source dest count p.bytesDone down
      match unitAddr s dest (unitOffset dest count p.bytesDone n down) n with
      | .error entry => holeStops c entry s
      | .ok b => channelBurst c (.write b (List.replicate n fill)) (.unitWrite n) s := by
  unfold advanceUnit; rw [hs, hd]; dsimp only; rw [hr] <;> rfl

end TransferUnit

/-- Settles O32: a unit is the largest run of the next bytes that stays in one page on each side. -/
theorem transferUnitStaysInOnePageOnEachSide : Obligations.TransferUnitStaysInOnePageOnEachSide := by
  unfold Obligations.TransferUnitStaysInOnePageOnEachSide
  refine ⟨fun s source dest count done down hd => ?_,
    fun s c p owner dest src dst so d count fill last down hc hw hm ho hdest hs => ?_⟩
  · have fits (m : Nat) : (m ≤ 64 ∧ m ≤ count - done ∧
        (∀ k, 1 ≤ k → k ≤ m → unitPosition s dest count done down k / 4096 = unitPosition s dest count done down 1 / 4096) ∧
        ∀ r, source = some r → ∀ k, 1 ≤ k → k ≤ m →
          unitPosition s r count done down k / 4096 = unitPosition s r count done down 1 / 4096) ↔
        m ≤ unitSize s source dest count done down := by
      rw [le_unitSize_iff]
      refine and_congr_right fun _ => and_congr_right fun hleft => ?_
      simp only [onePage_iff hd hleft]
    exact ⟨unitSize_pos hd, (fits _).mpr le_rfl, fun m h => (fits m).mp h, fun r => rfl⟩
  · have hr : Runs s c p owner := ⟨hc, hm, ho⟩
    dsimp only
    rw [advance_unit hr hw]
    refine ⟨fun w entry hsrc ht => ?_, fun w pieces entry hsrc ht htd => ?_, fun w a b hsrc ht htd => ?_,
      fun entry hsrc ht => ?_, fun b hsrc ht => ?_, fun w pieces hside hlt ht => ?_⟩
    · rw [advanceUnit_source hs hdest hsrc]; dsimp only
      rw [unitAddr_hole ht]
      exact holeStops_eq hc entry
    · obtain ⟨a, ha⟩ := unitAddr_isOk ht
      rw [advanceUnit_source hs hdest hsrc]; dsimp only
      rw [ha, unitAddr_hole htd]
      exact holeStops_eq hc entry
    · rw [advanceUnit_source hs hdest hsrc]; dsimp only
      rw [unitAddr_ok ht, unitAddr_ok htd]
      exact channelBurst_eq hc _ _
    · rw [advanceUnit_fill hs hdest hsrc]; dsimp only
      rw [unitAddr_hole ht]
      exact holeStops_eq hc entry
    · rw [advanceUnit_fill hs hdest hsrc]; dsimp only
      rw [unitAddr_ok ht]
      exact channelBurst_eq hc _ _
    · obtain ⟨-, left, room, rooms⟩ := le_unitSize_iff.mp
        (le_refl (unitSize s p.source dest count p.bytesDone down))
      refine unit_translates (unitSize_pos hlt) left ?_ ht
      rcases hside with rfl | hsrc
      · exact room
      · exact rooms w hsrc

end Sys2Proof.Machine

/-! Abort claims on a channel's list: the noted run's (R133), the manager's (R132), and CHANNEL_RESUME (R129). -/

namespace Sys2Proof.Machine

section AbortClaims

variable {s t : State} {c : Chan} {p : Primary} {m : Mark} {ch : Channel} {code : Code}

/-! ### A channel whose work stays the same -/

/-- A settled state stays settled where one channel's record changes and the work of its list does not. -/
theorem Settled.setChan (hs : Settled s) (hc : t.chans = s.chans.set c ch)
    (hw : ch.primary.map (·.work) = s.chans[c].primary.map (·.work)) (hp : t.port = s.port) : Settled t := by
  have ready (d : Chan) : isReady t d = isReady s d := by
    unfold isReady
    rw [hc, get_set]
    split
    · rename_i e
      subst e
      have same := congrArg (Option.elim · false Work.ready) hw
      simp only [Option.elim_map] at same
      exact same
    · rfl
  refine ⟨?_, by rw [hp]; exact hs.2⟩
  rw [readyChannel_eq_none]
  exact fun d => (ready d).trans (readyChannel_eq_none.mp hs.1 d)

theorem settle_setChan (hs : Settled s) (hc : t.chans = s.chans.set c ch)
    (hw : ch.primary.map (·.work) = s.chans[c].primary.map (·.work)) (hp : t.port = s.port) : settle t = t :=
  (hs.setChan hc hw hp).settle_eq

/-! ### A list is marked, and ends at its boundary -/

/-- The state in which a channel's list carries a mark (R131). -/
def State.marked (s : State) (c : Chan) (p : Primary) (m : Mark) : State :=
  { s with chans := s.chans.set c { s.chans[c] with primary := some { p with mark := some m } } }

theorem abortPrimary_eq (hc : s.chans[c].primary = some p) (hm : (p.mark <|> some ⟨.aborted, p.owner.getD 0⟩) = some m) :
    abortPrimary c .aborted s = endAtBoundary c (s.marked c p m) := by
  unfold abortPrimary
  rw [updPrimary_eq hc]
  unfold Primary.setMark State.marked
  rw [hm]

theorem State.marked_primary (s : State) (c : Chan) (p : Primary) (m : Mark) :
    (s.marked c p m).chans[c].primary = some { p with mark := some m } := by
  unfold State.marked
  rw [get_set_self]

theorem endAtBoundary_marked_granted (hg : ∃ b, s.port.granted = some (Claimant.ch c, b)) :
    endAtBoundary c (s.marked c p m) = s.marked c p m := endAtBoundary_granted hg

theorem endAtBoundary_marked_ends (hg : ∀ b, s.port.granted ≠ some (Claimant.ch c, b)) :
    endAtBoundary c (s.marked c p m) = endList c m.result (s.marked c p m) :=
  endAtBoundary_ends (s.marked_primary c p m) rfl hg

/-- The end of a list reaches the engine that waits for it. -/
theorem endList_engine (hp : s.chans[c].primary = some p) (hc : code ≠ .ok)
    (he : ∀ i, s.engine.state ≠ .busy (.retire i)) : (endList c code s).engine = s.engine.listEnded c := by
  unfold endList; rw [hp]; dsimp only
  rw [if_neg hc, engineOnListEnd_eq]
  have kept := removePins_engine (s := channelEvent c (endEvent code)
    (s.updChan c fun ch => { ch with outcome := p.outcome code })) he (p.pins.map (·.index))
  exact (congrArg (Engine.listEnded · c) kept :)

/-! ### The manager's commands -/

theorem channelAbortClaim_badField {P : Vector Word 4}
    (h : 3 < P[0].toNat % 256 ∨ P[0].toNat / 256 % 256 = 0 ∨ 3 < P[0].toNat / 256 % 256) :
    channelAbortClaim P t = completeWith .badField t := by
  unfold channelAbortClaim
  rw [field_7_0, field_15_8]
  have named {d : Chan} (hd : chanOf (P[0].toNat % 256) = some d) : P[0].toNat % 256 ≤ 3 := by
    by_contra hn
    rw [chanOf_eq_none (by omega)] at hd; cases hd
  split
  · rename_i hd hsel
    have := named hd; omega
  · rename_i hd hsel
    have := named hd; omega
  · rename_i hd hsel
    have := named hd; omega
  · rfl

theorem channelAbortClaim_of {P : Vector Word 4} (hc : c.val = P[0].toNat % 256) : channelAbortClaim P t =
    match P[0].toNat / 256 % 256 with
    | 1 => abortAndWait c t
    | 2 => completeOk (emptyBackup c t)
    | 3 => abortAndWait c (emptyBackup c t)
    | _ => completeWith .badField t := by
  unfold channelAbortClaim
  rw [field_7_0, field_15_8, chanOf_eq_some hc]
  rcases P[0].toNat / 256 % 256 with _ | _ | _ | _ | n <;> rfl

theorem abortAndWait_none (hp : t.chans[c].primary = none) : abortAndWait c t = completeOk t := by
  unfold abortAndWait
  rw [hp]; rfl

theorem abortAndWait_some (hp : t.chans[c].primary = some p)
    (hm : (p.mark <|> some ⟨.aborted, p.owner.getD 0⟩) = some m) : abortAndWait c t =
      endAtBoundary c ({ t with engine := { t.engine with state := .busy (.abort c) } }.marked c p m) := by
  unfold abortAndWait
  rw [if_pos (by rw [hp]; rfl)]
  exact abortPrimary_eq (s := { t with engine := { t.engine with state := .busy (.abort c) } }) hp hm

theorem emptyBackup_eq (c : Chan) (s : State) :
    emptyBackup c s = { s with chans := s.chans.set c { s.chans[c] with backup := none } } := rfl

/-- The claim of an abort of the primary alone, or of both: the list is marked, and the backup as the selector says. -/
theorem channelAbortClaim_marks {P : Vector Word 4} (hc : c.val = P[0].toNat % 256)
    (hsel : P[0].toNat / 256 % 256 = 1 ∨ P[0].toNat / 256 % 256 = 3) (hp : t.chans[c].primary = some p)
    (hm : (p.mark <|> some ⟨.aborted, p.owner.getD 0⟩) = some m) : channelAbortClaim P t =
      endAtBoundary c { t with
        chans := t.chans.set c { t.chans[c] with
          backup := if P[0].toNat / 256 % 256 = 3 then none else t.chans[c].backup
          primary := some { p with mark := some m } }
        engine := { t.engine with state := .busy (.abort c) } } := by
  rw [channelAbortClaim_of hc]
  rcases hsel with hsel | hsel
  · rw [hsel]; exact abortAndWait_some hp hm
  · rw [hsel]; dsimp only
    rw [abortAndWait_some (t := emptyBackup c t) (p := p) (m := m)
      (by rw [emptyBackup_eq, get_set_self]; exact hp) hm]
    unfold State.marked
    simp only [emptyBackup_eq, get_set_self, set_set_self, if_true]

theorem channelResumeClaim_badField {P : Vector Word 4} (h : 3 < P[0].toNat % 256) :
    channelResumeClaim P t = completeWith .badField t := by
  unfold channelResumeClaim
  rw [field_7_0, chanOf_eq_none h]

theorem channelResumeClaim_of {P : Vector Word 4} (hc : c.val = P[0].toNat % 256) : channelResumeClaim P t =
    if t.chans[c].state = .stopped then
      completeOk (updPrimary c (fun q => { q with work := .resume }) (t.updChan c fun ch => { ch with state := .fetch }))
    else completeWith .badState t := by
  unfold channelResumeClaim
  rw [field_7_0, chanOf_eq_some hc]

end AbortClaims

/-- Settles O36: a noted run's list is marked and ends at its boundary. -/
theorem notedChannelTakesItsAbortClaim : Obligations.NotedChannelTakesItsAbortClaim := by
  unfold Obligations.NotedChannelTakesItsAbortClaim
  refine fun s c hs => ⟨fun h => ?_, fun p m hp hn hm => ?_⟩
  · show Host.Outcome.next (forceAbortClaim c s) = _
    unfold forceAbortClaim
    cases hp : s.chans[c].primary with
    | none => rfl
    | some p => exact congrArg _ (if_neg (by rw [h p hp]; decide))
  · let p' : Primary := { p with noted := false }
    let seen : State := { s with chans := s.chans.set c { s.chans[c] with primary := some p' } }
    have row : exec (.forceAbortClaim c) s = .next (settle (endAtBoundary c (seen.marked c p' m))) := by
      show Host.Outcome.next (forceAbortClaim c s) = _
      unfold forceAbortClaim
      rw [hp]; dsimp only
      rw [if_pos hn, updPrimary_eq hp, abortPrimary_eq (s := seen) (p := p') (m := m) (by rw [get_set_self]) hm]
    have marked : seen.marked c p' m = { s with chans := s.chans.set c { s.chans[c] with
        primary := some { p with noted := false, mark := some m } } } := by
      simp only [State.marked, seen, p', get_set_self, set_set_self]
    rw [row]
    refine ⟨fun hg => ?_, fun hg => ?_⟩
    · rw [endAtBoundary_marked_granted (s := seen) hg, marked]
      exact congrArg _ (settle_setChan hs rfl (by rw [hp]; rfl) rfl)
    · rw [endAtBoundary_marked_ends (s := seen) hg, marked]

/-- Settles O50: CHANNEL_ABORT by its selector and the channel's lists, CHANNEL_RESUME by the channel's state. -/
theorem channelCommandsAbortAndResume : Obligations.ChannelCommandsAbortAndResume := by
  unfold Obligations.ChannelCommandsAbortAndResume
  refine ⟨fun s h hs => ?_, fun s h hs => ?_⟩
  · dsimp only
    refine ⟨fun hbad => exec_fails rfl h hs (by decide) (channelAbortClaim_badField hbad), fun c hc => ⟨fun hsel => ?_,
      fun hsel hp => ?_, fun p m hp hsel hm => ?_⟩⟩
    · have claim : channelAbortClaim s.engine.params (s.commanded 0x21) = completeOk (emptyBackup c (s.commanded 0x21)) := by
        rw [channelAbortClaim_of hc]
        rcases hsel with hsel | ⟨hsel, hp⟩
        · rw [hsel]; rfl
        · rw [hsel]
          exact abortAndWait_none (by rw [emptyBackup_eq, get_set_self]; exact hp)
      show Host.Outcome.next (takeCommand 0x21 channelAbortClaim s) = _
      rw [takeCommand_idle h, claim]
      exact congrArg _ (settle_setChan hs rfl rfl rfl)
    · refine exec_results rfl h hs ?_
      rw [channelAbortClaim_of hc, hsel]
      exact abortAndWait_none (t := s.commanded 0x21) hp
    · rw [show exec .channelAbort s = .next (settle (channelAbortClaim s.engine.params (s.commanded 0x21))) from
          congrArg Host.Outcome.next (takeCommand_idle h),
        channelAbortClaim_marks (t := s.commanded 0x21) hc hsel hp hm]
      refine ⟨fun hg => ?_, fun hg => ⟨?_, ?_⟩⟩
      · rw [endAtBoundary_granted (by exact hg)]
        exact congrArg _ (settle_setChan hs rfl (by rw [hp]; rfl) rfl)
      · rw [endAtBoundary_ends (p := { p with mark := some m }) (m := m) (by rw [get_set_self]) rfl (by exact hg)]
      · rw [endList_engine (p := { p with mark := some m }) (by rw [get_set_self]) ?_ (fun _ => by exact nofun)]
        · exact if_pos rfl
        · rw [← Mark.toCode_code]; exact m.code.toCode_ne_ok
  · dsimp only
    refine ⟨fun hbad => exec_fails rfl h hs (by decide) (channelResumeClaim_badField hbad), fun c hc => ⟨fun hst => ?_,
      fun p hst hp => ?_⟩⟩
    · refine exec_fails rfl h hs (by decide) ?_
      rw [channelResumeClaim_of hc]; exact if_neg hst
    · show Host.Outcome.next (takeCommand 0x22 channelResumeClaim s) = _
      rw [takeCommand_idle h, channelResumeClaim_of (t := s.commanded 0x22) hc,
        if_pos (by exact hst), updPrimary_eq (p := p) (by simp only [State.updChan, get_set_self]; exact hp)]
      simp only [State.updChan, get_set_self, set_set_self]
      rfl

end Sys2Proof.Machine

/-! CANCEL: the sender's lists of a channel are aborted (R114). -/

namespace Sys2Proof.Machine

section Cancel

variable {s t : State} {q : Request} {rest : List Request} {c : Chan} {p : Primary} {m : Mark} {slot : Slot}
  {tag : BitVec 3} {channel : Byte}

/-- A claim that leaves the queue alone, its service ended OK: the slot is credited. -/
theorem endService_ok_taken {payload : List Byte} (hs : t.server = none) (hq : t.rq = rest) (hb : q.body.isQuery = false) :
    endService .ok payload (t.setServer (some (InService.begin q))) = (t.credited q.slot).answered q rest .ok payload := by
  rw [endService_ok hb rfl]
  subst hq
  apply State.ext <;> first | rfl | exact hs.symm | skip
  simp only [State.answered, State.credited, get_set_self, set_set_self]
  rfl

/-- The claim of a CANCEL on its channel: the sender's backup goes. -/
def State.cancelBackup (s : State) (c : Chan) (slot : Slot) : State :=
  { s with chans := s.chans.set c { s.chans[c] with
      backup := if s.chans[c].backup.any (·.owner == slot) then none else s.chans[c].backup } }

theorem cancelBackup_eq (s : State) (c : Chan) (slot : Slot) :
    (if s.chans[c].backup.any (·.owner == slot) then emptyBackup c s else s) = s.cancelBackup c slot := by
  unfold State.cancelBackup
  split
  · rfl
  · exact (congrArg (fun v => { s with chans := v }) (set_get_self s.chans c).symm :)

theorem cancelBackup_chan (s : State) (c : Chan) (slot : Slot) : (s.cancelBackup c slot).chans[c] = { s.chans[c] with
    backup := if s.chans[c].backup.any (·.owner == slot) then none else s.chans[c].backup } := get_set_self _ _ _

theorem cancelClaim_state (c : Chan) (slot : Slot) (s : State) : (cancelClaim c slot s).2 =
    if s.chans[c].primary.any (·.owner == some slot) then abortPrimary c .aborted (s.cancelBackup c slot)
    else s.cancelBackup c slot := by
  unfold cancelClaim; dsimp only
  rw [cancelBackup_eq]

theorem cancelClaim_found (c : Chan) (slot : Slot) (s : State) : (cancelClaim c slot s).1 =
    (s.chans[c].backup.any (·.owner == slot) || s.chans[c].primary.any (·.owner == some slot)) := rfl

theorem abortPrimary_setServer (c : Chan) (o : Option InService) (s : State) :
    abortPrimary c .aborted (s.setServer o) = (abortPrimary c .aborted s).setServer o :=
  endAtBoundary_setServer (s := updPrimary c (Primary.setMark .aborted) s) o c

theorem cancelClaim_setServer (c : Chan) (slot : Slot) (o : Option InService) (s : State) :
    (cancelClaim c slot (s.setServer o)).2 = (cancelClaim c slot s).2.setServer o := by
  rw [cancelClaim_state, cancelClaim_state]
  split
  · rename_i h
    rw [if_pos (by exact h)]
    exact abortPrimary_setServer c o (s.cancelBackup c slot)
  · rename_i h
    rw [if_neg (by exact h)]; rfl

/-- The whole service of a CANCEL that names a channel. -/
theorem exec_cancel (hq : AtHead s ⟨slot, tag, .cancel channel⟩ rest) (hc : channel.toNat = c.val) :
    exec (.cancel none) s = .next (settle (endService (if (cancelClaim c slot s).1 then .ok else .notFound) []
      ((cancelClaim c slot { s with rq := rest }).2.setServer (some (InService.begin ⟨slot, tag, .cancel channel⟩))))) := by
  have claim : Request.claim ⟨slot, tag, .cancel channel⟩ .begun (s.serving ⟨slot, tag, .cancel channel⟩ rest) =
      reach (if (cancelClaim c slot s).1 then .ok else .notFound) []
        ((cancelClaim c slot { s with rq := rest }).2.setServer (some (InService.begin ⟨slot, tag, .cancel channel⟩))) := by
    show serveCancel slot channel _ = _
    unfold serveCancel
    rw [chanOf_eq_some hc.symm]; dsimp only
    rw [← cancelClaim_setServer]; rfl
  have whole := exec_whole hq
  rw [carryOn_serving, claim, carryOn_reach rfl] at whole
  exact whole

end Cancel

/-- Settles O27: by which of the channel's two slots are the sender's, and whether a burst of the list is out. -/
theorem cancelAbortsTheSendersLists : Obligations.CancelAbortsTheSendersLists := by
  unfold Obligations.CancelAbortsTheSendersLists
  refine ⟨fun s slot tag channel c rest hs hq hc => ?_, fun s slot tag channel rest hs hq h3 hl => ?_⟩
  · dsimp only
    rw [exec_cancel hq hc, cancelClaim_found, cancelClaim_state]
    refine ⟨fun hp hb => ?_, fun hp hb => ?_, fun p hp ho => ?_⟩
    · have kept : State.cancelBackup { s with rq := rest } c slot = { s with rq := rest } := by
        rw [← cancelBackup_eq, if_neg (by rw [hb]; decide)]
      rw [hp, hb, if_neg (by decide), if_neg (by decide), kept]
      have answered : endService .notFound [] (State.setServer { s with rq := rest }
          (some (InService.begin ⟨slot, tag, .cancel channel⟩))) = s.answered ⟨slot, tag, .cancel channel⟩ rest .notFound [] :=
        endService_serving hq (.inl (by decide)) .begun
      exact (congrArg (fun t => Host.Outcome.next (settle t)) answered).trans (congrArg _ (settle_of_same hs rfl rfl))
    · rw [hp, hb, Bool.or_false, if_pos rfl, if_neg (by decide),
        endService_ok_taken (t := State.cancelBackup { s with rq := rest } c slot) hq.1 rfl rfl]
      unfold State.cancelBackup
      dsimp only
      rw [hb, if_pos rfl]
      exact congrArg _ (settle_setChan hs rfl rfl rfl)
    · have mine : s.chans[c].primary.any (·.owner == some slot) = true := by
        rw [hp, Option.any_some, ho, beq_self_eq_true]
      obtain ⟨m, hm⟩ : ∃ m, (p.mark <|> some ⟨.aborted, slot⟩) = some m := by cases p.mark <;> exact ⟨_, rfl⟩
      have marked : abortPrimary c .aborted (State.cancelBackup { s with rq := rest } c slot) =
          endAtBoundary c { s with
            rq := rest
            chans := s.chans.set c { s.chans[c] with
              primary := some { p with mark := some m }
              backup := if s.chans[c].backup.any (·.owner == slot) then none else s.chans[c].backup } } := by
        rw [abortPrimary_eq (p := p) (m := m) (by rw [cancelBackup_chan]; exact hp) (by rw [ho]; exact hm)]
        unfold State.marked State.cancelBackup
        simp only [get_set_self, set_set_self]
      rw [mine, Bool.or_true, if_pos rfl, if_pos rfl, marked, hm]
      refine ⟨fun hg => ?_, fun m' hg hm' => ?_⟩
      · rw [endAtBoundary_granted (by exact hg), endService_ok_taken (by exact hq.1) rfl rfl]
        exact congrArg _ (settle_setChan hs rfl (by rw [hp]; rfl) rfl)
      · cases hm'
        rw [endAtBoundary_ends (p := { p with mark := some m }) (m := m) (by rw [get_set_self]) rfl (by exact hg),
          endService_ok_taken (by rw [endList_frame]; exact hq.1) (by rw [endList_frame]) rfl]
  · refine exec_charged hs hq rfl hl ?_
    show serveCancel slot channel _ = _
    unfold serveCancel
    rw [chanOf_eq_none h3]

end Sys2Proof.Machine

/-! START: its checks, its resolution and its slot claim (R111 to R113), and the promotion that may fall before it (R115). -/

namespace Sys2Proof.Machine

section Start

variable {s t : State} {r : InService} {q : Request} {rest : List Request} {slot : Slot} {tag : BitVec 3} {channel : Byte}
  {c : Chan} {h : Handle} {offset : Nat} {w : Resolved} {code : Code} {touched : Option DIdx}

/-! ### The claims, stage by stage -/

theorem startFields_bad (hb : 3 < channel.toNat ∨ 8388607 < offset) :
    ((chanOf channel.toNat).isNone || decide (Config.maxOffset < offset)) = true := by
  rcases hb with hb | hb
  · rw [chanOf_eq_none hb]; rfl
  · rw [decide_eq_true (show Config.maxOffset < offset from hb), Bool.or_true]

theorem startFields_ok (hc : channel.toNat = c.val) (ho : offset ≤ 8388607) :
    ((chanOf channel.toNat).isNone || decide (Config.maxOffset < offset)) = false := by
  rw [chanOf_eq_some hc.symm, decide_eq_false (show ¬ Config.maxOffset < offset from Nat.not_lt.mpr ho)]; rfl

theorem startChecks_badRequest (hb : 3 < channel.toNat ∨ 8388607 < offset) :
    startChecks slot channel h offset s = failRequest .badRequest h offset s := by
  unfold startChecks
  rw [startFields_bad hb]; rfl

theorem startChecks_limited (hc : channel.toNat = c.val) (ho : offset ≤ 8388607) (hl : s.su[slot].standing = .limited) :
    startChecks slot channel h offset s = failRequest .limited h offset s := by
  unfold startChecks
  rw [startFields_ok hc ho, if_neg (by decide), if_pos hl]

theorem startChecks_passes (hc : channel.toNat = c.val) (ho : offset ≤ 8388607) (hl : s.su[slot].standing ≠ .limited) :
    startChecks slot channel h offset s = toStage .checked s := by
  unfold startChecks
  rw [startFields_ok hc ho, if_neg (by decide), if_neg hl]

theorem startResolution_fails (hslot : r.request.slot = slot) (hr : s.server = some r)
    (hlow : code.isViolation = true → s.su[slot].score ≤ 247)
    (hv : resolve s slot h offset 1 Rights.F true true = .error (code, touched)) :
    startResolution slot h offset s = { s.failing code touched slot none h offset with
      server := some { r with stage := .ending code [] } } := by
  subst hslot
  unfold startResolution; rw [hv]
  exact failRequest_touched hr hlow

theorem startResolution_passes (hr : s.server = some r) (hv : resolve s slot h offset 1 Rights.F true true = .ok w) :
    startResolution slot h offset s = { s with
      wt := withPins s.wt w.pinned
      server := some { r with stage := .slotClaim, resolved := some w, pins := r.pins ++ w.pinned } } := by
  unfold startResolution; rw [hv]; dsimp only
  rw [noteResolved_of w hr, toStage_of rfl]

theorem slotClaim_primary (hr : s.server = some r) (hp : s.chans[c].primary = none) :
    slotClaim c slot h offset s = { s with
      server := some { r with pins := [], stage := .ending .ok [] }
      chans := s.chans.set c { s.chans[c] with
        state := .fetch, primary := some (Primary.fresh slot h offset (r.pins.map (⟨·, .list⟩)) .fetch) } } := by
  unfold slotClaim; rw [hp, hr]
  exact reach_of (r := { r with pins := [] }) (by show Option.map _ s.server = _; rw [hr]; rfl)

theorem slotClaim_backup (hr : s.server = some r) (hp : s.chans[c].primary ≠ none) (hb : s.chans[c].backup = none) :
    slotClaim c slot h offset s = { s with
      server := some { r with stage := .ending .ok [] }
      chans := s.chans.set c { s.chans[c] with backup := some ⟨slot, h, offset⟩ } } := by
  obtain ⟨p, hp⟩ := Option.ne_none_iff_exists'.mp hp
  unfold slotClaim; rw [hp, hb]
  exact reach_of hr

theorem slotClaim_busy (hr : s.server = some r) (hp : s.chans[c].primary ≠ none) (hb : s.chans[c].backup ≠ none) :
    slotClaim c slot h offset s = { s with server := some { r with stage := .ending .channelBusy [] } } := by
  obtain ⟨p, hp⟩ := Option.ne_none_iff_exists'.mp hp
  obtain ⟨b, hb⟩ := Option.ne_none_iff_exists'.mp hb
  unfold slotClaim; rw [hp, hb]
  exact reach_of hr

theorem Request.claim_start (hb : q.body = .start channel h offset) : q.claim = startClaims q.slot channel h offset := by
  unfold Request.claim; rw [hb]

theorem startClaims_slotClaim (hc : channel.toNat = c.val) (s : State) :
    startClaims slot channel h offset .slotClaim s = slotClaim c slot h offset s := by
  unfold startClaims
  rw [chanOf_eq_some hc.symm]; rfl

/-- The pins of a passing list resolution. -/
theorem resolve_list_pinned {needed : Rights} {length : Nat} {aligned : Bool}
    (hv : resolve s slot h offset length needed true aligned = .ok w) : w.pinned = [h.index] := by
  obtain ⟨index, -, -, -, list⟩ := resolve_ok hv
  unfold Resolved.pinned
  rw [index, (list rfl).1]; rfl

/-! ### The whole service -/

/-- The end under SEND with OK of a service whose pins are all on descriptors that are not RETIRING. -/
theorem endService_ok_pins (hr : t.server = some r) (hd : r.disposition = .send) (hh : r.held = [])
    (hdet : r.detached = false) (hl : r.lockTaken = false) (hb : r.request.body.isQuery = false)
    (hp : ∀ i ∈ r.pins, t.wt[i].state ≠ .retiring) :
    endService .ok [] t = { t with
      server := none
      wt := withoutPins t.wt r.pins
      su := t.su.set r.request.slot { t.su[r.request.slot].credited with
        outstanding := t.su[r.request.slot].outstanding - 1 }
      linkOut := t.linkOut ++ [.reply ⟨r.request.slot, r.request.tag, .ok, []⟩] } := by
  have same : t.lockGivenUp r .ok = t := by
    unfold State.lockGivenUp
    split
    · exact if_neg fun e => by rw [hl] at e; exact absurd e.1 (by decide)
    · rfl
  have leaves (x : Requester) : r.leaves .ok x = { x.credited with outstanding := x.outstanding - 1 } := by
    have credits : r.disposition = .send ∧ Code.ok = .ok ∧ r.request.body.isQuery = false := ⟨hd, rfl, hb⟩
    unfold InService.leaves; dsimp only
    rw [if_pos credits, hdet]; rfl
  have replies : r.replies .ok [] = [.reply ⟨r.request.slot, r.request.tag, .ok, []⟩] := by
    unfold InService.replies
    rw [hd, hh]; rfl
  rw [endService_eq _ _ hr, same]
  unfold State.ended
  rw [leaves, replies, hdet, removePins_of (s := { t with server := none }) hp]
  rfl

theorem carryOn_start_checked (hb : q.body = .start channel h offset) (hc : channel.toNat = c.val) (ho : offset ≤ 8388607)
    (hl : s.su[q.slot].standing ≠ .limited) (n : Nat) : carryOn q.claim (n + 2) (s.serving q rest) =
      carryOn q.claim n (startResolution q.slot h offset (s.servingAt q rest .checked)) := by
  rw [Request.claim_start hb, carryOn_serving,
    show startClaims q.slot channel h offset .begun (s.serving q rest) = s.servingAt q rest .checked from
      startChecks_passes (s := s.serving q rest) hc ho hl, carryOn_checked]
  rfl

/-- A START whose resolution passes takes its slot claim, and ends in the claim after it. -/
theorem exec_start_claimed {r : InService} (hq : AtHead s q rest) (hb : q.body = .start channel h offset)
    (hc : channel.toNat = c.val) (ho : offset ≤ 8388607) (hl : s.su[q.slot].standing ≠ .limited)
    (hv : resolve s q.slot h offset 1 Rights.F true true = .ok w)
    (ht : slotClaim c q.slot h offset (s.resolvedAt q rest w .slotClaim) = t) (hr : t.server = some r)
    (hg : r.stage = .ending code []) : exec (q.body.row none) s = .next (settle (endService code [] t)) := by
  have resolved : startResolution q.slot h offset (s.servingAt q rest .checked) = s.resolvedAt q rest w .slotClaim :=
    startResolution_passes (s := s.servingAt q rest .checked) (r := { InService.begin q with stage := .checked }) rfl hv
  have next : carryOn q.claim 258 (s.resolvedAt q rest w .slotClaim) =
      carryOn q.claim 257 (q.claim .slotClaim (s.resolvedAt q rest w .slotClaim)) :=
    carryOn_claim (r := { InService.begin q with stage := .slotClaim, resolved := some w, pins := w.pinned }) rfl nofun nofun 257
  rw [exec_whole hq, carryOn_start_checked hb hc ho hl 258, resolved, next,
    Request.claim_start hb, startClaims_slotClaim hc, ht, carryOn_ending hr hg 256]

/-- A START that fails its resolution. -/
theorem exec_start_error (hs : Settled s) (hq : AtHead s q rest) (hb : q.body = .start channel h offset)
    (hc : channel.toNat = c.val) (ho : offset ≤ 8388607) (hl : s.su[q.slot].standing ≠ .limited)
    (hlow : code.isViolation = true → s.su[q.slot].score ≤ 247)
    (hv : resolve s q.slot h offset 1 Rights.F true true = .error (code, touched)) :
    exec (q.body.row none) s = .next ((s.failing code touched q.slot none h offset).answered q rest code []) := by
  obtain ⟨chans, port, wt, server⟩ := s.failing_frame code touched q.slot none h offset
  have rq : (s.failing code touched q.slot none h offset).rq = s.rq := by unfold State.failing; dsimp only; split <;> rfl
  have serving : { (s.servingAt q rest .checked).failing code touched q.slot none h offset with
      server := some { InService.begin q with stage := .ending code [] } } =
      (s.failing code touched q.slot none h offset).servingAt q rest (.ending code []) := by
    unfold State.failing; dsimp only; split <;> rfl
  have fails : startResolution q.slot h offset (s.servingAt q rest .checked) =
      (s.failing code touched q.slot none h offset).servingAt q rest (.ending code []) :=
    (startResolution_fails (s := s.servingAt q rest .checked) (r := { InService.begin q with stage := .checked })
      rfl rfl hlow hv).trans serving
  refine exec_answers hs hq ?_ chans port
  rw [carryOn_start_checked hb hc ho hl 258, fails,
    carryOn_ending (s := (s.failing code touched q.slot none h offset).servingAt q rest (.ending code [])) rfl rfl 257]
  exact endService_serving (s := s.failing code touched q.slot none h offset) ⟨server.trans hq.1, rq.trans hq.2⟩
    (.inl (resolve_error hv)) (.ending code [])

/-- A list that is promoted over: the promotion checks end the list before, and the START's takes its place. -/
theorem advance_promotes {p : Primary} {owner : Slot} {b : Backup} (hr : Runs s c p owner) (hw : p.work = .promote)
    (hb : s.chans[c].backup = some b)
    (hf : s.su[owner].standing = .limited ∨ (code.isViolation = true → s.su[owner].score ≤ 247) ∧
      resolve s owner p.handle p.offset 1 Rights.F true true = .error (code, touched)) :
    (advance c s).chans[c].primary = some b.promoted ∧ (advance c s).chans[c].backup = none := by
  have promoted {u : State} {code : Code} (hu : u.chans = s.chans) (hc : code ≠ .ok) :
      (endList c code u).chans[c].primary = some b.promoted ∧ (endList c code u).chans[c].backup = none := by
    have chan : u.chans[c] = s.chans[c] := by rw [hu]
    rw [(endList_neutral (s := u) (p := p) (by rw [chan]; exact hr.primary) hc).1, get_set_self]
    refine ⟨?_, rfl⟩
    show u.chans[c].backup.map Backup.promoted = _
    rw [chan, hb]; rfl
  rw [advance_promote hr hw]
  by_cases hl : s.su[owner].standing = .limited
  · rw [show advancePromote c p owner s = endList c .limited s from if_pos hl]
    exact promoted rfl (by decide)
  · obtain ⟨hlow, hv⟩ := hf.resolve_left hl
    rw [(advancePromote_fails hr hl hv).1 hlow]
    exact promoted (s.failing_frame _ _ _ _ _ _).1 (resolve_error hv)

end Start

end Sys2Proof.Machine

/-! START's obligation: each claim of a START, and its whole service. -/

namespace Sys2Proof.Machine

section StartAnswers

variable {s : State} {r : InService} {slot : Slot} {tag : BitVec 3} {channel : Byte} {c : Chan} {h : Handle} {offset : Nat}
  {rest : List Request} {w : Resolved} {code : Code} {touched : Option DIdx}

/-! ### The whole service of a START whose resolution passes -/

section Whole

variable (hs : Settled s) (hq : AtHead s ⟨slot, tag, .start channel h offset⟩ rest) (hc : channel.toNat = c.val)
  (ho : offset ≤ 8388607) (hl : s.su[slot].standing ≠ .limited) (hv : resolve s slot h offset 1 Rights.F true true = .ok w)
include hq hc ho hl hv

theorem exec_start_fills (hp : s.chans[c].primary = none) : exec (.start none) s =
    .next (settle { (s.credited slot).answered ⟨slot, tag, .start channel h offset⟩ rest .ok [] with
      wt := withPins s.wt [h.index]
      chans := s.chans.set c { s.chans[c] with
        state := .fetch, primary := some (Primary.fresh slot h offset [⟨h.index, .list⟩] .fetch) } }) := by
  have claim := slotClaim_primary (slot := slot) (h := h) (offset := offset)
    (s := s.resolvedAt ⟨slot, tag, .start channel h offset⟩ rest w .slotClaim) rfl hp
  refine (exec_start_claimed hq rfl hc ho hl hv claim rfl rfl).trans (congrArg (Host.Outcome.next <| settle ·) ?_)
  rw [endService_ok_pins rfl rfl rfl rfl rfl rfl (fun i hi => absurd hi List.not_mem_nil)]
  dsimp only [State.resolvedAt]
  rw [resolve_list_pinned hv]
  apply State.ext <;> first | rfl | exact hq.1.symm | skip
  simp only [State.answered, State.credited, get_set_self, set_set_self]
  rfl

include hs

theorem exec_start_queues (hp : s.chans[c].primary ≠ none) (hb : s.chans[c].backup = none) : exec (.start none) s =
    .next { (s.credited slot).answered ⟨slot, tag, .start channel h offset⟩ rest .ok [] with
      chans := s.chans.set c { s.chans[c] with backup := some ⟨slot, h, offset⟩ } } := by
  have claim := slotClaim_backup (slot := slot) (h := h) (offset := offset)
    (s := s.resolvedAt ⟨slot, tag, .start channel h offset⟩ rest w .slotClaim) rfl hp hb
  refine (exec_start_claimed hq rfl hc ho hl hv claim rfl rfl).trans (congrArg Host.Outcome.next ?_)
  have valid : ∀ i ∈ w.pinned, (withPins s.wt w.pinned)[i].state ≠ .retiring := fun i hi => by
    rw [((withPins_alike w.pinned s.wt).fields i).1, resolve_pinned hv i hi]; decide
  rw [endService_ok_pins rfl rfl rfl rfl rfl rfl valid]
  refine Eq.trans (settle_setChan (c := c) (ch := { s.chans[c] with backup := some ⟨slot, h, offset⟩ }) hs
    (by rfl) (by rfl) (by rfl)) ?_
  apply State.ext <;> first | rfl | exact hq.1.symm | exact withoutPins_withPins _ _ | skip
  simp only [State.answered, State.credited, get_set_self, set_set_self]
  rfl

theorem exec_start_busy (hp : s.chans[c].primary ≠ none) (hb : s.chans[c].backup ≠ none) :
    exec (.start none) s = .next (s.answered ⟨slot, tag, .start channel h offset⟩ rest .channelBusy []) := by
  have claim := slotClaim_busy (slot := slot) (h := h) (offset := offset)
    (s := s.resolvedAt ⟨slot, tag, .start channel h offset⟩ rest w .slotClaim) rfl hp hb
  refine (exec_start_claimed hq rfl hc ho hl hv claim rfl rfl).trans (congrArg Host.Outcome.next ?_)
  rw [endService_resolved hq (by decide) (resolve_pinned hv) (g := .ending .channelBusy []) rfl]
  exact settle_of_same hs rfl rfl

end Whole

/-! ### One claim of a START in service -/

section OneClaim

variable (hr : s.server = some r) (hb : r.request.body = .start channel h offset)
include hr hb

theorem exec_start_claim (hg : r.stage = .begun ∨ r.stage = .checked ∨ r.stage = .slotClaim) :
    exec (.start (some 1)) s = .next (settle (startClaims r.request.slot channel h offset r.stage s)) := by
  have other : r.stage ≠ .bursts ∧ ∀ code payload, r.stage ≠ .ending code payload := by
    rcases hg with hg | hg | hg <;> rw [hg] <;> exact ⟨nofun, nofun⟩
  have claim := exec_oneClaim hr other.1 other.2
  rw [Request.claim_start hb, hb] at claim
  exact claim

theorem exec_start_begun (hg : r.stage = .begun) :
    exec (.start (some 1)) s = .next (settle (startChecks r.request.slot channel h offset s)) := by
  rw [exec_start_claim hr hb (.inl hg), hg]; rfl

theorem exec_start_checked (hg : r.stage = .checked) :
    exec (.start (some 1)) s = .next (settle (startResolution r.request.slot h offset s)) := by
  rw [exec_start_claim hr hb (.inr (.inl hg)), hg]; rfl

theorem exec_start_slotClaim (hc : channel.toNat = c.val) (hg : r.stage = .slotClaim) :
    exec (.start (some 1)) s = .next (settle (slotClaim c r.request.slot h offset s)) := by
  rw [exec_start_claim hr hb (.inr (.inr hg)), hg, startClaims_slotClaim hc]

end OneClaim

end StartAnswers

/-- Settles O26: the whole service by what the channel holds, each claim by its stage, and the promotion that meets the START's
list in the backup. -/
theorem startIsAnswered : Obligations.StartIsAnswered := by
  unfold Obligations.StartIsAnswered
  refine ⟨fun s slot tag channel c h offset rest w hs hq hc ho hl hv => ⟨exec_start_fills hq hc ho hl hv,
      exec_start_queues hs hq hc ho hl hv, exec_start_busy hs hq hc ho hl hv⟩,
    fun s r channel c h offset hs hr hb hc => ⟨fun hg ho hl => ?_, fun hg ho hl => ?_, fun w hg hv => ?_,
      fun code touched hg hlow hv => ?_, fun hg => ⟨fun hp hbk => ?_, fun hp hbk => ?_⟩⟩,
    fun s r channel c h offset hr hb hc hg => ⟨fun hp => ?_, fun hp hbk => ?_, fun hp hbk => ?_,
      fun p owner code touched hp hw hm ho hf => ?_⟩,
    fun s slot tag channel h offset rest hs hq => ⟨fun hbad hlow => ?_, fun h3 ho hl => ?_,
      fun code touched h3 ho hl hlow hv => ?_⟩⟩
  · rw [exec_start_begun hr hb hg, startChecks_passes hc ho hl, toStage_of hr]
    exact congrArg _ (settle_of_same hs rfl rfl)
  · rw [exec_start_begun hr hb hg, startChecks_limited hc ho hl, failRequest_neutral rfl hr, reach_of hr]
    exact congrArg _ (settle_of_same hs rfl rfl)
  · rw [exec_start_checked hr hb hg, startResolution_passes hr hv]
    exact congrArg _ (settle_of_same hs rfl rfl)
  · obtain ⟨chans, port, -, -⟩ := s.failing_frame code touched r.request.slot none h offset
    rw [exec_start_checked hr hb hg, startResolution_fails rfl hr hlow hv]
    exact congrArg _ (settle_of_same hs chans port)
  · rw [exec_start_slotClaim hr hb hc hg, slotClaim_backup hr hp hbk]
    exact congrArg _ (settle_setChan hs rfl rfl rfl)
  · rw [exec_start_slotClaim hr hb hc hg, slotClaim_busy hr hp hbk]
    exact congrArg _ (settle_of_same hs rfl rfl)
  · rw [exec_start_slotClaim hr hb hc hg, slotClaim_primary hr hp]; rfl
  · rw [exec_start_slotClaim hr hb hc hg, slotClaim_backup hr hp hbk]
  · rw [exec_start_slotClaim hr hb hc hg, slotClaim_busy hr hp hbk]
  · refine advance_promotes (p := p) (owner := owner) ⟨?_, hm, ho⟩ hw ?_ hf
    · rw [get_set_self]; exact hp
    · rw [get_set_self]
  · refine exec_charged hs hq rfl hlow ?_
    exact startChecks_badRequest hbad
  · have hc : channel.toNat = (⟨channel.toNat, by omega⟩ : Chan).val := rfl
    refine exec_uncredited hs hq (.inl (by decide)) ?_
    exact (startChecks_limited (s := s.serving _ rest) hc ho hl).trans (failRequest_neutral rfl rfl)
  · have hc : channel.toNat = (⟨channel.toNat, by omega⟩ : Chan).val := rfl
    exact exec_start_error hs hq rfl hc ho hl hlow hv

end Sys2Proof.Machine

/-! What the Request Server does after a violation that bars its request's slot (R53, R91, R147): the claim that reaches the
code, and the end of the service, which answers what the barring has removed. -/

namespace Sys2Proof.Machine

section BarredService

variable {s t u : State} {r r' : InService} {q : Request} {rest : List Request} {slot : Slot} {code : Code} {h : Handle}
  {offset : Nat} {n : FaultRecord} {mark : MarkCode} {own : Option Chan}

/-! ### A change of the record in service -/

theorem serverPins_setServer (hr : s.server = some r) (hp : r'.pins = r.pins) (i : DIdx) :
    serverPins { s with server := some r' } i = serverPins s i := by
  unfold serverPins
  rw [hr]
  dsimp only [Option.elim]
  rw [hp]

theorem holdsOn_setServer (hr : s.server = some r) (hp : r'.pins = r.pins) (i : DIdx) :
    holdsOn { s with server := some r' } i = holdsOn s i := by
  unfold holdsOn
  rw [serverPins_setServer hr hp]; rfl

theorem inServiceOf_setServer (hr : s.server = some r) (hq : r'.request = r.request) (hd : r'.detached = r.detached)
    (slot : Slot) : inServiceOf { s with server := some r' } slot = inServiceOf s slot := by
  unfold inServiceOf
  rw [hr]
  dsimp only [Option.elim]
  rw [hq, hd]

theorem inServiceOf_mine (hr : s.server = some r) (hq : r.request.slot = slot) (hd : r.detached = false) :
    inServiceOf s slot = 1 := by
  unfold inServiceOf
  rw [hr]
  exact if_pos ⟨hq, hd⟩

/-- What a teardown leaves is told from a state whose record in service may stand at another stage. -/
theorem TornDown.setServer_before (ht : TornDown s u slot mark own) (hr : s.server = some r) (hp : r'.pins = r.pins)
    (hq : r'.request = r.request) (hd : r'.detached = r.detached) :
    TornDown { s with server := some r' } u slot mark own := by
  obtain ⟨chans, wt, rq, outstanding, others⟩ := ht
  refine ⟨chans, fun i => ?_, rq, ?_, others⟩
  · rw [holdsOn_setServer hr hp]; exact wt i
  · rw [inServiceOf_setServer hr hq hd]; exact outstanding

theorem TornDown.setServer_after (ht : TornDown s u slot mark own) (hr : u.server = some r) (hp : r'.pins = r.pins)
    (hq : r'.request = r.request) (hd : r'.detached = r.detached) :
    TornDown s { u with server := some r' } slot mark own := by
  obtain ⟨chans, wt, rq, outstanding, others⟩ := ht
  refine ⟨chans, fun i => ?_, rq, ?_, others⟩
  · rw [holdsOn_setServer hr hp]; exact wt i
  · rw [inServiceOf_setServer hr hq hd]; exact outstanding

theorem BarsItsSlot.setServer_before (hb : BarsItsSlot s u n) (hr : s.server = some r) (hp : r'.pins = r.pins)
    (hq : r'.request = r.request) (hd : r'.detached = r.detached) : BarsItsSlot { s with server := some r' } u n := by
  obtain ⟨record, nothing, fault, pending, standing, latch, torn⟩ := hb
  exact ⟨record, nothing, fault, pending, standing, latch, torn.setServer_before hr hp hq hd⟩

theorem BarsItsSlot.setServer_after (hb : BarsItsSlot s u n) (hr : u.server = some r) (hp : r'.pins = r.pins)
    (hq : r'.request = r.request) (hd : r'.detached = r.detached) : BarsItsSlot s { u with server := some r' } n := by
  obtain ⟨record, nothing, fault, pending, standing, latch, torn⟩ := hb
  exact ⟨record, nothing, fault, pending, standing, latch, torn.setServer_after hr hp hq hd⟩

/-! ### The claim that finds the violation -/

/-- The answers of the requests that a barring removes from the queue (R150). -/
abbrev State.removedAnswers (s : State) (slot : Slot) : List (BitVec 3 × Code) :=
  (s.rq.filter fun q => q.slot == slot).map fun q => (q.tag, .barred)

/-- The service in which a violation that bars has been found. -/
def InService.barring (r : InService) (answers : List (BitVec 3 × Code)) : InService :=
  { r with held := r.held ++ answers, sendKept := true }

theorem violation_own (hr : s.server = some r) (hslot : r.request.slot = slot) (hd : r.detached = false)
    (hs : 248 ≤ s.su[slot].score) (hb : s.su[slot].standing ≠ .barred) (reason : Code) (h : Handle) (offset : Nat) :
    (violation reason slot none h offset true s).server = some (r.barring (s.removedAnswers slot)) ∧
      (violation reason slot none h offset true s).linkOut = s.linkOut := by
  rw [violation_teardown hs hb]
  exact teardown_own (s := s.charged reason slot none h offset) none hr hslot hd

/-- The service reaches the code of the violation that bars its slot. -/
theorem failRequest_bars (hr : s.server = some r) (hslot : r.request.slot = slot) (hd : r.detached = false)
    (hs : 248 ≤ s.su[slot].score) (hb : s.su[slot].standing ≠ .barred) (hv : code.isViolation = true) :
    failRequest code h offset s = reach code [] (violation code slot none h offset true s) ∧
    BarsItsSlot s (failRequest code h offset s) ⟨true, false, code, slot, none, h, offset⟩ ∧
    (failRequest code h offset s).linkOut = s.linkOut ∧
    (failRequest code h offset s).server = some { r with
      stage := .ending code [], held := r.held ++ s.removedAnswers slot, sendKept := true } := by
  obtain ⟨server, linkOut⟩ := violation_own hr hslot hd hs hb code h offset
  have fails : failRequest code h offset s = reach code [] (violation code slot none h offset true s) := by
    unfold failRequest
    rw [hr]; dsimp only
    rw [if_pos hv, hslot]
  have bars := violation_barsItsSlot (reason := code) (source := none) (h := h) (offset := offset) hs hb true
  rw [fails, reach_of server]
  refine ⟨rfl, ?_, linkOut, rfl⟩
  exact bars.setServer_after server rfl rfl rfl

/-! ### The end of a service whose slot has been barred -/

/-- A service without pins or an interlock ends with a code that credits nobody: its reply goes out, then the answers held. -/
theorem endService_bare (hr : t.server = some r) (hp : r.pins = []) (hd : r.disposition = .send) (hdet : r.detached = false)
    (hl : r.lockTaken = false) (hc : code ≠ .ok) : endService code [] t = { t with
      server := none
      su := t.su.set r.request.slot { t.su[r.request.slot] with outstanding := t.su[r.request.slot].outstanding - 1 }
      linkOut := t.linkOut ++ .reply ⟨r.request.slot, r.request.tag, code, []⟩ ::
        r.held.map fun (tag, answer) => .reply ⟨r.request.slot, tag, answer, []⟩ } := by
  have same : t.lockGivenUp r code = t := by
    unfold State.lockGivenUp
    split
    · exact if_neg fun e => by rw [hl] at e; exact absurd e.1 (by decide)
    · rfl
  have replies : r.replies code [] = .reply ⟨r.request.slot, r.request.tag, code, []⟩ ::
      r.held.map fun (tag, answer) => .reply ⟨r.request.slot, tag, answer, []⟩ := by
    unfold InService.replies
    rw [hd]; rfl
  rw [endService_eq _ _ hr, same]
  unfold State.ended
  rw [leaves_uncredited (.inr hc), replies, hdet, hp]
  rfl

theorem BarsItsSlot.served (hb : BarsItsSlot s t n) (hr : t.server = some r) (hp : r.pins = []) (hd : r.disposition = .send)
    (hdet : r.detached = false) (hl : r.lockTaken = false) (hc : code ≠ .ok) (hslot : r.request.slot = n.slot)
    (hin : inServiceOf s n.slot = 1) : BarsItsSlot s (endService code [] t) n := by
  obtain ⟨valid, lost, code', slot, source, h, offset⟩ := n
  change r.request.slot = slot at hslot
  subst hslot
  obtain ⟨record, nothing, fault, pending, standing, latch, chans, wt, rq, outstanding, others, port⟩ := hb
  rw [endService_bare hr hp hd hdet hl hc]
  refine ⟨?_, nothing, fault, pending, standing, latch, chans, fun i => ?_, rq, ?_, fun other ho => ?_, port⟩
  · show (t.su.set r.request.slot _)[r.request.slot] = _
    rw [get_set_self, record]
  · have pins : ∀ i, serverPins t i = 0 := fun i => by
      unfold serverPins
      rw [hr]; dsimp only [Option.elim]
      rw [hp]; rfl
    have same : holdsOn t i = holdsOn { t with server := none } i := by
      unfold holdsOn
      rw [pins]; rfl
    exact (wt i).trans (by rw [same]; rfl)
  · show (t.su.set r.request.slot _)[r.request.slot].outstanding = s.su[r.request.slot].outstanding -
      queuedOf s r.request.slot - (inServiceOf s r.request.slot - 0)
    rw [get_set_self]
    dsimp only at outstanding hin ⊢
    rw [outstanding, hin, inServiceOf_mine hr rfl hdet]
    omega
  · show (t.su.set r.request.slot _)[other] = _
    rw [get_set_ne _ (Ne.symm ho)]
    exact others other ho

/-- The whole service of a head request that comes to a violation which bars its slot. -/
theorem exec_bars {g : Stage} {k : Nat} (hq : AtHead s q rest) (hs : 248 ≤ s.su[q.slot].score)
    (hb : s.su[q.slot].standing ≠ .barred) (hv : code.isViolation = true)
    (hf : carryOn q.claim (257 + 3) (s.serving q rest) =
      carryOn q.claim (k + 1) (failRequest code h offset (s.servingAt q rest g))) :
    ∃ u, exec (q.body.row none) s = .next (settle u) ∧ u.server = none ∧
      BarsItsSlot (s.serving q rest) u ⟨true, false, code, q.slot, none, h, offset⟩ ∧
      u.linkOut = s.linkOut ++ .reply ⟨q.slot, q.tag, code, []⟩ ::
        (rest.filter fun x => x.slot == q.slot).map fun x => .reply ⟨q.slot, x.tag, .barred, []⟩ := by
  have hc : code ≠ .ok := by rintro rfl; cases hv
  obtain ⟨-, bars, linkOut, server⟩ := failRequest_bars (s := s.servingAt q rest g)
    (r := { InService.begin q with stage := g }) (slot := q.slot) (h := h) (offset := offset) rfl rfl rfl hs hb hv
  have served := bars.served server rfl rfl rfl rfl hc rfl (inServiceOf_mine (s := s.servingAt q rest g)
    (r := { InService.begin q with stage := g }) rfl rfl rfl)
  have ended := endService_bare server rfl rfl rfl rfl hc
  refine ⟨_, (exec_whole hq).trans (congrArg (Host.Outcome.next <| settle ·) (hf.trans (carryOn_ending server rfl k))), ?_,
    served.setServer_before (r' := InService.begin q) rfl rfl rfl rfl, ?_⟩
  · rw [ended]
  · rw [ended]
    show (failRequest code h offset (s.servingAt q rest g)).linkOut ++ _ = _
    rw [linkOut]
    refine congrArg (s.linkOut ++ .reply ⟨q.slot, q.tag, code, []⟩ :: ·) ?_
    exact List.map_map ..

end BarredService

end Sys2Proof.Machine

/-! Violations charge their slot and bar it at 256 (R53, R143, R144, R147, R181), whatever claim finds them. -/

namespace Sys2Proof.Machine

section Violations

variable {s : State} {r r' : InService} {q : Request} {rest : List Request} {slot : Slot} {tag : BitVec 3} {code : Code}
  {h : Handle} {offset : Nat} {touched : Option DIdx}

/-! ### The notice that does not bar -/

/-- The standing of a score below 256 (R143). -/
theorem standingOf_low {n : Nat} (h : n ≤ 255) :
    standingOf n = if n ≤ 95 then .good else if n ≤ 127 then .warned else .limited := by
  unfold standingOf
  rw [if_pos h]

theorem Attention.notified_eq (a : Attention) (n : FaultRecord) (before after : Standing) : a.notified n before after =
    { a with
      pending := a.pending ||| (if a.fault.valid then 0 else 0x001) ||| (if before.toNat < after.toNat then 0x002 else 0)
      fault := if a.fault.valid then { a.fault with lost := true } else n
      standingLatch := if before.toNat < after.toNat then n.slot else a.standingLatch } := by
  unfold Attention.notified
  cases a.fault.valid <;> by_cases hup : before.toNat < after.toNat <;> simp [hup]

theorem Requester.charged_low {x : Requester} (h : x.score ≤ 247) : x.charged = { x with
    score := x.score + 8
    standing := if x.score + 8 ≤ 95 then .good else if x.score + 8 ≤ 127 then .warned else .limited } := by
  unfold Requester.charged
  rw [Nat.min_eq_left (by omega), standingOf_low (by omega)]

/-! ### A head request whose service comes to a violation that bars -/

/-- The whole service of the head request comes to a violation that bars its slot: its reply goes out, then the answers of the
requests that the barring removes. -/
def BarredAtHead (s : State) (q : Request) (rest : List Request) (code : Code) (h : Handle) (offset : Nat) : Prop :=
  ∃ u, exec (q.body.row none) s = .next (settle u) ∧ u.server = none ∧
    BarsItsSlot (s.serving q rest) u ⟨true, false, code, q.slot, none, h, offset⟩ ∧
    u.linkOut = s.linkOut ++ .reply ⟨q.slot, q.tag, code, []⟩ ::
      (rest.filter fun x => x.slot == q.slot).map fun x => .reply ⟨q.slot, x.tag, .barred, []⟩

/-- It is found in the first claim. -/
theorem exec_bars_begun (hq : AtHead s q rest) (hs : 248 ≤ s.su[q.slot].score) (hb : s.su[q.slot].standing ≠ .barred)
    (hv : code.isViolation = true) (hc : q.claim .begun (s.serving q rest) = failRequest code h offset (s.serving q rest)) :
    BarredAtHead s q rest code h offset :=
  exec_bars (g := .begun) (k := 258) hq hs hb hv ((carryOn_serving s q rest 259).trans (congrArg _ hc))

/-- It is found in the resolution of a direct access. -/
theorem exec_access_bars {m : Nat} {needed : Rights} (hq : AtHead s q rest) (hs : 248 ≤ s.su[q.slot].score)
    (hb : s.su[q.slot].standing ≠ .barred) (ha : q.body.Accesses h offset m needed) (hf : accessFieldsOk offset m = true)
    (hl : s.su[q.slot].standing ≠ .limited ∨ q.body.whenLimited q.slot h offset = toStage .checked)
    (hv : code.isViolation = true) (hw : resolve s q.slot h offset m needed false false = .error (code, touched)) :
    BarredAtHead s q rest code h offset := by
  refine exec_bars (g := .checked) (k := 257) hq hs hb hv ((carryOn_access ha hf hl 258).trans (congrArg _ ?_))
  rw [resolveThen_error hw, resolve_violation_touched hv hw]; rfl

/-- It is found in the resolution of a START. -/
theorem exec_start_bars {channel : Byte} {c : Chan} (hq : AtHead s q rest) (hs : 248 ≤ s.su[q.slot].score)
    (hb : s.su[q.slot].standing ≠ .barred) (hbody : q.body = .start channel h offset) (hc : channel.toNat = c.val)
    (ho : offset ≤ 8388607) (hl : s.su[q.slot].standing ≠ .limited) (hv : code.isViolation = true)
    (hw : resolve s q.slot h offset 1 Rights.F true true = .error (code, touched)) :
    BarredAtHead s q rest code h offset := by
  refine exec_bars (g := .checked) (k := 257) hq hs hb hv
    ((carryOn_start_checked hbody hc ho hl 258).trans (congrArg _ ?_))
  have failing : resolve (s.servingAt q rest .checked) q.slot h offset 1 Rights.F true true = .error (code, touched) := hw
  unfold startResolution
  rw [failing, resolve_violation_touched hv hw]; rfl

/-- An OPEN whose rights are out of their range (R161). -/
theorem openClaim_badRights {wtag : BitVec 16} {wanted : Byte} (h : 16 ≤ wanted.toNat) :
    openClaim slot wtag wanted .checked s = failRequest .badRequest Handle.null 0 s := by
  show (match rightsOf wanted.toNat with | none => _ | some w => _) = _
  rw [rightsOf_eq_none (by omega)]

/-! ### One claim of a request in service that comes to such a violation -/

/-- One claim of the request in service comes to a violation that bars its slot, found in a state `s'` with this record. -/
def BarredInService (s s' : State) (r' : InService) (code : Code) (h : Handle) (offset : Nat) : Prop :=
  ∃ u, exec (r'.request.body.row (some 1)) s = .next (settle u) ∧
    BarsItsSlot s' u ⟨true, false, code, r'.request.slot, none, h, offset⟩ ∧ u.linkOut = s.linkOut ∧
    u.server = some { r' with stage := .ending code [], held := r'.held ++ s.removedAnswers r'.request.slot, sendKept := true }

theorem BarredInService.of_row {s' : State} {i : Instr} (hb : BarredInService s s' r' code h offset)
    (hi : r'.request.body.row (some 1) = i) : ∃ u, exec i s = .next (settle u) ∧
      BarsItsSlot s' u ⟨true, false, code, r'.request.slot, none, h, offset⟩ ∧ u.linkOut = s.linkOut ∧
      u.server = some { r' with stage := .ending code [], held := r'.held ++ s.removedAnswers r'.request.slot, sendKept := true } :=
  hi ▸ hb

/-- The claim places pins at the most, and then is the notice. -/
theorem exec_claim_bars_at (v : Vector Descriptor 256) (hr : s.server = some r) (hq : r'.request = r.request)
    (hd : r'.detached = false) (hs : 248 ≤ s.su[r'.request.slot].score) (hb : s.su[r'.request.slot].standing ≠ .barred)
    (hv : code.isViolation = true) (hg : r.stage = .checked ∨ ∃ k, r.stage = .search k)
    (hc : r.request.claim r.stage s = failRequest code h offset { s with wt := v, server := some r' }) :
    BarredInService s { s with wt := v, server := some r' } r' code h offset := by
  have other : r.stage ≠ .bursts ∧ ∀ code payload, r.stage ≠ .ending code payload := by
    rcases hg with hg | ⟨k, hg⟩ <;> rw [hg] <;> exact ⟨nofun, nofun⟩
  have row : exec (r'.request.body.row (some 1)) s = .next (settle (failRequest code h offset
      { s with wt := v, server := some r' })) := by
    rw [hq, exec_oneClaim hr other.1 other.2, hc]
  exact ⟨_, row, (failRequest_bars (s := { s with wt := v, server := some r' }) rfl rfl hd hs hb hv).2⟩

/-- The claim is the notice alone. -/
theorem exec_claim_bars (hr : s.server = some r) (hd : r.detached = false) (hs : 248 ≤ s.su[r.request.slot].score)
    (hb : s.su[r.request.slot].standing ≠ .barred) (hv : code.isViolation = true)
    (hg : r.stage = .checked ∨ ∃ k, r.stage = .search k)
    (hc : r.request.claim r.stage s = failRequest code h offset s) :
    BarredInService s s r code h offset := by
  have same : { s with wt := s.wt, server := some r } = s := by rw [← hr]
  have bars := exec_claim_bars_at (r' := r) s.wt hr rfl hd hs hb hv hg (by rw [same]; exact hc)
  rw [same] at bars
  exact bars

/-- The resolution of a direct access in service. -/
theorem exec_access_claim_bars {m : Nat} {needed : Rights} (hr : s.server = some r) (hd : r.detached = false)
    (hs : 248 ≤ s.su[r.request.slot].score) (hb : s.su[r.request.slot].standing ≠ .barred) (hg : r.stage = .checked)
    (ha : r.request.body.Accesses h offset m needed) (hv : code.isViolation = true)
    (hw : resolve s r.request.slot h offset m needed false false = .error (code, touched)) :
    BarredInService s s r code h offset := by
  refine exec_claim_bars hr hd hs hb hv (.inl hg) ?_
  rw [Request.claim_access ha, hg]
  show resolveThen _ _ _ _ _ _ s = _
  unfold resolveThen
  rw [hw, resolve_violation_touched hv hw]; rfl

end Violations

/-- Settles O54: the notice by the score it meets, the whole services that come to it, and the claims that do. -/
theorem violationsChargeAndBar : Obligations.ViolationsChargeAndBar := by
  unfold Obligations.ViolationsChargeAndBar
  refine ⟨fun s reason slot source h offset own hs => ?_,
    fun s reason slot source h offset own hs hb => violation_barsItsSlot hs hb own,
    fun s reason slot source h offset hs hb => ⟨violation_reaches hs hb, fun r hr hslot hd => ?_⟩,
    fun s slot tag h offset rest code touched n channel kind wanted wtag data hs hb => ?_,
    fun s r h offset code touched k n channel wanted wtag data hr hd hs hb => ?_⟩
  · dsimp only
    rw [violation_of_low hs]
    unfold State.charged
    rw [Attention.notified_eq, Requester.charged_low hs]
    simp only [decide_eq_true_eq]
  · rw [violation_teardown hs hb]
    exact teardown_own (s := s.charged reason slot source h offset) source hr hslot hd
  · dsimp only
    have bad {m : Nat} (hm : 8388607 < offset ∨ m = 0 ∨ 64 < m) : ¬ accessFieldsOk offset m = true := by
      rw [accessFieldsOk_iff]; omega
    have good {m : Nat} (hm : ¬ (8388607 < offset ∨ m = 0 ∨ 64 < m)) : accessFieldsOk offset m = true := by
      rw [accessFieldsOk_iff]; omega
    have badAccess {body : ReqBody} {m : Nat} {needed : Rights} (ha : body.Accesses h offset m needed)
        (hm : 8388607 < offset ∨ m = 0 ∨ 64 < m) (hq : AtHead s ⟨slot, tag, body⟩ rest) :
        BarredAtHead s ⟨slot, tag, body⟩ rest .badRequest h offset :=
      exec_bars_begun hq hs hb rfl (by rw [Request.claim_access ha]; exact accessChecks_badRequest (bad hm))
    refine ⟨fun hq => exec_bars_begun hq hs hb rfl rfl, fun hc hq => exec_bars_begun hq hs hb (checkHandle_error_isViolation hc)
        (closeClaim_error (t := s.serving _ rest) hc), fun h3 => ⟨fun hq => exec_bars_begun hq hs hb rfl ?_,
        fun hq => exec_bars_begun hq hs hb rfl ?_⟩, fun hbad hq => exec_bars_begun hq hs hb rfl (startChecks_badRequest hbad),
      fun hm => ⟨badAccess (.read n) hm, badAccess (.readLock n) hm⟩, fun hm => ⟨badAccess (.write data) hm,
        badAccess (.writeUnlock data) hm⟩, fun ⟨hv, hm, hw⟩ hq => exec_access_bars hq hs hb (.read n) (good hm) (.inr rfl) hv hw,
      fun hl => ⟨fun h16 hq => ?_, fun ⟨hv, hm, hw⟩ hq => exec_access_bars hq hs hb (.readLock n) (good hm) (.inl hl) hv hw,
        fun ⟨hv, hm, hw⟩ hq => exec_access_bars hq hs hb (.write data) (good hm) (.inl hl) hv hw,
        fun ⟨hv, hm, hw⟩ hq => exec_access_bars hq hs hb (.writeUnlock data) (good hm) (.inl hl) hv hw,
        fun hv h3 ho hw hq => ?_⟩⟩
    · show serveCancel slot channel _ = _
      unfold serveCancel
      rw [chanOf_eq_none h3]
    · show serveChannelStatus channel _ = _
      unfold serveChannelStatus
      rw [chanOf_eq_none h3]
    · have unread : openClaim slot wtag wanted .checked (s.servingAt ⟨slot, tag, .openWindow wtag wanted⟩ rest .checked) =
          failRequest .badRequest Handle.null 0 (s.servingAt ⟨slot, tag, .openWindow wtag wanted⟩ rest .checked) :=
        openClaim_badRights h16
      exact exec_bars (g := .checked) (k := 257) hq hs hb rfl ((carryOn_open hl 258).trans (congrArg _ unread))
    · have hc : channel.toNat = (⟨channel.toNat, by omega⟩ : Chan).val := rfl
      exact exec_start_bars hq hs hb rfl hc ho hl hv hw
  · dsimp only
    have searched {code : Code} (hbody : r.request.body = .openWindow wtag wanted) (hg : r.stage = .search k)
        (hk : k.next = 255) (hfree : s.wt[k.next].state = .free) {v : RunningVerdict} (hverdict : k.verdict = v)
        (hcode : v.toCode = code) (hv : code.isViolation = true) : BarredInService s s r code Handle.null k.tag.toNat := by
      refine exec_claim_bars hr hd hs hb hv (.inr ⟨k, hg⟩) ?_
      rw [Request.claim_open hbody, hg, ← hcode, ← hverdict]
      have ends := (examine_skip (s := s) (r := r) (k := k) (slot := r.request.slot) fun hc => hc.1 hfree).trans
        (searchOn_last (s := s) (r := r) (k := k) hk)
      rw [searching_eq hr hg] at ends
      exact ends
    refine ⟨fun hg => ⟨fun hbody h16 => ?_, fun hbody ⟨hv, hw⟩ => ?_, fun hbody ⟨hv, hw⟩ => ?_, fun hbody ⟨hv, hw⟩ => ?_,
      fun hbody ⟨hv, hw⟩ => ?_, fun w hbody hw h1 h2 => ?_, fun hbody ⟨hv, hw⟩ => ?_⟩,
      fun hbody hg hk hfree => ⟨fun hverdict => ?_, fun hverdict => ?_⟩⟩
    · have claim : r.request.claim r.stage s = failRequest .badRequest ⟨0, 0⟩ 0 s := by
        rw [Request.claim_open hbody, hg]
        exact openClaim_badRights h16
      exact (exec_claim_bars hr hd hs hb rfl (.inl hg) claim).of_row (by rw [hbody]; rfl)
    · exact (exec_access_claim_bars hr hd hs hb hg (by rw [hbody]; exact .read n) hv hw).of_row (by rw [hbody]; rfl)
    · exact (exec_access_claim_bars hr hd hs hb hg (by rw [hbody]; exact .write data) hv hw).of_row (by rw [hbody]; rfl)
    · exact (exec_access_claim_bars hr hd hs hb hg (by rw [hbody]; exact .readLock n) hv hw).of_row (by rw [hbody]; rfl)
    · exact (exec_access_claim_bars hr hd hs hb hg (by rw [hbody]; exact .writeUnlock data) hv hw).of_row (by rw [hbody]; rfl)
    · have ha : r.request.body.Accesses h offset data.length (Rights.W ||| Rights.K) := by rw [hbody]; exact .writeUnlock data
      have holder := withPins_holder s.wt w.pinned h.index
      have refused : unlockStep r.request.slot h offset (s.resolvedBy r w) =
          failRequest .notHolder h offset (s.resolvedBy r w) := by
        unfold unlockStep; dsimp only
        rw [if_neg (by rw [holder.1]; exact h1), if_neg (by
          rw [holder.1, holder.2]
          exact fun e => h2.elim (absurd e.1) (absurd e.2))]
      have step : r.request.body.whenResolved r.request.slot h offset = unlockStep r.request.slot h offset := by
        rw [hbody]; rfl
      have bars := exec_claim_bars_at (withPins s.wt w.pinned)
        (r' := { r with resolved := some w, pins := r.pins ++ w.pinned }) hr rfl hd hs hb
        (code := .notHolder) (h := h) (offset := offset) rfl (.inl hg) (by
          refine (congrArg (r.request.claim · s) hg).trans ?_
          rw [Request.claim_access ha]
          refine (resolveThen_passes hr hw).trans ?_
          rw [step]
          exact refused)
      exact bars.of_row (by rw [hbody]; rfl)
    · have claim : r.request.claim r.stage s = failRequest code h offset s := by
        rw [Request.claim_start hbody, hg]
        show startResolution r.request.slot h offset s = _
        unfold startResolution
        rw [hw, resolve_violation_touched hv hw]; rfl
      exact (exec_claim_bars hr hd hs hb hv (.inl hg) claim).of_row (by rw [hbody]; rfl)
    · exact (searched hbody hg hk hfree hverdict rfl rfl).of_row (by rw [hbody]; rfl)
    · exact (searched hbody hg hk hfree hverdict rfl rfl).of_row (by rw [hbody]; rfl)

end Sys2Proof.Machine

/-! The expiry of an interlock marks its holder and charges it (R98, R101). -/

namespace Sys2Proof.Machine

section Expiry

variable {s : State} {i : DIdx} {holder slot : Slot} {expiry : Nat} {reason : Code} {source : Option Chan} {h : Handle}
  {offset : Nat}

/-- The state in which an interlock has expired, its holder marked and not yet charged. -/
def State.expired (s : State) (i : DIdx) (holder : Slot) (expiry : Nat) : State := { s with
  now := max s.now expiry
  wt := s.wt.set i { s.wt[i] with holder := none, expiry := none, expiredHolder := some holder }
  attn := { s.attn with pending := s.attn.pending ||| 0x100, lockLatch := i } }

theorem expireLock_eq (he : s.wt[i].expiry = some expiry) : expireLock i holder s =
    violation .lockExpired holder none ⟨s.wt[i].gen, i⟩ 0 false (s.expired i holder expiry) := by
  unfold expireLock; dsimp only
  rw [he]; rfl

theorem exec_interlockExpiry (hh : s.wt[i].holder = some holder) :
    exec (.interlockExpiry i) s = .next (settle (expireLock i holder s)) := by
  show execInterlockExpiry i s = _
  unfold execInterlockExpiry
  rw [hh]

/-- Beside FAULT and STANDING, the attentions that were pending stay so through a violation that bars, with their latches. -/
theorem violation_attn (hs : 248 ≤ s.su[slot].score) (hb : s.su[slot].standing ≠ .barred) (own : Bool) :
    (∀ n, s.attn.pending.getLsbD n = true →
      (violation reason slot source h offset own s).attn.pending.getLsbD n = true) ∧
    (violation reason slot source h offset own s).attn.lockLatch = s.attn.lockLatch := by
  have grows := (teardown_tornDown .barring slot own source (s.charged reason slot source h offset)).2
  rw [violation_teardown hs hb]
  generalize teardown .barring slot own source (s.charged reason slot source h offset) = u at *
  have notified : (s.charged reason slot source h offset).attn =
      s.attn.notified ⟨true, false, reason, slot, source, h, offset⟩ s.su[slot].standing s.su[slot].charged.standing := rfl
  rw [notified, Attention.notified_eq] at grows
  obtain ⟨latches, pending⟩ := grows
  refine ⟨fun n hn => pending n ?_, by rw [latches]⟩
  show (s.attn.pending ||| _ ||| _).getLsbD n = true
  rw [BitVec.getLsbD_or, BitVec.getLsbD_or, hn]; rfl

/-- The descriptor whose interlock has expired, once its holder has been torn down: no holder and no mark. -/
theorem TornDown.expired {u : State} {mark : MarkCode} {own : Option Chan}
    (ht : TornDown (s.expired i holder expiry) u holder mark own) : u.wt[i].holder = none ∧ u.wt[i].expiredHolder = none := by
  have cleared : ((s.expired i holder expiry).wt[i].without holder).holder = none ∧
      ((s.expired i holder expiry).wt[i].without holder).expiredHolder = none := by
    unfold State.expired Descriptor.without
    simp only [get_set_self, reduceCtorEq, if_false, if_true, and_self]
  rw [ht.2.1 i]
  unfold Descriptor.unpinned
  split
  · exact ⟨rfl, rfl⟩
  · exact cleared

end Expiry

/-- Settles O38: the holder is marked and charged, or barred, by its score. -/
theorem interlockExpiryMarksAndChargesTheHolder : Obligations.InterlockExpiryMarksAndChargesTheHolder := by
  unfold Obligations.InterlockExpiryMarksAndChargesTheHolder
  refine fun s i hs => ⟨fun hh => ?_, fun holder expiry hh he => ⟨fun hl => ?_, fun hl hb => ?_⟩⟩
  · show execInterlockExpiry i s = _
    unfold execInterlockExpiry
    rw [hh]
  · rw [exec_interlockExpiry hh, expireLock_eq he, violation_of_low (s := s.expired i holder expiry) hl]
    exact congrArg _ (settle_of_same hs rfl rfl)
  · have bars := violation_barsItsSlot (s := s.expired i holder expiry) (reason := .lockExpired) (source := none)
      (h := ⟨s.wt[i].gen, i⟩) (offset := 0) hl hb false
    have reaches := violation_reaches (s := s.expired i holder expiry) (reason := .lockExpired) (source := none)
      (h := ⟨s.wt[i].gen, i⟩) (offset := 0) hl hb
    obtain ⟨pending, latch⟩ := violation_attn (s := s.expired i holder expiry) (reason := .lockExpired) (source := none)
      (h := ⟨s.wt[i].gen, i⟩) (offset := 0) hl hb false
    obtain ⟨-, -, -, -, -, -, torn⟩ := id bars
    obtain ⟨noHolder, noMark⟩ := torn.expired
    refine ⟨_, (exec_interlockExpiry hh).trans (congrArg (Host.Outcome.next <| settle ·) (expireLock_eq he)), noHolder, noMark,
      bars, reaches, pending 8 ?_, latch⟩
    show (s.attn.pending ||| 0x100).getLsbD 8 = true
    rw [BitVec.getLsbD_or, Bool.or_eq_true]
    exact .inr (by decide)

end Sys2Proof.Machine

/-! A slot that holds nothing is left alone by the end of a step: by the lists that end, the violations of others and the
teardowns that these take (R148). -/

namespace Sys2Proof.Machine

section LeftAlone

variable {slot victim : Slot} {s t u : State} {c : Chan} {p : Primary} {code : Code}

/-! ### What is kept for the slot -/

/-- What is kept for a slot that holds nothing: it still does, its record stays, an idle engine does, causes stay pending,
and what is sent is for others. -/
structure LeftAlone (slot : Slot) (s t : State) : Prop where
  nothing : HoldsNothing t slot
  record : t.su[slot] = s.su[slot]
  idle : s.engine.state = .idle → t.engine = s.engine
  pending : ∀ n, s.attn.pending.getLsbD n = true → t.attn.pending.getLsbD n = true
  gone : t.attn.goneLatch = s.attn.goneLatch
  sent : ∃ more, t.linkOut = s.linkOut ++ more ∧ ∀ r, LinkMsg.reply r ∈ more → r.slot ≠ slot

/-- The act leaves the slot alone, should it hold nothing. -/
def Spares (slot : Slot) (s t : State) : Prop := HoldsNothing s slot → LeftAlone slot s t

theorem Spares.refl (slot : Slot) (s : State) : Spares slot s s := fun hn =>
  ⟨hn, rfl, fun _ => rfl, fun _ h => h, rfl, [], (List.append_nil _).symm, fun _ h => absurd h List.not_mem_nil⟩

theorem Spares.trans (h : Spares slot s t) (k : Spares slot t u) : Spares slot s u := by
  intro hn
  have a := h hn
  have b := k a.nothing
  obtain ⟨more, ha, hmore⟩ := a.sent
  obtain ⟨further, hb, hfurther⟩ := b.sent
  refine ⟨b.nothing, b.record.trans a.record, fun he => ?_, fun n hs => b.pending n (a.pending n hs), b.gone.trans a.gone,
    more ++ further, by rw [hb, ha, List.append_assoc], fun r hr => ?_⟩
  · rw [b.idle (by rw [a.idle he]; exact he), a.idle he]
  · rcases List.mem_append.mp hr with hr | hr
    · exact hmore r hr
    · exact hfurther r hr

theorem HoldsNothing.owner_ne {owner : Slot} (hn : HoldsNothing s slot) (hp : s.chans[c].primary = some p)
    (ho : p.owner = some owner) : owner ≠ slot := by
  rintro rfl
  exact (hn.2.1 c).1 p hp ho

/-- An act that changes neither records nor requests, and gives no slot a descriptor or a channel. -/
theorem Spares.of_parts (hwt : ∀ i : DIdx, t.wt[i].Knows slot → s.wt[i].Knows slot)
    (hch : ∀ c : Chan, t.chans[c].OwnedBy slot → s.chans[c].OwnedBy slot) (hrq : t.rq = s.rq) (hsu : t.su = s.su)
    (he : t.engine = s.engine) (hp : ∀ n, s.attn.pending.getLsbD n = true → t.attn.pending.getLsbD n = true)
    (hg : t.attn.goneLatch = s.attn.goneLatch) (hl : t.linkOut = s.linkOut) : Spares slot s t := by
  intro hn
  rw [holdsNothing_iff] at hn
  obtain ⟨table, lists, queue⟩ := hn
  refine ⟨holdsNothing_iff.mpr ⟨fun i h => table i (hwt i h), fun c h => lists c (hch c h), hrq ▸ queue⟩, by rw [hsu],
    fun _ => he, hp, hg, [], by rw [hl, List.append_nil], fun _ h => absurd h List.not_mem_nil⟩

/-- An act of which none of these parts sees anything. -/
theorem Spares.still (hwt : t.wt = s.wt) (hch : t.chans = s.chans) (hrq : t.rq = s.rq) (hsu : t.su = s.su)
    (he : t.engine = s.engine) (hp : ∀ n, s.attn.pending.getLsbD n = true → t.attn.pending.getLsbD n = true)
    (hg : t.attn.goneLatch = s.attn.goneLatch) (hl : t.linkOut = s.linkOut) : Spares slot s t :=
  .of_parts (fun _ h => hwt ▸ h) (fun _ h => hch ▸ h) hrq hsu he hp hg hl

theorem Descriptor.knows_unpinned {d : Descriptor} {n : Nat} (h : (d.unpinned n).Knows slot) : d.Knows slot := by
  unfold Descriptor.unpinned at h
  split at h
  · rcases h with h | h | h
    · exact absurd (by simp) h
    · cases h
    · cases h
  · exact h

/-! ### Causes that are raised -/

theorem getLsbD_or_left {a : BitVec 12} (b : BitVec 12) (n : Nat) (h : a.getLsbD n = true) : (a ||| b).getLsbD n = true := by
  rw [BitVec.getLsbD_or, h]; rfl

theorem touchAbsent_spares (o : Option DIdx) (s : State) : Spares slot s (touchAbsent o s) := by
  cases o with
  | none => exact .refl _ _
  | some i => exact .still rfl rfl rfl rfl rfl (fun n => getLsbD_or_left _ n) rfl rfl

theorem raiseMapHole_spares (entry : Nat) (s : State) : Spares slot s (raiseMapHole entry s) :=
  .still rfl rfl rfl rfl rfl (fun n => getLsbD_or_left _ n) rfl rfl

theorem raiseChan_spares (c : Chan) (s : State) : Spares slot s (raiseChan c s) :=
  .still rfl rfl rfl rfl rfl (fun n => getLsbD_or_left _ n) rfl rfl

/-! ### Changes of a channel's record -/

/-- A channel's record changes, and its slots' owners do not. -/
theorem updChan_spares (c : Chan) {f : Channel → Channel} (hf : ∀ ch, (f ch).OwnedBy slot → ch.OwnedBy slot) (s : State) :
    Spares slot s (s.updChan c f) := by
  refine .of_parts (fun _ h => h) (fun d h => ?_) rfl rfl rfl (fun _ h => h) rfl rfl
  rw [show (s.updChan c f).chans[d] = if c = d then f s.chans[c] else s.chans[d] from get_set _ _ _ _] at h
  split at h
  · rename_i e
    subst e; exact hf _ h
  · exact h

theorem updPrimary_spares (c : Chan) {f : Primary → Primary} (hf : ∀ p, (f p).owner = p.owner) (s : State) :
    Spares slot s (updPrimary c f s) := by
  refine updChan_spares c (fun ch h => ?_) s
  rcases h with ⟨p, hp, ho⟩ | h
  · obtain ⟨q, hq, rfl⟩ := Option.map_eq_some_iff.mp hp
    exact .inl ⟨q, hq, (hf q).symm.trans ho⟩
  · exact .inr h

theorem stopChannel_spares (c : Chan) (s : State) : Spares slot s (stopChannel c s) := by
  have state := updChan_spares (slot := slot) c (f := fun ch => { ch with state := .stopped }) (fun _ h => h) s
  have work := updPrimary_spares (slot := slot) c (f := fun p => { p with work := .stopped }) (fun _ => rfl)
  have event := updChan_spares (slot := slot) c (f := fun ch => { ch with event := some .stop }) fun _ h => h
  exact ((state.trans (work _)).trans (event _)).trans (raiseChan_spares c _)

theorem holeStops_spares (c : Chan) (entry : Nat) (s : State) : Spares slot s (holeStops c entry s) :=
  (raiseMapHole_spares entry s).trans (stopChannel_spares c _)

theorem channelBurst_spares (c : Chan) (b : Burst) (w : Work) (s : State) : Spares slot s (channelBurst c b w s) :=
  (updPrimary_spares c (f := fun p => { p with work := w }) (fun _ => rfl) s).trans
    (.still rfl rfl rfl rfl rfl (fun _ h => h) rfl rfl)

theorem channelBursts_spares (c : Chan) (bs : List Burst) (w : List Burst → Work) (s : State) :
    Spares slot s (channelBursts c bs w s) := by
  cases bs with
  | nil => exact .refl _ _
  | cons b rest => exact channelBurst_spares c b (w rest) s

theorem placePins_spares (is : List DIdx) (s : State) : Spares slot s (placePins is s) := by
  rw [placePins_eq]
  refine .of_parts (fun i h => ?_) (fun _ h => h) rfl rfl rfl (fun _ h => h) rfl rfl
  have alike : { (withPins s.wt is)[i] with pins := 0 } = { s.wt[i] with pins := 0 } := withPins_alike is s.wt i
  have knows : ({ (withPins s.wt is)[i] with pins := 0 } : Descriptor).Knows slot := h
  rw [alike] at knows
  exact knows

theorem notePass_spares (c : Chan) (p : Primary) (r : Resolved) (named target : Purpose) {f : Primary → Primary}
    (hf : ∀ p, (f p).owner = p.owner) (s : State) : Spares slot s (notePass c p r named target f s) := by
  unfold notePass
  split
  · exact updPrimary_spares c hf s
  · exact (placePins_spares r.pinned s).trans
      (updPrimary_spares c (f := fun q => f { q with pins := q.pins ++ stepPins r named target }) (fun _ => hf _) _)

/-! ### The end of a list -/

/-- How the end of a list reaches the attentions and the engine. -/
theorem endList_reports (hp : s.chans[c].primary = some p) (code : Code) : ∃ v : State,
    v.attn = s.attn.raise (cChan c) ∧ v.engine = s.engine ∧
    (endList c code s).attn = (removePins (p.pins.map (·.index)) v).attn ∧
    (endList c code s).engine = (removePins (p.pins.map (·.index)) v).engine.listEnded c := by
  let noted : State := channelEvent c (endEvent code) (s.updChan c fun ch => { ch with outcome := p.outcome code })
  let v : State := if code = .ok then p.owner.elim noted fun o => cleanCompletion o noted else noted
  have ends : endList c code s = engineOnListEnd c (withdrawBurst (Claimant.ch c)
      ((removePins (p.pins.map (·.index)) v).updChan c Channel.promote)) := by
    unfold endList; rw [hp]
  have kept : v.attn = noted.attn ∧ v.engine = noted.engine := by
    dsimp only [v]
    split
    · cases p.owner <;> exact ⟨rfl, rfl⟩
    · exact ⟨rfl, rfl⟩
  refine ⟨v, kept.1, kept.2, ?_, ?_⟩
  · rw [ends, engineOnListEnd_eq]; rfl
  · rw [ends, engineOnListEnd_eq]; rfl

theorem Engine.listEnded_idle {e : Engine} (h : e.state = .idle) (c : Chan) : e.listEnded c = e := by
  unfold Engine.listEnded
  rw [h]

theorem endList_idle (c : Chan) (code : Code) (h : s.engine.state = .idle) : (endList c code s).engine = s.engine := by
  cases hp : s.chans[c].primary with
  | none => unfold endList; rw [hp]
  | some p =>
    obtain ⟨v, -, engine, -, ends⟩ := endList_reports hp code
    rw [ends, removePins_engine (by rw [engine, h]; exact nofun), engine, Engine.listEnded_idle h]

theorem Channel.listEnded_ownedBy {ch : Channel} (h : (ch.listEnded p code).OwnedBy slot) : ch.OwnedBy slot := by
  rcases h with ⟨q, hq, ho⟩ | ⟨b, hb, -⟩
  · obtain ⟨b, hb, rfl⟩ := Option.map_eq_some_iff.mp hq
    exact .inr ⟨b, hb, Option.some.inj ho⟩
  · cases hb

theorem endList_spares (c : Chan) (code : Code) (s : State) : Spares slot s (endList c code s) := by
  intro hn
  cases hp : s.chans[c].primary with
  | none =>
    rw [show endList c code s = s by unfold endList; rw [hp]]
    exact Spares.refl slot s hn
  | some p =>
    obtain ⟨w, hw, inside⟩ := endList_inside hp code
    obtain ⟨v, attn, -, reports, -⟩ := endList_reports hp code
    have grows := removePins_attn (p.pins.map (·.index)) v
    rw [← reports, attn] at grows
    obtain ⟨table, lists, queue⟩ := holdsNothing_iff.mp hn
    refine ⟨holdsNothing_iff.mpr ⟨fun i h => table i ?_, fun d h => lists d ?_, ?_⟩, ?_, endList_idle c code,
      fun n h => grows.2 n (getLsbD_or_left _ n h), by rw [grows.1]; rfl, [], ?_, fun _ h => absurd h List.not_mem_nil⟩
    · rw [show (endList c code s).wt = w from congrArg Inside.wt inside, hw] at h
      exact Descriptor.knows_unpinned h
    · rw [show (endList c code s).chans = _ from congrArg Inside.chans inside, get_set] at h
      split at h
      · rename_i e
        subst e; exact Channel.listEnded_ownedBy h
      · exact h
    · rw [show (endList c code s).rq = s.rq from congrArg Inside.rq inside]; exact queue
    · rw [show (endList c code s).su = _ from congrArg Inside.su inside]
      split
      · cases ho : p.owner with
        | none => rfl
        | some owner => exact get_set_ne _ (hn.owner_ne hp ho) _
      · rfl
    · rw [endList_frame, List.append_nil]

end LeftAlone

end Sys2Proof.Machine

/-! Ready work, the violations of other slots and their teardowns leave a slot alone that holds nothing (R148, R149). -/

namespace Sys2Proof.Machine

section Others

variable {slot victim : Slot} {s t u : State} {c : Chan} {p : Primary} {code : Code}

/-! ### An idle engine through a teardown -/

theorem endAtBoundary_idle (c : Chan) (h : s.engine.state = .idle) : (endAtBoundary c s).engine = s.engine := by
  unfold endAtBoundary
  split
  · split
    · rfl
    · exact endList_idle c _ h
  · rfl

theorem teardownChannel_idle (cause : TeardownCause) (slot : Slot) (own : Option Chan) (c : Chan)
    (h : s.engine.state = .idle) : (teardownChannel cause slot own c s).engine = s.engine := by
  unfold teardownChannel; dsimp only
  split
  · split
    · split
      · rfl
      · exact endAtBoundary_idle (s := updPrimary c _ (s.updChan c _)) c h
    · rfl
  · rfl

theorem teardownChannels_idle (cause : TeardownCause) (slot : Slot) (own : Option Chan) (l : List Chan)
    (h : s.engine.state = .idle) : (l.foldl (fun t c => teardownChannel cause slot own c t) s).engine = s.engine := by
  induction l generalizing s with
  | nil => rfl
  | cons c l ih =>
    have one := teardownChannel_idle (s := s) cause slot own c h
    exact (ih (by rw [one]; exact h)).trans one

theorem Engine.detachedEnded_idle {e : Engine} (h : e.state = .idle) : e.detachedEnded = e := by
  unfold Engine.detachedEnded
  rw [h]

theorem State.lockGivenUp_engine (s : State) (r : InService) (code : Code) : (s.lockGivenUp r code).engine = s.engine := by
  unfold State.lockGivenUp
  split
  · split <;> rfl
  · rfl

theorem cutService_idle (h : s.engine.state = .idle) : (cutService s).engine = s.engine := by
  cases hr : s.server with
  | none => unfold cutService; rw [hr]
  | some r =>
    rw [cutService_eq hr]
    split
    · have lock := s.lockGivenUp_engine r .ok
      have pins : (removePins r.pins { s.lockGivenUp r .ok with server := none }).engine = s.engine :=
        (removePins_engine (fun i => (congrArg Engine.state lock).trans h ▸ nofun) r.pins).trans lock
      show (if r.detached then (removePins r.pins { s.lockGivenUp r .ok with server := none }).engine.detachedEnded
        else (removePins r.pins { s.lockGivenUp r .ok with server := none }).engine) = _
      rw [pins, Engine.detachedEnded_idle h, ite_self]
    · rfl

theorem teardownServer_idle (cause : TeardownCause) (slot : Slot) (own : Bool) (answers : List (BitVec 3 × Code))
    (h : s.engine.state = .idle) : (teardownServer cause slot own answers s).engine = s.engine := by
  have sends : (sendAnswers slot answers s).engine = s.engine := by rw [sendAnswers_eq]
  unfold teardownServer
  split
  · split
    · dsimp only
      split
      · rfl
      · exact cutService_idle (s := s.setServer _) h
    · exact sends
  · exact sends

theorem teardown_idle (cause : TeardownCause) (slot : Slot) (own : Bool) (ownList : Option Chan)
    (h : s.engine.state = .idle) : (teardown cause slot own ownList s).engine = s.engine := by
  have lists := teardownChannels_idle (s := teardownTable slot s) cause slot ownList [0, 1, 2, 3] h
  unfold teardown teardownQueue; dsimp only
  generalize [0, 1, 2, 3].foldl (fun t c => teardownChannel cause slot ownList c t) (teardownTable slot s) = v at lists ⊢
  exact Eq.trans (teardownServer_idle cause slot own _ ((congrArg Engine.state lists).trans h)) lists

/-! ### The teardown of another slot -/

theorem InService.replies_slot {r : InService} {payload : List Byte} {m : Reply}
    (h : LinkMsg.reply m ∈ r.replies code payload) : m.slot = r.request.slot := by
  have own (code : Code) (payload : List Byte)
      (h : LinkMsg.reply m ∈ [LinkMsg.reply ⟨r.request.slot, r.request.tag, code, payload⟩]) : m.slot = r.request.slot := by
    rw [LinkMsg.reply.inj (List.mem_singleton.mp h)]
  unfold InService.replies at h
  rcases List.mem_append.mp h with h | h
  · cases hd : r.disposition <;> rw [hd] at h
    case send => exact own _ _ h
    case discard => exact absurd h List.not_mem_nil
    case disabled => exact own _ _ h
    case barred => exact own _ _ h
  · obtain ⟨⟨tag, answer⟩, -, e⟩ := List.mem_map.mp h
    rw [← LinkMsg.reply.inj e]

/-- A teardown sends replies to its own slot only. -/
theorem TeardownReaches.sent {disposition : InService → Disposition} {answers : List (BitVec 3 × Code)}
    {kept : InService → List (BitVec 3 × Code)} (h : TeardownReaches s u victim disposition answers kept) :
    ∃ more, u.linkOut = s.linkOut ++ more ∧ ∀ r, LinkMsg.reply r ∈ more → r.slot = victim := by
  obtain ⟨mine, others⟩ := h
  by_cases hr : ∃ r, s.server = some r ∧ r.request.slot = victim ∧ r.detached = false
  · obtain ⟨r, hr, hs, hd⟩ := hr
    have cut := mine r hr hs hd
    dsimp only at cut
    split at cut
    · exact ⟨_, cut.2, fun m hm => (InService.replies_slot hm).trans hs⟩
    · exact ⟨[], by rw [cut.1, List.append_nil], fun _ hm => absurd hm List.not_mem_nil⟩
  · refine ⟨_, (others fun r e => ?_).2, fun m hm => ?_⟩
    · by_contra hn
      rw [not_or, not_not, Bool.not_eq_true] at hn
      exact hr ⟨r, e, hn⟩
    · obtain ⟨_, -, e⟩ := List.mem_map.mp hm
      cases e; rfl

/-- A teardown gives no other slot a channel. -/
theorem TornDownChannel.ownedBy {mark : MarkCode} {own : Option Chan} (h : TornDownChannel s u victim mark own c)
    (ho : u.chans[c].OwnedBy slot) : s.chans[c].OwnedBy slot := by
  have waiting {ch : Channel} (hb : ch.backup = s.chans[c].backup.filter fun b => b.owner != victim)
      (h : ∃ b, ch.backup = some b ∧ b.owner = slot) : s.chans[c].OwnedBy slot := by
    obtain ⟨b, e, hs⟩ := h
    exact .inr ⟨b, (Option.filter_eq_some_iff.mp (hb ▸ e)).1, hs⟩
  unfold TornDownChannel at h; dsimp only at h
  obtain ⟨kept, torn⟩ := h
  by_cases hp : ∀ p, s.chans[c].primary = some p → p.owner ≠ some victim
  · rw [(kept hp).1] at ho
    exact ho.elim .inl (waiting rfl)
  · rw [not_forall] at hp
    obtain ⟨p, hp⟩ := hp
    rw [Classical.not_imp, not_not] at hp
    obtain ⟨m, hm⟩ : ∃ m, (p.mark <|> some (⟨mark, victim⟩ : Mark)) = some m := by
      cases p.mark with
      | none => exact ⟨_, rfl⟩
      | some m => exact ⟨m, rfl⟩
    obtain ⟨waits, ends⟩ := torn p m hp.1 hp.2 hm
    by_cases hw : (∃ b, s.port.granted = some (Claimant.ch c, b)) ∨ own = some c
    · rw [(waits hw).1] at ho
      rcases ho with ⟨q, e, hq⟩ | h
      · cases e; cases hq
      · exact waiting rfl h
    · rw [(ends hw).1] at ho
      rcases ho with ⟨q, e, hq⟩ | ⟨b, e, -⟩
      · obtain ⟨b, hb, rfl⟩ := Option.map_eq_some_iff.mp e
        exact .inr ⟨b, (Option.filter_eq_some_iff.mp hb).1, Option.some.inj hq⟩
      · cases e

theorem teardown_spares (hv : victim ≠ slot) (cause : TeardownCause) (ownList : Option Chan) (s : State) :
    Spares slot s (teardown cause victim false ownList s) := by
  intro hn
  obtain ⟨torn, grows⟩ := teardown_tornDown cause victim false ownList s
  obtain ⟨channels, table, queue, -, records, -⟩ := torn
  obtain ⟨more, sent, theirs⟩ := (teardown_reaches cause victim ownList s).sent
  obtain ⟨hw, hc, hq⟩ := holdsNothing_iff.mp hn
  refine ⟨holdsNothing_iff.mpr ⟨fun i h => hw i ?_, fun d h => hc d ((channels d).ownedBy h), fun q h => hq q ?_⟩,
    records slot hv.symm, teardown_idle cause victim false ownList, grows.2, by rw [grows.1], more, sent,
    fun r h => theirs r h ▸ hv⟩
  · rw [table] at h
    exact Descriptor.without_knows (Descriptor.knows_unpinned h)
  · rw [queue] at h
    exact List.mem_of_mem_filter h

/-! ### Violations and failing verdicts of other slots -/

theorem charged_spares (hv : victim ≠ slot) (reason : Code) (source : Option Chan) (h : Handle) (offset : Nat) (s : State) :
    Spares slot s (s.charged reason victim source h offset) := by
  intro hn
  refine ⟨hn, get_set_ne _ hv _, fun _ => rfl, fun n hp => ?_, ?_, [], (List.append_nil _).symm,
    fun _ h => absurd h List.not_mem_nil⟩
  · unfold State.charged
    rw [Attention.notified_eq]
    exact getLsbD_or_left _ n (getLsbD_or_left _ n hp)
  · unfold State.charged
    rw [Attention.notified_eq]

theorem violation_spares (hv : victim ≠ slot) (reason : Code) (source : Option Chan) (h : Handle) (offset : Nat) (s : State) :
    Spares slot s (violation reason victim source h offset false s) := by
  have charge := charged_spares hv reason source h offset s
  rw [← chargeScore_offerFault_eq] at charge
  unfold violation; dsimp only
  split
  · exact charge.trans (teardown_spares hv .barring source _)
  · exact charge

theorem failList_spares (hv : victim ≠ slot) (c : Chan) (code : Code) (h : Handle) (offset : Nat) (s : State) :
    Spares slot s (failList c code victim h offset s) := by
  unfold failList
  split
  · exact (violation_spares hv code (some c) h offset s).trans (endList_spares c code _)
  · exact endList_spares c code s

theorem verdictFails_spares (hv : victim ≠ slot) (c : Chan) (f : Code × Option DIdx) (h : Handle) (offset : Nat) (s : State) :
    Spares slot s (verdictFails c f victim h offset s) := by
  unfold verdictFails
  split
  · exact (touchAbsent_spares f.2 s).trans (stopChannel_spares c _)
  · exact failList_spares hv c f.1 h offset s

/-! ### Ready work -/

theorem advancePromote_spares (hv : victim ≠ slot) (c : Chan) (p : Primary) (s : State) :
    Spares slot s (advancePromote c p victim s) := by
  unfold advancePromote
  split
  · exact endList_spares c .limited s
  · split
    · rename_i code touched _
      exact (touchAbsent_spares touched s).trans (failList_spares hv c code p.handle p.offset _)
    · rename_i r _
      exact (placePins_spares [r.index] s).trans
        (updPrimary_spares c (f := fun p => { p with pins := [⟨r.index, .list⟩], work := .fetch }) (fun _ => rfl) _)

theorem advanceFetch_spares (hv : victim ≠ slot) (c : Chan) (p : Primary) (s : State) :
    Spares slot s (advanceFetch c p victim s) := by
  unfold advanceFetch
  split
  · exact verdictFails_spares hv c _ p.handle p.offset s
  · split
    · exact holeStops_spares c _ s
    · exact channelBursts_spares c _ _ s

theorem advanceResume_spares (hv : victim ≠ slot) (c : Chan) (p : Primary) (s : State) :
    Spares slot s (advanceResume c p victim s) := by
  unfold advanceResume
  split
  · exact verdictFails_spares hv c _ p.handle p.offset s
  · exact updPrimary_spares c (f := fun q => { q with work := if q.step.isSome then .resolve else .fetch }) (fun _ => rfl) s

theorem resolveDest_spares (hv : victim ≠ slot) (c : Chan) (p : Primary) (dst : Handle) (dstOff count : Nat) (s : State) :
    Spares slot s (resolveDest c p victim dst dstOff count s) := by
  unfold resolveDest
  split
  · exact verdictFails_spares hv c _ dst dstOff s
  · rename_i r _
    exact (notePass_spares c p r .destination .destinationTarget
      (f := fun q => { q with dest := some r, work := .unit }) (fun _ => rfl) s).trans
      (updChan_spares c (f := fun ch => { ch with state := .move }) (fun _ h => h) _)

theorem advanceResolve_spares (hv : victim ≠ slot) (c : Chan) (p : Primary) (s : State) :
    Spares slot s (advanceResolve c p victim s) := by
  unfold advanceResolve
  split
  · split
    · exact resolveDest_spares hv c p _ _ _ s
    · split
      · exact verdictFails_spares hv c _ _ _ s
      · rename_i r _
        exact (notePass_spares c p r .source .sourceTarget (f := fun q => { q with source := some r }) (fun _ => rfl) s).trans
          (resolveDest_spares hv c p _ _ _ _)
  · split
    · exact endList_spares c .ok s
    · split
      · exact verdictFails_spares hv c _ _ _ s
      · rename_i r _
        exact (notePass_spares c p r .completion .completionTarget
          (f := fun q => { q with completion := some r, work := .record }) (fun _ => rfl) s).trans
          (updChan_spares c (f := fun ch => { ch with state := .halting }) (fun _ h => h) _)
  all_goals exact updPrimary_spares c (f := fun q => { q with step := none, work := .fetch }) (fun _ => rfl) s

theorem advanceUnit_spares (c : Chan) (p : Primary) (s : State) : Spares slot s (advanceUnit c p s) := by
  unfold advanceUnit
  split
  · dsimp only
    split
    · split
      · exact holeStops_spares c _ s
      · exact holeStops_spares c _ s
      · exact channelBurst_spares c _ _ s
    · split
      · exact holeStops_spares c _ s
      · exact channelBurst_spares c _ _ s
  · exact updPrimary_spares c (f := fun q => { q with work := .fetch }) (fun _ => rfl) s

theorem advanceRecord_spares (c : Chan) (p : Primary) (victim : Slot) (s : State) :
    Spares slot s (advanceRecord c p victim s) := by
  unfold advanceRecord
  split
  · split
    · exact holeStops_spares c _ s
    · exact channelBursts_spares c _ _ s
  · exact updPrimary_spares c (f := fun q => { q with work := .fetch }) (fun _ => rfl) s

theorem advance_spares (c : Chan) (s : State) : Spares slot s (advance c s) := by
  intro hn
  suffices Spares slot s (advance c s) from this hn
  unfold advance
  split
  · exact .refl slot s
  · rename_i p hp
    split
    · exact endList_spares c _ s
    · exact endList_spares c _ s
    · rename_i owner _ ho
      have hv : owner ≠ slot := hn.owner_ne hp ho
      split
      · exact advancePromote_spares hv c p s
      · exact advanceFetch_spares hv c p s
      · exact advanceResume_spares hv c p s
      · exact advanceResolve_spares hv c p s
      · exact advanceUnit_spares c p s
      · exact advanceRecord_spares c p owner s
      all_goals exact .refl slot s

/-! ### The end of a step -/

theorem setTurns_spares (later : List (Option Chan)) (s : State) : Spares slot s (s.setTurns later) :=
  .still rfl rfl rfl rfl rfl (fun _ h => h) rfl rfl

theorem runReady_spares (n : Nat) (s : State) : Spares slot s (runReady n s) := by
  induction n generalizing s with
  | zero => exact .refl slot s
  | succ n ih =>
    unfold runReady
    split
    · exact .refl slot s
    · exact (advance_spares _ s).trans (ih _)
    · exact setTurns_spares _ s
    · exact ((setTurns_spares _ s).trans (advance_spares _ _)).trans (ih _)

theorem grantBurst_spares (s : State) : Spares slot s (grantBurst s) := by
  unfold grantBurst
  split
  · exact .still rfl rfl rfl rfl rfl (fun _ h => h) rfl rfl
  · exact .refl slot s

/-- What the end of a step does is not seen by a slot that holds nothing. -/
theorem settle_spares (slot : Slot) (s : State) : Spares slot s (settle s) :=
  (runReady_spares readyBound s).trans (grantBurst_spares _)

end Others

end Sys2Proof.Machine

/-! A PRESENT line that rises or falls (R142, R150, R183). -/

namespace Sys2Proof.Machine

section Present

variable {slot : Slot} {s u : State}

/-- The state in which a departure is taken: the line is low, the mark says so, and REQUESTER_GONE is raised. -/
def State.departs (s : State) (slot : Slot) : State := { s with
  lines := { s.lines with present := s.lines.present.set slot false }
  su := s.su.set slot { s.su[slot] with present := false }
  attn := { s.attn with pending := s.attn.pending ||| 0x400, goneLatch := slot } }

theorem State.departs_record (s : State) (slot : Slot) :
    (s.departs slot).su[slot] = { s.su[slot] with present := false } := get_set_self _ _ _

theorem depart_eq (s : State) (slot : Slot) : depart slot (setPresentLine slot false s) =
    if s.su[slot].enabled = true ∧ s.su[slot].standing ≠ .barred then
      teardown .departure slot false none (s.departs slot) else teardownServer .departure slot false [] (s.departs slot) := by
  have shut : (s.su[slot].enabled && s.su[slot].standing != .barred) = true ↔
      s.su[slot].enabled = true ∧ s.su[slot].standing ≠ .barred := by rw [Bool.and_eq_true, bne_iff_ne]
  exact if_congr shut rfl rfl

theorem exec_presentFall (hp : s.lines.present[slot] = true) (hr : s.lines.reset = false) :
    exec (.presentFall slot) s = .next (settle (depart slot (setPresentLine slot false s))) := by
  show Host.Outcome.next (if (!s.lines.present[slot]) = true then s else
    if s.lines.reset = true then _ else settle (depart slot (setPresentLine slot false s))) = _
  rw [hp, hr]
  rfl

theorem depart_enabled (he : s.su[slot].enabled = true) (hb : s.su[slot].standing ≠ .barred) :
    depart slot (setPresentLine slot false s) = teardown .departure slot false none (s.departs slot) := by
  rw [depart_eq, if_pos ⟨he, hb⟩]

theorem depart_again (h : s.su[slot].enabled = false ∨ s.su[slot].standing = .barred) :
    depart slot (setPresentLine slot false s) = teardownServer .departure slot false [] (s.departs slot) := by
  rw [depart_eq, if_neg fun hn => h.elim (fun e => Bool.false_ne_true (e.symm.trans hn.1)) hn.2]

/-! ### The request in service -/

/-- With no request of the slot in service a departure that is not a teardown does nothing. -/
theorem teardownServer_departure_without (h : inServiceOf s slot = 0) :
    teardownServer .departure slot false [] s = s := by
  have still : sendAnswers slot [] s = s := rfl
  unfold teardownServer
  cases hr : s.server with
  | none => exact still
  | some r =>
    rw [inServiceOf_some hr] at h
    dsimp only
    rw [if_neg]
    · exact still
    · rintro ⟨hs, hd⟩
      rw [if_pos ⟨hs, by simpa using hd⟩] at h
      cases h

theorem State.ended_rq (s : State) (r : InService) (code : Code) (payload : List Byte) :
    ((s.lockGivenUp r code).ended r code payload).rq = s.rq := by
  have lock : (s.lockGivenUp r code).rq = s.rq := by
    unfold State.lockGivenUp
    split
    · split <;> rfl
    · rfl
  unfold State.ended
  rw [removePins_frame]
  exact lock

/-- The Request Server's part of a teardown changes no channel, no queue and no other slot's record. -/
theorem cutService_others {r : InService} (hr : s.server = some r) : (cutService s).chans = s.chans ∧
    (cutService s).rq = s.rq ∧ ∀ other : Slot, other ≠ r.request.slot → (cutService s).su[other] = s.su[other] := by
  rw [cutService_eq hr]
  split
  · refine ⟨(State.ended_facts s r .ok []).2.2.1, State.ended_rq s r .ok [], fun other ho => ?_⟩
    exact (congrArg (fun v : Vector Requester 16 => v[other]) (State.ended_su s r .ok [])).trans (get_set_ne _ ho.symm _)
  · exact ⟨rfl, rfl, fun _ _ => rfl⟩

theorem teardownServer_others (cause : TeardownCause) (slot : Slot) (own : Bool) (answers : List (BitVec 3 × Code)) (s : State) :
    (teardownServer cause slot own answers s).chans = s.chans ∧ (teardownServer cause slot own answers s).rq = s.rq ∧
    ∀ other : Slot, other ≠ slot → (teardownServer cause slot own answers s).su[other] = s.su[other] := by
  have sends : (sendAnswers slot answers s).chans = s.chans ∧ (sendAnswers slot answers s).rq = s.rq ∧
      ∀ other : Slot, other ≠ slot → (sendAnswers slot answers s).su[other] = s.su[other] := by
    rw [sendAnswers_eq]; exact ⟨rfl, rfl, fun _ _ => rfl⟩
  unfold teardownServer
  split
  · split
    · rename_i h
      obtain ⟨hs, -⟩ := h
      dsimp only
      split
      · exact ⟨rfl, rfl, fun _ _ => rfl⟩
      · obtain ⟨chans, rq, others⟩ := cutService_others (s := s.setServer _) rfl
        exact ⟨chans, rq, fun other ho => others other (hs ▸ ho)⟩
    · exact sends
  · exact sends

theorem nextDisposition_departure (r : InService) (own : Bool) : nextDisposition r .departure own = .discard := by
  unfold nextDisposition
  cases r.disposition <;> rfl

/-- What a departure does to the request in service: its reply and its held answers are dropped. -/
theorem TeardownReaches.departs {answers : List (BitVec 3 × Code)}
    (h : TeardownReaches (s.departs slot) u slot (nextDisposition · .departure false) answers
      (fun r => if TeardownCause.departure = .departure then [] else r.held)) :
    TeardownReaches s u slot (fun _ => .discard) answers (fun _ => []) := by
  rw [show (nextDisposition · .departure false) = fun _ => .discard from
    funext fun r => nextDisposition_departure r false] at h
  exact .congr rfl rfl h

theorem depart_reaches (s : State) (slot : Slot) :
    TeardownReaches s (depart slot (setPresentLine slot false s)) slot (fun _ => .discard) [] (fun _ => []) := by
  rw [depart_eq]
  split
  · exact (teardown_reaches .departure slot none (s.departs slot)).departs
  · exact (teardownServer_reaches .departure slot [] (s.departs slot) fun _ => rfl).departs

/-- A departure sends nothing. -/
theorem TeardownReaches.silent (h : TeardownReaches s u slot (fun _ => .discard) [] (fun _ => [])) :
    u.linkOut = s.linkOut := by
  obtain ⟨mine, others⟩ := h
  by_cases hr : ∃ r, s.server = some r ∧ r.request.slot = slot ∧ r.detached = false
  · obtain ⟨r, hr, hs, hd⟩ := hr
    have cut := mine r hr hs hd
    dsimp only at cut
    split at cut
    · exact cut.2.trans (List.append_nil _)
    · exact cut.1
  · refine (others fun r e => ?_).2.trans (List.append_nil _)
    by_contra hn
    rw [not_or, not_not, Bool.not_eq_true] at hn
    exact hr ⟨r, e, hn⟩

/-! ### The record and the teardown -/

theorem depart_record (s : State) (slot : Slot) : (depart slot (setPresentLine slot false s)).su[slot] =
    { s.su[slot] with present := false, outstanding := (depart slot (setPresentLine slot false s)).su[slot].outstanding } := by
  have record : (depart slot (setPresentLine slot false s)).su[slot] = { (s.departs slot).su[slot] with
      outstanding := (depart slot (setPresentLine slot false s)).su[slot].outstanding } := by
    rw [depart_eq]
    split
    · exact teardown_record (by decide) slot false none _
    · exact teardownServer_record (by decide) slot false [] _
  rw [s.departs_record slot] at record
  exact record

/-- A teardown counts from before changes to the slot's record, the lines, the causes and the engine. -/
theorem TornDown.of_record {mark : MarkCode} {own : Option Chan} {x : Requester} {lines : Lines} {attn : Attention}
    {engine : Engine} (hx : x.outstanding = s.su[slot].outstanding)
    (h : TornDown { s with lines := lines, su := s.su.set slot x, attn := attn, engine := engine } u slot mark own) :
    TornDown s u slot mark own := by
  obtain ⟨chans, wt, rq, outstanding, others, rest⟩ := h
  refine ⟨chans, wt, rq, outstanding.trans ?_, fun other ho => (others other ho).trans ?_, rest⟩
  · show (s.su.set slot x)[slot].outstanding - _ - _ = _
    rw [get_set_self, hx]; rfl
  · exact get_set_ne _ (Ne.symm ho) _

theorem depart_tornDown (he : s.su[slot].enabled = true) (hb : s.su[slot].standing ≠ .barred) :
    TornDown s (depart slot (setPresentLine slot false s)) slot .ownerGone none := by
  rw [depart_enabled he hb]
  exact .of_record (by rfl) (teardown_tornDown .departure slot false none (s.departs slot)).1

theorem State.departs_pending (s : State) (slot : Slot) : (s.departs slot).attn.pending.getLsbD 10 = true := by
  show (s.attn.pending ||| 0x400).getLsbD 10 = true
  rw [BitVec.getLsbD_or, show (0x400 : BitVec 12).getLsbD 10 = true by decide, Bool.or_true]

end Present

/-- Settles O39: a fall takes a departure; what the end of its step does is not seen by the slot, which holds nothing. -/
theorem presentLinesComeAndGo : Obligations.PresentLinesComeAndGo := by
  unfold Obligations.PresentLinesComeAndGo
  refine ⟨fun s slot => ⟨rfl, fun hp => ?_, fun hp hr => ⟨fun hs hshut hin => ?_, fun hs he hb => ?_⟩⟩,
    fun s slot hp hr => ?_⟩
  · show Host.Outcome.next (if (!s.lines.present[slot]) = true then s else _) = _
    rw [hp]; rfl
  · rw [exec_presentFall hp hr, depart_again hshut, teardownServer_departure_without (s := s.departs slot) hin]
    exact congrArg _ (settle_of_same hs rfl rfl)
  · have torn := depart_tornDown he hb
    have silent := (depart_reaches s slot).silent
    have record := congrArg Requester.present (depart_record s slot)
    have bytes : SameBytes s (settle (depart slot (setPresentLine slot false s))) :=
      .of_outside (s := setPresentLine slot false s) ((SameOutside.of_eq (depart_outside slot _)).trans (settle_outside _))
    have grows := (teardown_tornDown .departure slot false none (s.departs slot)).2
    rw [← depart_enabled he hb] at grows
    have falls := exec_presentFall hp hr
    generalize depart slot (setPresentLine slot false s) = u at *
    have alone := settle_spares slot u torn.holdsNothing
    obtain ⟨more, sent, others⟩ := alone.sent
    refine ⟨settle u, falls, alone.nothing, by rw [alone.record]; exact record,
      alone.pending 10 (grows.2 10 (s.departs_pending slot)),
      by rw [alone.gone, grows.1]; rfl, ⟨more, by rw [sent, silent], others⟩, bytes⟩
  · refine ⟨depart slot (setPresentLine slot false s), exec_presentFall hp hr, depart_record s slot, depart_reaches s slot,
      depart_tornDown, fun hshut => ?_⟩
    rw [depart_again hshut]
    obtain ⟨chans, rq, others⟩ := teardownServer_others .departure slot false [] (s.departs slot)
    exact ⟨chans, rq, fun other ho => (others other ho).trans (get_set_ne _ ho.symm _)⟩

end Sys2Proof.Machine

/-! The manager's commands over a slot's record, and the teardown that disabling a slot takes (R148, R150, R152, R173, R174). -/

namespace Sys2Proof.Machine

section RequesterCommands

variable {slot : Slot} {s t : State} {p : Vector Word 4} {level k : Fin 4}

/-! ### What the claims take -/

theorem requesterSetClaim_badField (h : 15 < p[0].toNat % 256 ∨ 1 < p[0].toNat / 256 % 256 ∨ 3 < p[0].toNat / 65536 % 256) :
    requesterSetClaim p t = completeWith .badField t := by
  unfold requesterSetClaim
  rw [field_7_0, field_15_8, field_23_16]
  rcases h with h | h | h
  · rw [slotOf_eq_none h]
  · rw [markOf_eq_none h]
    cases slotOf (p[0].toNat % 256) <;> rfl
  · rw [fin4Of_eq_none h]
    cases slotOf (p[0].toNat % 256) <;> cases markOf (p[0].toNat / 256 % 256) <;> rfl

theorem filterSetClaim_badField (h : 15 < p[0].toNat % 256 ∨ 3 < p[0].toNat / 256 % 256 ∨ 1 < p[0].toNat / 65536 % 256) :
    filterSetClaim p t = completeWith .badField t := by
  unfold filterSetClaim
  rw [field_7_0, field_15_8, field_23_16]
  rcases h with h | h | h
  · rw [slotOf_eq_none h]
  · rw [fin4Of_eq_none h]
    cases slotOf (p[0].toNat % 256) <;> rfl
  · rw [markOf_eq_none h]
    cases slotOf (p[0].toNat % 256) <;> cases fin4Of (p[0].toNat / 256 % 256) <;> rfl

theorem readmitClaim_badField (h : 15 < p[0].toNat % 256) : readmitClaim p t = completeWith .badField t := by
  unfold readmitClaim
  rw [field_7_0, slotOf_eq_none h]

theorem requesterSetClaim_sets (hs : slot.val = p[0].toNat % 256) (hl : level.val = p[0].toNat / 65536 % 256)
    (he : p[0].toNat / 256 % 256 ≤ 1) (hk : t.su[slot].enabled = false ∨ p[0].toNat / 256 % 256 = 1) :
    requesterSetClaim p t = completeOk (t.updSlot slot fun r =>
      { r with enabled := p[0].toNat / 256 % 256 == 1, level := level }) := by
  unfold requesterSetClaim
  rw [field_7_0, field_15_8, field_23_16, slotOf_eq_some hs, markOf_eq_some he, fin4Of_eq_some hl]
  dsimp only
  rw [if_neg]
  rcases hk with hk | hk <;> rw [hk]
  · exact Bool.false_ne_true
  · rw [show (!((1 : Nat) == 1)) = false from rfl, Bool.and_false]
    exact Bool.false_ne_true

theorem requesterSetClaim_disables (hs : slot.val = p[0].toNat % 256) (hl : level.val = p[0].toNat / 65536 % 256)
    (he : p[0].toNat / 256 % 256 = 0) (hk : t.su[slot].enabled = true) :
    requesterSetClaim p t = completeOk (teardown .disable slot false none (t.updSlot slot fun r =>
      { r with enabled := false, level := level })) := by
  unfold requesterSetClaim
  rw [field_7_0, field_15_8, field_23_16, slotOf_eq_some hs, markOf_eq_some (by rw [he]; decide), fin4Of_eq_some hl, he]
  dsimp only
  rw [hk]
  rfl

theorem filterSetClaim_sets (hs : slot.val = p[0].toNat % 256) (hk : k.val = p[0].toNat / 256 % 256)
    (he : p[0].toNat / 65536 % 256 ≤ 1) :
    filterSetClaim p t = completeOk (t.updSlot slot fun r => { r with
      filters := r.filters.set k ⟨p[0].toNat / 65536 % 256 == 1, BitVec.ofNat 16 p[1].toNat,
        BitVec.ofNat 16 (p[1].toNat / 65536)⟩ }) := by
  have low : BitVec.ofNat 16 (field p[1] 15 0) = BitVec.ofNat 16 p[1].toNat := by
    rw [field_15_0]
    exact BitVec.eq_of_toNat_eq (by simp)
  unfold filterSetClaim
  rw [field_7_0, field_15_8, field_23_16, low, field_31_16, slotOf_eq_some hs, fin4Of_eq_some hk, markOf_eq_some he]

theorem readmitClaim_sets (hs : slot.val = p[0].toNat % 256) :
    readmitClaim p t = completeOk (t.updSlot slot fun r => { r with score := 0, standing := .good }) := by
  unfold readmitClaim
  rw [field_7_0, slotOf_eq_some hs]
  rfl

/-! ### The record through a teardown -/

/-- A slot's record keeps its mark and its level. -/
def Requester.Alike (a b : Requester) : Prop := b.enabled = a.enabled ∧ b.level = a.level

theorem leaves_alike (r : InService) (code : Code) (q : Requester) : q.Alike (r.leaves code q) := by
  unfold InService.leaves Requester.credited
  dsimp only
  split <;> split <;> exact ⟨rfl, rfl⟩

theorem cutService_alike (s : State) (slot : Slot) : s.su[slot].Alike (cutService s).su[slot] := by
  cases hr : s.server with
  | none => unfold cutService; rw [hr]; exact ⟨rfl, rfl⟩
  | some r =>
    rw [cutService_eq hr]
    split
    · have su := congrArg (fun v : Vector Requester 16 => v[slot]) (State.ended_su s r .ok [])
      refine Eq.mpr (congrArg (Requester.Alike s.su[slot]) su) ?_
      show s.su[slot].Alike (s.su.set r.request.slot (r.leaves .ok s.su[r.request.slot]))[slot]
      rw [get_set]
      split
      · rename_i e
        rw [← e]; exact leaves_alike r .ok _
      · exact ⟨rfl, rfl⟩
    · exact ⟨rfl, rfl⟩

theorem teardownServer_alike (cause : TeardownCause) (slot : Slot) (own : Bool) (answers : List (BitVec 3 × Code)) (s : State)
    (y : Slot) : s.su[y].Alike (teardownServer cause slot own answers s).su[y] := by
  have sends : s.su[y].Alike (sendAnswers slot answers s).su[y] := by rw [sendAnswers_eq]; exact ⟨rfl, rfl⟩
  unfold teardownServer
  split
  · split
    · dsimp only
      split
      · exact ⟨rfl, rfl⟩
      · exact cutService_alike (s.setServer _) y
    · exact sends
  · exact sends

/-- A teardown keeps its slot's mark and level. -/
theorem teardown_alike (cause : TeardownCause) (slot : Slot) (own : Bool) (ownList : Option Chan) (s : State) :
    s.su[slot].Alike (teardown cause slot own ownList s).su[slot] := by
  have records := (teardownChannels_torn cause slot ownList [0, 1, 2, 3] (teardownTable slot s) (by decide)).su
  unfold teardown teardownQueue; dsimp only
  generalize [0, 1, 2, 3].foldl (fun t c => teardownChannel cause slot ownList c t) (teardownTable slot s) = v at records ⊢
  have server := teardownServer_alike cause slot own (teardownAnswers cause (v.rq.filter fun q => q.slot == slot))
    ((v.setRq (v.rq.filter fun q => q.slot != slot)).updSlot slot fun r =>
      { r with outstanding := r.outstanding - (v.rq.filter fun q => q.slot == slot).length }) slot
  refine ⟨server.1.trans ?_, server.2.trans ?_⟩
  · show (v.su.set slot { v.su[slot] with outstanding := _ })[slot].enabled = _
    rw [get_set_self, records]; rfl
  · show (v.su.set slot { v.su[slot] with outstanding := _ })[slot].level = _
    rw [get_set_self, records]; rfl

/-! ### A slot that is disabled -/

/-- The state in which REQUESTER_SET's claim tears down a slot that it disables. -/
def State.disabling (s : State) (slot : Slot) (level : Fin 4) : State := { s with
  engine := { s.engine with state := .busy .claim, command := 0x18, copies := s.engine.params }
  su := s.su.set slot { s.su[slot] with enabled := false, level := level } }

/-- The state that the claim leaves. -/
def State.disabled (s : State) (slot : Slot) (level : Fin 4) : State :=
  completeOk (teardown .disable slot false none (s.disabling slot level))

theorem exec_disables (h : EngineReady s) (hs : slot.val = s.engine.params[0].toNat % 256)
    (hl : level.val = s.engine.params[0].toNat / 65536 % 256) (he : s.engine.params[0].toNat / 256 % 256 = 0)
    (hk : s.su[slot].enabled = true) : exec .requesterSet s = .next (settle (s.disabled slot level)) := by
  show Host.Outcome.next (takeCommand 0x18 requesterSetClaim s) = _
  rw [takeCommand_idle h, requesterSetClaim_disables (t := s.commanded 0x18) hs hl he hk]
  rfl

/-- The completion changes the engine alone. -/
theorem TornDown.completes {mark : MarkCode} {own : Option Chan} (h : TornDown s t slot mark own) :
    TornDown s (completeOk t) slot mark own := h

theorem TeardownReaches.completes {disposition : InService → Disposition} {answers : List (BitVec 3 × Code)}
    {kept : InService → List (BitVec 3 × Code)} (h : TeardownReaches s t slot disposition answers kept) :
    TeardownReaches s (completeOk t) slot disposition answers kept := h

theorem completeOk_su (t : State) : (completeOk t).su = t.su := rfl

theorem completeOk_state (t : State) : (completeOk t).engine.state = .idle ∧ (completeOk t).engine.lastCode = .ok :=
  ⟨rfl, rfl⟩

theorem disabled_record (s : State) (slot : Slot) (level : Fin 4) :
    (s.disabled slot level).su[slot].enabled = false ∧ (s.disabled slot level).su[slot].level = level := by
  have alike := teardown_alike .disable slot false none (s.disabling slot level)
  rw [show (s.disabling slot level).su[slot] = { s.su[slot] with enabled := false, level := level } from
    get_set_self _ _ _] at alike
  unfold State.disabled
  rw [completeOk_su]
  exact alike

theorem disabled_tornDown (s : State) (slot : Slot) (level : Fin 4) :
    TornDown s (s.disabled slot level) slot .ownerGone none := by
  have torn := (teardown_tornDown .disable slot false none (s.disabling slot level)).1
  unfold State.disabled
  exact .of_record (by rfl) torn.completes

theorem disabled_outside (s : State) (slot : Slot) (level : Fin 4) : (s.disabled slot level).outside = s.outside := by
  unfold State.disabled
  rw [completeOk_outside, teardown_outside]
  rfl

/-- What becomes of the reply of a request in service whose slot is disabled (R152). -/
def disabledReply (r : InService) : Disposition :=
  match r.disposition with
  | .discard => .discard
  | .barred => .barred
  | .send => if r.sendKept then .send else .disabled
  | .disabled => .disabled

theorem nextDisposition_disable (r : InService) : nextDisposition r .disable false = disabledReply r := by
  unfold nextDisposition disabledReply
  cases r.disposition <;> rfl

theorem disabled_reaches (s : State) (slot : Slot) (level : Fin 4) :
    TeardownReaches s (s.disabled slot level) slot disabledReply
      ((s.rq.filter fun q => q.slot == slot).map fun q => (q.tag, .disabled)) (·.held) := by
  have reaches := teardown_reaches .disable slot none (s.disabling slot level)
  rw [show (nextDisposition · .disable false) = disabledReply from funext nextDisposition_disable] at reaches
  unfold State.disabled
  exact .congr rfl rfl reaches.completes

end RequesterCommands

/-- Settles O49: the claims write the record's fields, and the claim that disables a slot takes its teardown. -/
theorem requesterCommandsSetTheRecord : Obligations.RequesterCommandsSetTheRecord := by
  unfold Obligations.RequesterCommandsSetTheRecord
  refine ⟨fun s h hs => ⟨?_, ?_, ?_, fun slot hslot => ⟨?_, ?_, ?_, ?_⟩⟩, ?_⟩
  · exact fun hf => exec_fails rfl h hs (by decide) (requesterSetClaim_badField hf)
  · exact fun hf => exec_fails rfl h hs (by decide) (filterSetClaim_badField hf)
  · exact fun hf => exec_fails rfl h hs (by decide) (readmitClaim_badField hf)
  · exact fun k hk he => exec_takes rfl h hs (filterSetClaim_sets hslot hk he) rfl rfl
  · exact exec_takes rfl h hs (readmitClaim_sets hslot) rfl rfl
  · exact fun level hl he hk => exec_takes rfl h hs (requesterSetClaim_sets hslot hl he hk) rfl rfl
  · intro hthird he hk
    let level : Fin 4 := ⟨s.engine.params[0].toNat / 65536 % 256, by omega⟩
    have alone := settle_spares slot (s.disabled slot level) (disabled_tornDown s slot level).holdsNothing
    obtain ⟨enabled, kept⟩ := disabled_record s slot level
    obtain ⟨idle, ok⟩ : (s.disabled slot level).engine.state = .idle ∧ (s.disabled slot level).engine.lastCode = .ok :=
      completeOk_state _
    have engine := alone.idle idle
    exact ⟨settle (s.disabled slot level), exec_disables h hslot rfl he hk, alone.nothing,
      by rw [alone.record]; exact enabled, by rw [alone.record, kept], by rw [engine]; exact idle, by rw [engine]; exact ok,
      .of_outside ((SameOutside.of_eq (disabled_outside s slot level)).trans (settle_outside _))⟩
  · intro s slot h hslot he hthird hk
    let level : Fin 4 := ⟨s.engine.params[0].toNat / 65536 % 256, by omega⟩
    exact ⟨s.disabled slot level, exec_disables h hslot rfl he hk, (disabled_record s slot level).1,
      disabled_reaches s slot level, disabled_tornDown s slot level⟩

end Sys2Proof.Machine

/-! A link reset (R35, R135, R140, R167, R175): what each of its parts leaves, and what a LINK_RESET waits for. -/

namespace Sys2Proof.Machine

section LinkReset

variable {s t u : State} {c : Chan} {p : Primary} {m : Mark} {r : InService} {E e : Engine} {lists : Vector Bool 4} {d : Bool}

/-! ### The table -/

/-- Nobody has the descriptor open, and no interlock is held on it. -/
def Descriptor.Cleared (x : Descriptor) : Prop :=
  x.openers = Vector.replicate 16 none ∧ x.holder = none ∧ x.expiry = none ∧ x.expiredHolder = none

theorem Descriptor.clearOpeners_cleared (x : Descriptor) : x.clearOpeners.Cleared := ⟨rfl, rfl, rfl, rfl⟩

theorem Descriptor.Cleared.unpinned {x : Descriptor} (h : x.Cleared) (n : Nat) : (x.unpinned n).Cleared := by
  unfold Descriptor.unpinned
  split
  · exact ⟨rfl, rfl, rfl, rfl⟩
  · exact h

/-- All of the table is clear. -/
def State.Clear (s : State) : Prop := ∀ i : DIdx, s.wt[i].Cleared

theorem lockGivenUp_clear (h : s.Clear) (r : InService) (code : Code) : s.lockGivenUp r code = s := by
  unfold State.lockGivenUp
  split
  · rename_i w _
    refine if_neg fun held => ?_
    rw [(h w.index).2.1] at held
    cases held.2.2
  · rfl

theorem ended_clear (h : s.Clear) (r : InService) (code : Code) (payload : List Byte) : (s.ended r code payload).Clear := by
  intro i
  show (removePins r.pins { s with server := none }).wt[i].Cleared
  rw [removePins_wt]
  exact (h i).unpinned _

/-! ### What a LINK_RESET waits for -/

theorem runningLists_get (s : State) (c : Chan) : (runningLists s)[c] = s.chans[c].primary.isSome := by
  match c with
  | 0 | 1 | 2 | 3 => rfl

theorem runningLists_eq_ofFn (s : State) : runningLists s = Vector.ofFn fun c : Chan => s.chans[c].primary.isSome := by
  ext k hk
  rw [Vector.getElem_ofFn]
  exact runningLists_get s ⟨k, hk⟩

theorem runningLists_congr (h : ∀ c : Chan, t.chans[c].primary.isSome = s.chans[c].primary.isSome) :
    runningLists t = runningLists s := by
  rw [runningLists_eq_ofFn, runningLists_eq_ofFn]
  exact congrArg Vector.ofFn (funext h)

theorem runningLists_ended (hc : t.chans[c].primary = none) (ho : ∀ d : Chan, d ≠ c → t.chans[d] = s.chans[d]) :
    runningLists t = (runningLists s).set c false := by
  ext k hk
  have entry := get_set (runningLists s) c ⟨k, hk⟩ false
  refine (runningLists_get t ⟨k, hk⟩).trans (Eq.trans ?_ entry.symm)
  split
  · rename_i h
    rw [← h, hc]; rfl
  · rename_i h
    rw [ho _ (Ne.symm h), runningLists_get]

/-- The engine waits for these ends, or has completed because none of them is left. -/
def Engine.Awaits (E e : Engine) (lists : Vector Bool 4) (d : Bool) : Prop :=
  e = { E with state := .busy (.link lists d) } ∨ e = E.waitsFor lists d

theorem Engine.Awaits.state (h : E.Awaits e lists d) : e.state = .busy (.link lists d) ∨ e.state = .idle := by
  rcases h with rfl | rfl
  · exact .inl rfl
  · unfold Engine.waitsFor
    split
    · exact .inr rfl
    · exact .inl rfl

/-- An engine that has completed was left nothing to wait for. -/
theorem Engine.waitsFor_cases (E : Engine) (lists : Vector Bool 4) (d : Bool) :
    E.waitsFor lists d = { E with state := .busy (.link lists d) } ∨
    (lists = Vector.replicate 4 false ∧ d = false ∧ E.waitsFor lists d = E.finished) := by
  unfold Engine.waitsFor
  split
  · rename_i h
    exact .inr ⟨h.1, h.2, rfl⟩
  · exact .inl rfl

theorem Engine.Awaits.listEnded (h : E.Awaits e lists d) (c : Chan) : E.Awaits (e.listEnded c) (lists.set c false) d := by
  have begun : ({ E with state := .busy (.link lists d) } : Engine).listEnded c = E.waitsFor (lists.set c false) d := rfl
  rcases h with rfl | rfl
  · exact .inr begun
  · rcases E.waitsFor_cases lists d with hw | ⟨rfl, rfl, hw⟩ <;> rw [hw]
    · exact .inr begun
    · rw [Engine.listEnded_idle rfl, ← hw]
      refine .inr (congrArg (E.waitsFor · false) ?_)
      ext k hk
      have entry := get_set (Vector.replicate 4 false) c ⟨k, hk⟩ false
      refine Eq.trans ?_ entry.symm
      simp

theorem Engine.Awaits.detachedEnded (h : E.Awaits e lists d) : E.Awaits e.detachedEnded lists false := by
  have begun : ({ E with state := .busy (.link lists d) } : Engine).detachedEnded = E.waitsFor lists false := rfl
  rcases h with rfl | rfl
  · exact .inr begun
  · rcases E.waitsFor_cases lists d with hw | ⟨rfl, rfl, hw⟩ <;> rw [hw]
    · exact .inr begun
    · rw [Engine.detachedEnded_idle rfl, ← hw]
      exact .inr rfl

theorem engineLinkCheck_idle (h : s.engine.state = .idle) : engineLinkCheck s = s := by
  unfold engineLinkCheck
  rw [h]

/-- The last check of a link reset settles what the engine waits for. -/
theorem Engine.Awaits.checked (h : E.Awaits s.engine lists d) :
    engineLinkCheck s = { s with engine := E.waitsFor lists d } := by
  have begun (h : s.engine = { E with state := .busy (.link lists d) }) :
      engineLinkCheck s = { s with engine := E.waitsFor lists d } := by
    have check : engineLinkCheck { s with engine := s.engine } = { s with engine := s.engine.waitsFor lists d } :=
      engineLinkCheck_link (by rw [h])
    have waits : s.engine.waitsFor lists d = E.waitsFor lists d := by rw [h]; rfl
    rw [waits] at check
    exact check
  rcases h with h | h
  · exact begun h
  · rcases E.waitsFor_cases lists d with hw | ⟨-, -, hw⟩
    · exact begun (h.trans hw)
    · rw [engineLinkCheck_idle (by rw [h, hw]; rfl), ← h]

/-- A LINK_RESET waits for the lists that run and for the request that is detached. -/
def State.Waits (s : State) (E : Engine) : Prop := E.Awaits s.engine (runningLists s) s.server.isSome

theorem State.Waits.no_retire (h : s.Waits E) (i : DIdx) : s.engine.state ≠ .busy (.retire i) := by
  intro e
  rcases Engine.Awaits.state h with h | h <;> rw [h] at e <;> cases e

/-! ### One channel -/

/-- The state in which a channel's backup is gone and its list, if it runs one, carries its mark. -/
def State.unbacked (s : State) (c : Chan) (primary : Option Primary) : State :=
  { s with chans := s.chans.set c { s.chans[c] with primary := primary, backup := none } }

theorem State.unbacked_chan (s : State) (c : Chan) (q : Option Primary) :
    (s.unbacked c q).chans[c] = { s.chans[c] with primary := q, backup := none } := get_set_self _ _ _

theorem State.unbacked_other (s : State) (q : Option Primary) {d : Chan} (h : d ≠ c) :
    (s.unbacked c q).chans[d] = s.chans[d] :=
  get_set_ne _ h.symm _

theorem linkResetChannel_none (hp : s.chans[c].primary = none) : linkResetChannel c s = s.unbacked c none := by
  have empty : (emptyBackup c s).chans[c].primary = none := by rw [emptyBackup_eq, get_set_self]; exact hp
  unfold linkResetChannel abortPrimary
  rw [updPrimary_none empty]
  have boundary : endAtBoundary c (emptyBackup c s) = emptyBackup c s := by
    unfold endAtBoundary
    rw [empty]
    rfl
  rw [boundary, State.unbacked, ← hp]
  rfl

theorem linkResetChannel_marks (hp : s.chans[c].primary = some p)
    (hm : (p.mark <|> some ⟨.aborted, p.owner.getD 0⟩) = some m) :
    linkResetChannel c s = endAtBoundary c (s.unbacked c (some { p with mark := some m })) := by
  have marked : (emptyBackup c s).marked c p m = s.unbacked c (some { p with mark := some m }) := by
    unfold State.marked State.unbacked
    simp only [emptyBackup_eq, get_set_self, set_set_self]
  unfold linkResetChannel
  rw [abortPrimary_eq (by rw [emptyBackup_eq, get_set_self]; exact hp) hm, marked]

theorem linkResetChannel_granted (hp : s.chans[c].primary = some p)
    (hm : (p.mark <|> some ⟨.aborted, p.owner.getD 0⟩) = some m) (hg : ∃ b, s.port.granted = some (Claimant.ch c, b)) :
    linkResetChannel c s = s.unbacked c (some { p with mark := some m }) :=
  (linkResetChannel_marks hp hm).trans (endAtBoundary_granted hg)

theorem linkResetChannel_ends (hp : s.chans[c].primary = some p)
    (hm : (p.mark <|> some ⟨.aborted, p.owner.getD 0⟩) = some m) (hg : ¬ ∃ b, s.port.granted = some (Claimant.ch c, b)) :
    linkResetChannel c s = endList c m.result (s.unbacked c (some { p with mark := some m })) :=
  (linkResetChannel_marks hp hm).trans
    (endAtBoundary_ends (by rw [State.unbacked_chan]) rfl (not_exists.mp hg))

theorem Mark.result_ne_ok (m : Mark) : m.result ≠ .ok := by
  unfold Mark.result
  cases m.code <;> exact nofun

theorem Mark.endEvent_result (m : Mark) : endEvent m.result = .aborted := by
  unfold Mark.result
  cases m.code <;> rfl

/-- A channel after a link reset: no backup, and its list marked where a burst of it is out, else at its end. -/
def ChannelReset (s t : State) (c : Chan) : Prop :=
  (s.chans[c].primary = none → t.chans[c] = { s.chans[c] with primary := none, backup := none }) ∧
  ∀ p m, s.chans[c].primary = some p → (p.mark <|> some ⟨.aborted, p.owner.getD 0⟩) = some m →
    ((∃ b, s.port.granted = some (Claimant.ch c, b)) →
      t.chans[c] = { s.chans[c] with primary := some { p with mark := some m }, backup := none }) ∧
    ((¬ ∃ b, s.port.granted = some (Claimant.ch c, b)) →
      t.chans[c] = {
        state := .idle
        primary := none
        backup := none
        outcome := ⟨true, p.owner.getD m.owner, p.handle.index, m.result, p.total, p.offset⟩
        event := some .aborted })

/-- What a link reset does to these channels and leaves of the rest. -/
structure ChannelsReset (l : List Chan) (s t : State) : Prop where
  each : ∀ c ∈ l, ChannelReset s t c
  others : ∀ c, c ∉ l → t.chans[c] = s.chans[c]
  granted : t.port.granted = s.port.granted
  records : t.su = s.su
  queue : t.rq = s.rq
  server : t.server = s.server
  link : t.linkOut = s.linkOut
  clear : s.Clear → t.Clear
  waits : ∀ E, s.Waits E → t.Waits E

/-- The three courses of a channel's part. -/
theorem linkResetChannel_cases {P : State → Prop} (c : Chan) (s : State)
    (none : s.chans[c].primary = none → P (s.unbacked c none))
    (granted : ∀ p m, s.chans[c].primary = some p → (p.mark <|> some ⟨.aborted, p.owner.getD 0⟩) = some m →
      (∃ b, s.port.granted = some (Claimant.ch c, b)) → P (s.unbacked c (some { p with mark := some m })))
    (ends : ∀ p m, s.chans[c].primary = some p → (p.mark <|> some ⟨.aborted, p.owner.getD 0⟩) = some m →
      (¬ ∃ b, s.port.granted = some (Claimant.ch c, b)) →
        P (endList c m.result (s.unbacked c (some { p with mark := some m })))) : P (linkResetChannel c s) := by
  cases hp : s.chans[c].primary with
  | none => rw [linkResetChannel_none hp]; exact none hp
  | some p =>
    obtain ⟨m, hm⟩ : ∃ m, (p.mark <|> some (⟨.aborted, p.owner.getD 0⟩ : Mark)) = some m := by
      cases p.mark with
      | none => exact ⟨_, rfl⟩
      | some m => exact ⟨m, rfl⟩
    by_cases hg : ∃ b, s.port.granted = some (Claimant.ch c, b)
    · rw [linkResetChannel_granted hp hm hg]; exact granted p m hp hm hg
    · rw [linkResetChannel_ends hp hm hg]; exact ends p m hp hm hg

end LinkReset

end Sys2Proof.Machine

/-! A link reset, put together from its parts (R35, R135, R140, R167, R175). -/

namespace Sys2Proof.Machine

section LinkReset

variable {s t u : State} {c : Chan} {p : Primary} {m : Mark} {r : InService} {q : Option Primary} {E : Engine}

/-! ### One channel, and all of them -/

/-- A list that goes on: the backup is gone, and only the list's mark is new. -/
theorem unbacked_reset (hq : q.isSome = s.chans[c].primary.isSome) (each : ChannelReset s (s.unbacked c q) c) :
    ChannelsReset [c] s (s.unbacked c q) := by
  refine ⟨fun d hd => List.mem_singleton.mp hd ▸ each, fun d hd => s.unbacked_other q (List.mem_singleton.not.mp hd),
    rfl, rfl, rfl, rfl, rfl, fun h => h, fun E h => ?_⟩
  have lists : runningLists (s.unbacked c q) = runningLists s := by
    refine runningLists_congr fun d => ?_
    by_cases hd : d = c
    · subst hd
      rw [State.unbacked_chan]; exact hq
    · rw [s.unbacked_other q hd]
  unfold State.Waits
  rw [lists]
  exact h

/-- A list that ends. -/
theorem endList_reset (hp : s.chans[c].primary = some p) (hm : (p.mark <|> some ⟨.aborted, p.owner.getD 0⟩) = some m)
    (hg : ¬ ∃ b, s.port.granted = some (Claimant.ch c, b)) :
    ChannelsReset [c] s (endList c m.result (s.unbacked c (some { p with mark := some m }))) := by
  let v : State := s.unbacked c (some { p with mark := some m })
  have chan : v.chans[c] = { s.chans[c] with primary := some { p with mark := some m }, backup := none } :=
    s.unbacked_chan c _
  have running : v.chans[c].primary = some { p with mark := some m } := congrArg Channel.primary chan
  obtain ⟨chans, su, port, wt, -⟩ := endList_neutral running m.result_ne_ok
  have ended : (endList c m.result v).chans[c] = {
      state := .idle
      primary := none
      backup := none
      outcome := ⟨true, p.owner.getD m.owner, p.handle.index, m.result, p.total, p.offset⟩
      event := some .aborted } := by
    rw [chans, get_set_self, chan, m.endEvent_result]
    rfl
  have others (d : Chan) (hd : d ≠ c) : (endList c m.result v).chans[d] = v.chans[d] := by
    rw [chans]; exact get_set_ne _ hd.symm _
  refine ⟨fun d hd => ?_, fun d hd => ?_, ?_, su, ?_, ?_, ?_, fun h i => ?_, fun E h => ?_⟩
  · cases List.mem_singleton.mp hd
    refine ⟨fun e => (nomatch hp.symm.trans e), fun p' m' hp' hm' => ⟨fun e => absurd e hg, fun _ => ?_⟩⟩
    cases hp.symm.trans hp'
    cases hm.symm.trans hm'
    exact ended
  · have hd := List.mem_singleton.not.mp hd
    exact (others d hd).trans (s.unbacked_other _ hd)
  · rw [port]; rfl
  · rw [endList_frame]; rfl
  · rw [endList_frame]; rfl
  · rw [endList_frame]; rfl
  · rw [wt]
    exact (h i).unpinned _
  · have engine : (endList c m.result v).engine = s.engine.listEnded c :=
      endList_engine running m.result_ne_ok (s := v) h.no_retire
    have lists : runningLists v = runningLists s := by
      refine runningLists_congr fun d => ?_
      by_cases hd : d = c
      · subst hd
        rw [running, hp]; rfl
      · rw [s.unbacked_other _ hd]
    have server : (endList c m.result v).server = s.server := by rw [endList_frame]; rfl
    unfold State.Waits
    rw [engine, server, runningLists_ended (s := v) (congrArg Channel.primary ended) others, lists]
    exact Engine.Awaits.listEnded h c

theorem linkResetChannel_reset (c : Chan) (s : State) : ChannelsReset [c] s (linkResetChannel c s) := by
  refine linkResetChannel_cases c s (fun hp => ?_) (fun p m hp hm hg => ?_) (fun p m hp hm hg => ?_)
  · exact unbacked_reset (by rw [hp]) ⟨fun _ => s.unbacked_chan c none, fun p' _ hp' => (nomatch hp.symm.trans hp')⟩
  · refine unbacked_reset (by rw [hp]; rfl) ⟨fun e => (nomatch hp.symm.trans e), fun p' m' hp' hm' =>
      ⟨fun _ => ?_, fun hn => absurd hg hn⟩⟩
    cases hp.symm.trans hp'
    cases hm.symm.trans hm'
    exact s.unbacked_chan c _
  · exact endList_reset hp hm hg

theorem ChannelReset.congr {s' t' : State} (hs : s'.chans[c] = s.chans[c]) (hg : s'.port.granted = s.port.granted)
    (ht : t'.chans[c] = t.chans[c]) (h : ChannelReset s t c) : ChannelReset s' t' c := by
  unfold ChannelReset at *
  rw [hs, hg, ht]
  exact h

theorem ChannelsReset.append {l : List Chan} (hc : c ∉ l) (h : ChannelsReset [c] s t) (k : ChannelsReset l t u) :
    ChannelsReset (c :: l) s u := by
  have apart {d : Chan} (hd : d ≠ c) : t.chans[d] = s.chans[d] := h.others d (List.mem_singleton.not.mpr hd)
  refine ⟨fun d hd => ?_, fun d hd => ?_, k.granted.trans h.granted, k.records.trans h.records, k.queue.trans h.queue,
    k.server.trans h.server, k.link.trans h.link, fun e => k.clear (h.clear e), fun E e => k.waits E (h.waits E e)⟩
  · rcases List.mem_cons.mp hd with rfl | hd
    · exact (h.each d (List.mem_singleton_self d)).congr rfl rfl (k.others d hc)
    · exact (k.each d hd).congr (apart (fun e => hc (e ▸ hd))).symm h.granted.symm rfl
  · rw [List.mem_cons, not_or] at hd
    exact (k.others d hd.2).trans (apart hd.1)

theorem linkResetChannels_reset : ∀ (l : List Chan) (s : State), l.Nodup →
    ChannelsReset l s (l.foldl (fun t c => linkResetChannel c t) s)
  | [], _, _ => ⟨fun _ h => absurd h List.not_mem_nil, fun _ _ => rfl, rfl, rfl, rfl, rfl, rfl, fun h => h, fun _ h => h⟩
  | c :: l, s, h => by
    rw [List.nodup_cons] at h
    exact (linkResetChannel_reset c s).append h.1 (linkResetChannels_reset l _ h.2)

/-! ### The request in service -/

/-- A request in service that a link reset has detached (R106, R167). -/
def InService.cutOff (r : InService) : InService := { r with disposition := .discard, held := [], detached := true }

theorem detachServer_none (h : s.server = none) : detachServer s = s := by
  unfold detachServer
  rw [h]

theorem detachServer_eq (hr : s.server = some r) (hc : s.Clear) : detachServer s =
    if r.stage.early = true then State.ended { s with server := some r.cutOff } r.cutOff .ok []
    else { s with server := some { r.cutOff with stage := if r.stage = .slotClaim then .ending .ok [] else r.stage } } := by
  have cut : detachServer s = cutService { s with server := some r.cutOff } := by
    unfold detachServer
    rw [hr]; rfl
  rw [cut, cutService_eq (s := { s with server := some r.cutOff }) rfl,
    lockGivenUp_clear (s := { s with server := some r.cutOff }) hc]
  rfl

/-- What the detaching of the request in service leaves. -/
structure Detaches (s t : State) : Prop where
  chans : t.chans = s.chans
  port : t.port = s.port
  queue : t.rq = s.rq
  records : ∀ slot : Slot, t.su[slot] = s.su[slot]
  link : t.linkOut = s.linkOut
  clear : t.Clear
  idle : s.server = none → t.server = none
  serving : ∀ r, s.server = some r → (r.stage.early = true → t.server = none) ∧
    (r.stage.early = false → t.server = some { r.cutOff with
      stage := if r.stage = .slotClaim then .ending .ok [] else r.stage })
  waits : s.Waits E → t.Waits E

theorem ended_cutOff_records (s : State) (r : InService) (slot : Slot) :
    (s.ended r.cutOff .ok []).su[slot] = s.su[slot] := by
  have records : (s.ended r.cutOff .ok []).su = s.su.set r.request.slot (r.cutOff.leaves .ok s.su[r.request.slot]) :=
    congrArg Inside.su (s.ended_inside r.cutOff .ok [])
  have dropped : r.cutOff.disposition ≠ .send := (by decide : Disposition.discard ≠ .send)
  rw [records, leaves_uncredited (.inl dropped), get_set]
  split
  · rename_i h
    rw [← h]; rfl
  · rfl

theorem detachServer_detaches (E : Engine) (hc : s.Clear) : Detaches (E := E) s (detachServer s) := by
  cases hr : s.server with
  | none =>
    rw [detachServer_none hr]
    exact ⟨rfl, rfl, rfl, fun _ => rfl, rfl, hc, fun _ => hr, fun r e => absurd (hr.symm.trans e) nofun, fun h => h⟩
  | some r =>
    rw [detachServer_eq hr hc]
    split
    · rename_i early
      let v : State := { s with server := some r.cutOff }
      have inside := v.ended_inside r.cutOff .ok []
      have chans : (v.ended r.cutOff .ok []).chans = s.chans := congrArg Inside.chans inside
      have server : (v.ended r.cutOff .ok []).server = none := congrArg Inside.server inside
      have frame := removePins_frame r.pins { v with server := none }
      refine ⟨chans, ?_, congrArg Inside.rq inside, ended_cutOff_records v r, List.append_nil _,
        ended_clear hc r.cutOff .ok [],
        fun e => (nomatch hr.symm.trans e), fun r' e => ?_, fun h => ?_⟩
      · show (removePins r.pins { v with server := none }).port = s.port
        rw [frame]
      · cases hr.symm.trans e
        exact ⟨fun _ => server, fun late => (nomatch early.symm.trans late)⟩
      · have engine : (v.ended r.cutOff .ok []).engine = s.engine.detachedEnded :=
          congrArg Engine.detachedEnded (removePins_engine (s := { v with server := none }) h.no_retire r.pins)
        have lists : runningLists (v.ended r.cutOff .ok []) = runningLists s :=
          runningLists_congr fun c => by rw [chans]
        unfold State.Waits
        rw [engine, lists, server]
        exact Engine.Awaits.detachedEnded h
    · rename_i early
      refine ⟨rfl, rfl, rfl, fun _ => rfl, rfl, hc, fun e => (nomatch hr.symm.trans e), fun r' e => ?_, fun h => ?_⟩
      · cases hr.symm.trans e
        exact ⟨fun e => absurd e early, fun _ => rfl⟩
      · unfold State.Waits at h
        rw [hr] at h
        exact h

/-! ### The whole reset -/

/-- The state after the first part of a link reset: nobody has a descriptor open, and the queue and the counts are empty. -/
def State.unlinked (s : State) : State := { s with
  wt := mapTable Descriptor.clearOpeners s.wt
  rq := []
  su := mapTable (fun r => { r with outstanding := 0 }) s.su
  engine := (engineLinkBegin s).engine }

theorem linkReset_eq (s : State) : linkReset s =
    engineLinkCheck ([0, 1, 2, 3].foldl (fun t c => linkResetChannel c t) (detachServer s.unlinked)) := by
  have begins : engineLinkBegin s = { s with engine := (engineLinkBegin s).engine } := by
    unfold engineLinkBegin
    split <;> rfl
  have unlinked : (((engineLinkBegin s).setWt (mapTable Descriptor.clearOpeners (engineLinkBegin s).wt)).setRq []).setSu
      (mapTable (fun r => { r with outstanding := 0 }) (engineLinkBegin s).su) = s.unlinked := by
    rw [begins]; rfl
  unfold linkReset
  exact congrArg (fun u => engineLinkCheck ([0, 1, 2, 3].foldl (fun t c => linkResetChannel c t) (detachServer u))) unlinked

theorem State.unlinked_clear (s : State) : s.unlinked.Clear := by
  intro i
  show (mapTable Descriptor.clearOpeners s.wt)[i.val].Cleared
  rw [mapTable_get]
  exact Descriptor.clearOpeners_cleared _

theorem State.unlinked_engine {lists : Vector Bool 4} {d : Bool} (h : s.engine.state = .busy (.link lists d)) :
    s.unlinked.engine = { s.engine with state := .busy (.link (runningLists s) s.server.isSome) } := by
  show (engineLinkBegin s).engine = _
  unfold engineLinkBegin
  rw [h]
  rfl

theorem State.unlinked_waits {lists : Vector Bool 4} {d : Bool} (h : s.engine.state = .busy (.link lists d)) :
    s.unlinked.Waits s.engine := .inl (State.unlinked_engine h)

theorem State.unlinked_record (s : State) (slot : Slot) : s.unlinked.su[slot] = { s.su[slot] with outstanding := 0 } := by
  show (mapTable (fun r : Requester => { r with outstanding := 0 }) s.su)[slot.val] = _
  rw [mapTable_get]; rfl

theorem engineLinkCheck_engine (s : State) : engineLinkCheck s = { s with engine := (engineLinkCheck s).engine } := by
  unfold engineLinkCheck
  split
  · split <;> rfl
  · rfl

/-- What a link reset leaves. -/
structure LinkCut (s t : State) : Prop where
  each : ∀ c : Chan, ChannelReset s t c
  queue : t.rq = []
  records : ∀ slot : Slot, t.su[slot] = { s.su[slot] with outstanding := 0 }
  link : t.linkOut = s.linkOut
  clear : t.Clear
  idle : s.server = none → t.server = none
  serving : ∀ r, s.server = some r → (r.stage.early = true → t.server = none) ∧
    (r.stage.early = false → t.server = some { r.cutOff with
      stage := if r.stage = .slotClaim then .ending .ok [] else r.stage })
  engine : ∀ lists d, s.engine.state = .busy (.link lists d) →
    t.engine = s.engine.waitsFor (runningLists t) t.server.isSome

theorem linkReset_cut (s : State) : LinkCut s (linkReset s) := by
  have a := detachServer_detaches s.engine s.unlinked_clear
  have b := linkResetChannels_reset [0, 1, 2, 3] (detachServer s.unlinked) (by decide)
  rw [linkReset_eq]
  generalize detachServer s.unlinked = u at a b ⊢
  generalize [0, 1, 2, 3].foldl (fun t c => linkResetChannel c t) u = v at b ⊢
  have check := engineLinkCheck_engine v
  have all : ∀ c : Chan, c ∈ ([0, 1, 2, 3] : List Chan) := by decide
  have server : (engineLinkCheck v).server = u.server := (congrArg State.server check).trans b.server
  refine ⟨fun c => ?_, ?_, fun slot => ?_, ?_, fun i => ?_, fun h => ?_, fun r h => ?_, fun lists d h => ?_⟩
  · refine (b.each c (all c)).congr ?_ ?_ (by rw [check])
    · rw [a.chans]; rfl
    · rw [a.port]; rfl
  · rw [check]; exact b.queue.trans a.queue
  · rw [check]
    show v.su[slot] = _
    rw [b.records, a.records, s.unlinked_record]
  · rw [check]; exact b.link.trans a.link
  · rw [check]; exact b.clear a.clear i
  · rw [server]; exact a.idle h
  · rw [server]; exact a.serving r h
  · have waits := b.waits s.engine (a.waits (State.unlinked_waits h))
    rw [Engine.Awaits.checked waits]
    rfl

/-! ### A link reset with nothing to wait for -/

theorem linkResetChannels_empty : ∀ (l : List Chan) (s : State), (∀ c : Chan, s.chans[c].primary = none) →
    l.foldl (fun t c => linkResetChannel c t) s = { s with
      chans := Vector.ofFn fun c : Chan => if c ∈ l then { s.chans[c] with backup := none } else s.chans[c] }
  | [], s, _ => by
    have chans : (Vector.ofFn fun c : Chan => s.chans[c]) = s.chans := by ext k hk; simp
    simp only [List.foldl_nil, List.not_mem_nil, if_false, chans]
  | c :: l, s, h => by
    have one : linkResetChannel c s = { s with chans := s.chans.set c { s.chans[c] with backup := none } } := by
      rw [linkResetChannel_none (h c), State.unbacked, ← h c]
    have still (d : Chan) : (linkResetChannel c s).chans[d].primary = none := by
      rw [one, get_set]
      split
      · exact h c
      · exact h d
    rw [List.foldl_cons, linkResetChannels_empty l _ still, one]
    congr 1
    refine congrArg Vector.ofFn (funext fun d => ?_)
    rw [get_set]
    by_cases hd : c = d
    · subst hd
      simp
    · rw [if_neg hd]
      simp only [List.mem_cons, Ne.symm hd, false_or]

/-- The table, the queue, the counts and the backups after a link reset that finds no list and no request. -/
def State.relinked (s : State) : State := { s with
  wt := Vector.ofFn fun i => { s.wt[i] with
    openers := Vector.replicate 16 none, holder := none, expiry := none, expiredHolder := none }
  rq := []
  su := Vector.ofFn fun slot => { s.su[slot] with outstanding := 0 }
  chans := Vector.ofFn fun c => { s.chans[c] with backup := none } }

theorem State.relinked_primary (s : State) (c : Chan) : s.relinked.chans[c].primary = s.chans[c].primary := by
  show (Vector.ofFn fun c : Chan => { s.chans[c] with backup := none })[c.val].primary = _
  rw [Vector.getElem_ofFn]

theorem State.relinked_port (s : State) : s.relinked.port = s.port := by
  unfold State.relinked
  rfl

theorem linkReset_empty {lists : Vector Bool 4} {d : Bool} (he : s.engine.state = .busy (.link lists d))
    (hc : ∀ c : Chan, s.chans[c].primary = none) (hr : s.server = none) :
    linkReset s = { s.relinked with engine := s.engine.finished } := by
  have all : ∀ c : Chan, c ∈ ([0, 1, 2, 3] : List Chan) := by decide
  rw [linkReset_eq, detachServer_none (s := s.unlinked) hr, linkResetChannels_empty _ s.unlinked hc]
  simp only [all, if_true]
  have idle : ∀ c : Chan, (runningLists s)[c] = false := fun c => by rw [runningLists_get, hc]; rfl
  have done : s.engine.waitsFor (runningLists s) s.server.isSome = s.engine.finished := by
    rw [hr]
    exact (waitsFor_false s.engine _).trans (if_pos idle)
  have awaits : s.engine.Awaits s.unlinked.engine (runningLists s) s.server.isSome := .inl (State.unlinked_engine he)
  refine Eq.trans (Engine.Awaits.checked awaits) ?_
  rw [done]
  unfold State.unlinked State.relinked
  simp only [mapTable_eq_ofFn]
  rfl

end LinkReset

end Sys2Proof.Machine

/-! The resets of the link: the pin INIT and the command LINK_RESET (R166, R167, R175). -/

namespace Sys2Proof.Machine

section LinkResets

variable {s t : State} {c : Chan} {p : Primary} {m : Mark} {r : InService}

/-! ### What a cut link reads as -/

theorem LinkCut.idle_channel (h : LinkCut s t) (c : Chan) :
    t.chans[c].backup = none ∧ (s.chans[c].primary = none → t.chans[c].primary = none) := by
  obtain ⟨empty, running⟩ := h.each c
  refine ⟨?_, fun hp => by rw [empty hp]⟩
  cases hp : s.chans[c].primary with
  | none => rw [empty hp]
  | some p =>
    obtain ⟨m, hm⟩ : ∃ m, (p.mark <|> some (⟨.aborted, p.owner.getD 0⟩ : Mark)) = some m := by
      cases p.mark with
      | none => exact ⟨_, rfl⟩
      | some m => exact ⟨m, rfl⟩
    obtain ⟨granted, ends⟩ := running p m hp hm
    by_cases hg : ∃ b, s.port.granted = some (Claimant.ch c, b)
    · rw [granted hg]
    · rw [ends hg]

theorem LinkCut.marked_channel (h : LinkCut s t) (hp : s.chans[c].primary = some p)
    (hm : (p.mark <|> some ⟨.aborted, p.owner.getD 0⟩) = some m) :
    ((∃ b, s.port.granted = some (Claimant.ch c, b)) → t.chans[c].primary = some { p with mark := some m }) ∧
    ((¬ ∃ b, s.port.granted = some (Claimant.ch c, b)) →
      t.chans[c].primary = none ∧ t.chans[c].state = .idle ∧ t.chans[c].event = some .aborted ∧
      t.chans[c].outcome = ⟨true, p.owner.getD m.owner, p.handle.index, m.result, p.total, p.offset⟩) := by
  obtain ⟨granted, ends⟩ := (h.each c).2 p m hp hm
  exact ⟨fun hg => by rw [granted hg], fun hg => by rw [ends hg]; exact ⟨rfl, rfl, rfl, rfl⟩⟩

/-- With every list and the request in service at its end a LINK_RESET has completed. -/
theorem LinkCut.completes {lists : Vector Bool 4} {d : Bool} (h : LinkCut s t)
    (he : s.engine.state = .busy (.link lists d)) (hc : ∀ c : Chan, t.chans[c].primary = none) (hr : t.server = none) :
    t.engine = s.engine.finished := by
  rw [h.engine lists d he, hr]
  exact (waitsFor_false s.engine _).trans (if_pos fun c => by rw [runningLists_get, hc]; rfl)

/-- What a LINK_RESET waits for is what still runs. -/
theorem LinkCut.waits {lists : Vector Bool 4} {d : Bool} (h : LinkCut s t)
    (he : s.engine.state = .busy (.link lists d)) (hw : (∃ c : Chan, t.chans[c].primary ≠ none) ∨ t.server ≠ none) :
    t.engine = { s.engine with
      state := .busy (.link (Vector.ofFn fun c => t.chans[c].primary.isSome) t.server.isSome) } := by
  rw [h.engine lists d he, ← runningLists_eq_ofFn]
  rcases s.engine.waitsFor_cases (runningLists t) t.server.isSome with e | ⟨empty, detached, -⟩
  · exact e
  · exfalso
    rcases hw with ⟨c, hc⟩ | hr
    · have still : t.chans[c].primary.isSome = false := by
        rw [← runningLists_get, empty]
        simp
      exact hc (Option.not_isSome_iff_eq_none.mp (Bool.not_eq_true _ ▸ still))
    · exact hr (Option.not_isSome_iff_eq_none.mp (Bool.not_eq_true _ ▸ detached))

/-! ### The pin and the command -/

theorem exec_init_asserted (h : s.lines.init = true) : exec .init s = .next s := by
  show Host.Outcome.next (if s.lines.init = true then s else _) = _
  rw [if_pos h]

theorem exec_init_rises (hr : s.lines.reset = false) (h : s.lines.init = false) :
    exec .init s = .next (settle (linkReset { s with lines := { s.lines with init := true } })) := by
  show Host.Outcome.next (if s.lines.init = true then s else if s.lines.reset = true then _ else _) = _
  rw [if_neg (by rw [h]; exact Bool.false_ne_true), if_neg (by rw [hr]; exact Bool.false_ne_true)]
  rfl

/-- The state in which a LINK_RESET's claim resets the link. -/
abbrev State.resetting (s : State) : State := { s with engine := { s.engine with
  state := .busy (.link (Vector.replicate 4 false) false), command := 0x30, copies := s.engine.params } }

theorem exec_linkReset (h : EngineReady s) : exec .linkReset s = .next (settle (linkReset s.resetting)) := by
  show Host.Outcome.next (takeCommand 0x30 linkResetClaim s) = _
  rw [takeCommand_idle h]
  rfl

theorem Settled.without_lists (hs : Settled s) (hc : ∀ c : Chan, t.chans[c].primary = none) (hp : t.port = s.port) :
    Settled t := by
  have idle (c : Chan) : isReady t c = false := by
    unfold isReady
    rw [hc c]
    rfl
  obtain ⟨-, port⟩ := hs
  rw [← hp] at port
  exact ⟨readyChannel_eq_none.mpr idle, port⟩

theorem settle_setEngine (hs : Settled s) (e : Engine) : settle { s with engine := e } = { s with engine := e } :=
  settle_of_same hs rfl rfl

theorem exec_linkReset_empty (h : EngineReady s) (hs : Settled s) (hc : ∀ c : Chan, s.chans[c].primary = none)
    (hr : s.server = none) : exec .linkReset s = .next { s.engineAnswers 0x30 .ok Results.zero with
      wt := Vector.ofFn fun i => { s.wt[i] with
        openers := Vector.replicate 16 none, holder := none, expiry := none, expiredHolder := none }
      rq := []
      su := Vector.ofFn fun slot => { s.su[slot] with outstanding := 0 }
      chans := Vector.ofFn fun c => { s.chans[c] with backup := none } } := by
  have relinked : Settled s.relinked := hs.without_lists (fun c => (s.relinked_primary c).trans (hc c)) s.relinked_port
  rw [exec_linkReset h, linkReset_empty (s := s.resetting) rfl hc hr]
  exact congrArg Host.Outcome.next (settle_setEngine relinked _)

end LinkResets

/-- Settles O40: what a link reset cuts, part by part, and what a LINK_RESET is then left to wait for. -/
theorem linkResetsEmptyTheLinkAndTheTable : Obligations.LinkResetsEmptyTheLinkAndTheTable := by
  unfold Obligations.LinkResetsEmptyTheLinkAndTheTable
  refine ⟨fun s hr => ⟨exec_init_asserted, fun hi => ⟨exec_init_rises hr hi, ?_⟩⟩,
    fun s h hs => ⟨exec_linkReset h, exec_linkReset_empty h hs⟩, fun s => ?_⟩
  · have cut := linkReset_cut { s with lines := { s.lines with init := true } }
    have outside := linkReset_outside { s with lines := { s.lines with init := true } }
    generalize linkReset { s with lines := { s.lines with init := true } } = t at cut outside ⊢
    exact ⟨cut.queue, cut.records, cut.clear, congrArg Outside.lines outside, cut.link, congrArg Outside.pm outside,
      congrArg Outside.mem outside, congrArg Outside.ecc outside⟩
  · have cut := linkReset_cut s
    exact ⟨cut.idle_channel, fun c p m hp hm => cut.marked_channel hp hm, cut.idle, cut.serving,
      fun lists detached he => ⟨cut.completes he, cut.waits he⟩⟩

end Sys2Proof.Machine
